-- ==== Sys2Proof/Word.lean ====
section
/-! DEFINITION. The words of the SCCE: wire bytes, port words, frames, and the names of the three served chips. -/

namespace Sys2Proof

/-- One wire byte and one register value: 8 bits (`W_BYTE`, rule R8). -/
abbrev Byte := BitVec 8

/-- One word of the command port, 32 bits (rule R102). -/
abbrev Word := BitVec 32

/-- A frame: one byte sequence built for one transfer, first byte first (rules R10 and R17). -/
abbrev Frame := List Byte

/-- The chip selector `c`, which is also the calibration module `m` (rules R17, R20 and R28). -/
inductive Chip where
  | adc
  | dac
  | tc
  deriving DecidableEq, Repr

/-- The chips that convert: the ADC and the TC. The DAC has no conversion state (rules R29 and R188) and no
`RW` frames, so the operations of rule R105 that list `ADC, TC` take one of these. -/
inductive ConvChip where
  | adc
  | tc
  deriving DecidableEq, Repr

/-- A converting chip as a chip. -/
def ConvChip.toChip : ConvChip → Chip
  | .adc => .adc
  | .tc => .tc

/-- The states of the conversion-mode state machine (rule R29). -/
inductive Mode where
  | idle
  | configuring
  | converting
  deriving DecidableEq, Repr

end Sys2Proof
end

