-- ==== Sys2Proof/Config.lean ====
section
/-! DEFINITION. What an implementation fixes (the chip profile `P(c)` of rule R8, the calibration table's type) and the
free values of the model, which have no body. -/

namespace Sys2Proof.Config

/-- The identity of the spec that this model carries (rule R1). -/
def identity : String := "SCCE/edgepi-python-sdk#sub001/doc-v7"

/-- One row of a chip's field table `FIELDS` (rule R24): the field id, its logical register `REG`, its bit range
`HI:LO` inside that register's byte, its legal values and its default. -/
structure FieldSpec where
  id : Byte
  reg : Byte
  hi : Nat
  lo : Nat
  legal : List Byte
  dflt : Byte
  deriving DecidableEq, Repr

/-- One byte of a TC start, stop or read frame (rule R8, rows `START_FRAME`, `STOP_FRAME`, `READ_FRAME`, which are
OPEN): a constant, or the packed byte of a logical register masked with `keep` and then with the bits of `put` set.
DESIGN CHOICE (log entry 6): a profile describes these frames as such templates. -/
inductive FrameByte where
  | const (b : Byte)
  | packed (reg keep put : Byte)
  deriving DecidableEq, Repr

/-- The chip profile `P(c)` (rule R8): the constants that differ between chips and that the source leaves to a
table. The per-unit command tables hold the constant of unit `n` at position `n - 1`. -/
structure ChipProfile where
  /-- `OP_RREG`, the read-register opcode byte. -/
  opRreg : Byte
  /-- `OP_WREG`, the write-register opcode byte. -/
  opWreg : Byte
  /-- `OPMASK`, the opcode bits of byte 0 of an `RW` frame (rule R100). -/
  opMask : Byte
  /-- `VALID_RD`, the addresses legal in a read. -/
  validRd : List Byte
  /-- `VALID_WR`, the addresses legal in a write. -/
  validWr : List Byte
  /-- `WADDR`, the write address of a logical register; the register itself where the list is silent (rule R61). -/
  waddr : List (Byte × Byte)
  /-- `RADDR`, the read address of a logical register; the register itself where the list is silent (rule R61). -/
  raddr : List (Byte × Byte)
  /-- `NUNITS`, the number of conversion units. -/
  nunits : Nat
  /-- `OP_NOP`. -/
  opNop : Option Byte
  /-- `OP_RESET`. -/
  opReset : Option Byte
  /-- `OP_START(n)`. -/
  opStart : List Byte
  /-- `OP_STOP(n)`. -/
  opStop : List Byte
  /-- `OP_RDATA(n)`. -/
  opRdata : List Byte
  /-- `OP_SELFCAL(n)`. -/
  opSelfcal : List Byte
  /-- `START_FRAME(n)` of the TC; the ADC's is its start command. -/
  startFrame : List (List FrameByte)
  /-- `STOP_FRAME(n)` of the TC; the ADC's is its stop command. -/
  stopFrame : List (List FrameByte)
  /-- `READ_FRAME(n)` of the TC; the ADC's is its read-data frame. -/
  readFrame : List (List FrameByte)
  /-- `VREF`, the reference voltage, a `VFMT` word. -/
  vref : Word
  /-- `GAIN_VALUE`, the gain setting of a value of the gain field. -/
  gainValue : List (Byte × Nat)
  /-- `NPAIR`, the number of differential pairs. -/
  npair : Nat
  /-- `CJ_BITS`, the width of the TC's cold-junction code. -/
  cjBits : Nat
  /-- `CJ_LSB_EXP`: one count of the cold-junction code is 2 to the minus this. OPEN, and the spec states no range for it
  (rule R8, N6): any integer, so that a count may weigh more than one degree. DESIGN CHOICE: log entry 26. -/
  cjLsbExp : Int
  /-- `LT_LSB_EXP`: one count of the linearized code is 2 to the minus this. OPEN without a range, like `CJ_LSB_EXP`: any
  integer. DESIGN CHOICE: log entry 26. -/
  ltLsbExp : Int
  /-- `FIELDS`, the mirror's field table. -/
  fields : List FieldSpec
  /-- `REQUIRED`, the fields that must have been set before a start, in ascending order. -/
  required : List Byte
  /-- `RESERVED(r)`, the constant bits of register `r`; zero where the list is silent. -/
  reserved : List (Byte × Byte)
  /-- `RTD_RESERVED`, the channel ids that RTD mode reserves. -/
  rtdReserved : List Byte
  /-- `RTD_ON`, the value of field rtd_mode that means RTD excitation is on. -/
  rtdOn : Byte
  /-- `PULSE`, the value of field conv_mode that means pulse mode. -/
  pulse : Byte
  /-- `CONTINUOUS`, the value of field conv_mode that means continuous mode. -/
  continuous : Byte
  deriving DecidableEq, Repr

/-- The three profiles `P(ADC)`, `P(DAC)`, `P(TC)`. -/
structure Profiles where
  adc : ChipProfile
  dac : ChipProfile
  tc : ChipProfile
  deriving DecidableEq, Repr

/-- The profile of one chip. -/
def Profiles.of (p : Profiles) : Chip → ChipProfile
  | .adc => p.adc
  | .dac => p.dac
  | .tc => p.tc

/-- A calibration entry `(gain, offset)`: two `VFMT` words (rule R31). -/
structure CalPair where
  gain : Word
  offset : Word
  deriving DecidableEq, Repr

/-- The calibration table `Cal[m][ch]`: for each module one cell per channel id from 0, a pair or `none` (rule R31).
It is also what the persistent store delivers at reset (rule R312). -/
structure CalTable where
  adc : List (Option CalPair)
  dac : List (Option CalPair)
  tc : List (Option CalPair)
  deriving DecidableEq, Repr

/-- FREE VALUE (log entry 3). What the bus transport answers to the `n`-th transfer when the state lists no answer for
it: `some r` for `ok(r)`, `none` for `fail`. Rule R15: "The SCCE does not define what `r` holds; a model treats `r` as
an oracle answer (any bytes)". No body: nothing can be proved of its value. -/
opaque freeReply : Nat → Option (List (BitVec 8))

/-- FREE VALUE (log entry 4). Whether the trace sink was ready for the copy of the `n`-th emitted frame (rule R296: "if
the sink is not ready the copy is dropped"). No body. -/
opaque traceTaken : Nat → Bool

/-- FREE VALUE (log entry 18). Which pair the `n`-th conversion that races a `CAL_SET` of its entry reads: whether its gain
is the new one, and whether its offset is. The four answers are the outcomes of rule R76: the old pair, the new pair, and
the two mixtures. No body. -/
opaque raceChoice : Nat → Bool × Bool

end Sys2Proof.Config
end

