-- ==== Sys2Proof/Machine/Instance.lean ====
section
/-! DEFINITION. The state of one SCCE instance (rule R20) as plain data, its reset value (rule R38) and the load of the
calibration table (rule R312). -/

namespace Sys2Proof.Machine
open Sys2Proof.Config

/-- What every instance holds: the mirror `x[c]` (rule R21), `SetMask[c]` (rule R25) and `Stale[c]` (rule R27). The
mirror and the mask have one entry per field of the profile, in the profile's order. -/
structure CfgInstance where
  mirror : List (Byte × Byte)
  setMask : List (Byte × Bool)
  stale : Bool
  deriving DecidableEq, Repr

/-- What the ADC and TC instances hold besides: `Mode[c]` (rule R29) and `PulseDone[c]` (rule R26). -/
structure ConvState where
  mode : Mode
  pulseDone : Bool
  deriving DecidableEq, Repr

/-- The configuration state after reset and after `MIRROR_RESET`: every field at its default, no field set, not stale
(rules R38 and R184). -/
def resetCfg (p : ChipProfile) : CfgInstance :=
  { mirror := p.fields.map fun f => (f.id, f.dflt)
    setMask := p.fields.map fun f => (f.id, false)
    stale := false }

/-- The conversion state after reset and after `MIRROR_RESET` (rules R38 and R184). -/
def resetConv : ConvState := { mode := .idle, pulseDone := false }

/-- How many channel ids a module has (rules R28, R31 and R210). -/
def channelCount (p : Profiles) : Chip → Nat
  | .adc => 8 + p.adc.npair
  | .dac => 8
  | .tc => 1

/-- One module's part of the load: what the store holds for each valid channel id, `none` where it holds nothing
(rule R312). -/
def loadCells (count : Nat) (store : List (Option CalPair)) : List (Option CalPair) :=
  (List.range count).map fun ch => (store[ch]?).join

/-- The calibration load at reset (rule R312). -/
def loadCal (p : Profiles) (store : CalTable) : CalTable :=
  { adc := loadCells (channelCount p .adc) store.adc
    dac := loadCells (channelCount p .dac) store.dac
    tc := loadCells (channelCount p .tc) store.tc }

end Sys2Proof.Machine
end

