-- ==== Sys2Proof/Machine/Reference.lean ====
section
/-! DEFINITION. The reference profile `REF` (rule R8) with the field tables `FIX.ADC` and `FIX.TC` (rule R24). Every
number here is the spec's illustration (tagged gk or fixture there), not a claim about a chip: log entry 1. -/

namespace Sys2Proof.Machine
open Sys2Proof.Config

/-- The bytes `lo`, `lo+1`, …, `count` of them. -/
def byteRun (lo count : Nat) : List Byte := (List.range' lo count).map (BitVec.ofNat 8)

/-- Fixture `FIX.ADC` (rule R24). -/
def fixAdc : List FieldSpec :=
  [ { id := 0, reg := 0x03, hi := 6, lo := 6, legal := [0, 1], dflt := 0 },
    { id := 6, reg := 0x04, hi := 7, lo := 5, legal := byteRun 0 5, dflt := 4 },
    { id := 4, reg := 0x05, hi := 6, lo := 4, legal := byteRun 0 6, dflt := 0 },
    { id := 1, reg := 0x05, hi := 3, lo := 0, legal := byteRun 0 16, dflt := 4 },
    { id := 2, reg := 0x06, hi := 7, lo := 4, legal := byteRun 0 12, dflt := 0 },
    { id := 3, reg := 0x06, hi := 3, lo := 0, legal := byteRun 0 16, dflt := 1 },
    { id := 7, reg := 0x0D, hi := 0, lo := 0, legal := [0, 1], dflt := 0 } ]

/-- Fixture `FIX.TC` (rule R24). -/
def fixTc : List FieldSpec :=
  [ { id := 0, reg := 0x00, hi := 7, lo := 7, legal := [0, 1], dflt := 0 },
    { id := 5, reg := 0x01, hi := 6, lo := 4, legal := byteRun 0 5, dflt := 0 },
    { id := 1, reg := 0x00, hi := 0, lo := 0, legal := [0, 1], dflt := 0 },
    { id := 2, reg := 0x01, hi := 3, lo := 0, legal := byteRun 0 8, dflt := 3 } ]

/-- A profile with nothing in it: what the table of rule R8 calls none and not used. -/
def blankProfile : ChipProfile :=
  { opRreg := 0, opWreg := 0, opMask := 0, validRd := [], validWr := [], waddr := [], raddr := [], nunits := 0,
    opNop := none, opReset := none, opStart := [], opStop := [], opRdata := [], opSelfcal := [],
    startFrame := [], stopFrame := [], readFrame := [], vref := 0, gainValue := [], npair := 0,
    cjBits := 0, cjLsbExp := 0, ltLsbExp := 0, fields := [], required := [], reserved := [],
    rtdReserved := [], rtdOn := 0, pulse := 0, continuous := 0 }

/-- `REF.ADC` with `FIX.ADC` (rules R8 and R24). -/
def refAdc : ChipProfile :=
  { blankProfile with
    opRreg := 0x20, opWreg := 0x40, opMask := 0xE0
    validRd := byteRun 0 27, validWr := byteRun 0 27
    nunits := 2, opNop := some 0x00, opReset := some 0x06
    opStart := [0x08, 0x0C], opStop := [0x0A, 0x0E], opRdata := [0x12, 0x14], opSelfcal := [0x19, 0x1E]
    vref := 0x02800000
    gainValue := [(0, 1), (1, 2), (2, 4), (3, 8), (4, 16), (5, 32)]
    npair := 4, fields := fixAdc, required := [1, 2]
    rtdReserved := [10, 11], rtdOn := 1, pulse := 1, continuous := 0 }

/-- `REF.DAC` (rule R8): no fields, no addresses, `VREF` 5.0 V. -/
def refDac : ChipProfile := { blankProfile with vref := 0x05000000 }

/-- `REF.TC` with `FIX.TC` and the fixture frames (rules R8 and R24). -/
def refTc : ChipProfile :=
  { blankProfile with
    validRd := byteRun 0 16, validWr := byteRun 0x80 12
    waddr := (byteRun 0 12).map fun r => (r, r ||| 0x80)
    nunits := 1
    startFrame := [[.const 0x80, .packed 0x00 0xFF 0x40]]
    stopFrame := [[.const 0x80, .packed 0x00 0x7F 0x00]]
    readFrame := [[.const 0x0A, .const 0, .const 0, .const 0, .const 0, .const 0]]
    cjBits := 14, cjLsbExp := 6, ltLsbExp := 7, fields := fixTc, required := [1, 2]
    pulse := 0, continuous := 1 }

/-- The reference profile of the three chips. -/
def refProfiles : Profiles := { adc := refAdc, dac := refDac, tc := refTc }

end Sys2Proof.Machine
end

