-- ==== Sys2Proof/Syntax.lean ====
section
/-! DEFINITION. The instructions: one constructor per row of spec/opcode_table.json (30 operations of the command
port, rule R105; 2 reserved operation numbers, rule R106; 18 wire frames, rules R90 to R96), the controllers'
sequences, and what the outside does to the machine. -/

namespace Sys2Proof

/-- A pair-word's content: a field id and a 24-bit field value (rule R103). -/
structure Pair where
  field : Byte
  value : BitVec 24
  deriving DecidableEq, Repr

/-- A reg-word's content: a logical register index and a byte (rule R103). -/
structure RegByte where
  reg : Byte
  byte : Byte
  deriving DecidableEq, Repr

/-- One thing presented to the machine: a command word with its payload words (rule R102), or a wire frame that the
controller itself hands to the transport of one chip (rules R319 and R322). -/
inductive PortItem where
  | command (w : Word) (payload : List Word)
  | frame (c : Chip) (bytes : Frame)
  deriving DecidableEq, Repr

/-- A controller's sequence with its operands (rule R108). The unit id `u` of a sequence may be left out (rule R250). -/
inductive Sequence where
  /-- READ_VOLTAGE (rule R251). -/
  | readVoltage (ch : Byte) (u : Option (BitVec 9))
  /-- SINGLE_SAMPLE (rule R252). -/
  | singleSample (u : Option (BitVec 9))
  /-- READ_SAMPLES_BATCH (rule R253): data rate, single-ended ids, pair ids; no pairs is the empty list, the default. -/
  | readSamplesBatch (dr : BitVec 24) (channels pairs : List Byte) (u : Option (BitVec 9))
  /-- WRITE_VOLTAGE_CHANNEL (rule R254). -/
  | writeVoltageChannel (ch : Byte) (v : Word)
  /-- READ_TEMPERATURES (rule R255). -/
  | readTemperatures (u : Option (BitVec 9))
  /-- RESET_CHIP (rule R258). -/
  | resetChip (c : Chip)
  deriving DecidableEq, Repr

/-- One thing the outside does to the machine. DESIGN CHOICE: log entry 10. -/
inductive Event where
  /-- Presents something on the command port of the instance it names. -/
  | present (item : PortItem)
  /-- Presents a command to be evaluated while another operation runs, which rule R76 allows the conversions. -/
  | concurrent (w : Word) (payload : List Word)
  /-- Constructs the instance of a chip, which is its reset (rules R297 and R310); the store delivers these entries of its
  module, one per channel id from 0 (rule R312). -/
  | construct (c : Chip) (store : List (Option Config.CalPair))
  /-- A caller begins a sequence at the controller of its instance (rule R250). DESIGN CHOICE: log entry 22. -/
  | sequence (q : Sequence)
  /-- The controller of an instance goes on with its sequence: it issues the next operation (rules R250 and R256). -/
  | proceed (c : Chip)
  /-- The process ends, nothing of the SCCE's state surviving it (rule R298), and the three instances are constructed again
  (rule R319) from what the store delivers now. -/
  | restart (store : Config.CalTable)
  deriving DecidableEq, Repr

/-- The instructions, in the order of spec/opcode_table.json. -/
inductive Instr where
  /-- BUILD_READ (rule R130): chip, count, address. -/
  | buildRead (c : ConvChip) (n : BitVec 9) (a : Byte)
  /-- BUILD_WRITE (rule R131): chip, address, value-words. -/
  | buildWrite (c : ConvChip) (a : Byte) (values : List Word)
  /-- BUILD_START (rule R132): chip, unit id. -/
  | buildStart (c : ConvChip) (u : BitVec 9)
  /-- BUILD_STOP (rule R133): chip, unit id. -/
  | buildStop (c : ConvChip) (u : BitVec 9)
  /-- BUILD_RESET (rule R134): chip. -/
  | buildReset (c : ConvChip)
  /-- BUILD_NOP (rule R135): chip. -/
  | buildNop (c : ConvChip)
  /-- BUILD_SELFCAL (rule R136): chip, unit id. -/
  | buildSelfcal (c : ConvChip) (u : BitVec 9)
  /-- BUILD_RDATA (rule R138): chip, unit id. -/
  | buildRdata (c : ConvChip) (u : BitVec 9)
  /-- PARSE_READ (rule R137): chip, count, raw response. -/
  | parseRead (c : ConvChip) (n : BitVec 9) (raw : Frame)
  /-- DAC_FRAME (rule R139): opcode, channel, data. -/
  | dacFrame (op ch : Byte) (d : Word)
  /-- DAC_WRUPD (rule R140): channel, code. -/
  | dacWrupd (ch : Byte) (d : Word)
  /-- ADC_ASM (rule R141): three bytes in the order received. -/
  | adcAsm (b0 b1 b2 : Byte)
  /-- CFG_DIFF (rule R171): chip, request. -/
  | cfgDiff (c : Chip) (req : List Pair)
  /-- CFG_COMMIT (rule R172): chip, applied values. -/
  | cfgCommit (c : Chip) (req : List Pair)
  /-- SET_CONFIG (rule R177): chip, request. -/
  | setConfig (c : Chip) (req : List Pair)
  /-- START_CONV (rule R179): chip, unit id. -/
  | startConv (c : ConvChip) (u : BitVec 9)
  /-- STOP_CONV (rule R180): chip, unit id. -/
  | stopConv (c : ConvChip) (u : BitVec 9)
  /-- CONV_DONE (rule R181): chip. -/
  | convDone (c : ConvChip)
  /-- READ_CONT (rule R182): chip, unit id. -/
  | readCont (c : ConvChip) (u : BitVec 9)
  /-- READ_PULSE (rule R183): chip, unit id. -/
  | readPulse (c : ConvChip) (u : BitVec 9)
  /-- MIRROR_RESET (rule R184): chip. -/
  | mirrorReset (c : Chip)
  /-- CFG_LOAD (rule R185): chip, register bytes. -/
  | cfgLoad (c : Chip) (regs : List RegByte)
  /-- CFG_REASSERT (rule R186): chip. -/
  | cfgReassert (c : Chip)
  /-- CAL_GET (rule R211): module, channel id. -/
  | calGet (m : Chip) (ch : Byte)
  /-- CAL_SET (rule R212): module, channel id, gain, offset. -/
  | calSet (m : Chip) (ch : Byte) (gain offset : Word)
  /-- ADC_CODE2V (rule R214): gain setting, raw code word. -/
  | adcCode2v (g : BitVec 9) (raw : Word)
  /-- CAL_APPLY (rule R215): module, channel id, voltage. -/
  | calApply (m : Chip) (ch : Byte) (v : Word)
  /-- DAC_V2CODE (rule R218): channel id, voltage. -/
  | dacV2code (ch : Byte) (v : Word)
  /-- DAC_CODE2V (rule R219): channel id, code. -/
  | dacCode2v (ch : Byte) (code : Word)
  /-- TC_CODE2T (rule R221): the two cold-junction bytes, then the three linearized bytes. -/
  | tcCode2t (b0 b1 b2 b3 b4 : Byte)
  /-- RESERVED_OP00 (rule R106): any command with operation number 0x00. -/
  | reservedOp00 (rest : BitVec 27) (payload : List Word)
  /-- RESERVED_OP1F (rule R106): any command with operation number 0x1F. -/
  | reservedOp1f (rest : BitVec 27) (payload : List Word)
  /-- W_RREG (rule R91): a register-read frame of the ADC in its profile's opcode: address, dummy bytes. -/
  | wRreg (a : Byte) (dummies : Frame)
  /-- W_RREG_REF_ADC (rule R91): the same in the `REF.ADC` opcode with zero dummies: address, count byte. -/
  | wRregRefAdc (a : BitVec 5) (cnt : Byte)
  /-- W_WREG (rule R92): a register-write frame of the ADC in its profile's opcode: address, values. -/
  | wWreg (a : Byte) (values : Frame)
  /-- W_WREG_REF_ADC (rule R92): the same in the `REF.ADC` opcode: address, values. -/
  | wWregRefAdc (a : BitVec 5) (values : Frame)
  /-- W_TC_READ (rule R93): a register-read frame of the TC: read address, dummy bytes. -/
  | wTcRead (a : Byte) (dummies : Frame)
  /-- W_TC_WRITE (rule R93): a register-write frame of the TC: write address, values. -/
  | wTcWrite (a : Byte) (values : Frame)
  /-- W_START1 (rules R94 and R132): the ADC's start command of unit 1. -/
  | wStart1
  /-- W_START2 (rules R94 and R132): the ADC's start command of unit 2. -/
  | wStart2
  /-- W_STOP1 (rules R94 and R133): the ADC's stop command of unit 1. -/
  | wStop1
  /-- W_STOP2 (rules R94 and R133): the ADC's stop command of unit 2. -/
  | wStop2
  /-- W_RESET (rules R94 and R134): the ADC's reset command. -/
  | wReset
  /-- W_NOP (rules R94 and R135): the ADC's no-op command. -/
  | wNop
  /-- W_SELFCAL1 (rules R94 and R136): the ADC's self-calibration command of unit 1. -/
  | wSelfcal1
  /-- W_SELFCAL2 (rules R94 and R136): the ADC's self-calibration command of unit 2. -/
  | wSelfcal2
  /-- W_RDATA1 (rules R95 and R138): the ADC's read-data frame of unit 1. -/
  | wRdata1
  /-- W_RDATA2 (rules R95 and R138): the ADC's read-data frame of unit 2. -/
  | wRdata2
  /-- W_DAC_FRAME (rules R96 and R139): the DAC's 24-bit frame: opcode, channel, data. -/
  | wDacFrame (op ch : BitVec 4) (d : BitVec 16)
  /-- W_DAC_WRUPD (rules R96 and R140): the DAC's write-and-update frame: channel, code. -/
  | wDacWrupd (ch : BitVec 4) (d : BitVec 16)
  deriving DecidableEq, Repr

end Sys2Proof
end

