-- ==== Sys2Proof/Machine/State.lean ====
section
/-! DEFINITION. The machine's state as plain data, the reasons a step can stop, the SCCE's own fault names (rule R271)
and the reset state (rule R38). -/

namespace Sys2Proof.Machine
open Sys2Proof.Config

/-- Why the machine stops: never. The SCCE's own faults are answers on a result port (`FaultCode`), and a transfer that
never returns keeps its instance busy (rule R298); neither ends a run. -/
inductive Fault where
  deriving DecidableEq, Repr

/-- Why an instruction has no meaning here. -/
inductive Refusal where
  /-- The instruction of that mnemonic has no meaning in this model. No arm of exec uses it. Safe. -/
  | notModelled (mnemonic : String)
  deriving DecidableEq, Repr

/-- The SCCE's own faults, which are reported on the result port and do not stop it (rules R270 and R271). -/
inductive FaultCode where
  | invalidAddress
  | invalidCount
  | valueOutOfRange
  | nonIntegerValue
  | shortReadError
  | incompleteConfigError
  | continuousModeError
  | calibKeyMissingError
  | invalidDifferentialPairError
  | voltageOutOfRange
  | rtdEnabledError
  | illegalCommand
  | invalidUnit
  | invalidConfigValue
  | illegalTransition
  | calibGainZero
  | transportFault
  deriving DecidableEq, Repr

/-- A raised fault with its diagnostic value, the low 8 bits of it (rules R14 and R271). -/
structure Raised where
  fault : FaultCode
  info : Byte
  deriving DecidableEq, Repr

/-- What the result port carries after an operation: the status word and the result words (rule R104). -/
structure Answer where
  status : Word
  words : List Word
  deriving DecidableEq, Repr

/-- What the transport answers to one transfer: bytes, a failure (rule R15), or nothing ever (rule R298). -/
inductive Reply where
  | answered (r : Frame)
  | failed
  | never
  deriving DecidableEq, Repr

/-- What a running sequence does next, with what its last operation answered (43_sequences.md). -/
inductive SeqStep where
  /-- `SET_CONFIG` with a request. -/
  | configure (c : ConvChip) (req : List Pair)
  /-- `START_CONV`. -/
  | start (c : ConvChip)
  /-- `WAIT`, which the controller ends by issuing `CONV_DONE` (rule R250). -/
  | complete (c : ConvChip)
  /-- `READ_PULSE`. -/
  | readPulse (c : ConvChip)
  /-- `READ_CONT`. -/
  | readCont (c : ConvChip)
  /-- `ADC_ASM` of the code bytes. -/
  | assemble (bytes : Frame)
  /-- `ADC_CODE2V` at the mirror's gain. -/
  | toVolts (raw : Word)
  /-- `CAL_APPLY` of the entry in work. -/
  | calibrate (v : Word)
  /-- `TC_CODE2T` of the code bytes. -/
  | toTemperatures (bytes : Frame)
  /-- `DAC_V2CODE`. -/
  | toCode (ch : Byte) (v : Word)
  /-- `DAC_WRUPD`. -/
  | buildUpdate (ch : Byte) (code : Word)
  /-- `emit(s)` and `Transfer(DAC, s)` of rule R254. -/
  | sendUpdate (f : Frame)
  /-- `BUILD_RESET`. -/
  | buildReset
  /-- `emit(s)` and `Transfer(c, s)` of rule R258. -/
  | sendReset (f : Frame)
  /-- `MIRROR_RESET`. -/
  | resetMirror
  deriving DecidableEq, Repr

/-- A sequence in progress: its unit, its next step, the channels whose voltages are still to come (the one in work
first), and the voltages so far. -/
structure SeqRun where
  unit : BitVec 9
  next : SeqStep
  entries : List Byte
  out : List Word
  deriving DecidableEq, Repr

/-- What stands between an instance and the outside besides its frames: whether it is busy with a transfer that does not
return (rule R298), and its result port (rules R104 and R297), `none` while nothing was answered (rule R38); and, of its
controller, the sequence in progress and what the last one returned, which are the model's own (log entry 22). -/
structure InstanceIo where
  busy : Bool
  result : Option Answer
  running : Option SeqRun
  returned : Option Answer
  deriving DecidableEq, Repr

/-- After the construction of an instance: free, no result pending (rule R38), and no sequence begun. -/
def resetIo : InstanceIo := { busy := false, result := none, running := none, returned := none }

/-- The last operation was a `CAL_SET` of this entry, which held `before`: what a concurrent conversion may still read
(rule R76). -/
structure CalRace where
  module : Chip
  channel : Nat
  before : Option CalPair
  deriving DecidableEq, Repr

/-- The whole state. The `running` and `returned` of each instance, and the fields `profile`, `turn`, `port`, `replies`,
`transfers`, `tx`, `trace`, `calRace` and `races` are the model's: the controllers, a constant, whose operation runs, the two
inputs from the outside, a counter of the free values, the two output ports' histories, and the race of rule R76 with its
counter. -/
structure State where
  /-- The chip profiles (rule R8); no operation writes them (rule R33). -/
  profile : Profiles
  /-- The ADC instance's mirror, `SetMask` and `Stale`. -/
  adc : CfgInstance
  /-- The DAC instance's mirror, `SetMask` and `Stale`. -/
  dac : CfgInstance
  /-- The TC instance's mirror, `SetMask` and `Stale`. -/
  tc : CfgInstance
  /-- The ADC instance's `Mode` and `PulseDone`. -/
  adcConv : ConvState
  /-- The TC instance's `Mode` and `PulseDone`. -/
  tcConv : ConvState
  /-- The ADC instance's busy state and result port, and its controller's sequence. -/
  adcIo : InstanceIo
  /-- The DAC instance's busy state and result port, and its controller's sequence. -/
  dacIo : InstanceIo
  /-- The TC instance's busy state and result port, and its controller's sequence. -/
  tcIo : InstanceIo
  /-- The instance at work: whose operation runs, and on whose result port it answers (rule R297). -/
  turn : Chip
  /-- The calibration table `Cal` (rule R31). -/
  cal : CalTable
  /-- What the outside did and no instance has taken yet, in order of arrival: the three command ports (rules R28, R102 and
  R297). -/
  port : List Event
  /-- The transport's answers to the transfers to come, in order (rule R15). -/
  replies : List Reply
  /-- How many transfers were made: the free values are applied to it. -/
  transfers : Nat
  /-- The frames handed to the transmit port, in order, each with its chip (rules R14 and R104). -/
  tx : List (Chip × Frame)
  /-- The frames the trace sink took (rule R296). -/
  trace : List (Chip × Frame)
  /-- The entry that the operation run last replaced, if it was a `CAL_SET` (rule R76). -/
  calRace : Option CalRace
  /-- How many conversions raced a `CAL_SET`: the free value of the race is applied to it. -/
  races : Nat
  deriving DecidableEq, Repr

/-- The three instances right after construction, with given profiles and what the persistent store delivers (rules
R38, R311 and R312). -/
def State.resetWith (p : Profiles) (store : CalTable) : State :=
  { profile := p
    adc := resetCfg p.adc, dac := resetCfg p.dac, tc := resetCfg p.tc
    adcConv := resetConv, tcConv := resetConv
    adcIo := resetIo, dacIo := resetIo, tcIo := resetIo
    turn := .adc
    cal := loadCal p store
    port := [], replies := [], transfers := 0, tx := [], trace := []
    calRace := none, races := 0 }

/-- The machine right after reset, with the reference profile and an empty persistent store. DESIGN CHOICE (log entries
1 and 2): the profile and the store's contents are inputs the spec leaves open. -/
def State.reset : State := State.resetWith refProfiles { adc := [], dac := [], tc := [] }

end Sys2Proof.Machine
end

