-- ==== Sys2Proof/Machine/Operands.lean ====
section
/-! DEFINITION. How operands are read and results formed: sign extension, the fixed-point formats and their one rounding
(rules R11 and R12), the payload and result words (rule R103), look-ups in the profile's tables, and the register bank
that the mirror and its flags are kept in. -/

namespace Sys2Proof.Machine
open Sys2Proof.Config

/-! ### Numbers -/

/-- `sext_N(v)`: the low `n` bits of `v` as a two's-complement number (rule R11). -/
def sext (n v : Nat) : Int := (BitVec.ofNat n v).toInt

/-- `rnd(x)`: the nearest integer, ties going away from zero (rule R12). -/
def rnd (x : ℚ) : Int := if 0 ≤ x then (x + 1 / 2).floor else -((-x + 1 / 2).floor)

/-- The value of a 32-bit fixed-point word with `f` fraction bits (rule R12). -/
def fixedValue (f : Nat) (w : Word) : ℚ := (w.toInt : ℚ) / 2 ^ f

/-- `fits` for a 32-bit format with `f` fraction bits (rule R12). -/
def fits (f : Nat) (x : ℚ) : Bool := decide (-(2 ^ 31 : ℚ) ≤ x * 2 ^ f ∧ x * 2 ^ f ≤ 2 ^ 31 - 1)

/-- The word of `quant_f(x)`: one rounding at the output port (rule R12). -/
def quantWord (f : Nat) (x : ℚ) : Word := BitVec.ofInt 32 (rnd (x * 2 ^ f))

/-- Fraction bits of `VFMT`, Q8.24 (rule R8). -/
def vfmt : Nat := 24

/-- Fraction bits of `TFMT`, Q16.16 (rule R8). -/
def tfmt : Nat := 16

/-- The value of a volt-word (rule R103). -/
def volts (w : Word) : ℚ := fixedValue vfmt w

/-! ### Constants the spec fixes for every profile (rule R8) -/

/-- `DUMMY`. -/
def dummy : Byte := 0x00

/-- `COUNT_MAX`. -/
def countMax : Nat := 256

/-- `HAS_COUNT`: the ADC's frames carry the count byte, the TC's do not. -/
def hasCount : ConvChip → Bool
  | .adc => true
  | .tc => false

/-- `LEAD`: the leading response bytes a parse strips, the header's length (rule R97). -/
def lead : ConvChip → Nat
  | .adc => 2
  | .tc => 1

/-- `READ_LEAD`: the leading response bytes of a read frame's response. -/
def readLead : ConvChip → Nat
  | .adc => 1
  | .tc => 1

/-- `READ_LEN`: the code bytes kept of it: the ADC's three, the TC's two and three. -/
def readLen : ConvChip → Nat
  | .adc => 3
  | .tc => 5

/-- `CODE_BYTES` of a converting chip: the dummy bytes of a read-data frame (rule R95). -/
def codeBytes : ConvChip → Nat
  | .adc => 3
  | .tc => 5

/-- `OP_WRUPD`, the DAC's write-and-update opcode. -/
def opWrupd : Byte := 3

/-- Field ids (rule R24). -/
def fConvMode : Byte := 0
/-- Field id of active_channel (rule R24). -/
def fActiveChannel : Byte := 2
/-- Field id of data_rate (rule R24). -/
def fDataRate : Byte := 1
/-- Field id of gain (rule R24). -/
def fGain : Byte := 4
/-- Field id of rtd_mode (rule R24). -/
def fRtdMode : Byte := 7

/-- The instance whose command port takes a command, by its chip selector (rules R28, R102 and R297). The reserved selector
3 names none: the ADC's port takes it and answers it. DESIGN CHOICE: log entry 25. -/
def chipNamed (k : BitVec 2) : Chip :=
  if k = 1 then .dac else if k = 2 then .tc else .adc

/-! ### Profile look-ups -/

/-- Whether an address, an unbounded integer, is in a valid set (rules R61 and R130). -/
def validAddr (valid : List Byte) (a : Nat) : Bool := valid.any fun b => b.toNat == a

/-- A per-unit table entry: defined for units 1 to `NUNITS` that the table holds (rules R132 and R284). -/
def unitEntry {α : Type} (nunits : Nat) (table : List α) (u : Nat) : Option α :=
  if 1 ≤ u ∧ u ≤ nunits then table[u - 1]? else none

/-- A register in an address table, itself where the table is silent (rule R61). -/
def addrOf (table : List (Byte × Byte)) (r : Byte) : Byte := (table.lookup r).getD r

/-- `WADDR(c, r)` (rule R61). -/
def waddrOf (p : ChipProfile) (r : Byte) : Byte := addrOf p.waddr r

/-- `RADDR(c, r)` (rule R61). -/
def raddrOf (p : ChipProfile) (r : Byte) : Byte := addrOf p.raddr r

/-- `RESERVED(c, r)` (rule R8). -/
def reservedOf (p : ChipProfile) (r : Byte) : Byte := (p.reserved.lookup r).getD 0

/-- The row of a field id in `FIELDS`. -/
def fieldSpec (p : ChipProfile) (f : Byte) : Option FieldSpec := p.fields.find? fun s => s.id == f

/-- The legal value that a request's 24-bit value equals, if it is in the field's legal set. -/
def legalValue (s : FieldSpec) (v : BitVec 24) : Option Byte := s.legal.find? fun b => b.toNat == v.toNat

/-- The members of a list of bytes in ascending order, each once. -/
def ascending (bs : List Byte) : List Byte := (byteRun 0 256).filter fun b => bs.contains b

/-- `REGS(c)` in ascending order (rules R8 and R176). -/
def fieldRegs (p : ChipProfile) : List Byte := ascending (p.fields.map fun f => f.reg)

/-- The gain settings a chip has: the image of `GAIN_VALUE` on the legal gains (rule R214). -/
def gainSettings (p : ChipProfile) : List Nat :=
  match fieldSpec p fGain with
  | some s => s.legal.filterMap fun g => p.gainValue.lookup g
  | none => []

/-- `GAIN_VALUE(g)` of the gain the mirror holds; 0, which no chip has, where the profile defines none. -/
def gainOf (p : ChipProfile) (g : Option Byte) : Nat := ((g.bind fun b => p.gainValue.lookup b)).getD 0

/-! ### Words of the port (rules R103 and R104) -/

/-- A byte-word. -/
def byteWord (b : Byte) : Word := b.setWidth 32

/-- A byte list: its length, then one byte-word each. -/
def byteListWords (bs : List Byte) : List Word := BitVec.ofNat 32 bs.length :: bs.map byteWord

/-- A pair-word: the field id in bits 31:24 and the value in bits 23:0. -/
def pairWord (f : Byte) (v : BitVec 24) : Word := f ++ v

/-- The pair-words of field values. -/
def fieldWords (vs : List (Byte × Byte)) : List Word := vs.map fun e => pairWord e.1 (e.2.setWidth 24)

/-- A reg-word: the register index in bits 15:8 and the byte in bits 7:0. -/
def regWord (r : RegByte) : Word := ((r.reg ++ r.byte : BitVec 16)).setWidth 32

/-- Whether a value-word (`VALFMT` Q24.8) carries an integer: its low 8 bits are zero (rule R131). -/
def valueIsInteger (w : Word) : Bool := w.setWidth 8 == (0 : Byte)

/-- The integer an integer-valued value-word carries. -/
def valueInteger (w : Word) : Int := w.toInt / 256

/-! ### The register bank -/

/-- The value of a key of a bank. -/
def bankGet {α : Type} (b : List (Byte × α)) (k : Byte) : Option α := b.lookup k

/-- A bank with the entry of a key replaced; a key the bank does not have changes nothing. -/
def bankSet {α : Type} (b : List (Byte × α)) (k : Byte) (v : α) : List (Byte × α) :=
  b.map fun e => if e.1 = k then (k, v) else e

/-- A bank with several entries replaced, in order. -/
def bankSetAll {α : Type} (b : List (Byte × α)) (vs : List (Byte × α)) : List (Byte × α) :=
  vs.foldl (fun acc e => bankSet acc e.1 e.2) b

end Sys2Proof.Machine
end

