-- ==== Sys2Proof/Machine/Flags.lean ====
section
/-! DEFINITION. Every flag and status the spec gives: the fault codes and the status word (rules R104 and R271), the
class ProtocolEncodingError (rule R289), `Mode`'s encoding (rule R29), and the flags `SetMask`, `PulseDone` and `Stale`.
The SCCE has no condition flags (rule R223). -/

namespace Sys2Proof.Machine
open Sys2Proof.Config

/-- The fault's code (rule R271). -/
def faultCode : FaultCode → Byte
  | .invalidAddress => 0x01
  | .invalidCount => 0x02
  | .valueOutOfRange => 0x03
  | .nonIntegerValue => 0x04
  | .shortReadError => 0x05
  | .incompleteConfigError => 0x06
  | .continuousModeError => 0x07
  | .calibKeyMissingError => 0x08
  | .invalidDifferentialPairError => 0x09
  | .voltageOutOfRange => 0x0A
  | .rtdEnabledError => 0x0B
  | .illegalCommand => 0x10
  | .invalidUnit => 0x11
  | .invalidConfigValue => 0x12
  | .illegalTransition => 0x13
  | .calibGainZero => 0x14
  | .transportFault => 0x20

/-- Whether a fault is in the class ProtocolEncodingError (rules R144 and R289). -/
def isProtocolEncodingError : FaultCode → Bool
  | .invalidAddress => true
  | .invalidCount => true
  | .valueOutOfRange => true
  | .nonIntegerValue => true
  | .invalidUnit => true
  | _ => false

/-- A fault with its diagnostic value's low 8 bits (rule R271). -/
def raised (f : FaultCode) (info : Nat) : Raised := { fault := f, info := BitVec.ofNat 8 info }

/-- The status word: result count in bits 31:16, info in bits 15:8, code in bits 7:0 (rule R104). -/
def statusWord (code info : Byte) (count : Nat) : Word := BitVec.ofNat 16 count ++ info ++ code

/-- The encoding of `Mode` (rule R29). -/
def modeCode : Mode → Nat
  | .idle => 0
  | .configuring => 1
  | .converting => 2

/-- Sets `SetMask[c][f]` for each of the fields (rule R25). -/
def markSet (mask : List (Byte × Bool)) (fs : List Byte) : List (Byte × Bool) :=
  bankSetAll mask (fs.map fun f => (f, true))

/-- Whether `SetMask[c][f]` is 1. -/
def isSet (mask : List (Byte × Bool)) (f : Byte) : Bool := bankGet mask f == some true

end Sys2Proof.Machine
end

