-- ==== Sys2Proof/Machine/Frames.lean ====
section
/-! DEFINITION. The frames: what the pure builders build and the parser returns (rules R91 to R98, R130 to R141), and the
frames the state machine emits (rule R8). Each is a total function to a frame or a raised fault (rule R142). -/

namespace Sys2Proof.Machine
open Sys2Proof.Config

/-! ### Register frames -/

/-- Byte 0, then the count byte where the chip has one (rules R91 to R93). -/
def header (c : ConvChip) (byte0 : Byte) (n : Nat) : Frame :=
  if hasCount c then [byte0, BitVec.ofNat 8 (n - 1)] else [byte0]

/-- The checks both register builders make on a run, in their order: the start address, the count, the later addresses
(rules R69, R130 and R131). -/
def checkRun (valid : List Byte) (a : Byte) (n : Nat) : Except Raised Unit :=
  if validAddr valid a.toNat = false then .error (raised .invalidAddress a.toNat)
  else if n < 1 ∨ countMax < n then .error (raised .invalidCount n)
  else match (List.range' (a.toNat + 1) (n - 1)).find? (fun x => !validAddr valid x) with
    | some x => .error (raised .invalidAddress x)
    | none => .ok ()

/-- BUILD_READ's frame (rule R130). -/
def readFrame (p : ChipProfile) (c : ConvChip) (a : Byte) (n : Nat) : Except Raised Frame :=
  match checkRun p.validRd a n with
  | .error e => .error e
  | .ok _ => .ok (header c (p.opRreg ||| a) n ++ List.replicate n dummy)

/-- BUILD_WRITE's frame for values already known to be bytes (rules R92 and R131). -/
def writeFrame (p : ChipProfile) (c : ConvChip) (a : Byte) (bytes : Frame) : Except Raised Frame :=
  match checkRun p.validWr a bytes.length with
  | .error e => .error e
  | .ok _ => .ok (header c (p.opWreg ||| a) bytes.length ++ bytes)

/-- The bytes of a value list: per value in list order, integrality before range; `i` is the index of the first
(rule R131). -/
def valueBytes (i : Nat) : List Word → Except Raised Frame
  | [] => .ok []
  | v :: rest =>
    if valueIsInteger v = false then .error (raised .nonIntegerValue i)
    else if valueInteger v < 0 ∨ 255 < valueInteger v then .error (raised .valueOutOfRange i)
    else match valueBytes (i + 1) rest with
      | .error e => .error e
      | .ok bs => .ok (BitVec.ofInt 8 (valueInteger v) :: bs)

/-- BUILD_WRITE's frame: the run is checked before the values (rule R131). -/
def writeFrameOf (p : ChipProfile) (c : ConvChip) (a : Byte) (values : List Word) : Except Raised Frame :=
  match checkRun p.validWr a values.length with
  | .error e => .error e
  | .ok _ => match valueBytes 0 values with
    | .error e => .error e
    | .ok bytes => .ok (header c (p.opWreg ||| a) values.length ++ bytes)

/-- PARSE_READ's result: the lead bytes stripped and exactly `n` values kept (rule R137). -/
def parseRead (c : ConvChip) (raw : Frame) (n : Nat) : Except Raised Frame :=
  if n < 1 ∨ countMax < n then .error (raised .invalidCount n)
  else if raw.length < lead c + n then .error (raised .shortReadError raw.length)
  else .ok ((raw.drop (lead c)).take n)

/-! ### Single-byte commands (rules R94 and R95) -/

/-- A command the profile has once, or `InvalidUnit(0)` (rules R134 and R135). -/
def commandFrame (op : Option Byte) : Except Raised Frame :=
  match op with
  | some b => .ok [b]
  | none => .error (raised .invalidUnit 0)

/-- A per-unit command followed by `extra` dummy bytes, or `InvalidUnit(u)` (rules R132, R133, R136 and R138). -/
def unitFrame (p : ChipProfile) (table : List Byte) (u extra : Nat) : Except Raised Frame :=
  match unitEntry p.nunits table u with
  | some b => .ok (b :: List.replicate extra dummy)
  | none => .error (raised .invalidUnit u)

/-! ### DAC frames (rule R96) -/

/-- The three bytes of a 24-bit frame word, most significant first. -/
def frameBytes24 (w : BitVec 24) : Frame := [w.extractLsb' 16 8, w.extractLsb' 8 8, w.extractLsb' 0 8]

/-- The frame word `(op << 20) | (ch << 16) | data` (rule R96). -/
def dacWord (op ch : Byte) (d : Word) : BitVec 24 :=
  (op.setWidth 24 <<< 20) ||| (ch.setWidth 24 <<< 16) ||| d.setWidth 24

/-- DAC_FRAME's frame (rule R139). -/
def dacFrame (op ch : Byte) (d : Word) : Except Raised Frame :=
  if 7 < ch.toNat then .error (raised .invalidAddress ch.toNat)
  else if 15 < op.toNat then .error (raised .valueOutOfRange 0)
  else if 65535 < d.toNat then .error (raised .valueOutOfRange 1)
  else .ok (frameBytes24 (dacWord op ch d))

/-! ### Code assembly -/

/-- A 24-bit code from its bytes, most significant first (rules R64, R65 and R141). -/
def code24 (b0 b1 b2 : Byte) : BitVec 24 := b0 ++ b1 ++ b2

/-- ADC_ASM's integer-word: the code sign-extended to 32 bits (rule R141). -/
def asmWord (b0 b1 b2 : Byte) : Word := (code24 b0 b1 b2).signExtend 32

/-! ### Wire frames as the opcode table writes them -/

/-- An `RW` frame: byte 0, the count byte, the bytes after it (rules R91 and R92). -/
def rwFrame (byte0 : Byte) (bytes : Frame) : Frame := byte0 :: BitVec.ofNat 8 (bytes.length - 1) :: bytes

/-- Byte 0 of the rows `001aaaaa` and `010aaaaa`: the `REF.ADC` opcode bits and a 5-bit address. -/
def refByte0 (op : BitVec 3) (a : BitVec 5) : Byte := op ++ a

/-- The dummy bytes of a read frame with a given count byte (rule R91). -/
def dummiesFor (cnt : Byte) : Frame := List.replicate (cnt.toNat + 1) dummy

/-- A DAC frame from its three fields (rule R96). -/
def dacFields (op ch : BitVec 4) (d : BitVec 16) : Frame := frameBytes24 (op ++ ch ++ d)

/-! ### Registers as packed fields (rule R176) -/

/-- Bits `hi` down to `lo` of a byte (rule R10). -/
def byteBits (b : Byte) (hi lo : Nat) : Byte := BitVec.ofNat 8 (b.toNat / 2 ^ lo % 2 ^ (hi + 1 - lo))

/-- The fields of a logical register, in the profile's order. -/
def fieldsOf (p : ChipProfile) (r : Byte) : List FieldSpec := p.fields.filter fun f => f.reg == r

/-- `pack(c, r, vals)` (rule R176). -/
def pack (p : ChipProfile) (r : Byte) (vals : List (Byte × Byte)) : Byte :=
  (fieldsOf p r).foldl (fun acc f => acc ||| ((bankGet vals f.id).getD 0 <<< f.lo)) (reservedOf p r)

/-- `unpack(c, r, b)` (rule R176). -/
def unpack (p : ChipProfile) (r b : Byte) : List (Byte × Byte) :=
  (fieldsOf p r).map fun f => (f.id, byteBits b f.hi f.lo)

/-! ### The frames of the state machine (rule R8, rows START_FRAME, STOP_FRAME, READ_FRAME) -/

/-- One byte of a TC frame over a mirror. -/
def frameByte (p : ChipProfile) (mirror : List (Byte × Byte)) : FrameByte → Byte
  | .const b => b
  | .packed r keep put => (pack p r mirror &&& keep) ||| put

/-- A TC frame of a unit, or `InvalidUnit(u)` (rule R179). -/
def templateFrame (p : ChipProfile) (mirror : List (Byte × Byte)) (table : List (List FrameByte)) (u : Nat) :
    Except Raised Frame :=
  match unitEntry p.nunits table u with
  | some t => .ok (t.map (frameByte p mirror))
  | none => .error (raised .invalidUnit u)

/-- `START_FRAME(c)(u)`: for the ADC its start command (rule R179). -/
def startFrame (p : ChipProfile) (mirror : List (Byte × Byte)) (c : ConvChip) (u : Nat) : Except Raised Frame :=
  match c with
  | .adc => unitFrame p p.opStart u 0
  | .tc => templateFrame p mirror p.startFrame u

/-- `STOP_FRAME(c)(u)`: for the ADC its stop command (rule R180). -/
def stopFrame (p : ChipProfile) (mirror : List (Byte × Byte)) (c : ConvChip) (u : Nat) : Except Raised Frame :=
  match c with
  | .adc => unitFrame p p.opStop u 0
  | .tc => templateFrame p mirror p.stopFrame u

/-- `READ_FRAME(c)(u)`: for the ADC its read-data frame (rule R182). -/
def readDataFrame (p : ChipProfile) (mirror : List (Byte × Byte)) (c : ConvChip) (u : Nat) : Except Raised Frame :=
  match c with
  | .adc => unitFrame p p.opRdata u (codeBytes .adc)
  | .tc => templateFrame p mirror p.readFrame u

end Sys2Proof.Machine
end

