-- ==== Sys2Proof/Machine/ProfileRules.lean ====
section
/-! DEFINITION. When a profile is well formed: the conditions of rule R9, with what rule R8 fixes for a chip, and with what
later rules presuppose of a profile (DEDUCED, log entry 8). "A model should take well-formedness as a premise of every
claim." -/

namespace Sys2Proof.Machine
open Sys2Proof.Config

/-- The single-byte command constants a profile defines (rule R94). -/
def commandBytes (p : ChipProfile) : List Byte :=
  p.opReset.toList ++ p.opNop.toList ++ p.opStart ++ p.opStop ++ p.opRdata ++ p.opSelfcal

/-- Rule R9 for the ADC's frames: byte 0 decodes uniquely into opcode and address, and no command constant is byte 0 of
a register frame. The read and write maps are one (rule R8). -/
def adcFramesOk (p : ChipProfile) : Bool :=
  p.validRd.all (fun a => (p.opRreg &&& a) == 0 && (p.opWreg &&& a) == 0) &&
  p.opRreg != p.opWreg && p.validWr == p.validRd && p.waddr.isEmpty && p.raddr.isEmpty &&
  (commandBytes p).all fun b => p.validRd.all fun a => b != (p.opRreg ||| a) && b != (p.opWreg ||| a)

/-- Rules R8 and R9 for the TC's frames: no opcode part, disjoint maps, no single-byte commands. -/
def tcFramesOk (p : ChipProfile) : Bool :=
  p.opRreg == 0 && p.opWreg == 0 && p.validRd.all (fun a => !p.validWr.contains a) && (commandBytes p).isEmpty

/-- Rule R8 for the DAC: no register map and no single-byte commands. -/
def dacFramesOk (p : ChipProfile) : Bool :=
  p.validRd.isEmpty && p.validWr.isEmpty && (commandBytes p).isEmpty

/-- One field: inside one 8-bit register, its legal values of its width, its default legal, its register writable and
readable (rules R9, R21 and R177). -/
def fieldOk (p : ChipProfile) (f : FieldSpec) : Bool :=
  decide (f.lo ≤ f.hi) && decide (f.hi ≤ 7) && f.legal.contains f.dflt &&
  f.legal.all (fun b => decide (b.toNat < 2 ^ (f.hi + 1 - f.lo))) &&
  p.validWr.contains (waddrOf p f.reg) && p.validRd.contains (raddrOf p f.reg) &&
  byteBits (reservedOf p f.reg) f.hi f.lo == 0

/-- Two fields of one register do not overlap (rule R9). -/
def apart (f g : FieldSpec) : Bool := f.reg != g.reg || decide (f.hi < g.lo) || decide (g.hi < f.lo)

/-- The field table: ids distinct, each field in order, no two overlapping (rules R9 and R24). -/
def fieldsOk (p : ChipProfile) : Bool :=
  decide (p.fields.map (·.id)).Nodup && p.fields.all (fieldOk p) &&
  decide (p.fields.Pairwise fun f g => apart f g = true)

/-- The state machine's constants of a converting chip: the required fields and conv_mode are fields, and its two
values are legal and differ (rules R8 and R24). -/
def modesOk (p : ChipProfile) : Bool :=
  p.required.all (fun f => (fieldSpec p f).isSome) && p.pulse != p.continuous &&
  match fieldSpec p fConvMode with
  | some s => s.legal.contains p.pulse && s.legal.contains p.continuous
  | none => false

/-- A profile set is well formed (rules R8 and R9). -/
def profilesOk (p : Profiles) : Bool :=
  adcFramesOk p.adc && tcFramesOk p.tc && dacFramesOk p.dac &&
  fieldsOk p.adc && fieldsOk p.dac && fieldsOk p.tc && modesOk p.adc && modesOk p.tc &&
  decide (0 < p.adc.vref.toInt) && decide (0 < p.dac.vref.toInt) &&
  decide (1 ≤ p.tc.cjBits) && decide (p.tc.cjBits ≤ 16) && (gainSettings p.adc).all (fun g => decide (1 ≤ g))

/-- What the decode of rule R100 presupposes of the ADC's opcode mask: it takes the opcodes and leaves the addresses, no
command constant looks like a register frame, and no two commands share a constant. -/
def decodeOk (p : ChipProfile) : Bool :=
  (p.opRreg &&& p.opMask) == p.opRreg && (p.opWreg &&& p.opMask) == p.opWreg && p.opRreg != p.opWreg &&
  (commandBytes p).all (fun b => (b &&& p.opMask) != p.opRreg && (b &&& p.opMask) != p.opWreg) &&
  decide (commandBytes p).Nodup

end Sys2Proof.Machine
end

