-- ==== Sys2Proof/WellFormed.lean ====
section
/-! DEFINITION. Which instructions are well formed: what the encodings can carry (rules R102, R103 and R91 to R96). Operands
of fixed width are checked by their types; lists and wire frames are checked here, the latter against the profile. -/

namespace Sys2Proof
open Sys2Proof.Config Sys2Proof.Machine

/-- The list fits the command word's field `n`, bits 24:16 (rule R102). -/
def fitsCount (len : Nat) : Bool := decide (len < 512)

/-- A register frame moves 1 to `COUNT_MAX` registers (rule R70). -/
def fitsRun (len : Nat) : Bool := decide (1 ≤ len ∧ len ≤ countMax)

/-- Whether the profile's read frames are those of the row `001aaaaa` (rule R91, `REF.ADC`). -/
def refRead (p : Profiles) : Bool := p.adc.opRreg == 0x20 && p.adc.opMask == 0xE0

/-- Whether the profile's write frames are those of the row `010aaaaa` (rule R92, `REF.ADC`). -/
def refWrite (p : Profiles) : Bool := p.adc.opWreg == 0x40 && p.adc.opMask == 0xE0

/-- The address fields of the two `REF.ADC` rows: register address 0x00 to 0x1A. -/
def refAddr (a : Nat) : Bool := decide (a ≤ 0x1A)

/-- Whether every dummy byte is `DUMMY`, as the row `001aaaaa cccccccc (00000000)*` writes it. -/
def allDummy (f : Frame) : Bool := f.all fun b => b == dummy

/-- Whether an instruction is well formed under a profile. -/
def Instr.wellFormed (p : Profiles) : Instr → Bool
  | .buildRead _ _ _ => true
  | .buildWrite _ _ values => fitsCount values.length
  | .buildStart _ _ => true
  | .buildStop _ _ => true
  | .buildReset _ => true
  | .buildNop _ => true
  | .buildSelfcal _ _ => true
  | .buildRdata _ _ => true
  | .parseRead _ _ raw => decide (raw.length < 2 ^ 32)
  | .dacFrame _ _ _ => true
  | .dacWrupd _ _ => true
  | .adcAsm _ _ _ => true
  | .cfgDiff _ req => fitsCount req.length
  | .cfgCommit _ req => fitsCount req.length
  | .setConfig _ req => fitsCount req.length
  | .startConv _ _ => true
  | .stopConv _ _ => true
  | .convDone _ => true
  | .readCont _ _ => true
  | .readPulse _ _ => true
  | .mirrorReset _ => true
  | .cfgLoad _ regs => fitsCount regs.length
  | .cfgReassert _ => true
  | .calGet _ _ => true
  | .calSet _ _ _ _ => true
  | .adcCode2v _ _ => true
  | .calApply _ _ _ => true
  | .dacV2code _ _ => true
  | .dacCode2v _ _ => true
  | .tcCode2t _ _ _ _ _ => true
  | .reservedOp00 _ _ => true
  | .reservedOp1f _ _ => true
  | .wRreg a dummies =>
    fitsRun dummies.length && (a &&& p.adc.opMask) == 0 && !(refRead p && refAddr a.toNat && allDummy dummies)
  | .wRregRefAdc a _ => refRead p && refAddr a.toNat
  | .wWreg a values => fitsRun values.length && (a &&& p.adc.opMask) == 0 && !(refWrite p && refAddr a.toNat)
  | .wWregRefAdc a values => fitsRun values.length && refWrite p && refAddr a.toNat
  | .wTcRead a dummies => fitsRun dummies.length && p.tc.validRd.contains a
  | .wTcWrite a values => fitsRun values.length && p.tc.validWr.contains a
  | .wStart1 => (unitEntry p.adc.nunits p.adc.opStart 1).isSome
  | .wStart2 => (unitEntry p.adc.nunits p.adc.opStart 2).isSome
  | .wStop1 => (unitEntry p.adc.nunits p.adc.opStop 1).isSome
  | .wStop2 => (unitEntry p.adc.nunits p.adc.opStop 2).isSome
  | .wReset => p.adc.opReset.isSome
  | .wNop => p.adc.opNop.isSome
  | .wSelfcal1 => (unitEntry p.adc.nunits p.adc.opSelfcal 1).isSome
  | .wSelfcal2 => (unitEntry p.adc.nunits p.adc.opSelfcal 2).isSome
  | .wRdata1 => (unitEntry p.adc.nunits p.adc.opRdata 1).isSome
  | .wRdata2 => (unitEntry p.adc.nunits p.adc.opRdata 2).isSome
  | .wDacFrame op _ _ => op != 3
  | .wDacWrupd _ _ => true

end Sys2Proof
end

