-- ==== Sys2Proof/Decode.lean ====
section
/-! DEFINITION. The decoder of what is presented (commands: rules R102 to R106; hand-sent frames: rules R99 and R100), total
and rejecting by name; then the encoder; then the table's numbering of an instruction's bits. -/

namespace Sys2Proof
open Sys2Proof.Config Sys2Proof.Machine

/-- The four commands that a profile has once per conversion unit (rules R94 and R95). -/
inductive UnitCommand where
  | start
  | stop
  | rdata
  | selfcal
  deriving DecidableEq, Repr

/-- Why something presented is no row of the opcode table. The first six are malformed commands (rule R106). -/
inductive DecodeError where
  /-- `chip = 3` is reserved. -/
  | reservedChip
  /-- A chip value not listed for the operation. -/
  | chipNotListed
  /-- A field that the table says is 0 is not. -/
  | nonzeroField
  /-- A payload whose length does not match the table. -/
  | payloadLength
  /-- A byte-word with a bit above bit 7. -/
  | byteWordHigh
  /-- A reg-word with a bit above bit 15. -/
  | regWordHigh
  /-- A frame whose byte 0 no build rule produces (rule R100). -/
  | unknownFrame
  /-- A command of a conversion unit above 2: rule R100 decodes it to that command, and the opcode table, which is written
  for a chip of two units, has no row for it (log entry 14). -/
  | furtherUnit (k : UnitCommand) (u : Nat)
  /-- A frame of a length, or with dummy bytes, that its row does not have (rule R99). -/
  | badFrame
  deriving DecidableEq, Repr

/-! ### Command words (rule R102) -/

/-- Field `op`, bits 31:27. -/
def opField (w : Word) : BitVec 5 := w.extractLsb' 27 5
/-- Field `chip`, bits 26:25. -/
def chipField (w : Word) : BitVec 2 := w.extractLsb' 25 2
/-- Field `n`, bits 24:16. -/
def nField (w : Word) : BitVec 9 := w.extractLsb' 16 9
/-- Field `a`, bits 15:8. -/
def aField (w : Word) : Byte := w.extractLsb' 8 8
/-- Field `aux`, bits 7:0. -/
def auxField (w : Word) : Byte := w.extractLsb' 0 8
/-- Everything below the operation number, bits 26:0. -/
def restField (w : Word) : BitVec 27 := w.extractLsb' 0 27

/-- A command word from its fields (rule R102). -/
def commandWord (op : BitVec 5) (chip : BitVec 2) (n : BitVec 9) (a aux : Byte) : Word := op ++ chip ++ n ++ a ++ aux

/-- The chip selector's encoding (rule R102). -/
def chipCode : Chip → BitVec 2
  | .adc => 0
  | .dac => 1
  | .tc => 2

/-- The chip a selector names; 3 is reserved (rule R106). -/
def anyChip (w : Word) : Except DecodeError Chip :=
  if chipField w = 0 then .ok .adc
  else if chipField w = 1 then .ok .dac
  else if chipField w = 2 then .ok .tc
  else .error .reservedChip

/-- The converting chip a selector names (rule R105, chip column `ADC, TC`). -/
def convChip (w : Word) : Except DecodeError ConvChip :=
  match anyChip w with
  | .ok .adc => .ok .adc
  | .ok .tc => .ok .tc
  | .ok .dac => .error .chipNotListed
  | .error e => .error e

/-- One certain chip (rule R105, chip column of one chip). -/
def onlyChip (c : Chip) (w : Word) : Except DecodeError Unit :=
  match anyChip w with
  | .ok k => if k = c then .ok () else .error .chipNotListed
  | .error e => .error e

/-- The condition that the table's zero fields are zero. -/
def zeroFields (ok : Bool) : Except DecodeError Unit := if ok then .ok () else .error .nonzeroField

/-- The byte of a byte-word (rule R103). -/
def wordByte (w : Word) : Except DecodeError Byte :=
  if w.extractLsb' 8 24 = 0 then .ok (w.setWidth 8) else .error .byteWordHigh

/-- The bytes of byte-words. -/
def wordBytes : List Word → Except DecodeError Frame
  | [] => .ok []
  | w :: rest => do
    let b ← wordByte w
    let bs ← wordBytes rest
    pure (b :: bs)

/-- The content of a pair-word (rule R103). -/
def wordPair (w : Word) : Pair := { field := w.extractLsb' 24 8, value := w.extractLsb' 0 24 }

/-- The content of a reg-word (rule R103). -/
def wordReg (w : Word) : Except DecodeError RegByte :=
  if w.extractLsb' 16 16 = 0 then .ok { reg := w.extractLsb' 8 8, byte := w.extractLsb' 0 8 }
  else .error .regWordHigh

/-- The contents of reg-words. -/
def wordRegs : List Word → Except DecodeError (List RegByte)
  | [] => .ok []
  | w :: rest => do
    let r ← wordReg w
    let rs ← wordRegs rest
    pure (r :: rs)

/-- No payload. -/
def payload0 (ws : List Word) : Except DecodeError Unit :=
  match ws with
  | [] => .ok ()
  | _ => .error .payloadLength

/-- A payload of one word. -/
def payload1 (ws : List Word) : Except DecodeError Word :=
  match ws with
  | [w] => .ok w
  | _ => .error .payloadLength

/-- A payload of two words. -/
def payload2 (ws : List Word) : Except DecodeError (Word × Word) :=
  match ws with
  | [v, w] => .ok (v, w)
  | _ => .error .payloadLength

/-- A payload of `n` words. -/
def payloadN (n : Nat) (ws : List Word) : Except DecodeError (List Word) :=
  if ws.length = n then .ok ws else .error .payloadLength

/-- A byte list: its length, then one byte-word each (rule R103). -/
def payloadBytes (ws : List Word) : Except DecodeError Frame :=
  match ws with
  | [] => .error .payloadLength
  | l :: rest => if rest.length = l.toNat then wordBytes rest else .error .payloadLength

/-- An operation on a converting chip with a unit id and nothing else. -/
def decodeUnit (mk : ConvChip → BitVec 9 → Instr) (w : Word) (ws : List Word) : Except DecodeError Instr := do
  let c ← convChip w
  zeroFields (aField w == 0 && auxField w == 0)
  payload0 ws
  pure (mk c (nField w))

/-- An operation on a converting chip with no operand. -/
def decodeConv (mk : ConvChip → Instr) (w : Word) (ws : List Word) : Except DecodeError Instr := do
  let c ← convChip w
  zeroFields (nField w == 0 && aField w == 0 && auxField w == 0)
  payload0 ws
  pure (mk c)

/-- An operation on any chip with no operand. -/
def decodeAny (mk : Chip → Instr) (w : Word) (ws : List Word) : Except DecodeError Instr := do
  let c ← anyChip w
  zeroFields (nField w == 0 && aField w == 0 && auxField w == 0)
  payload0 ws
  pure (mk c)

/-- An operation on any chip with `n` pair-words. -/
def decodePairs (mk : Chip → List Pair → Instr) (w : Word) (ws : List Word) : Except DecodeError Instr := do
  let c ← anyChip w
  zeroFields (aField w == 0 && auxField w == 0)
  let vs ← payloadN (nField w).toNat ws
  pure (mk c (vs.map wordPair))

/-- An operation on one chip with a channel id and one word. -/
def decodeChannel (c : Chip) (mk : Byte → Word → Instr) (w : Word) (ws : List Word) : Except DecodeError Instr := do
  onlyChip c w
  zeroFields (nField w == 0 && auxField w == 0)
  let v ← payload1 ws
  pure (mk (aField w) v)

/-- A command word with its payload (rules R105 and R106). -/
def decodeCommand (w : Word) (ws : List Word) : Except DecodeError Instr :=
  match (opField w).toNat with
  | 0x00 => .ok (.reservedOp00 (restField w) ws)
  | 0x01 => do
    let c ← convChip w
    zeroFields (auxField w == 0)
    payload0 ws
    pure (.buildRead c (nField w) (aField w))
  | 0x02 => do
    let c ← convChip w
    zeroFields (auxField w == 0)
    let vs ← payloadN (nField w).toNat ws
    pure (.buildWrite c (aField w) vs)
  | 0x03 => decodeUnit .buildStart w ws
  | 0x04 => decodeUnit .buildStop w ws
  | 0x05 => decodeConv .buildReset w ws
  | 0x06 => decodeConv .buildNop w ws
  | 0x07 => decodeUnit .buildSelfcal w ws
  | 0x08 => decodeUnit .buildRdata w ws
  | 0x09 => do
    let c ← convChip w
    zeroFields (aField w == 0 && auxField w == 0)
    let bs ← payloadBytes ws
    pure (.parseRead c (nField w) bs)
  | 0x0A => do
    onlyChip .dac w
    zeroFields (nField w == 0)
    let d ← payload1 ws
    pure (.dacFrame (auxField w) (aField w) d)
  | 0x0B => decodeChannel .dac .dacWrupd w ws
  | 0x0C => do
    onlyChip .adc w
    zeroFields (nField w == 0 && aField w == 0 && auxField w == 0)
    let bs ← wordBytes ws
    match bs with
    | [b0, b1, b2] => pure (.adcAsm b0 b1 b2)
    | _ => .error .payloadLength
  | 0x0D => decodePairs .cfgDiff w ws
  | 0x0E => decodePairs .cfgCommit w ws
  | 0x0F => decodePairs .setConfig w ws
  | 0x10 => decodeUnit .startConv w ws
  | 0x11 => decodeUnit .stopConv w ws
  | 0x12 => decodeConv .convDone w ws
  | 0x13 => decodeUnit .readCont w ws
  | 0x14 => decodeUnit .readPulse w ws
  | 0x15 => decodeAny .mirrorReset w ws
  | 0x16 => do
    let c ← anyChip w
    zeroFields (aField w == 0 && auxField w == 0)
    let vs ← payloadN (nField w).toNat ws
    let rs ← wordRegs vs
    pure (.cfgLoad c rs)
  | 0x17 => decodeAny .cfgReassert w ws
  | 0x18 => do
    let m ← anyChip w
    zeroFields (nField w == 0 && auxField w == 0)
    payload0 ws
    pure (.calGet m (aField w))
  | 0x19 => do
    let m ← anyChip w
    zeroFields (nField w == 0 && auxField w == 0)
    let (g, o) ← payload2 ws
    pure (.calSet m (aField w) g o)
  | 0x1A => do
    onlyChip .adc w
    zeroFields (aField w == 0 && auxField w == 0)
    let raw ← payload1 ws
    pure (.adcCode2v (nField w) raw)
  | 0x1B => do
    let m ← anyChip w
    zeroFields (nField w == 0 && auxField w == 0)
    let v ← payload1 ws
    pure (.calApply m (aField w) v)
  | 0x1C => decodeChannel .dac .dacV2code w ws
  | 0x1D => decodeChannel .dac .dacCode2v w ws
  | 0x1E => do
    onlyChip .tc w
    zeroFields (nField w == 0 && aField w == 0 && auxField w == 0)
    let bs ← wordBytes ws
    match bs with
    | [b0, b1, b2, b3, b4] => pure (.tcCode2t b0 b1 b2 b3 b4)
    | _ => .error .payloadLength
  -- the one number left of the 5 bits is 0x1F
  | _ => .ok (.reservedOp1f (restField w) ws)

/-! ### Hand-sent frames (rules R99 and R100) -/

/-- The ADC's command frames: the profile's constant, the dummy bytes after it, the row. -/
def commandRows (p : ChipProfile) : List (Option Byte × Nat × Instr) :=
  [ (p.opReset, 0, .wReset), (p.opNop, 0, .wNop),
    (unitEntry p.nunits p.opStart 1, 0, .wStart1), (unitEntry p.nunits p.opStart 2, 0, .wStart2),
    (unitEntry p.nunits p.opStop 1, 0, .wStop1), (unitEntry p.nunits p.opStop 2, 0, .wStop2),
    (unitEntry p.nunits p.opRdata 1, codeBytes .adc, .wRdata1),
    (unitEntry p.nunits p.opRdata 2, codeBytes .adc, .wRdata2),
    (unitEntry p.nunits p.opSelfcal 1, 0, .wSelfcal1), (unitEntry p.nunits p.opSelfcal 2, 0, .wSelfcal2) ]

/-- The constants of one per-unit command for the units from 3 to `NUNITS`, each with its unit. -/
def furtherConstants (p : ChipProfile) (table : List Byte) : List (Byte × Nat) :=
  ((table.take p.nunits).zipIdx 1).drop 2

/-- The ADC's command frames of the units above 2: the constant, the dummy bytes after it, the command and the unit. -/
def furtherRows (p : ChipProfile) : List (Byte × Nat × UnitCommand × Nat) :=
  (furtherConstants p p.opStart).map (fun e => (e.1, 0, .start, e.2)) ++
  (furtherConstants p p.opStop).map (fun e => (e.1, 0, .stop, e.2)) ++
  (furtherConstants p p.opRdata).map (fun e => (e.1, codeBytes .adc, .rdata, e.2)) ++
  (furtherConstants p p.opSelfcal).map (fun e => (e.1, 0, .selfcal, e.2))

/-- A command frame of the ADC: "else if `b0` equals a `C1` constant, that command; else unknown" (rule R100). -/
def decodeAdcCommand (p : ChipProfile) (b0 : Byte) (rest : Frame) : Except DecodeError Instr :=
  match (commandRows p).find? (fun r => r.1 == some b0) with
  | some (_, extra, i) => if rest = List.replicate extra dummy then .ok i else .error .badFrame
  | none => match (furtherRows p).find? (fun r => r.1 == b0) with
    | some (_, extra, k, u) =>
      if rest = List.replicate extra dummy then .error (.furtherUnit k u) else .error .badFrame
    | none => .error .unknownFrame

/-- The bytes after the count byte of an `RW` frame, if the count is theirs (rule R99). -/
def countedBytes (rest : Frame) : Except DecodeError Frame :=
  match rest with
  | [] => .error .badFrame
  | cnt :: bytes => if bytes.length = cnt.toNat + 1 then .ok bytes else .error .badFrame

/-- A frame of the ADC (rule R100). A frame that fits a `REF.ADC` row of the table, in a profile with that row's opcode,
is that row's instruction; any other register frame is the symbolic row's. -/
def decodeAdcFrame (p : Profiles) (b0 : Byte) (rest : Frame) : Except DecodeError Instr :=
  let a := b0 &&& ~~~p.adc.opMask
  if b0 &&& p.adc.opMask = p.adc.opRreg then
    match countedBytes rest with
    | .error e => .error e
    | .ok bytes =>
      if refRead p && refAddr a.toNat && allDummy bytes then
        .ok (.wRregRefAdc (a.setWidth 5) (BitVec.ofNat 8 (bytes.length - 1)))
      else .ok (.wRreg a bytes)
  else if b0 &&& p.adc.opMask = p.adc.opWreg then
    match countedBytes rest with
    | .error e => .error e
    | .ok bytes =>
      if refWrite p && refAddr a.toNat then .ok (.wWregRefAdc (a.setWidth 5) bytes) else .ok (.wWreg a bytes)
  else decodeAdcCommand p.adc b0 rest

/-- A frame of the TC (rule R100): its length is the transport's matter (rule R99). -/
def decodeTcFrame (p : ChipProfile) (b0 : Byte) (rest : Frame) : Except DecodeError Instr :=
  if p.validRd.contains b0 then (if fitsRun rest.length then .ok (.wTcRead b0 rest) else .error .badFrame)
  else if p.validWr.contains b0 then (if fitsRun rest.length then .ok (.wTcWrite b0 rest) else .error .badFrame)
  else .error .unknownFrame

/-- A frame of the DAC (rules R96 and R100). -/
def decodeDacFrame (b0 : Byte) (rest : Frame) : Except DecodeError Instr :=
  match rest with
  | [b1, b2] =>
    let op : BitVec 4 := b0.extractLsb' 4 4
    let ch : BitVec 4 := b0.extractLsb' 0 4
    if op = 3 then .ok (.wDacWrupd ch (b1 ++ b2)) else .ok (.wDacFrame op ch (b1 ++ b2))
  | _ => .error .badFrame

/-- A frame handed to a chip's transport. -/
def decodeFrame (p : Profiles) (c : Chip) (f : Frame) : Except DecodeError Instr :=
  match f with
  | [] => .error .badFrame
  | b0 :: rest =>
    match c with
    | .adc => decodeAdcFrame p b0 rest
    | .dac => decodeDacFrame b0 rest
    | .tc => decodeTcFrame p.tc b0 rest

/-- What is presented, as an instruction, or why it is none. -/
def decodeItem (p : Profiles) (item : PortItem) : Except DecodeError Instr :=
  match item with
  | .command w ws => decodeCommand w ws
  | .frame c f => decodeFrame p c f

/-! ### The encoder -/

/-- A command on a chip with its fields (rule R102). -/
def encodeCommand (op : BitVec 5) (c : Chip) (n : BitVec 9) (a aux : Byte) (ws : List Word) : PortItem :=
  .command (commandWord op (chipCode c) n a aux) ws

/-- The pair-words of a request. -/
def pairWords (req : List Pair) : List Word := req.map fun q => pairWord q.field q.value

/-- A frame the profile may lack; nothing is sent where it does. -/
def frameOr (f : Except Raised Frame) : Frame :=
  match f with
  | .ok b => b
  | .error _ => []

/-- How an instruction is presented (rules R91 to R96 and R102 to R105). -/
def encode (p : Profiles) : Instr → PortItem
  | .buildRead c n a => encodeCommand 0x01 c.toChip n a 0 []
  | .buildWrite c a vs => encodeCommand 0x02 c.toChip (BitVec.ofNat 9 vs.length) a 0 vs
  | .buildStart c u => encodeCommand 0x03 c.toChip u 0 0 []
  | .buildStop c u => encodeCommand 0x04 c.toChip u 0 0 []
  | .buildReset c => encodeCommand 0x05 c.toChip 0 0 0 []
  | .buildNop c => encodeCommand 0x06 c.toChip 0 0 0 []
  | .buildSelfcal c u => encodeCommand 0x07 c.toChip u 0 0 []
  | .buildRdata c u => encodeCommand 0x08 c.toChip u 0 0 []
  | .parseRead c n raw => encodeCommand 0x09 c.toChip n 0 0 (byteListWords raw)
  | .dacFrame op ch d => encodeCommand 0x0A .dac 0 ch op [d]
  | .dacWrupd ch d => encodeCommand 0x0B .dac 0 ch 0 [d]
  | .adcAsm b0 b1 b2 => encodeCommand 0x0C .adc 0 0 0 [byteWord b0, byteWord b1, byteWord b2]
  | .cfgDiff c req => encodeCommand 0x0D c (BitVec.ofNat 9 req.length) 0 0 (pairWords req)
  | .cfgCommit c req => encodeCommand 0x0E c (BitVec.ofNat 9 req.length) 0 0 (pairWords req)
  | .setConfig c req => encodeCommand 0x0F c (BitVec.ofNat 9 req.length) 0 0 (pairWords req)
  | .startConv c u => encodeCommand 0x10 c.toChip u 0 0 []
  | .stopConv c u => encodeCommand 0x11 c.toChip u 0 0 []
  | .convDone c => encodeCommand 0x12 c.toChip 0 0 0 []
  | .readCont c u => encodeCommand 0x13 c.toChip u 0 0 []
  | .readPulse c u => encodeCommand 0x14 c.toChip u 0 0 []
  | .mirrorReset c => encodeCommand 0x15 c 0 0 0 []
  | .cfgLoad c regs => encodeCommand 0x16 c (BitVec.ofNat 9 regs.length) 0 0 (regs.map regWord)
  | .cfgReassert c => encodeCommand 0x17 c 0 0 0 []
  | .calGet m ch => encodeCommand 0x18 m 0 ch 0 []
  | .calSet m ch g o => encodeCommand 0x19 m 0 ch 0 [g, o]
  | .adcCode2v g raw => encodeCommand 0x1A .adc g 0 0 [raw]
  | .calApply m ch v => encodeCommand 0x1B m 0 ch 0 [v]
  | .dacV2code ch v => encodeCommand 0x1C .dac 0 ch 0 [v]
  | .dacCode2v ch code => encodeCommand 0x1D .dac 0 ch 0 [code]
  | .tcCode2t b0 b1 b2 b3 b4 =>
    encodeCommand 0x1E .tc 0 0 0 [byteWord b0, byteWord b1, byteWord b2, byteWord b3, byteWord b4]
  | .reservedOp00 rest ws => .command ((0x00 : BitVec 5) ++ rest) ws
  | .reservedOp1f rest ws => .command ((0x1F : BitVec 5) ++ rest) ws
  | .wRreg a dummies => .frame .adc (rwFrame (p.adc.opRreg ||| a) dummies)
  | .wRregRefAdc a cnt => .frame .adc (rwFrame (refByte0 1 a) (dummiesFor cnt))
  | .wWreg a values => .frame .adc (rwFrame (p.adc.opWreg ||| a) values)
  | .wWregRefAdc a values => .frame .adc (rwFrame (refByte0 2 a) values)
  | .wTcRead a dummies => .frame .tc (a :: dummies)
  | .wTcWrite a values => .frame .tc (a :: values)
  | .wStart1 => .frame .adc (frameOr (unitFrame p.adc p.adc.opStart 1 0))
  | .wStart2 => .frame .adc (frameOr (unitFrame p.adc p.adc.opStart 2 0))
  | .wStop1 => .frame .adc (frameOr (unitFrame p.adc p.adc.opStop 1 0))
  | .wStop2 => .frame .adc (frameOr (unitFrame p.adc p.adc.opStop 2 0))
  | .wReset => .frame .adc (frameOr (commandFrame p.adc.opReset))
  | .wNop => .frame .adc (frameOr (commandFrame p.adc.opNop))
  | .wSelfcal1 => .frame .adc (frameOr (unitFrame p.adc p.adc.opSelfcal 1 0))
  | .wSelfcal2 => .frame .adc (frameOr (unitFrame p.adc p.adc.opSelfcal 2 0))
  | .wRdata1 => .frame .adc (frameOr (unitFrame p.adc p.adc.opRdata 1 (codeBytes .adc)))
  | .wRdata2 => .frame .adc (frameOr (unitFrame p.adc p.adc.opRdata 2 (codeBytes .adc)))
  | .wDacFrame op ch d => .frame .dac (dacFields op ch d)
  | .wDacWrupd ch d => .frame .dac (dacFields 3 ch d)

/-! ### The table's numbering -/

/-- How many payload words a command word calls for; a byte list of zeros is its length word alone (rule R105). -/
def payloadCount (w : Word) : Nat :=
  match (opField w).toNat with
  | 0x02 => (nField w).toNat
  | 0x09 => 1
  | 0x0A => 1
  | 0x0B => 1
  | 0x0C => 3
  | 0x0D => (nField w).toNat
  | 0x0E => (nField w).toNat
  | 0x0F => (nField w).toNat
  | 0x16 => (nField w).toNat
  | 0x19 => 2
  | 0x1A => 1
  | 0x1B => 1
  | 0x1C => 1
  | 0x1D => 1
  | 0x1E => 5
  | _ => 0

/-- `count` bytes of a number, the most significant first: the table writes a frame's byte 0 as its top bits (rule R96:
frame bits 23:20 are byte 0's bits 7:4). -/
def bigEndianBytes (count w : Nat) : Frame := (List.range count).map fun i => BitVec.ofNat 8 (w / 2 ^ (8 * (count - 1 - i)))

/-- A frame of the ADC with the zero bytes after its given ones that its length calls for (rule R99). -/
def zeroFilled (p : ChipProfile) (f : Frame) : Frame :=
  match f with
  | [] => []
  | b0 :: rest =>
    let want :=
      if b0 &&& p.opMask = p.opRreg ∨ b0 &&& p.opMask = p.opWreg then (rest.headD 0).toNat + 2
      else match (commandRows p).find? (fun r => r.1 == some b0) with
        | some (_, extra, _) => extra
        | none => 0
    b0 :: (rest ++ List.replicate (want - rest.length) 0)

/-- The instruction whose bits the opcode table numbers as `w`: 32 bits are a command word, with the payload words of
zeros it calls for; 24 bits are a DAC frame; fewer are the first bytes of an ADC frame. -/
def tableItem (p : Profiles) (nbits w : Nat) : PortItem :=
  if nbits = 32 then .command (BitVec.ofNat 32 w) (List.replicate (payloadCount (BitVec.ofNat 32 w)) 0)
  else if nbits = 24 then .frame .dac (bigEndianBytes 3 w)
  else .frame .adc (zeroFilled p.adc (bigEndianBytes (nbits / 8) w))

/-- The instruction the decoder reads from the table's bits, in the reference profile that `REF` rows are written in. -/
def decodeTableWord (nbits w : Nat) : Option Instr := (decodeItem refProfiles (tableItem refProfiles nbits w)).toOption

end Sys2Proof
end

