-- ==== Sys2Proof/Machine/Ops.lean ====
section
/-! DEFINITION. The named operations over the state: reading and writing an instance, answering and raising a fault on its
result port (rules R104 and R292), the transfer (rules R14 and R15), request validation (rules R174 and R175), the
register-write loop (rules R177 and R186), and the calibration table (rule R210). -/

namespace Sys2Proof.Machine
open Sys2Proof.Config

/-! ### State access (rule R13) -/

/-- The instance of a chip. -/
def cfgOf (s : State) : Chip → CfgInstance
  | .adc => s.adc
  | .dac => s.dac
  | .tc => s.tc

/-- The state with a chip's instance replaced. -/
def withCfg (s : State) (c : Chip) (x : CfgInstance) : State :=
  match c with
  | .adc => { s with adc := x }
  | .dac => { s with dac := x }
  | .tc => { s with tc := x }

/-- The conversion state of a converting chip. -/
def convOf (s : State) : ConvChip → ConvState
  | .adc => s.adcConv
  | .tc => s.tcConv

/-- The state with a converting chip's conversion state replaced. -/
def withConv (s : State) (c : ConvChip) (x : ConvState) : State :=
  match c with
  | .adc => { s with adcConv := x }
  | .tc => { s with tcConv := x }

/-- A chip as a converting chip; the DAC is none (rule R188). -/
def asConv : Chip → Option ConvChip
  | .adc => some .adc
  | .dac => none
  | .tc => some .tc

/-- The ports of an instance. -/
def ioOf (s : State) : Chip → InstanceIo
  | .adc => s.adcIo
  | .dac => s.dacIo
  | .tc => s.tcIo

/-- The state with an instance's ports replaced. -/
def withIo (s : State) (c : Chip) (x : InstanceIo) : State :=
  { s with
    adcIo := if c = .adc then x else s.adcIo
    dacIo := if c = .dac then x else s.dacIo
    tcIo := if c = .tc then x else s.tcIo }

/-- The state with a chip's `Stale` bit replaced (rule R27). -/
def withStale (s : State) (c : Chip) (b : Bool) : State := withCfg s c { cfgOf s c with stale := b }

/-- The profile of a chip. -/
def profOf (s : State) (c : Chip) : ChipProfile := s.profile.of c

/-- The mirror's value of a field. -/
def mirrorGet (s : State) (c : Chip) (f : Byte) : Option Byte := bankGet (cfgOf s c).mirror f

/-! ### The result ports -/

/-- The state with an answer on the result port of the instance at work (rule R104). -/
def withResult (s : State) (r : Answer) : State := withIo s s.turn { ioOf s s.turn with result := some r }

/-- An operation's success: status `OK` and its result words (rule R104). -/
def answer (s : State) (ws : List Word) : State :=
  withResult s { status := statusWord 0 0 ws.length, words := ws }

/-- TAKING A FAULT, the SCCE's only exception (rules R270 and R292): one status word with the code and the info on the
result port of the instance at work, a result count of zero, and nothing else. There is nothing to return from (rule
R293). -/
def deliver (e : Raised) (s : State) : State :=
  withResult s { status := statusWord (faultCode e.fault) e.info 0, words := [] }

/-- How an operation ends: with a result, with a raised fault, or not at all, waiting for its transfer (rule R298). -/
inductive OpEnd (α : Type) where
  | done (a : α) (s : State)
  | raised (e : Raised) (s : State)
  | hung (s : State)

/-- Runs a second operation after a first one that ended with a result; a fault ends both (rules R14 and R250). -/
def andThen {α β : Type} (x : OpEnd α) (f : α → State → OpEnd β) : OpEnd β :=
  match x with
  | .done a s => f a s
  | .raised e s => .raised e s
  | .hung s => .hung s

/-- A pure operation as an operation. -/
def lift {α : Type} (x : Except Raised α) (s : State) : OpEnd α :=
  match x with
  | .ok a => .done a s
  | .error e => .raised e s

/-- The state after a pure operation whose result words are given (rules R104 and R292). -/
def settle (x : Except Raised (List Word)) (s : State) : State :=
  match x with
  | .ok ws => answer s ws
  | .error e => deliver e s

/-- A pure operation's outcome: always a next state (rules R142 and R226). -/
def pureOutcome (x : Except Raised (List Word)) (s : State) : Host.Outcome State Fault Refusal := .next (settle x s)

/-- An operation's outcome: its result or its fault on the result port of the instance at work; an operation that waits
for its transfer answers nothing (rule R298). -/
def outcome {α : Type} (fmt : α → List Word) (x : OpEnd α) : Host.Outcome State Fault Refusal :=
  match x with
  | .done a s => .next (answer s (fmt a))
  | .raised e s => .next (deliver e s)
  | .hung s => .next s

/-- The result words of an operation that returns none. -/
def noWords (_ : Unit) : List Word := []

/-- The words of a builder's frame. -/
def frameWords (x : Except Raised Frame) : Except Raised (List Word) :=
  match x with
  | .ok f => .ok (byteListWords f)
  | .error e => .error e

/-! ### The transfer -/

/-- `emit(s)`: the frame goes to the transmit port, and to the trace port if the sink takes it (rules R14 and R296). -/
def emit (c : Chip) (f : Frame) (s : State) : State :=
  { s with
    tx := s.tx ++ [(c, f)]
    trace := if traceTaken s.transfers then s.trace ++ [(c, f)] else s.trace }

/-- Whether a transfer that does not return holds the bus. The lock is held "for the duration of a full command-response
transaction" (rule R71), so an instance that waits forever holds it, or waits for one that does (rules R78 and R298).
DEDUCED: log entry 11. -/
def busHeld (s : State) : Bool := s.adcIo.busy || s.dacIo.busy || s.tcIo.busy

/-- How the `n`-th transfer from now will go: the listed answer, else a free value (rule R15); none ever while the bus is
held ("A controller that never releases the lock blocks the others forever", rule R78). -/
def replyAt (s : State) (n : Nat) : Reply :=
  if busHeld s then .never
  else match s.replies[n]? with
    | some r => r
    | none => match freeReply (s.transfers + n) with
      | some r => .answered r
      | none => .failed

/-- Whether an instance takes what is presented to it: it is not busy (rule R298), and no sequence is in progress on it,
which is "atomic against other callers of the same controller" (rule R256). -/
def isFree (s : State) (c : Chip) : Bool := !(ioOf s c).busy && (ioOf s c).running.isNone

/-- The instance of a chip is busy from now on (rule R298). -/
def markBusy (s : State) (c : Chip) : State := withIo s c { ioOf s c with busy := true }

/-- The state after a transfer. -/
def afterTransfer (s : State) : State := { s with replies := s.replies.tail, transfers := s.transfers + 1 }

/-- `emit(s)` and `Transfer(c, s)`: the response, or `TransportFault(info)` with nothing else changed (rules R15, R256
and R288); a transfer that never returns holds its instance busy, the frame being out (rule R298). -/
def transfer (c : Chip) (f : Frame) (info : Nat) (s : State) : OpEnd Frame :=
  match replyAt s 0 with
  | .answered r => .done r (afterTransfer (emit c f s))
  | .failed => .raised (raised .transportFault info) (afterTransfer (emit c f s))
  | .never => .hung (markBusy (afterTransfer (emit c f s)) c)

/-! ### Requests (rules R16, R174 and R175) -/

/-- `validate(c, req)`: the request's values as bytes, or the first offending field; `seen` are the fields before. -/
def validateFrom (p : ChipProfile) (seen : List Byte) : List Pair → Except Raised (List (Byte × Byte))
  | [] => .ok []
  | q :: rest =>
    match fieldSpec p q.field with
    | none => .error (raised .invalidConfigValue q.field.toNat)
    | some spec =>
      if seen.contains q.field then .error (raised .invalidConfigValue q.field.toNat)
      else match legalValue spec q.value with
        | none => .error (raised .invalidConfigValue q.field.toNat)
        | some b => match validateFrom p (q.field :: seen) rest with
          | .error e => .error e
          | .ok vs => .ok ((q.field, b) :: vs)

/-- `validate(c, req)` (rule R174). -/
def validate (p : ChipProfile) (req : List Pair) : Except Raised (List (Byte × Byte)) := validateFrom p [] req

/-- `eff(f)`: the requested value of a field, else the mirror's (rule R175). -/
def effective (mirror vs : List (Byte × Byte)) (f : Byte) : Option Byte :=
  match bankGet vs f with
  | some b => some b
  | none => bankGet mirror f

/-- Whether `rtd_check` refuses (rule R175). -/
def rtdConflict (p : ChipProfile) (mirror vs : List (Byte × Byte)) : Bool :=
  (fieldSpec p fRtdMode).isSome && (fieldSpec p fActiveChannel).isSome &&
    (effective mirror vs fRtdMode == some p.rtdOn) &&
    match effective mirror vs fActiveChannel with
    | some ch => p.rtdReserved.contains ch
    | none => false

/-- The pairs whose value differs from the mirror, in request order (rule R171). -/
def diffOf (mirror vs : List (Byte × Byte)) : List (Byte × Byte) :=
  vs.filter fun e => !(bankGet mirror e.1 == some e.2)

/-- `IllegalTransition` with the current `Mode` as its info (rule R286). -/
def illegalTransition (m : Mode) : Raised := raised .illegalTransition (modeCode m)

/-- Whether the chip is converting: the check of rules R177 and R186. The DAC never is (rule R188). -/
def isConverting (s : State) (c : Chip) : Bool :=
  match asConv c with
  | some k => decide ((convOf s k).mode = .converting)
  | none => false

/-! ### Register writes -/

/-- One register write that is due: the logical register, its packed byte, and the fields to commit once it is sent. -/
structure RegWrite where
  reg : Byte
  byte : Byte
  commit : List (Byte × Byte)
  deriving DecidableEq, Repr

/-- BUILD_WRITE of one register of any chip. The DAC has no register write frame: its write map is empty (rule R8). -/
def regWriteFrame (p : ChipProfile) (c : Chip) (a b : Byte) : Except Raised Frame :=
  match asConv c with
  | some k => writeFrame p k a [b]
  | none => .error (raised .invalidAddress a.toNat)

/-- Commits field values: the mirror and `SetMask` (rules R172 and R177). -/
def commitFields (c : Chip) (vs : List (Byte × Byte)) (s : State) : State :=
  withCfg s c
    { cfgOf s c with
      mirror := bankSetAll (cfgOf s c).mirror vs
      setMask := markSet (cfgOf s c).setMask (vs.map (·.1)) }

/-- The loop of rules R177 and R186: each register is written in turn and committed once its transfer is confirmed; a
failed transfer sets `Stale[c]` and ends it with `TransportFault(r)`, keeping what was committed (rule R187). -/
def writeRegisters (c : Chip) : List RegWrite → State → OpEnd Unit
  | [], s => .done () s
  | w :: rest, s =>
    match regWriteFrame (profOf s c) c (waddrOf (profOf s c) w.reg) w.byte with
    | .error e => .raised e s
    | .ok f =>
      match transfer c f w.reg.toNat s with
      | .done _ s' => writeRegisters c rest (commitFields c w.commit s')
      | .raised e s' => .raised e (withStale s' c true)
      | .hung s' => .hung s'

/-- The writes a diff is turned into: one per changed register, ascending, its byte packed over the mirror with the
diff laid over it (rule R177). -/
def diffWrites (p : ChipProfile) (mirror d : List (Byte × Byte)) : List RegWrite :=
  let regOf := fun (f : Byte) => (fieldSpec p f).map (·.reg)
  (ascending (d.filterMap fun e => regOf e.1)).map fun r =>
    { reg := r, byte := pack p r (bankSetAll mirror d), commit := d.filter fun e => regOf e.1 == some r }

/-- The writes of a whole mirror: every register that holds a field, ascending (rule R186). -/
def allWrites (p : ChipProfile) (mirror : List (Byte × Byte)) : List RegWrite :=
  (fieldRegs p).map fun r => { reg := r, byte := pack p r mirror, commit := [] }

/-! ### The calibration table (rules R31 and R210) -/

/-- One module's cells. -/
def calCells (t : CalTable) : Chip → List (Option CalPair)
  | .adc => t.adc
  | .dac => t.dac
  | .tc => t.tc

/-- `Cal[m][ch]`. -/
def calGet (t : CalTable) (m : Chip) (ch : Nat) : Option CalPair := ((calCells t m)[ch]?).join

/-- The table with one module's cells replaced. -/
def withCells (t : CalTable) (m : Chip) (cells : List (Option CalPair)) : CalTable :=
  match m with
  | .adc => { t with adc := cells }
  | .dac => { t with dac := cells }
  | .tc => { t with tc := cells }

/-- `Cal[m][ch] <- pair`, or `none`. -/
def calPut (t : CalTable) (m : Chip) (ch : Nat) (x : Option CalPair) : CalTable :=
  withCells t m ((calCells t m).set ch x)

/-- `Cal[m][ch] <- pair`. -/
def calSet (t : CalTable) (m : Chip) (ch : Nat) (x : CalPair) : CalTable := calPut t m ch (some x)

/-- `valid_ch(m, ch)` (rule R210). -/
def validCh (p : Profiles) (m : Chip) (ch : Nat) : Bool := decide (ch < channelCount p m)

/-- The fault of an id that is not valid: an ADC id from 8 on is an undefined pair, any other a missing key
(rule R210). -/
def badChannel (m : Chip) (ch : Nat) : Raised :=
  if m = .adc ∧ 8 ≤ ch then raised .invalidDifferentialPairError ch else raised .calibKeyMissingError ch

/-- `lookup(m, ch)` (rule R210). -/
def lookupCal (s : State) (m : Chip) (ch : Nat) : Except Raised CalPair :=
  if validCh s.profile m ch = false then .error (badChannel m ch)
  else match calGet s.cal m ch with
    | none => .error (raised .calibKeyMissingError ch)
    | some x => .ok x

end Sys2Proof.Machine
end

