-- ==== Sys2Proof/Machine/Codec.lean ====
section
/-! DEFINITION. The codec family, twelve pure operations (40_codec.md). Each answers its frame, its bytes or its code on
the result port, or a fault, and changes nothing else (rule R142). -/

namespace Sys2Proof.Machine
open Sys2Proof.Config

/-- BUILD_READ (rule R130). -/
def execBuildRead (c : ConvChip) (n : BitVec 9) (a : Byte) (s : State) : Host.Outcome State Fault Refusal :=
  pureOutcome (frameWords (readFrame (profOf s c.toChip) c a n.toNat)) s

/-- BUILD_WRITE (rule R131). -/
def execBuildWrite (c : ConvChip) (a : Byte) (values : List Word) (s : State) : Host.Outcome State Fault Refusal :=
  pureOutcome (frameWords (writeFrameOf (profOf s c.toChip) c a values)) s

/-- BUILD_START (rule R132). -/
def execBuildStart (c : ConvChip) (u : BitVec 9) (s : State) : Host.Outcome State Fault Refusal :=
  pureOutcome (frameWords (unitFrame (profOf s c.toChip) (profOf s c.toChip).opStart u.toNat 0)) s

/-- BUILD_STOP (rule R133). -/
def execBuildStop (c : ConvChip) (u : BitVec 9) (s : State) : Host.Outcome State Fault Refusal :=
  pureOutcome (frameWords (unitFrame (profOf s c.toChip) (profOf s c.toChip).opStop u.toNat 0)) s

/-- BUILD_RESET (rule R134). -/
def execBuildReset (c : ConvChip) (s : State) : Host.Outcome State Fault Refusal :=
  pureOutcome (frameWords (commandFrame (profOf s c.toChip).opReset)) s

/-- BUILD_NOP (rule R135). -/
def execBuildNop (c : ConvChip) (s : State) : Host.Outcome State Fault Refusal :=
  pureOutcome (frameWords (commandFrame (profOf s c.toChip).opNop)) s

/-- BUILD_SELFCAL (rule R136). -/
def execBuildSelfcal (c : ConvChip) (u : BitVec 9) (s : State) : Host.Outcome State Fault Refusal :=
  pureOutcome (frameWords (unitFrame (profOf s c.toChip) (profOf s c.toChip).opSelfcal u.toNat 0)) s

/-- BUILD_RDATA (rule R138). -/
def execBuildRdata (c : ConvChip) (u : BitVec 9) (s : State) : Host.Outcome State Fault Refusal :=
  pureOutcome (frameWords (unitFrame (profOf s c.toChip) (profOf s c.toChip).opRdata u.toNat (codeBytes c))) s

/-- PARSE_READ (rule R137). -/
def execParseRead (c : ConvChip) (n : BitVec 9) (raw : Frame) (s : State) : Host.Outcome State Fault Refusal :=
  pureOutcome (frameWords (parseRead c raw n.toNat)) s

/-- DAC_FRAME (rule R139). -/
def execDacFrame (op ch : Byte) (d : Word) (s : State) : Host.Outcome State Fault Refusal :=
  pureOutcome (frameWords (dacFrame op ch d)) s

/-- DAC_WRUPD: DAC_FRAME with the opcode `OP_WRUPD` (rule R140). -/
def execDacWrupd (ch : Byte) (d : Word) (s : State) : Host.Outcome State Fault Refusal :=
  pureOutcome (frameWords (dacFrame opWrupd ch d)) s

/-- ADC_ASM (rule R141). -/
def execAdcAsm (b0 b1 b2 : Byte) (s : State) : Host.Outcome State Fault Refusal :=
  pureOutcome (.ok [asmWord b0 b1 b2]) s

end Sys2Proof.Machine
end

