-- ==== Sys2Proof/Machine/Conversion.lean ====
section
/-! DEFINITION. The calibration table's two operations and the conversions (42_conversion.md), in exact rationals with one
rounding at the output port (rules R12, R223 and R224). -/

namespace Sys2Proof.Machine
open Sys2Proof.Config

/-- A result word in `VFMT`, or `VoltageOutOfRange` where it does not fit (rules R223 and R281). -/
def voltWord (x : ℚ) : Except Raised Word :=
  if fits vfmt x = false then .error (raised .voltageOutOfRange 0) else .ok (quantWord vfmt x)

/-- One result word. -/
def oneWord (x : Except Raised Word) : Except Raised (List Word) :=
  match x with
  | .ok w => .ok [w]
  | .error e => .error e

/-- CAL_GET's result words (rule R211). -/
def calWords (x : Except Raised CalPair) : Except Raised (List Word) :=
  match x with
  | .ok k => .ok [k.gain, k.offset]
  | .error e => .error e

/-- CAL_GET (rule R211). -/
def execCalGet (m : Chip) (ch : Byte) (s : State) : Host.Outcome State Fault Refusal :=
  pureOutcome (calWords (lookupCal s m ch.toNat)) s

/-- CAL_SET's effect (rule R212). What the entry held is kept for a conversion that races it (rule R76). -/
def setCal (m : Chip) (ch : Nat) (x : CalPair) (s : State) : OpEnd Unit :=
  if validCh s.profile m ch = false then .raised (badChannel m ch) s
  else
    .done ()
      { s with
        cal := calSet s.cal m ch x
        calRace := some { module := m, channel := ch, before := calGet s.cal m ch } }

/-- CAL_SET (rule R212). -/
def execCalSet (m : Chip) (ch : Byte) (gain offset : Word) (s : State) : Host.Outcome State Fault Refusal :=
  outcome noWords (setCal m ch.toNat { gain := gain, offset := offset } s)

/-- `adc_v(raw, G)` (rule R213). -/
def adcVolts (vref : Word) (raw g : Nat) : ℚ := (sext 24 raw : ℚ) / 2 ^ 23 * volts vref / g

/-- ADC_CODE2V's result (rule R214). -/
def adcCode2v (p : ChipProfile) (g : Nat) (raw : Word) : Except Raised Word :=
  if (gainSettings p).contains g = false then .error (raised .invalidConfigValue fGain.toNat)
  else if raw.extractLsb' 24 8 ≠ 0 then .error (raised .valueOutOfRange 0)
  else voltWord (adcVolts p.vref (raw.extractLsb' 0 24).toNat g)

/-- ADC_CODE2V (rule R214). -/
def execAdcCode2v (g : BitVec 9) (raw : Word) (s : State) : Host.Outcome State Fault Refusal :=
  pureOutcome (oneWord (adcCode2v (profOf s .adc) g.toNat raw)) s

/-- `calibrated = voltage * calib.gain + calib.offset` (rule R215). -/
def calibrated (k : CalPair) (v : Word) : ℚ := volts v * volts k.gain + volts k.offset

/-- CAL_APPLY's result (rule R215). -/
def calApply (m : Chip) (ch : Nat) (v : Word) (s : State) : Except Raised Word :=
  match lookupCal s m ch with
  | .error e => .error e
  | .ok k => voltWord (calibrated k v)

/-- CAL_APPLY (rule R215). -/
def execCalApply (m : Chip) (ch : Byte) (v : Word) (s : State) : Host.Outcome State Fault Refusal :=
  pureOutcome (oneWord (calApply m ch.toNat v s)) s

/-- The inverse calibration `v' = (v − offset) / gain` (rules R217 and R218). -/
def uncalibrated (k : CalPair) (v : Word) : ℚ := (volts v - volts k.offset) / volts k.gain

/-- The code of an inverse-calibrated voltage: rounded, then clamped (rule R218). -/
def dacCode (vref : Word) (v : ℚ) : Int := min (max (rnd (v / volts vref * 65536)) 0) 65535

/-- DAC_V2CODE's result (rule R218). -/
def dacV2code (ch : Nat) (v : Word) (s : State) : Except Raised Word :=
  match lookupCal s .dac ch with
  | .error e => .error e
  | .ok k =>
    if k.gain = 0 then .error (raised .calibGainZero ch)
    else if uncalibrated k v < 0 ∨ volts (profOf s .dac).vref < uncalibrated k v then
      .error (raised .voltageOutOfRange 0)
    else .ok (BitVec.ofInt 32 (dacCode (profOf s .dac).vref (uncalibrated k v)))

/-- DAC_V2CODE (rule R218). -/
def execDacV2code (ch : Byte) (v : Word) (s : State) : Host.Outcome State Fault Refusal :=
  pureOutcome (oneWord (dacV2code ch.toNat v s)) s

/-- `(code / 65536) · VREF · gain + offset` (rule R219). -/
def dacVolts (vref : Word) (k : CalPair) (code : Nat) : ℚ :=
  (code : ℚ) / 65536 * volts vref * volts k.gain + volts k.offset

/-- DAC_CODE2V's result (rule R219). -/
def dacCode2v (ch : Nat) (code : Word) (s : State) : Except Raised Word :=
  if 65535 < code.toNat then .error (raised .valueOutOfRange 0)
  else match lookupCal s .dac ch with
    | .error e => .error e
    | .ok k => voltWord (dacVolts (profOf s .dac).vref k code.toNat)

/-- DAC_CODE2V (rule R219). -/
def execDacCode2v (ch : Byte) (code : Word) (s : State) : Host.Outcome State Fault Refusal :=
  pureOutcome (oneWord (dacCode2v ch.toNat code s)) s

/-- The cold-junction code: the top `CJ_BITS` of 16 bits, signed (rule R221). -/
def cjCode (p : ChipProfile) (b0 b1 : Byte) : Int :=
  sext p.cjBits ((b0 ++ b1 : BitVec 16).toNat / 2 ^ (16 - p.cjBits))

/-- The linearized code: the top 19 of 24 bits, signed (rule R221). -/
def ltCode (b2 b3 b4 : Byte) : Int := sext 19 ((code24 b2 b3 b4).toNat / 2 ^ 5)

/-- A code times its LSB weight, 2 to the minus `e`, which may be negative (rule R221). -/
def weighted (code : Int) (e : Int) : ℚ :=
  match e with
  | .ofNat n => (code : ℚ) / 2 ^ n
  | .negSucc n => (code : ℚ) * 2 ^ (n + 1)

/-- TC_CODE2T's result words: the two codes, then the two temperatures (rule R221). -/
def tcCode2t (p : ChipProfile) (b0 b1 b2 b3 b4 : Byte) : Except Raised (List Word) :=
  let cj := weighted (cjCode p b0 b1) p.cjLsbExp
  let lt := weighted (ltCode b2 b3 b4) p.ltLsbExp
  if fits tfmt cj = false ∨ fits tfmt lt = false then .error (raised .voltageOutOfRange 0)
  else .ok [BitVec.ofInt 32 (cjCode p b0 b1), BitVec.ofInt 32 (ltCode b2 b3 b4), quantWord tfmt cj, quantWord tfmt lt]

/-- TC_CODE2T (rule R221). No calibration entry is applied (rule R225). -/
def execTcCode2t (b0 b1 b2 b3 b4 : Byte) (s : State) : Host.Outcome State Fault Refusal :=
  pureOutcome (tcCode2t (profOf s .tc) b0 b1 b2 b3 b4) s

end Sys2Proof.Machine
end

