-- ==== Sys2Proof/Machine/Converting.lean ====
section
/-! DEFINITION. The conversion-mode state machine: start, stop, the completion event and the two reads
(41_config_mirror.md section 4). -/

namespace Sys2Proof.Machine
open Sys2Proof.Config

/-- The first required field that was never set, ascending (rule R179). -/
def firstUnset (s : State) (c : ConvChip) : Option Byte :=
  (ascending (profOf s c.toChip).required).find? fun f => !isSet (cfgOf s c.toChip).setMask f

/-- START_CONV's effect (rule R179). -/
def startConv (c : ConvChip) (u : BitVec 9) (s : State) : OpEnd Unit :=
  match firstUnset s c with
  | some f => .raised (raised .incompleteConfigError f.toNat) s
  | none =>
    if (convOf s c).mode ≠ .configuring then .raised (illegalTransition (convOf s c).mode) s
    else match startFrame (profOf s c.toChip) (cfgOf s c.toChip).mirror c u.toNat with
      | .error e => .raised e s
      | .ok f =>
        andThen (transfer c.toChip f 0 s)
          fun _ s' => .done () (withConv s' c { mode := .converting, pulseDone := false })

/-- START_CONV (rule R179). -/
def execStartConv (c : ConvChip) (u : BitVec 9) (s : State) : Host.Outcome State Fault Refusal :=
  outcome noWords (startConv c u s)

/-- STOP_CONV's effect (rule R180). -/
def stopConv (c : ConvChip) (u : BitVec 9) (s : State) : OpEnd Unit :=
  if (convOf s c).mode ≠ .converting then .raised (illegalTransition (convOf s c).mode) s
  else match stopFrame (profOf s c.toChip) (cfgOf s c.toChip).mirror c u.toNat with
    | .error e => .raised e s
    | .ok f =>
      andThen (transfer c.toChip f 0 s)
        fun _ s' => .done () (withConv s' c { mode := .idle, pulseDone := false })

/-- STOP_CONV (rule R180). -/
def execStopConv (c : ConvChip) (u : BitVec 9) (s : State) : Host.Outcome State Fault Refusal :=
  outcome noWords (stopConv c u s)

/-- Whether the mirror holds pulse mode. -/
def inPulse (s : State) (c : ConvChip) : Bool :=
  mirrorGet s c.toChip fConvMode == some (profOf s c.toChip).pulse

/-- Whether the mirror holds continuous mode. -/
def inContinuous (s : State) (c : ConvChip) : Bool :=
  mirrorGet s c.toChip fConvMode == some (profOf s c.toChip).continuous

/-- CONV_DONE's effect (rule R181). -/
def convDone (c : ConvChip) (s : State) : State :=
  if (convOf s c).mode = .converting ∧ inPulse s c = true then
    withConv s c { mode := .idle, pulseDone := true }
  else s

/-- CONV_DONE (rule R181). It never faults. -/
def execConvDone (c : ConvChip) (s : State) : Host.Outcome State Fault Refusal := .next (answer (convDone c s) [])

/-- The code bytes of a read frame's response (rules R182 and R183). -/
def keepCode (c : ConvChip) (r : Frame) : Except Raised Frame :=
  if r.length < readLead c + readLen c then .error (raised .shortReadError r.length)
  else .ok ((r.drop (readLead c)).take (readLen c))

/-- The read frame's transfer and its code bytes, in the order of rules R182 and R183. -/
def readCode (c : ConvChip) (u : BitVec 9) (s : State) : OpEnd Frame :=
  match readDataFrame (profOf s c.toChip) (cfgOf s c.toChip).mirror c u.toNat with
  | .error e => .raised e s
  | .ok f => andThen (transfer c.toChip f 0 s) fun r s' => lift (keepCode c r) s'

/-- READ_CONT's effect (rule R182). -/
def readCont (c : ConvChip) (u : BitVec 9) (s : State) : OpEnd Frame :=
  if (convOf s c).mode = .converting ∧ inContinuous s c = true then readCode c u s
  else .raised (raised .continuousModeError 0) s

/-- READ_CONT (rule R182). -/
def execReadCont (c : ConvChip) (u : BitVec 9) (s : State) : Host.Outcome State Fault Refusal :=
  outcome byteListWords (readCont c u s)

/-- READ_PULSE's effect (rule R183). -/
def readPulse (c : ConvChip) (u : BitVec 9) (s : State) : OpEnd Frame :=
  if (convOf s c).mode = .idle ∧ (convOf s c).pulseDone = true then
    andThen (readCode c u s)
      fun bytes s' => .done bytes (withConv s' c { convOf s' c with pulseDone := false })
  else .raised (illegalTransition (convOf s c).mode) s

/-- READ_PULSE (rule R183). -/
def execReadPulse (c : ConvChip) (u : BitVec 9) (s : State) : Host.Outcome State Fault Refusal :=
  outcome byteListWords (readPulse c u s)

end Sys2Proof.Machine
end

