-- ==== Sys2Proof/Machine/Mirror.lean ====
section
/-! DEFINITION. The mirror: diff, commit, configuration and resynchronisation (41_config_mirror.md sections 2, 3, 5). -/

namespace Sys2Proof.Machine
open Sys2Proof.Config

/-- CFG_DIFF's result: the pairs that differ from the mirror (rule R171). -/
def cfgDiff (c : Chip) (req : List Pair) (s : State) : Except Raised (List (Byte × Byte)) :=
  match validate (profOf s c) req with
  | .error e => .error e
  | .ok vs => .ok (diffOf (cfgOf s c).mirror vs)

/-- CFG_DIFF (rule R171). -/
def execCfgDiff (c : Chip) (req : List Pair) (s : State) : Host.Outcome State Fault Refusal :=
  outcome fieldWords (lift (cfgDiff c req s) s)

/-- CFG_COMMIT's effect (rule R172). -/
def cfgCommit (c : Chip) (req : List Pair) (s : State) : OpEnd Unit :=
  match validate (profOf s c) req with
  | .error e => .raised e s
  | .ok vs => .done () (commitFields c vs s)

/-- CFG_COMMIT (rule R172). -/
def execCfgCommit (c : Chip) (req : List Pair) (s : State) : Host.Outcome State Fault Refusal :=
  outcome noWords (cfgCommit c req s)

/-- `Mode[c] <- Configuring; PulseDone[c] <- 0`, where the chip has them (rule R177). -/
def enterConfiguring (c : Chip) (s : State) : State :=
  match asConv c with
  | some k => withConv s k { mode := .configuring, pulseDone := false }
  | none => s

/-- `SetMask[c][f] <- 1` for each field (rule R177). -/
def markFields (c : Chip) (fs : List Byte) (s : State) : State :=
  withCfg s c { cfgOf s c with setMask := markSet (cfgOf s c).setMask fs }

/-- SET_CONFIG's effect (rule R177): validate, then check, then write what differs, register by register. -/
def setConfig (c : Chip) (req : List Pair) (s : State) : OpEnd (List (Byte × Byte)) :=
  match validate (profOf s c) req with
  | .error e => .raised e s
  | .ok vs =>
    if rtdConflict (profOf s c) (cfgOf s c).mirror vs then .raised (raised .rtdEnabledError 0) s
    else if isConverting s c then .raised (illegalTransition .converting) s
    else
      andThen
        (writeRegisters c
          (diffWrites (profOf s c) (cfgOf s c).mirror (diffOf (cfgOf s c).mirror vs)) (enterConfiguring c s))
        fun _ s' => .done (diffOf (cfgOf s c).mirror vs) (markFields c (vs.map (·.1)) s')

/-- SET_CONFIG (rule R177). -/
def execSetConfig (c : Chip) (req : List Pair) (s : State) : Host.Outcome State Fault Refusal :=
  outcome fieldWords (setConfig c req s)

/-- MIRROR_RESET's effect (rule R184). -/
def mirrorReset (c : Chip) (s : State) : State :=
  let s' := withCfg s c (resetCfg (profOf s c))
  match asConv c with
  | some k => withConv s' k resetConv
  | none => s'

/-- MIRROR_RESET (rule R184). -/
def execMirrorReset (c : Chip) (s : State) : Host.Outcome State Fault Refusal := .next (answer (mirrorReset c s) [])

/-- Whether a value is in a field's legal set. -/
def isLegal (p : ChipProfile) (e : Byte × Byte) : Bool :=
  match fieldSpec p e.1 with
  | some spec => spec.legal.contains e.2
  | none => false

/-- The field values that a list of register bytes stands for (rule R185), a register's fields in the profile's order.
DESIGN CHOICE: log entry 27 (rule R176 gives a register's fields no order). -/
def unpackAll (p : ChipProfile) (regs : List RegByte) : List (Byte × Byte) :=
  regs.flatMap fun x => unpack p x.reg x.byte

/-- CFG_LOAD's effect (rule R185). Of several illegal fields of one register the first in the profile's order is reported.
DESIGN CHOICE: log entry 27. -/
def cfgLoad (c : Chip) (regs : List RegByte) (s : State) : OpEnd Unit :=
  if ascending (regs.map (·.reg)) ≠ fieldRegs (profOf s c) ∨ ¬ (regs.map (·.reg)).Nodup then
    .raised (raised .invalidConfigValue 0xFF) s
  else match (unpackAll (profOf s c) regs).find? (fun e => !isLegal (profOf s c) e) with
    | some e => .raised (raised .invalidConfigValue e.1.toNat) s
    | none =>
      .done ()
        (withCfg s c
          { cfgOf s c with
            mirror := bankSetAll (cfgOf s c).mirror (unpackAll (profOf s c) regs)
            stale := false })

/-- CFG_LOAD (rule R185). -/
def execCfgLoad (c : Chip) (regs : List RegByte) (s : State) : Host.Outcome State Fault Refusal :=
  outcome noWords (cfgLoad c regs s)

/-- CFG_REASSERT's effect (rule R186). -/
def cfgReassert (c : Chip) (s : State) : OpEnd Unit :=
  if isConverting s c then .raised (illegalTransition .converting) s
  else
    andThen (writeRegisters c (allWrites (profOf s c) (cfgOf s c).mirror) s)
      fun _ s' => .done () (withStale s' c false)

/-- CFG_REASSERT (rule R186). -/
def execCfgReassert (c : Chip) (s : State) : Host.Outcome State Fault Refusal := outcome noWords (cfgReassert c s)

end Sys2Proof.Machine
end

