-- ==== Sys2Proof/Machine/Reserved.lean ====
section
/-! DEFINITION. The two reserved operation numbers, and the fault that they and every malformed command raise (rules R106
and R283). -/

namespace Sys2Proof.Machine
open Sys2Proof.Config

/-- The fault every reserved or malformed command raises (rules R106 and R283). -/
def illegalCommand : Raised := raised .illegalCommand 0

/-- RESERVED_OP00 (rule R106). -/
def execReservedOp00 (s : State) : Host.Outcome State Fault Refusal := .next (deliver illegalCommand s)

/-- RESERVED_OP1F (rule R106). -/
def execReservedOp1f (s : State) : Host.Outcome State Fault Refusal := .next (deliver illegalCommand s)

end Sys2Proof.Machine
end

