-- ==== Sys2Proof/Machine/Wire.lean ====
section
/-! DEFINITION. The wire-frame rows of the opcode table: the controller hands a frame to the transport itself (rules R15,
R319 and R322: "sent by the controller directly", "sent by hand"). The frame is emitted and transferred, what a read frame
brings back is answered, and no SCCE state but the ports changes. DESIGN CHOICE: log entry 7. -/

namespace Sys2Proof.Machine
open Sys2Proof.Config

/-- A frame sent by hand, or the fault of a command the profile lacks; `parse` makes the result words of the response.
A failed transfer is `TransportFault(0)` (rule R288) and sets no `Stale` bit (rule R27). -/
def sendByHand (c : Chip) (frame : Except Raised Frame) (parse : Frame → Except Raised (List Word)) (s : State) :
    OpEnd (List Word) :=
  match frame with
  | .error e => .raised e s
  | .ok f => andThen (transfer c f 0 s) fun r s' => lift (parse r) s'

/-- The outcome of a frame sent by hand. -/
def wireOutcome (x : OpEnd (List Word)) : Host.Outcome State Fault Refusal := outcome id x

/-- The response of a write, command or DAC frame "carries nothing the SCCE uses" (rule R97). -/
def parseNothing (_ : Frame) : Except Raised (List Word) := .ok []

/-- The register values of a read frame's response (rules R15 and R137). -/
def parseRegisters (c : ConvChip) (n : Nat) (r : Frame) : Except Raised (List Word) := frameWords (parseRead c r n)

/-- The code bytes of a read-data frame's response: one lead byte, three code bytes (rule R95). -/
def parseCode (r : Frame) : Except Raised (List Word) :=
  if r.length < readLead .adc + codeBytes .adc then .error (raised .shortReadError r.length)
  else .ok (byteListWords ((r.drop (readLead .adc)).take (codeBytes .adc)))

/-- A single-byte command of the ADC sent by hand (rule R94). -/
def sendUnit (table : List Byte) (u : Nat) (s : State) : Host.Outcome State Fault Refusal :=
  wireOutcome (sendByHand .adc (unitFrame (profOf s .adc) table u 0) parseNothing s)

/-- A read-data frame of the ADC sent by hand (rule R95). -/
def sendRdata (u : Nat) (s : State) : Host.Outcome State Fault Refusal :=
  wireOutcome (sendByHand .adc (unitFrame (profOf s .adc) (profOf s .adc).opRdata u (codeBytes .adc)) parseCode s)

/-- W_RREG (rule R91). -/
def execWRreg (a : Byte) (dummies : Frame) (s : State) : Host.Outcome State Fault Refusal :=
  wireOutcome
    (sendByHand .adc (.ok (rwFrame ((profOf s .adc).opRreg ||| a) dummies)) (parseRegisters .adc dummies.length) s)

/-- W_RREG_REF_ADC (rule R91): byte 0 is `001aaaaa`. -/
def execWRregRefAdc (a : BitVec 5) (cnt : Byte) (s : State) : Host.Outcome State Fault Refusal :=
  wireOutcome
    (sendByHand .adc (.ok (rwFrame (refByte0 1 a) (dummiesFor cnt))) (parseRegisters .adc (cnt.toNat + 1)) s)

/-- W_WREG (rule R92). -/
def execWWreg (a : Byte) (values : Frame) (s : State) : Host.Outcome State Fault Refusal :=
  wireOutcome (sendByHand .adc (.ok (rwFrame ((profOf s .adc).opWreg ||| a) values)) parseNothing s)

/-- W_WREG_REF_ADC (rule R92): byte 0 is `010aaaaa`. -/
def execWWregRefAdc (a : BitVec 5) (values : Frame) (s : State) : Host.Outcome State Fault Refusal :=
  wireOutcome (sendByHand .adc (.ok (rwFrame (refByte0 2 a) values)) parseNothing s)

/-- W_TC_READ (rule R93). -/
def execWTcRead (a : Byte) (dummies : Frame) (s : State) : Host.Outcome State Fault Refusal :=
  wireOutcome (sendByHand .tc (.ok (a :: dummies)) (parseRegisters .tc dummies.length) s)

/-- W_TC_WRITE (rule R93). -/
def execWTcWrite (a : Byte) (values : Frame) (s : State) : Host.Outcome State Fault Refusal :=
  wireOutcome (sendByHand .tc (.ok (a :: values)) parseNothing s)

/-- W_START1 (rule R132). -/
def execWStart1 (s : State) : Host.Outcome State Fault Refusal := sendUnit (profOf s .adc).opStart 1 s

/-- W_START2 (rule R132). -/
def execWStart2 (s : State) : Host.Outcome State Fault Refusal := sendUnit (profOf s .adc).opStart 2 s

/-- W_STOP1 (rule R133). -/
def execWStop1 (s : State) : Host.Outcome State Fault Refusal := sendUnit (profOf s .adc).opStop 1 s

/-- W_STOP2 (rule R133). -/
def execWStop2 (s : State) : Host.Outcome State Fault Refusal := sendUnit (profOf s .adc).opStop 2 s

/-- W_RESET (rules R134 and R322): it resets the chip and leaves the mirror as it was. -/
def execWReset (s : State) : Host.Outcome State Fault Refusal :=
  wireOutcome (sendByHand .adc (commandFrame (profOf s .adc).opReset) parseNothing s)

/-- W_NOP (rule R135). -/
def execWNop (s : State) : Host.Outcome State Fault Refusal :=
  wireOutcome (sendByHand .adc (commandFrame (profOf s .adc).opNop) parseNothing s)

/-- W_SELFCAL1 (rules R136 and R322): it does not change `Cal`. -/
def execWSelfcal1 (s : State) : Host.Outcome State Fault Refusal := sendUnit (profOf s .adc).opSelfcal 1 s

/-- W_SELFCAL2 (rules R136 and R322): it does not change `Cal`. -/
def execWSelfcal2 (s : State) : Host.Outcome State Fault Refusal := sendUnit (profOf s .adc).opSelfcal 2 s

/-- W_RDATA1 (rule R138). -/
def execWRdata1 (s : State) : Host.Outcome State Fault Refusal := sendRdata 1 s

/-- W_RDATA2 (rule R138). -/
def execWRdata2 (s : State) : Host.Outcome State Fault Refusal := sendRdata 2 s

/-- W_DAC_FRAME (rule R139). -/
def execWDacFrame (op ch : BitVec 4) (d : BitVec 16) (s : State) : Host.Outcome State Fault Refusal :=
  wireOutcome (sendByHand .dac (.ok (dacFields op ch d)) parseNothing s)

/-- W_DAC_WRUPD: the opcode is 3 (rule R140). -/
def execWDacWrupd (ch : BitVec 4) (d : BitVec 16) (s : State) : Host.Outcome State Fault Refusal :=
  wireOutcome (sendByHand .dac (.ok (dacFields 3 ch d)) parseNothing s)

end Sys2Proof.Machine
end

