-- ==== Sys2Proof/Machine/Dispatch.lean ====
section
/-! DEFINITION. The dispatch: one arm per instruction. -/

namespace Sys2Proof.Machine

def exec (i : Instr) (s : State) : Host.Outcome State Fault Refusal :=
  match i with
  | .buildRead c n a => Sys2Proof.Machine.execBuildRead c n a s
  | .buildWrite c a values => Sys2Proof.Machine.execBuildWrite c a values s
  | .buildStart c u => Sys2Proof.Machine.execBuildStart c u s
  | .buildStop c u => Sys2Proof.Machine.execBuildStop c u s
  | .buildReset c => Sys2Proof.Machine.execBuildReset c s
  | .buildNop c => Sys2Proof.Machine.execBuildNop c s
  | .buildSelfcal c u => Sys2Proof.Machine.execBuildSelfcal c u s
  | .buildRdata c u => Sys2Proof.Machine.execBuildRdata c u s
  | .parseRead c n raw => Sys2Proof.Machine.execParseRead c n raw s
  | .dacFrame op ch d => Sys2Proof.Machine.execDacFrame op ch d s
  | .dacWrupd ch d => Sys2Proof.Machine.execDacWrupd ch d s
  | .adcAsm b0 b1 b2 => Sys2Proof.Machine.execAdcAsm b0 b1 b2 s
  | .cfgDiff c req => Sys2Proof.Machine.execCfgDiff c req s
  | .cfgCommit c req => Sys2Proof.Machine.execCfgCommit c req s
  | .setConfig c req => Sys2Proof.Machine.execSetConfig c req s
  | .startConv c u => Sys2Proof.Machine.execStartConv c u s
  | .stopConv c u => Sys2Proof.Machine.execStopConv c u s
  | .convDone c => Sys2Proof.Machine.execConvDone c s
  | .readCont c u => Sys2Proof.Machine.execReadCont c u s
  | .readPulse c u => Sys2Proof.Machine.execReadPulse c u s
  | .mirrorReset c => Sys2Proof.Machine.execMirrorReset c s
  | .cfgLoad c regs => Sys2Proof.Machine.execCfgLoad c regs s
  | .cfgReassert c => Sys2Proof.Machine.execCfgReassert c s
  | .calGet m ch => Sys2Proof.Machine.execCalGet m ch s
  | .calSet m ch gain offset => Sys2Proof.Machine.execCalSet m ch gain offset s
  | .adcCode2v g raw => Sys2Proof.Machine.execAdcCode2v g raw s
  | .calApply m ch v => Sys2Proof.Machine.execCalApply m ch v s
  | .dacV2code ch v => Sys2Proof.Machine.execDacV2code ch v s
  | .dacCode2v ch code => Sys2Proof.Machine.execDacCode2v ch code s
  | .tcCode2t b0 b1 b2 b3 b4 => Sys2Proof.Machine.execTcCode2t b0 b1 b2 b3 b4 s
  | .reservedOp00 _ _ => Sys2Proof.Machine.execReservedOp00 s
  | .reservedOp1f _ _ => Sys2Proof.Machine.execReservedOp1f s
  | .wRreg a dummies => Sys2Proof.Machine.execWRreg a dummies s
  | .wRregRefAdc a cnt => Sys2Proof.Machine.execWRregRefAdc a cnt s
  | .wWreg a values => Sys2Proof.Machine.execWWreg a values s
  | .wWregRefAdc a values => Sys2Proof.Machine.execWWregRefAdc a values s
  | .wTcRead a dummies => Sys2Proof.Machine.execWTcRead a dummies s
  | .wTcWrite a values => Sys2Proof.Machine.execWTcWrite a values s
  | .wStart1 => Sys2Proof.Machine.execWStart1 s
  | .wStart2 => Sys2Proof.Machine.execWStart2 s
  | .wStop1 => Sys2Proof.Machine.execWStop1 s
  | .wStop2 => Sys2Proof.Machine.execWStop2 s
  | .wReset => Sys2Proof.Machine.execWReset s
  | .wNop => Sys2Proof.Machine.execWNop s
  | .wSelfcal1 => Sys2Proof.Machine.execWSelfcal1 s
  | .wSelfcal2 => Sys2Proof.Machine.execWSelfcal2 s
  | .wRdata1 => Sys2Proof.Machine.execWRdata1 s
  | .wRdata2 => Sys2Proof.Machine.execWRdata2 s
  | .wDacFrame op ch d => Sys2Proof.Machine.execWDacFrame op ch d s
  | .wDacWrupd ch d => Sys2Proof.Machine.execWDacWrupd ch d s

end Sys2Proof.Machine
end

