-- ==== Sys2Proof/Machine/Sequences.lean ====
section
/-! DEFINITION. The controller sequences (43_sequences.md): a sequence is begun, and then its controller issues one
operation after the other on the command port of its instance, each answered on the result port (rules R104, R108 and R250).
Between two of them the other instances may do anything (rule R256). DESIGN CHOICE: log entry 22. -/

namespace Sys2Proof.Machine
open Sys2Proof.Config

/-- What comes after a step: another one, or the end of the sequence with its result. -/
inductive Onward where
  | goOn (r : SeqRun)
  | returns (ws : List Word)
  deriving DecidableEq, Repr

/-- The instance whose controller runs a sequence. -/
def seqChip : Sequence → Chip
  | .readVoltage _ _ | .singleSample _ | .readSamplesBatch _ _ _ _ => .adc
  | .writeVoltageChannel _ _ => .dac
  | .readTemperatures _ => .tc
  | .resetChip c => c

/-- The unit id of a sequence: "an operand with default 1" (rule R250). -/
def unitOr (u : Option (BitVec 9)) : BitVec 9 := u.getD 1

/-- One field of a request (rule R16). -/
def ask (f v : Byte) : Pair := { field := f, value := v.setWidth 24 }

/-! ### How a sequence begins -/

/-- The start of rules R251 and R252: the checks before any frame, then the read of a running continuous conversion, or a
pulse conversion after the request `req`. -/
def openVoltage (req : List Pair) (ch : Byte) (u : Option (BitVec 9)) (s : State) : Except Raised Onward :=
  let first := fun (n : SeqStep) => Onward.goOn { unit := unitOr u, next := n, entries := [ch], out := [] }
  if inContinuous s .adc then
    if (convOf s .adc).mode ≠ .converting then .error (raised .continuousModeError 0)
    else if mirrorGet s .adc fActiveChannel ≠ some ch then .error (raised .invalidConfigValue fActiveChannel.toNat)
    else match lookupCal s .adc ch.toNat with
      | .error e => .error e
      | .ok _ => .ok (first (.readCont .adc))
  else match lookupCal s .adc ch.toNat with
    | .error e => .error e
    | .ok _ => .ok (first (.configure .adc req))

/-- The checks a batch makes before any frame, in list order (rule R253). -/
def batchChecks (s : State) : List Byte → Except Raised Unit
  | [] => .ok ()
  | id :: rest =>
    if isLegal (profOf s .adc) (fActiveChannel, id) = false then
      .error (raised .invalidConfigValue fActiveChannel.toNat)
    else match lookupCal s .adc id.toNat with
      | .error e => .error e
      | .ok _ => batchChecks s rest

/-- Whether a data-rate value is legal (rule R253). -/
def legalRate (p : ChipProfile) (dr : BitVec 24) : Bool :=
  match fieldSpec p fDataRate with
  | some spec => (legalValue spec dr).isSome
  | none => false

/-- The start of rule R253: nothing to do for no entry; else the checks, then the first round, whose request names the mode
and the rate as well. -/
def openBatch (dr : BitVec 24) (l : List Byte) (u : Option (BitVec 9)) (s : State) : Except Raised Onward :=
  match l with
  | [] => .ok (.returns [])
  | first :: _ => match batchChecks s l with
    | .error e => .error e
    | .ok _ =>
      if legalRate (profOf s .adc) dr = false then .error (raised .invalidConfigValue fDataRate.toNat)
      else
        let req := [ask fConvMode (profOf s .adc).pulse, { field := fDataRate, value := dr }, ask fActiveChannel first]
        .ok (.goOn { unit := unitOr u, next := .configure .adc req, entries := l, out := [] })

/-- A sequence up to its first operation: the checks it makes itself, and that operation. -/
def openSequence (q : Sequence) (s : State) : Except Raised Onward :=
  match q with
  | .readVoltage ch u => openVoltage [ask fActiveChannel ch] ch u s
  | .singleSample u => openVoltage [] ((mirrorGet s .adc fActiveChannel).getD 0) u s
  | .readSamplesBatch dr channels pairs u => openBatch dr (channels ++ pairs) u s
  | .writeVoltageChannel ch v => .ok (.goOn { unit := unitOr none, next := .toCode ch v, entries := [], out := [] })
  | .readTemperatures u =>
    let first := if inContinuous s .tc then SeqStep.readCont .tc else .configure .tc []
    .ok (.goOn { unit := unitOr u, next := first, entries := [], out := [] })
  | .resetChip _ => .ok (.goOn { unit := unitOr none, next := .buildReset, entries := [], out := [] })

/-! ### How a sequence goes on -/

/-- `emit(s)` and `Transfer(c, s)` of rule R258: a failed reset frame marks the mirror stale (rule R27). -/
def sendReset (c : Chip) (f : Frame) (s : State) : OpEnd Unit :=
  match transfer c f 0 s with
  | .done _ s' => .done () s'
  | .raised e s' => .raised e (withStale s' c true)
  | .hung s' => .hung s'

/-- Runs the next step of the sequence of instance `c`: an operation, with its answer on the result port. -/
def performStep (c : Chip) (r : SeqRun) (s : State) : Host.Outcome State Fault Refusal :=
  match r.next with
  | .configure k req => exec (.setConfig k.toChip req) s
  | .start k => exec (.startConv k r.unit) s
  | .complete k => exec (.convDone k) s
  | .readPulse k => exec (.readPulse k r.unit) s
  | .readCont k => exec (.readCont k r.unit) s
  | .assemble bs => exec (.adcAsm (bs.getD 0 0) (bs.getD 1 0) (bs.getD 2 0)) s
  -- the gain setting is a number of the profile, of any size
  | .toVolts raw => pureOutcome (oneWord (adcCode2v (profOf s .adc) (gainOf (profOf s .adc) (mirrorGet s .adc fGain)) raw)) s
  | .calibrate v => exec (.calApply .adc (r.entries.headD 0) v) s
  | .toTemperatures bs =>
    exec (.tcCode2t (bs.getD 0 0) (bs.getD 1 0) (bs.getD 2 0) (bs.getD 3 0) (bs.getD 4 0)) s
  | .toCode ch v => exec (.dacV2code ch v) s
  | .buildUpdate ch code => exec (.dacWrupd ch code) s
  | .sendUpdate f => wireOutcome (sendByHand c (.ok f) parseNothing s)
  -- BUILD_RESET; rule R258 takes any chip
  | .buildReset => pureOutcome (frameWords (commandFrame (profOf s c).opReset)) s
  | .sendReset f => outcome noWords (sendReset c f s)
  | .resetMirror => exec (.mirrorReset c) s

/-- The bytes of a byte list among the result words (rule R104). -/
def wordsBytes (ws : List Word) : Frame := (ws.drop 1).map fun w => w.setWidth 8

/-- After the code bytes of a read: the ADC's are assembled, the TC's are converted (rules R251 and R255). -/
def afterRead (c : ConvChip) (bytes : Frame) : SeqStep :=
  match c with
  | .adc => .assemble bytes
  | .tc => .toTemperatures bytes

/-- After a calibrated voltage: the next entry is configured, or the voltages are returned (rules R251 and R253). -/
def afterVoltage (r : SeqRun) (v : Word) : Onward :=
  match r.entries.tail with
  | [] => .returns (r.out ++ [v])
  | id :: more =>
    .goOn { r with next := .configure .adc [ask fActiveChannel id], entries := id :: more, out := r.out ++ [v] }

/-- What follows a step that answered `ws`. Between `ADC_ASM` and `ADC_CODE2V` the controller masks the word to the code's
24 bits (rule R251). -/
def follow (r : SeqRun) (ws : List Word) : Onward :=
  let on := fun (n : SeqStep) => Onward.goOn { r with next := n }
  match r.next with
  | .configure k _ => on (.start k)
  | .start k => on (.complete k)
  | .complete k => on (.readPulse k)
  | .readPulse k => on (afterRead k (wordsBytes ws))
  | .readCont k => on (afterRead k (wordsBytes ws))
  | .assemble _ => on (.toVolts ((ws.headD 0).extractLsb' 0 24 |>.setWidth 32))
  | .toVolts _ => on (.calibrate (ws.headD 0))
  | .calibrate _ => afterVoltage r (ws.headD 0)
  | .toTemperatures _ => .returns (ws.drop 2)
  | .toCode ch _ => on (.buildUpdate ch (ws.headD 0))
  | .buildUpdate _ _ => on (.sendUpdate (wordsBytes ws))
  | .sendUpdate _ => .returns []
  | .buildReset => on (.sendReset (wordsBytes ws))
  | .sendReset _ => on .resetMirror
  | .resetMirror => .returns []

/-! ### The controller -/

/-- A sequence goes on, or ends and returns its result to the caller. -/
def goOnward (c : Chip) (o : Onward) (s : State) : State :=
  match o with
  | .goOn r => withIo s c { ioOf s c with running := some r }
  | .returns ws =>
    withIo s c { ioOf s c with running := none, returned := some { status := statusWord 0 0 ws.length, words := ws } }

/-- The fault on the result port ends the sequence with that fault; nothing is rolled back (rule R250). -/
def breakOff (c : Chip) (s : State) : State :=
  withIo s c { ioOf s c with running := none, returned := (ioOf s c).result }

/-- The last answer on an instance's result port. -/
def lastAnswer (s : State) (c : Chip) : Answer := (ioOf s c).result.getD { status := 0, words := [] }

/-- The fault code of a status word (rule R104). -/
def statusCode (w : Word) : Byte := w.extractLsb' 0 8

/-- The controller after its operation: still waiting for it (rule R298), broken off by its fault, or going on with its
answer. -/
def carryOn (c : Chip) (r : SeqRun) (s : State) : State :=
  if (ioOf s c).busy then s
  else if statusCode (lastAnswer s c).status ≠ 0 then breakOff c s
  else goOnward c (follow r (lastAnswer s c).words) s

/-- Begins a sequence. A check of its own that fails is a fault like an operation's, on the result port (rules R278 and
R292). -/
def beginSequence (q : Sequence) (s : State) : State :=
  match openSequence q s with
  | .ok o => goOnward (seqChip q) o s
  | .error e => breakOff (seqChip q) (deliver e s)

/-- The controller of `c` goes on with its sequence, one operation; without one there is nothing to do. -/
def proceed (c : Chip) (s : State) : Host.Outcome State Fault Refusal :=
  match (ioOf s c).running with
  | none => .next s
  | some r => match performStep c r s with
    | .next t => .next (carryOn c r t)
    | .fault e => .fault e
    | .refused e => .refused e

end Sys2Proof.Machine
end

