-- ==== Sys2Proof/Machine/Events.lean ====
section
/-! DEFINITION. What the outside does to the machine, and which of it is taken next: the three command ports (rules R75, R102
and R297), what is presented and is no row of the opcode table (rules R100, R101 and R106), a conversion that runs
concurrently (rule R76), the controllers' sequences (rule R250), the construction of an instance (rules R310 to R312), and
the loss of all three (rule R298). -/

namespace Sys2Proof.Machine
open Sys2Proof.Config

/-! ### Whose port it stands on -/

/-- The instance something presented stands before (rules R102 and R297; for the reserved selector log entry 25). -/
def itemChip : PortItem → Chip
  | .command w _ => chipNamed (chipField w)
  | .frame c _ => c

/-- The operations of 42_conversion.md that write no state (rule R226): those that rule R76 lets run concurrently. -/
def isConversion : Instr → Bool
  | .calGet _ _ | .adcCode2v _ _ | .calApply _ _ _ | .dacV2code _ _ | .dacCode2v _ _ | .tcCode2t _ _ _ _ _ => true
  | _ => false

/-- The conversion that a command is, if it is one. -/
def conversionOf (w : Word) (ws : List Word) : Option Instr :=
  match decodeCommand w ws with
  | .ok i => if isConversion i then some i else none
  | .error _ => none

/-- Whether an event can be taken: its instance takes "one command at a time, run to completion" (rule R297), and while it
is busy nothing but a conversion evaluated concurrently gets by (rule R76). While a sequence is in progress on it, only that
sequence's controller issues operations (rule R256). An operation blocked in its transfer "cannot
be abandoned" (rule R319), so a busy instance is not constructed again alone either. DEDUCED: log entry 11. -/
def canTake (s : State) : Event → Bool
  | .present item => isFree s (itemChip item)
  | .concurrent w ws => (conversionOf w ws).isSome || isFree s (itemChip (.command w ws))
  | .construct c _ => isFree s c
  | .sequence q => isFree s (seqChip q)
  | .proceed c => !(ioOf s c).busy
  | .restart _ => true

/-- Whether an event that waits is lost when another is taken: with the process, all is that was presented to it. DESIGN
CHOICE: log entry 10. -/
def lostWith : Event → Bool
  | .restart _ => true
  | .present _ | .concurrent _ _ | .construct _ _ | .sequence _ | .proceed _ => false

/-- The first event that can be taken, and what is left: an instance's own order is kept (rule R75). -/
def takeNext (s : State) : List Event → Option (Event × List Event)
  | [] => none
  | e :: rest =>
    if canTake s e then some (e, rest) else (takeNext s rest).map fun x => (x.1, if lostWith x.1 then x.2 else e :: x.2)

/-! ### What is no row of the table -/

/-- What a frame without a row of its own brings back: the code bytes of a read-data command of a unit above 2 (rule R95),
else nothing the SCCE uses. -/
def parseRejected : DecodeError → Frame → Except Raised (List Word)
  | .furtherUnit .rdata _ => parseCode
  | _ => parseNothing

/-- What becomes of something presented that is no row. A malformed command is answered with `IllegalCommand` and changes
nothing (rule R106). A frame is sent by hand all the same: "The SCCE gives it no meaning" (rule R101), so nothing of the
SCCE's state changes and nothing of the response is used. DESIGN CHOICE: log entry 12. -/
def rejectItem (item : PortItem) (e : DecodeError) (s : State) : Host.Outcome State Fault Refusal :=
  match item with
  | .command _ _ => .next (deliver illegalCommand s)
  | .frame c f => wireOutcome (sendByHand c (.ok f) (parseRejected e) s)

/-- Runs something presented. -/
def runItem (item : PortItem) (s : State) : Host.Outcome State Fault Refusal :=
  match decodeItem s.profile item with
  | .ok i => exec i s
  | .error e => rejectItem item e s

/-! ### A conversion that races a CAL_SET (rule R76) -/

/-- The pair that a racing conversion reads: the old one, the new one, or a mixture. Where the entry held none there is
nothing to mix, and it is none or the new pair. DESIGN CHOICE: log entry 18. -/
def racedPair (old : Option CalPair) (new : CalPair) (choice : Bool × Bool) : Option CalPair :=
  match old with
  | some o =>
    some { gain := if choice.1 then new.gain else o.gain, offset := if choice.2 then new.offset else o.offset }
  | none => if choice.1 then some new else none

/-- The table a concurrent conversion reads: that of the state, but for the entry of the `CAL_SET` it races. -/
def racedCal (s : State) : CalTable :=
  match s.calRace with
  | none => s.cal
  | some r => match calGet s.cal r.module r.channel with
    | none => s.cal
    | some new => calPut s.cal r.module r.channel (racedPair r.before new (raceChoice s.races))

/-- Runs a conversion over the table it reads; the table itself stays, and the next race has its own free value. -/
def runRacing (i : Instr) (s : State) : Host.Outcome State Fault Refusal :=
  match exec i { s with cal := racedCal s } with
  | .next t => .next { t with cal := s.cal, races := s.races + 1 }
  | .fault r => .fault r
  | .refused r => .refused r

/-! ### The construction of one instance -/

/-- The reset of one instance (rule R311): every state element of it at its reset value, its module's calibration entries
loaded from the store (rule R312), no result pending. No frame is emitted. -/
def construct (c : Chip) (store : List (Option CalPair)) (s : State) : State :=
  let s' := withIo (mirrorReset c s) c resetIo
  { s' with cal := withCells s'.cal c (loadCells (channelCount s'.profile c) store) }

/-- The SCCE constructed again after its process ended. What went out before stays what the outside saw, and the transport
goes on from there. -/
def restart (store : CalTable) (s : State) : State :=
  { State.resetWith s.profile store with
    port := s.port
    replies := s.replies
    transfers := s.transfers
    tx := s.tx
    trace := s.trace
    races := s.races }

/-! ### One event -/

/-- It is the instance of `c` that works now, and the `CAL_SET` that ran last, if one did, is over. -/
def takenBy (c : Chip) (s : State) : State := { s with turn := c, calRace := none }

/-- What an event does once it is taken. -/
def runEvent (e : Event) (s : State) : Host.Outcome State Fault Refusal :=
  match e with
  | .present item => runItem item (takenBy (itemChip item) s)
  | .concurrent w ws => match conversionOf w ws with
    | some i => runRacing i { s with turn := itemChip (.command w ws) }
    | none => runItem (.command w ws) (takenBy (itemChip (.command w ws)) s)
  | .construct c store => .next (construct c store (takenBy c s))
  | .sequence q => .next (beginSequence q (takenBy (seqChip q) s))
  | .proceed c => proceed c (takenBy c s)
  | .restart store => .next (restart store s)

end Sys2Proof.Machine
end

