-- ==== Sys2Proof/Machine/Step.lean ====
section
/-! DEFINITION. One step: take the first event that can be taken and run it (rules R3, R28, R75 and R297). -/

namespace Sys2Proof.Machine

/-- One step. With nothing that can be taken the machine waits: nothing changes. What is taken leaves the port before it
runs. -/
def step (s : State) : Host.Outcome State Fault Refusal :=
  match takeNext s s.port with
  | none => .next s
  | some (e, rest) => runEvent e { s with port := rest }

/-- The state in which an instruction, given by the opcode table's bits, is the next thing presented, and its instance is
free to take it. There is no instruction memory (rule R28): it stands for the outside presenting it. -/
def State.withFetchWord (s : State) (nbits w : Nat) : State :=
  let item := tableItem s.profile nbits w
  withIo { s with port := .present item :: s.port } (itemChip item)
    { ioOf s (itemChip item) with busy := false, running := none }

end Sys2Proof.Machine
end

