-- ==== Sys2Proof/Machine/CommandTable.lean ====
section
/-! DEFINITION. The table of rule R105 as data, and what rule R106 calls reserved or malformed in its terms: a second
reading of the two rules, which the statements hold the decoder against. The machine does not use it. -/

namespace Sys2Proof.Machine

/-- The payload column of rule R105. -/
inductive PayloadKind where
  /-- So many words of any content. -/
  | words (k : Nat)
  /-- As many words as the field `n` says. -/
  | counted
  /-- So many byte-words. -/
  | bytes (k : Nat)
  /-- An integer-word, then so many byte-words. -/
  | byteList
  /-- As many reg-words as the field `n` says. -/
  | countedRegs
  deriving DecidableEq, Repr

/-- One row: the chips it lists, which of the fields `n`, `a`, `aux` it uses, its payload. -/
structure CommandRow where
  chips : List Nat
  usesN : Bool
  usesA : Bool
  usesAux : Bool
  payload : PayloadKind
  deriving DecidableEq, Repr

/-- A row with a unit id or count, on ADC and TC. -/
def unitRow : CommandRow := { chips := [0, 2], usesN := true, usesA := false, usesAux := false, payload := .words 0 }

/-- A row without operands on the given chips. -/
def plainRow (chips : List Nat) (payload : PayloadKind) : CommandRow :=
  { chips := chips, usesN := false, usesA := false, usesAux := false, payload := payload }

/-- A row with a channel id on the given chips. -/
def channelRow (chips : List Nat) (payload : PayloadKind) : CommandRow :=
  { chips := chips, usesN := false, usesA := true, usesAux := false, payload := payload }

/-- A row with counted payload words on any chip. -/
def countedRow (payload : PayloadKind) : CommandRow :=
  { chips := [0, 1, 2], usesN := true, usesA := false, usesAux := false, payload := payload }

/-- The rows 0x01 to 0x1E of rule R105, in order. -/
def commandRowList : List CommandRow :=
  [ { unitRow with usesA := true },
    { unitRow with usesA := true, payload := .counted },
    unitRow, unitRow, plainRow [0, 2] (.words 0), plainRow [0, 2] (.words 0), unitRow, unitRow,
    { unitRow with payload := .byteList },
    { channelRow [1] (.words 1) with usesAux := true },
    channelRow [1] (.words 1), plainRow [0] (.bytes 3) ] ++
  [ countedRow .counted, countedRow .counted, countedRow .counted,
    unitRow, unitRow, plainRow [0, 2] (.words 0), unitRow, unitRow,
    plainRow [0, 1, 2] (.words 0), countedRow .countedRegs, plainRow [0, 1, 2] (.words 0),
    channelRow [0, 1, 2] (.words 0), channelRow [0, 1, 2] (.words 2),
    { plainRow [0] (.words 1) with usesN := true },
    channelRow [0, 1, 2] (.words 1), channelRow [1] (.words 1), channelRow [1] (.words 1), plainRow [2] (.bytes 5) ]

/-- The row of an operation number; 0x00 and 0x1F are reserved. -/
def commandRow (op : Nat) : Option CommandRow := if op = 0 then none else commandRowList[op - 1]?

/-- Whether a payload matches its kind, the field `n` being given. -/
def payloadMatches (kind : PayloadKind) (n : Nat) (ws : List Word) : Bool :=
  match kind with
  | .words k => ws.length == k
  | .counted => ws.length == n
  | .bytes k => ws.length == k && ws.all fun w => decide (w.toNat < 2 ^ 8)
  | .byteList => match ws with
    | [] => false
    | l :: bs => bs.length == l.toNat && bs.all fun w => decide (w.toNat < 2 ^ 8)
  | .countedRegs => ws.length == n && ws.all fun w => decide (w.toNat < 2 ^ 16)

/-- Whether a command is neither reserved nor malformed (rule R106): the command word read by rule R102 as a number. -/
def commandOk (w : Word) (ws : List Word) : Bool :=
  match commandRow (w.toNat / 2 ^ 27) with
  | none => false
  | some r =>
    r.chips.contains (w.toNat / 2 ^ 25 % 4) &&
    (r.usesN || w.toNat / 2 ^ 16 % 2 ^ 9 == 0) && (r.usesA || w.toNat / 2 ^ 8 % 2 ^ 8 == 0) &&
    (r.usesAux || w.toNat % 2 ^ 8 == 0) && payloadMatches r.payload (w.toNat / 2 ^ 16 % 2 ^ 9) ws

end Sys2Proof.Machine
end

