-- ==== Sys2Proof/Safety.lean ====
section
/-! DEFINITION. What a good state is, in the terms the statements use: the shape of the mirror and the calibration table, the
implications of rule R178, and the parts of the state an operation may leave alone. -/

namespace Sys2Proof.Machine
open Sys2Proof.Config

/-- The canonical form of one instance: the mirror and `SetMask` have exactly the profile's fields, in its order, and every
mirrored value is legal (rules R21, R24 and R25). -/
def cfgWf (p : ChipProfile) (x : CfgInstance) : Bool :=
  x.mirror.map (·.1) == p.fields.map (·.id) && x.setMask.map (·.1) == p.fields.map (·.id) &&
  x.mirror.all (fun e => match fieldSpec p e.1 with
    | some f => f.legal.contains e.2
    | none => false)

/-- The canonical form of the calibration table: one cell per channel id (rule R31). It is this hardware's `Memory.wf`. -/
def calWf (p : Profiles) (t : CalTable) : Bool :=
  t.adc.length == channelCount p .adc && t.dac.length == channelCount p .dac && t.tc.length == channelCount p .tc

/-- The two "cannot occur" cells of rule R178: `PulseDone = 1` implies `Mode = Idle`, and `Converting` implies that every
required field is set. -/
def convWf (p : ChipProfile) (x : CfgInstance) (k : ConvState) : Bool :=
  (!k.pulseDone || decide (k.mode = .idle)) &&
  (!decide (k.mode = .converting) || p.required.all fun f => isSet x.setMask f)

/-- Whether a step of a sequence is one of the instance whose controller runs it (rules R250 to R258). -/
def stepOn (c : Chip) : SeqStep → Bool
  | .configure k _ | .start k | .complete k | .readPulse k | .readCont k => decide (k.toChip = c)
  | .assemble _ | .toVolts _ | .calibrate _ => decide (c = .adc)
  | .toTemperatures _ => decide (c = .tc)
  | .toCode _ _ | .buildUpdate _ _ | .sendUpdate _ => decide (c = .dac)
  | .buildReset | .sendReset _ | .resetMirror => true

/-- The controller of an instance issues operations of that instance only (rule R256). -/
def ioWf (c : Chip) (x : InstanceIo) : Bool := x.running.all fun r => stepOn c r.next

/-- The model's invariant: a well-formed profile and every part in its canonical form. -/
def State.inv (s : State) : Bool :=
  profilesOk s.profile && cfgWf s.profile.adc s.adc && cfgWf s.profile.dac s.dac && cfgWf s.profile.tc s.tc &&
  calWf s.profile s.cal && convWf s.profile.adc s.adc s.adcConv && convWf s.profile.tc s.tc s.tcConv &&
  (ioWf .adc s.adcIo && ioWf .dac s.dacIo && ioWf .tc s.tcIo)

/-- Two states agree in all that the spec calls the SCCE's state: the mirrors, the flags, `Mode`, `Cal` and the constant
profile (rules R20 to R33). The ports are left out. -/
def sameCore (s t : State) : Prop :=
  t.profile = s.profile ∧ t.adc = s.adc ∧ t.dac = s.dac ∧ t.tc = s.tc ∧
  t.adcConv = s.adcConv ∧ t.tcConv = s.tcConv ∧ t.cal = s.cal

/-- Two states agree in the ports towards the transport and the trace sink, and in what is still presented. -/
def samePorts (s t : State) : Prop :=
  t.port = s.port ∧ t.replies = s.replies ∧ t.transfers = s.transfers ∧ t.tx = s.tx ∧ t.trace = s.trace

/-- Everything of one instance is the same in two states: its mirror and flags, `Mode`, its calibration entries, its ports and
its controller. -/
def sameInstance (s t : State) (c : Chip) : Prop :=
  cfgOf t c = cfgOf s c ∧ calCells t.cal c = calCells s.cal c ∧ ioOf t c = ioOf s c ∧
  ∀ k : ConvChip, k.toChip = c → convOf t k = convOf s k

/-- What the result port of the instance at work shows. -/
def shown (s : State) : Option Answer := (ioOf s s.turn).result

/-- The fault code shown there: bits 7:0 of the status word (rule R104). -/
def shownCode (s : State) : Option Byte := (shown s).map fun a => a.status.extractLsb' 0 8

/-- The instance of a chip is busy (rule R298). -/
def isBusy (s : State) (c : Chip) : Bool := (ioOf s c).busy

/-- The state in which an instance runs what it took: `rest` is left to be taken, and no `CAL_SET` is racing. -/
def atWork (s : State) (c : Chip) (rest : List Event) : State := { s with port := rest, turn := c, calRace := none }

/-! ### What stands on the ports, and the sequences -/

/-- These events are for instances that cannot take them: presented to one that is busy or whose controller runs a sequence,
a sequence for such a one, or the turn of a controller whose instance is busy (rules R75, R256 and R297). -/
def Waiting (s : State) (events : List Event) : Prop :=
  ∀ e ∈ events, (∃ x, e = .present x ∧ isFree s (itemChip x) = false) ∨
    (∃ q, e = .sequence q ∧ isFree s (seqChip q) = false) ∨ ∃ c, e = .proceed c ∧ isBusy s c = true

/-- The event is for this instance, and it can take it. -/
def Ready (s : State) (e : Event) (c : Chip) : Prop :=
  (isFree s c = true ∧ ((∃ x, e = .present x ∧ itemChip x = c) ∨ (∃ q, e = .sequence q ∧ seqChip q = c) ∨
    ∃ store, e = .construct c store)) ∨
  e = .proceed c ∧ isBusy s c = false

/-- That many steps, one after the other. -/
def steps : Nat → State → Host.Outcome State Fault Refusal
  | 0, s => .next s
  | n + 1, s => match step s with
    | .next t => steps n t
    | o => o

/-- The controller of an instance has this next to do. -/
def goingOn (c : Chip) (r : SeqRun) (s : State) : State := withIo s c { ioOf s c with running := some r }

/-- The controller of an instance has ended its sequence, and its caller has this. -/
def returning (c : Chip) (a : Answer) (s : State) : State :=
  withIo s c { ioOf s c with running := none, returned := some a }

/-- The answer of an operation that raised a fault (rules R104 and R292). -/
def faultAnswer (e : Raised) : Answer := { status := statusWord (faultCode e.fault) e.info 0, words := [] }

/-- The answer of an operation that ended with these words (rule R104). -/
def okAnswer (ws : List Word) : Answer := { status := statusWord 0 0 ws.length, words := ws }

/-- A fault has ended the sequence of an instance: it stands on the result port, and the caller has it (rule R250). -/
def endedBy (c : Chip) (e : Raised) (s : State) : State :=
  withIo s c { ioOf s c with result := some (faultAnswer e), running := none, returned := some (faultAnswer e) }

/-- The step of a sequence in progress is this operation: the controller's turn runs it, its answer stands on the result
port, a fault ends the sequence with that fault, and a transfer that does not return leaves it waiting (rules R250, R270
and R298). `after` says what follows the words it answers. -/
def StepIs (c : Chip) (r : SeqRun) (run : State → Host.Outcome State Fault Refusal) (after : List Word → State → State) :
    Prop :=
  ∀ (s t : State) (waiting rest : List Event),
    s.port = waiting ++ .proceed c :: rest → Waiting s waiting → isBusy s c = false → (ioOf s c).running = some r →
    run (atWork s c (waiting ++ rest)) = .next t →
      (isBusy t c = true → step s = .next t) ∧
      (∀ a, isBusy t c = false → (ioOf t c).result = some a →
        step s = .next (if a.status.toNat % 2 ^ 8 = 0 then after a.words t else returning c a t))

/-- The bytes of a byte list among the result words (rule R104). -/
def bytesOf (ws : List Word) : Frame := (ws.drop 1).map fun w => BitVec.ofNat 8 w.toNat

/-- The gain setting that the mirror selects: `GAIN_VALUE(ADC)(x[ADC][gain])` (rules R8 and R251). -/
def settingOf (s : State) : Option Nat := (mirrorGet s .adc 4).bind fun g => s.profile.adc.gainValue.lookup g

/-- The instance that an instruction is presented to: the chip it names (rules R102 and R297). -/
def instanceOf : Instr → Chip
  | .buildRead c _ _ | .buildWrite c _ _ | .buildStart c _ | .buildStop c _ | .buildReset c | .buildNop c
  | .buildSelfcal c _ | .buildRdata c _ | .parseRead c _ _ | .startConv c _ | .stopConv c _ | .convDone c
  | .readCont c _ | .readPulse c _ => c.toChip
  | .cfgDiff c _ | .cfgCommit c _ | .setConfig c _ | .mirrorReset c | .cfgLoad c _ | .cfgReassert c
  | .calGet c _ | .calSet c _ _ _ | .calApply c _ _ => c
  | .dacFrame _ _ _ | .dacWrupd _ _ | .dacV2code _ _ | .dacCode2v _ _ | .wDacFrame _ _ _ | .wDacWrupd _ _ => .dac
  | .tcCode2t _ _ _ _ _ | .wTcRead _ _ | .wTcWrite _ _ => .tc
  | .reservedOp00 rest _ | .reservedOp1f rest _ => chipNamed (rest.extractLsb' 25 2)
  | .adcAsm _ _ _ | .adcCode2v _ _ | .wRreg _ _ | .wRregRefAdc _ _ | .wWreg _ _ | .wWregRefAdc _ _
  | .wStart1 | .wStart2 | .wStop1 | .wStop2 | .wReset | .wNop | .wSelfcal1 | .wSelfcal2 | .wRdata1 | .wRdata2 => .adc

/-! ### Terms of the statements -/

/-- The number is an address of a map (rule R61). -/
def inMap (valid : List Byte) (k : Nat) : Prop := ∃ b ∈ valid, b.toNat = k

/-- The header of a register frame (rule R17): byte 0, and for the ADC the count byte. -/
def headerBytes (c : ConvChip) (byte0 : Byte) (n : Nat) : Frame :=
  match c with
  | .adc => [byte0, BitVec.ofNat 8 (n - 1)]
  | .tc => [byte0]

/-- The value-word of a byte: `VALFMT` Q24.8 (rule R103). -/
def valueWord (b : Byte) : Word := BitVec.ofNat 32 (256 * b.toNat)

/-- The instruction is presented as the command word of rule R102 with these fields, and these payload words (rule R103). -/
def PresentedAs (i : Instr) (op : Nat) (c : Chip) (n a aux : Nat) (payload : List Word) : Prop :=
  ∀ p : Profiles, ∃ w : Word, encode p i = .command w payload ∧
    w.toNat = 2 ^ 27 * op + 2 ^ 25 * (chipCode c).toNat + 2 ^ 16 * n + 2 ^ 8 * a + aux

/-- The fault `lookup` of rule R210 raises for a module and a channel id, if any: an ADC id at or above 8 that is no defined
pair, any other id outside the table, or a channel without an entry. -/
def LookupRaises (s : State) (m : Chip) (ch : Byte) (e : FaultCode) : Prop :=
  (m = .adc ∧ 8 + s.profile.adc.npair ≤ ch.toNat ∧ e = .invalidDifferentialPairError) ∨
  (m ≠ .adc ∧ channelCount s.profile m ≤ ch.toNat ∧ e = .calibKeyMissingError) ∨
  (ch.toNat < channelCount s.profile m ∧ calGet s.cal m ch.toNat = none ∧ e = .calibKeyMissingError)

/-- A builder of one per-unit command, followed by dummy bytes, has its operation number and does what rules R132 to R138
say: for a unit that the
opcode table defines it answers the frame, for any other it raises `InvalidUnit`. -/
def UnitBuilder (op : Nat) (make : ConvChip → BitVec 9 → Instr) (table : ChipProfile → List Byte)
    (dummies : ConvChip → Nat) : Prop :=
  ∀ (c : ConvChip) (u : BitVec 9) (s : State),
    PresentedAs (make c u) op c.toChip u.toNat 0 0 [] ∧
    (∀ b, 1 ≤ u.toNat → u.toNat ≤ (profOf s c.toChip).nunits → (table (profOf s c.toChip))[u.toNat - 1]? = some b →
      exec (make c u) s = .next (answer s (byteListWords (b :: List.replicate (dummies c) 0x00)))) ∧
    (u = 0 ∨ (profOf s c.toChip).nunits < u.toNat ∨ (table (profOf s c.toChip))[u.toNat - 1]? = none →
      exec (make c u) s = .next (deliver { fault := .invalidUnit, info := u.setWidth 8 } s))

/-- A builder of one command without operand has its operation number and does what rules R134 and R135 say. -/
def CommandBuilder (number : Nat) (make : ConvChip → Instr) (op : ChipProfile → Option Byte) : Prop :=
  ∀ (c : ConvChip) (s : State),
    PresentedAs (make c) number c.toChip 0 0 0 [] ∧
    (∀ b, op (profOf s c.toChip) = some b → exec (make c) s = .next (answer s (byteListWords [b]))) ∧
    (op (profOf s c.toChip) = none → exec (make c) s = .next (deliver { fault := .invalidUnit, info := 0 } s))

/-- A pair names a field and a legal value of it (rule R174). -/
def PairOk (p : ChipProfile) (q : Pair) : Prop :=
  ∃ f, fieldSpec p q.field = some f ∧ ∃ b ∈ f.legal, b.toNat = q.value.toNat

/-- A request that `validate` lets pass (rule R174). -/
def RequestOk (p : ChipProfile) (req : List Pair) : Prop :=
  (req.map (·.field)).Nodup ∧ ∀ q ∈ req, PairOk p q

/-- The value a request gives a field. -/
def asked (req : List Pair) (f : Byte) : Option Byte := (req.find? fun q => q.field == f).map fun q => q.value.setWidth 8

/-- A mirror with a request laid over it: `new(g)` of rule R177. -/
def overlay (mirror : List (Byte × Byte)) (req : List Pair) : List (Byte × Byte) :=
  mirror.map fun e => (e.1, (asked req e.1).getD e.2)

/-- A mask with the fields of a request set. -/
def marked (mask : List (Byte × Bool)) (req : List Pair) : List (Byte × Bool) :=
  mask.map fun e => (e.1, e.2 || (asked req e.1).isSome)

/-- The pairs of a request whose value differs from the mirror, in its order (rule R171). -/
def changed (s : State) (c : Chip) (req : List Pair) : List Pair :=
  req.filter fun q => (mirrorGet s c q.field).map BitVec.toNat != some q.value.toNat

/-- The register of a field. -/
def regOf (p : ChipProfile) (f : Byte) : Option Byte := (fieldSpec p f).map (·.reg)

/-- The registers that a request changes, ascending (rule R177). -/
def changedRegs (s : State) (c : Chip) (req : List Pair) : List Byte :=
  (byteRun 0 256).filter fun r => (changed s c req).any fun q => regOf (profOf s c) q.field == some r

/-- The write frame of one register (rules R92 and R93): the DAC has none. -/
def oneRegister (p : ChipProfile) (c : Chip) (r b : Byte) : Frame :=
  match c with
  | .adc => [p.opWreg ||| waddrOf p r, 0x00, b]
  | .tc => [p.opWreg ||| waddrOf p r, b]
  | .dac => []

/-- The state after frames were sent to a chip, each answered: the transmit port has them, the trace port the copies the
sink took, and that many of the transport's answers are used up. -/
def sent (s : State) (c : Chip) (frames : List Frame) (copies : List (Chip × Frame)) : State :=
  { s with
    tx := s.tx ++ frames.map fun f => (c, f)
    trace := s.trace ++ copies
    replies := s.replies.drop frames.length
    transfers := s.transfers + frames.length }

/-- The next transfers will go like this, whether the transport's answers are listed or free (rule R15, log entry 3). -/
def TransportGives (s : State) (rs : List Reply) : Prop := ∀ j r, rs[j]? = some r → replyAt s j = r

/-- The copies are some of the frames sent, in order (rule R296). -/
def copiesOf (c : Chip) (frames : List Frame) (copies : List (Chip × Frame)) : Prop :=
  copies.Sublist (frames.map fun f => (c, f))

/-- A frame of the state machine is defined for a unit (rules R8, R132, R133, R138 and R179): the unit is one of 1 to
`NUNITS` and has a table entry. The ADC's frame is that command constant with the dummy bytes; the TC's is its template
over the mirror (log entry 6). -/
def UnitFrame (p : ChipProfile) (mirror : List (Byte × Byte)) (c : ConvChip) (commands : List Byte) (dummies : Nat)
    (templates : List (List FrameByte)) (u : Nat) (f : Frame) : Prop :=
  1 ≤ u ∧ u ≤ p.nunits ∧
    match c with
    | .adc => ∃ b, commands[u - 1]? = some b ∧ f = b :: List.replicate dummies 0x00
    | .tc => ∃ t, templates[u - 1]? = some t ∧ f = t.map (frameByte p mirror)

/-- A unit that has no such frame: outside 1 to `NUNITS`, or without a table entry. -/
def NoUnit (p : ChipProfile) (c : ConvChip) (commands : List Byte) (templates : List (List FrameByte)) (u : Nat) : Prop :=
  u < 1 ∨ p.nunits < u ∨
    match c with
    | .adc => commands[u - 1]? = none
    | .tc => templates[u - 1]? = none

/-- A frame that rules R99 and R100 give no meaning: no byte at all; for the ADC a register frame whose count byte is not
that of its bytes, a command with other bytes after it than its dummy bytes, or a byte 0 that is none of these; for the TC
a byte 0 in neither map, or a register frame without a data byte or with more than 256; for the DAC another length than
three. -/
def NoRow (p : Profiles) (c : Chip) (f : Frame) : Prop :=
  match f with
  | [] => True
  | b :: rest => match c with
    | .adc =>
      if b &&& p.adc.opMask = p.adc.opRreg ∨ b &&& p.adc.opMask = p.adc.opWreg then
        ∀ (cnt : Byte) (bytes : Frame), rest = cnt :: bytes → bytes.length ≠ cnt.toNat + 1
      else if b ∈ p.adc.opRdata then rest ≠ [0x00, 0x00, 0x00]
      else b ∈ commandBytes p.adc → rest ≠ []
    | .dac => rest.length ≠ 2
    | .tc => (b ∉ p.tc.validRd ∧ b ∉ p.tc.validWr) ∨ rest = [] ∨ 256 < rest.length

/-- `v` is what three code bytes come to on a channel: the code's voltage at the mirror's gain, then the channel's
calibration, each rounded once, or the fault of the first of the two that raises one (rules R214, R215 and R251). -/
def Volts (s : State) (ch : Byte) (bytes : Frame) (v : Except Raised Word) : Prop :=
  ∃ (b0 b1 b2 g : Byte) (setting : Nat), bytes = [b0, b1, b2] ∧ mirrorGet s .adc 4 = some g ∧
    s.profile.adc.gainValue.lookup g = some setting ∧
    v = (adcCode2v s.profile.adc setting
      (BitVec.ofNat 32 (65536 * b0.toNat + 256 * b1.toNat + b2.toNat))).bind fun x => calApply .adc ch.toNat x s

/-- `k` is the integer nearest to `x`, ties going away from zero (rule R12). -/
def RoundsTo (x : ℚ) (k : Int) : Prop := |x - k| ≤ 1 / 2 ∧ (|x - k| = 1 / 2 → |x| < |(k : ℚ)|)

/-- A value is inside a 32-bit format with `f` fraction bits (rule R12). -/
def InFormat (f : Nat) (x : ℚ) : Prop := -(2 ^ 31 : ℚ) ≤ x * 2 ^ f ∧ x * 2 ^ f ≤ 2 ^ 31 - 1

/-- `N` bits read as a two's-complement number (rule R11), `v` being below 2 to the `N`. -/
def twosComplement (n v : Nat) : Int := if v < 2 ^ (n - 1) then v else (v : Int) - 2 ^ n

/-- The operations of the codec family (40_codec.md). -/
def isCodec : Instr → Bool
  | .buildRead _ _ _ | .buildWrite _ _ _ | .buildStart _ _ | .buildStop _ _ | .buildReset _ | .buildNop _
  | .buildSelfcal _ _ | .buildRdata _ _ | .parseRead _ _ _ | .dacFrame _ _ _ | .dacWrupd _ _ | .adcAsm _ _ _ => true
  | _ => false

/-- The wire-frame rows of the opcode table. -/
def isWire : Instr → Bool
  | .wRreg _ _ | .wRregRefAdc _ _ | .wWreg _ _ | .wWregRefAdc _ _ | .wTcRead _ _ | .wTcWrite _ _
  | .wStart1 | .wStart2 | .wStop1 | .wStop2 | .wReset | .wNop | .wSelfcal1 | .wSelfcal2 | .wRdata1 | .wRdata2
  | .wDacFrame _ _ _ | .wDacWrupd _ _ => true
  | _ => false

/-- The reserved rows. -/
def isReserved : Instr → Bool
  | .reservedOp00 _ _ | .reservedOp1f _ _ => true
  | _ => false

/-- The hand-sent frames that bring something back: how many leading bytes of the response carry none of it (rules R95
and R97). -/
def wireLead : Instr → Option Nat
  | .wRreg _ _ | .wRregRefAdc _ _ => some 2
  | .wTcRead _ _ | .wRdata1 | .wRdata2 => some 1
  | _ => none

/-- What a hand-sent frame of `n` bytes answers: a read the bytes of its response that stand where its dummy bytes stood,
any other frame nothing. -/
def wireWords (i : Instr) (n : Nat) (r : Frame) : List Word :=
  match wireLead i with
  | some lead => byteListWords ((r.drop lead).take (n - lead))
  | none => []

/-- The calibration entry that a conversion reads, if it reads one (rules R210, R211, R215, R218 and R219). -/
def entryRead : Instr → Option (Chip × Nat)
  | .calGet m ch | .calApply m ch _ => some (m, ch.toNat)
  | .dacV2code ch _ | .dacCode2v ch _ => some (.dac, ch.toNat)
  | _ => none

/-- What a conversion that races the replacement of an entry may read there: the old pair, the new pair, or one's gain with
the other's offset (rule R76); where the entry held none there is nothing to mix. -/
def raceReads (old : Option CalPair) (new : CalPair) (k : Option CalPair) : Prop :=
  k = old ∨ k = some new ∨ ∃ o, old = some o ∧
    (k = some { gain := new.gain, offset := o.offset } ∨ k = some { gain := o.gain, offset := new.offset })

/-- The column "raised by" of rule R271, read by instruction. -/
def mayRaise : Instr → List FaultCode
  | .buildRead _ _ _ => [.invalidAddress, .invalidCount]
  | .buildWrite _ _ _ => [.invalidAddress, .invalidCount, .valueOutOfRange, .nonIntegerValue]
  | .buildStart _ _ | .buildStop _ _ | .buildReset _ | .buildNop _ | .buildSelfcal _ _ | .buildRdata _ _ =>
    [.invalidUnit]
  | .parseRead _ _ _ => [.invalidCount, .shortReadError]
  | .dacFrame _ _ _ | .dacWrupd _ _ => [.invalidAddress, .valueOutOfRange]
  | .cfgDiff _ _ | .cfgCommit _ _ | .cfgLoad _ _ => [.invalidConfigValue]
  | .setConfig _ _ => [.rtdEnabledError, .invalidConfigValue, .illegalTransition, .transportFault]
  | .startConv _ _ => [.incompleteConfigError, .invalidUnit, .illegalTransition, .transportFault]
  | .stopConv _ _ => [.invalidUnit, .illegalTransition, .transportFault]
  | .readCont _ _ => [.shortReadError, .continuousModeError, .invalidUnit, .transportFault]
  | .readPulse _ _ => [.shortReadError, .invalidUnit, .illegalTransition, .transportFault]
  | .cfgReassert _ => [.illegalTransition, .transportFault]
  | .calGet _ _ | .calSet _ _ _ _ => [.calibKeyMissingError, .invalidDifferentialPairError]
  | .calApply _ _ _ => [.calibKeyMissingError, .invalidDifferentialPairError, .voltageOutOfRange]
  | .adcCode2v _ _ => [.valueOutOfRange, .voltageOutOfRange, .invalidConfigValue]
  | .dacV2code _ _ => [.calibKeyMissingError, .voltageOutOfRange, .calibGainZero]
  | .dacCode2v _ _ => [.valueOutOfRange, .calibKeyMissingError, .voltageOutOfRange]
  | .tcCode2t _ _ _ _ _ => [.voltageOutOfRange]
  | .reservedOp00 _ _ | .reservedOp1f _ _ => [.illegalCommand]
  | .adcAsm _ _ _ | .convDone _ | .mirrorReset _ => []
  -- the wire-frame rows: log entry 7
  | .wRreg _ _ | .wRregRefAdc _ _ | .wTcRead _ _ | .wRdata1 | .wRdata2 => [.shortReadError, .transportFault]
  | .wWreg _ _ | .wWregRefAdc _ _ | .wTcWrite _ _ | .wStart1 | .wStart2 | .wStop1 | .wStop2 | .wReset | .wNop
  | .wSelfcal1 | .wSelfcal2 | .wDacFrame _ _ _ | .wDacWrupd _ _ => [.transportFault]

/-- The instructions that may write the mirror of a chip (rule R21). -/
def writesMirror (c : Chip) : Instr → Bool
  | .cfgCommit k _ | .setConfig k _ | .cfgLoad k _ | .cfgReassert k | .mirrorReset k => decide (k = c)
  | _ => false

/-- The instructions that may write `SetMask` of a chip (rule R25). -/
def writesSetMask (c : Chip) : Instr → Bool
  | .setConfig k _ | .cfgCommit k _ | .mirrorReset k => decide (k = c)
  | _ => false

/-- The instructions that may write `Stale` of a chip (rule R27). -/
def writesStale (c : Chip) : Instr → Bool
  | .setConfig k _ | .cfgReassert k | .cfgLoad k _ | .mirrorReset k => decide (k = c)
  | _ => false

/-- The instructions that may write `Mode` of a chip (rule R29). -/
def writesMode (c : ConvChip) : Instr → Bool
  | .setConfig k _ | .mirrorReset k => decide (k = c.toChip)
  | .startConv k _ | .stopConv k _ | .convDone k => decide (k = c)
  | _ => false

/-- The instructions that may write `PulseDone` of a chip: those of rule R26, and STOP_CONV (rule R180). -/
def writesPulseDone (c : ConvChip) : Instr → Bool
  | .setConfig k _ | .mirrorReset k => decide (k = c.toChip)
  | .startConv k _ | .stopConv k _ | .convDone k | .readPulse k _ => decide (k = c)
  | _ => false

/-- The instructions that may write `Cal` (rule R32). -/
def writesCal : Instr → Bool
  | .calSet _ _ _ _ => true
  | _ => false

/-- The instructions that may emit a frame and make a transfer. -/
def transfers : Instr → Bool
  | .setConfig _ _ | .cfgReassert _ | .startConv _ _ | .stopConv _ _ | .readCont _ _ | .readPulse _ _ => true
  | i => isWire i

end Sys2Proof.Machine
end

