-- ==== Sys2Proof/Certificates/Slice0/Obligations.lean ====
section
/-! DEFINITION. The statements about the machine, for the provers. Each docstring names the rule of spec/ it formalises, or
says that it is the model's own choice and which log entry makes it. -/

open Sys2Proof Sys2Proof.Config Sys2Proof.Machine

/-! ### The step, the command port and the encodings -/

/-- A step runs the decoded instruction: the first thing presented to a free instance is taken off the port, its instance is
at work, and the instruction it decodes to is run; what stands before it waits for instances that are busy or run a sequence,
and keeps its order (rules R28, R75, R256, R297 and R298). With nothing that an instance could take nothing changes (log
entry 9). -/
def Obligations.StepRunsDecodedInstruction : Prop :=
  ∀ (s : State) (waiting : List Event), Waiting s waiting →
    (∀ (item : PortItem) (rest : List Event) (i : Instr),
      s.port = waiting ++ .present item :: rest → isFree s (itemChip item) = true →
      decodeItem s.profile item = .ok i → step s = exec i (atWork s (itemChip item) (waiting ++ rest))) ∧
    (s.port = waiting → step s = .next s)

/-- Rule R106: every reserved or malformed command raises `IllegalCommand` and changes no state; every other command is
decoded into an operation that is no reserved row, and that operation is run. Malformed is read off the table of rule R105
kept as data in Machine/CommandTable.lean, not off the decoder. The instance that takes the command is the one its chip
selector names (rule R102). -/
def Obligations.CommandsFollowTheTable : Prop :=
  ∀ (s : State) (w : Word) (ws : List Word) (rest : List Event), s.port = .present (.command w ws) :: rest →
    let c := itemChip (.command w ws)
    (∀ k : Chip, w.toNat / 2 ^ 25 % 4 = (chipCode k).toNat → c = k) ∧
    (isFree s c = true →
      (commandOk w ws = false →
        step s = .next (deliver { fault := .illegalCommand, info := 0x00 } (atWork s c rest))) ∧
      (commandOk w ws = true →
        ∃ i, decodeCommand w ws = .ok i ∧ isReserved i = false ∧ isWire i = false ∧ step s = exec i (atWork s c rest)))

/-- Words and frames written out from the spec's encodings decode to the instructions they stand for. -/
def Obligations.DecodeSanityWords : Prop :=
  decodeCommand 0x08020500 [] = .ok (.buildRead .adc 2 0x05) ∧
  decodeCommand 0x5A000300 [1000] = .ok (.dacWrupd 0x03 1000) ∧
  decodeCommand 0x78010000 [0x04000002] = .ok (.setConfig .adc [{ field := 4, value := 2 }]) ∧
  decodeCommand 0x84010000 [] = .ok (.startConv .tc 1) ∧
  decodeCommand 0xCA000300 [0x01000000, 0] = .ok (.calSet .dac 3 0x01000000 0) ∧
  decodeFrame refProfiles .dac [0x33, 0x03, 0xE8] = .ok (.wDacWrupd 3 1000) ∧
  decodeFrame refProfiles .adc [0x08] = .ok .wStart1 ∧
  decodeFrame refProfiles .tc [0x80, 0x90, 0x03] = .ok (.wTcWrite 0x80 [0x90, 0x03])

/-- Decode and encode agree: every instruction that is well formed under a well-formed profile is what its encoding
decodes to, whatever its operands (rules R91 to R96, R100, R102 to R105). -/
def Obligations.DecodeOfEncode : Prop :=
  ∀ (p : Profiles) (i : Instr),
    profilesOk p = true → decodeOk p.adc = true → i.wellFormed p = true → decodeItem p (encode p i) = .ok i

/-- What is presented has one meaning: what a command decodes to encodes back to the very same words, so no bit of a command
is dropped (rules R102 to R106); and what a hand-sent frame decodes to is sent as the very same bytes (rules R91 to R100).
Whatever decodes is well formed, and is an instruction of the instance it is presented to. -/
def Obligations.EncodeOfDecoded : Prop :=
  ∀ (p : Profiles) (item : PortItem) (i : Instr), decodeItem p item = .ok i →
    encode p i = item ∧ i.wellFormed p = true ∧ instanceOf i = itemChip item ∧
    (isWire i = true ↔ ∃ c f, item = .frame c f)

/-- A hand-sent frame that is no row of the table is sent all the same. One that rules R99 and R100 do not decode has no
meaning (rule R101): the very bytes go out, nothing of the response is used and no state of the SCCE changes (log entry
12). A command of a unit above 2 is that command (rules R94, R95, R100, R319 and R322): the bytes go out, a read-data frame
answers the three code bytes after the lead byte or `ShortReadError`, a failed transfer is `TransportFault(0)`, and no state of
the SCCE changes (log entries 7 and 14). -/
def Obligations.FramesWithoutRowAreSent : Prop :=
  ∀ (s : State) (c : Chip) (f : Frame) (rest : List Event), decodeOk s.profile.adc = true → isFree s c = true →
    s.port = .present (.frame c f) :: rest →
    let p := s.profile.adc
    let out := fun copies => sent (atWork s c rest) c [f] copies
    (NoRow s.profile c f →
      (∀ r, replyAt s 0 = .answered r → ∃ copies, copiesOf c [f] copies ∧ step s = .next (answer (out copies) [])) ∧
      (replyAt s 0 = .failed → ∃ copies, copiesOf c [f] copies ∧
        step s = .next (deliver { fault := .transportFault, info := 0 } (out copies)))) ∧
    (∀ (u : Nat) (b : Byte), c = .adc → 3 ≤ u → u ≤ p.nunits →
      let command := f = [b] ∧
        (p.opStart[u - 1]? = some b ∨ p.opStop[u - 1]? = some b ∨ p.opSelfcal[u - 1]? = some b)
      let readData := f = [b, 0x00, 0x00, 0x00] ∧ p.opRdata[u - 1]? = some b
      (∀ r, replyAt s 0 = .answered r →
        (command → ∃ copies, copiesOf c [f] copies ∧ step s = .next (answer (out copies) [])) ∧
        (readData → ∃ copies, copiesOf c [f] copies ∧
          step s =
            if r.length < 4 then
              .next (deliver { fault := .shortReadError, info := BitVec.ofNat 8 r.length } (out copies))
            else .next (answer (out copies) (byteListWords ((r.drop 1).take 3))))) ∧
      (replyAt s 0 = .failed → command ∨ readData → ∃ copies, copiesOf c [f] copies ∧
        step s = .next (deliver { fault := .transportFault, info := 0 } (out copies))))

/-- The result port (rule R104): the status word shows the fault code in bits 7:0, the info in bits 15:8 and the number
of result words in bits 31:16, zero on a fault; the codes are rule R271's. -/
def Obligations.ResultPortLayout : Prop :=
  (∀ (s : State) (ws : List Word), ws.length < 2 ^ 16 → ∃ w,
    shown (answer s ws) = some { status := w, words := ws } ∧
    w.toNat % 2 ^ 8 = 0 ∧ w.toNat / 2 ^ 8 % 2 ^ 8 = 0 ∧ w.toNat / 2 ^ 16 = ws.length) ∧
  (∀ (s : State) (f : FaultCode) (b : Byte), ∃ w,
    shown (deliver { fault := f, info := b } s) = some { status := w, words := [] } ∧
    w.toNat % 2 ^ 8 = (faultCode f).toNat ∧ w.toNat / 2 ^ 8 % 2 ^ 8 = b.toNat ∧ w.toNat / 2 ^ 16 = 0) ∧
  [FaultCode.invalidAddress, .invalidCount, .valueOutOfRange, .nonIntegerValue, .shortReadError,
    .incompleteConfigError, .continuousModeError, .calibKeyMissingError, .invalidDifferentialPairError,
    .voltageOutOfRange, .rtdEnabledError, .illegalCommand, .invalidUnit, .invalidConfigValue, .illegalTransition,
    .calibGainZero, .transportFault].map faultCode =
  [0x01, 0x02, 0x03, 0x04, 0x05, 0x06, 0x07, 0x08, 0x09, 0x0A, 0x0B, 0x10, 0x11, 0x12, 0x13, 0x14, 0x20]

/-! ### Reset and the invariant -/

/-- Rule R38, row by row, for every profile and every persistent store: the mirrors hold the profile's defaults, no
field is set, the modes are Idle, PulseDone and Stale are 0, each calibration cell is what the store returns or none,
and there is no pending result; and reset has emitted nothing (rule R311). Constructing one free instance, which is its
reset (rules R297 and R310 to R312), gives every row of it that value and leaves the other two instances and all frames
alone. When the process has ended (rule R298), all three are constructed again; that what waited is lost then and the
transport goes on is the model's choice (log entry 10), that an instance waiting for its transfer ends in no other way the
model's inference (log entry 11), and the controllers' fields are the model's own (log entry 22). -/
def Obligations.ResetValues : Prop :=
  let io : InstanceIo := { busy := false, result := none, running := none, returned := none }
  (∀ (p : Profiles) (store : CalTable),
    let s := State.resetWith p store
    (∀ c : Chip, cfgOf s c =
      { mirror := (p.of c).fields.map fun f => (f.id, f.dflt)
        setMask := (p.of c).fields.map fun f => (f.id, false)
        stale := false } ∧ ioOf s c = io) ∧
    (∀ c : ConvChip, convOf s c = { mode := .idle, pulseDone := false }) ∧
    (∀ (m : Chip) (ch : Nat), validCh p m ch = true → calGet s.cal m ch = ((calCells store m)[ch]?).join) ∧
    s.tx = [] ∧ s.profile = p) ∧
  (∀ (c : Chip) (store : List (Option CalPair)) (rest : List Event) (s : State), s.port = .construct c store :: rest →
    isFree s c = true → ∃ t, step s = .next t ∧
      cfgOf t c =
        { mirror := (profOf s c).fields.map fun f => (f.id, f.dflt)
          setMask := (profOf s c).fields.map fun f => (f.id, false)
          stale := false } ∧
      ioOf t c = io ∧
      (∀ k : ConvChip, k.toChip = c → convOf t k = { mode := .idle, pulseDone := false }) ∧
      (∀ ch, validCh s.profile c ch = true → calGet t.cal c ch = (store[ch]?).join) ∧
      (∀ d, d ≠ c → sameInstance s t d) ∧
      samePorts { s with port := rest } t ∧ t.profile = s.profile) ∧
  ∀ (waiting rest : List Event) (store : CalTable) (s : State), s.port = waiting ++ .restart store :: rest →
    Waiting s waiting → ∃ t, step s = .next t ∧
      sameCore (State.resetWith s.profile store) t ∧ (∀ c, ioOf t c = io) ∧ samePorts { s with port := rest } t

/-- The reset state meets the invariant, and so does the reset state of every well-formed profile and every store. -/
def Obligations.ResetMeetsInvariant : Prop :=
  State.reset.inv = true ∧
  ∀ (p : Profiles) (store : CalTable), profilesOk p = true → (State.resetWith p store).inv = true

/-- Every step keeps the invariant: mirror and SetMask keep exactly the profile's fields and only legal values, the
calibration table keeps its shape, PulseDone implies Idle and Converting implies that every required field is set (the
"cannot occur" cells of rule R178); and a controller issues operations of its own instance only (rule R256). -/
def Obligations.StepKeepsInvariant : Prop :=
  ∀ s t : State, s.inv = true → step s = .next t → t.inv = true

/-! ### The codec -/

/-- Rule R130, BUILD_READ: the frame, and the faults in their order (start address, count, later addresses). Every other
part of the state is as before. -/
def Obligations.BuildReadResult : Prop :=
  ∀ (c : ConvChip) (n : BitVec 9) (a : Byte) (s : State),
    let p := profOf s c.toChip
    PresentedAs (.buildRead c n a) 0x01 c.toChip n.toNat a.toNat 0 [] ∧
    (¬ inMap p.validRd a.toNat →
      exec (.buildRead c n a) s = .next (deliver { fault := .invalidAddress, info := a } s)) ∧
    (inMap p.validRd a.toNat → n.toNat < 1 ∨ 256 < n.toNat →
      exec (.buildRead c n a) s = .next (deliver { fault := .invalidCount, info := n.setWidth 8 } s)) ∧
    (∀ k, n.toNat ≤ 256 → 0 < k → k < n.toNat → (∀ j < k, inMap p.validRd (a.toNat + j)) →
      ¬ inMap p.validRd (a.toNat + k) →
      exec (.buildRead c n a) s = .next (deliver { fault := .invalidAddress, info := BitVec.ofNat 8 (a.toNat + k) } s)) ∧
    (1 ≤ n.toNat → n.toNat ≤ 256 → (∀ j < n.toNat, inMap p.validRd (a.toNat + j)) →
      exec (.buildRead c n a) s =
        .next (answer s (byteListWords (headerBytes c (p.opRreg ||| a) n.toNat ++ List.replicate n.toNat 0x00))))

/-- Rule R131, BUILD_WRITE: the frame, and the faults in their order (start address, count, later addresses, then value
by value, integrality before range). Every other part of the state is as before. -/
def Obligations.BuildWriteResult : Prop :=
  ∀ (c : ConvChip) (a : Byte) (values : List Word) (s : State),
    let p := profOf s c.toChip
    (values.length < 512 →
      PresentedAs (.buildWrite c a values) 0x02 c.toChip values.length a.toNat 0 values) ∧
    (¬ inMap p.validWr a.toNat →
      exec (.buildWrite c a values) s = .next (deliver { fault := .invalidAddress, info := a } s)) ∧
    (inMap p.validWr a.toNat → values.length < 1 ∨ 256 < values.length →
      exec (.buildWrite c a values) s =
        .next (deliver { fault := .invalidCount, info := BitVec.ofNat 8 values.length } s)) ∧
    (∀ k, values.length ≤ 256 → 0 < k → k < values.length → (∀ j < k, inMap p.validWr (a.toNat + j)) →
      ¬ inMap p.validWr (a.toNat + k) →
      exec (.buildWrite c a values) s =
        .next (deliver { fault := .invalidAddress, info := BitVec.ofNat 8 (a.toNat + k) } s)) ∧
    (1 ≤ values.length → values.length ≤ 256 → (∀ j < values.length, inMap p.validWr (a.toNat + j)) →
      (∀ (bytes : Frame) (v : Word) (more : List Word), values = bytes.map valueWord ++ v :: more →
        v.toNat % 256 ≠ 0 →
        exec (.buildWrite c a values) s =
          .next (deliver { fault := .nonIntegerValue, info := BitVec.ofNat 8 bytes.length } s)) ∧
      (∀ (bytes : Frame) (v : Word) (more : List Word), values = bytes.map valueWord ++ v :: more →
        v.toNat % 256 = 0 → v.toInt < 0 ∨ 255 * 256 < v.toInt →
        exec (.buildWrite c a values) s =
          .next (deliver { fault := .valueOutOfRange, info := BitVec.ofNat 8 bytes.length } s)) ∧
      (∀ bytes : Frame, values = bytes.map valueWord →
        exec (.buildWrite c a values) s =
          .next (answer s (byteListWords (headerBytes c (p.opWreg ||| a) values.length ++ bytes)))))

/-- Rule R137, PARSE_READ: the count is checked, then the length, then exactly `n` bytes after the lead bytes (two of the
ADC, one of the TC) are answered. Every other part of the state is as before. And rule R143, the round trip: whatever frame
BUILD_READ answers, every response of that frame's length is parsed without a fault into exactly `n` values. -/
def Obligations.ParseReadResult : Prop :=
  (∀ (c : ConvChip) (n : BitVec 9) (raw : Frame) (s : State),
    let strip := match c with
      | .adc => 2
      | .tc => 1
    PresentedAs (.parseRead c n raw) 0x09 c.toChip n.toNat 0 0 (byteListWords raw) ∧
    (n.toNat < 1 ∨ 256 < n.toNat →
      exec (.parseRead c n raw) s = .next (deliver { fault := .invalidCount, info := n.setWidth 8 } s)) ∧
    (1 ≤ n.toNat → n.toNat ≤ 256 → raw.length < strip + n.toNat →
      exec (.parseRead c n raw) s = .next (deliver { fault := .shortReadError, info := BitVec.ofNat 8 raw.length } s)) ∧
    (1 ≤ n.toNat → n.toNat ≤ 256 → strip + n.toNat ≤ raw.length →
      exec (.parseRead c n raw) s = .next (answer s (byteListWords ((raw.drop strip).take n.toNat))) ∧
      ((raw.drop strip).take n.toNat).length = n.toNat)) ∧
  ∀ (c : ConvChip) (n : BitVec 9) (a : Byte) (f r : Frame) (s : State),
    exec (.buildRead c n a) s = .next (answer s (byteListWords f)) → r.length = f.length →
      exec (.parseRead c n r) s = .next (answer s (byteListWords ((r.drop (f.length - n.toNat)).take n.toNat))) ∧
      ((r.drop (f.length - n.toNat)).take n.toNat).length = n.toNat

/-- Rules R132, R133, R134, R135, R136 and R138: the single-byte commands and the read-data frame are looked up in the
profile's opcode table, and a miss raises `InvalidUnit`; a read-data frame has three dummy bytes for the ADC (rules R8 and
R95) and five for the TC (log entry 21). Every other part of the state is as before. -/
def Obligations.CommandBuilders : Prop :=
  UnitBuilder 0x03 .buildStart (·.opStart) (fun _ => 0) ∧ UnitBuilder 0x04 .buildStop (·.opStop) (fun _ => 0) ∧
  CommandBuilder 0x05 .buildReset (·.opReset) ∧ CommandBuilder 0x06 .buildNop (·.opNop) ∧
  UnitBuilder 0x07 .buildSelfcal (·.opSelfcal) (fun _ => 0) ∧ 
  UnitBuilder 0x08 .buildRdata (·.opRdata) fun c =>
    match c with
    | .adc => 3
    | .tc => 5

/-- Rules R139 and R140, DAC_FRAME and DAC_WRUPD: channel, opcode and data are checked in this order, and the frame is
opcode and channel in byte 0 and the data most significant byte first. Every other part of the state is as before. -/
def Obligations.DacFrameResult : Prop :=
  ∀ (op ch : Byte) (d : Word) (s : State),
    PresentedAs (.dacFrame op ch d) 0x0A .dac 0 ch.toNat op.toNat [d] ∧
    PresentedAs (.dacWrupd ch d) 0x0B .dac 0 ch.toNat 0 [d] ∧
    (7 < ch.toNat → exec (.dacFrame op ch d) s = .next (deliver { fault := .invalidAddress, info := ch } s)) ∧
    (ch.toNat ≤ 7 → 15 < op.toNat →
      exec (.dacFrame op ch d) s = .next (deliver { fault := .valueOutOfRange, info := 0 } s)) ∧
    (ch.toNat ≤ 7 → op.toNat ≤ 15 → 65535 < d.toNat →
      exec (.dacFrame op ch d) s = .next (deliver { fault := .valueOutOfRange, info := 1 } s)) ∧
    (ch.toNat ≤ 7 → op.toNat ≤ 15 → d.toNat ≤ 65535 →
      exec (.dacFrame op ch d) s =
        .next (answer s (byteListWords
          [BitVec.ofNat 8 (16 * op.toNat + ch.toNat), BitVec.ofNat 8 (d.toNat / 256), BitVec.ofNat 8 d.toNat]))) ∧
    exec (.dacWrupd ch d) s = exec (.dacFrame 3 ch d) s ∧
    (ch.toNat ≤ 7 → d.toNat ≤ 65535 →
      exec (.dacWrupd ch d) s =
        .next (answer s (byteListWords
          [BitVec.ofNat 8 (48 + ch.toNat), BitVec.ofNat 8 (d.toNat / 256), BitVec.ofNat 8 d.toNat])))

/-- Rule R141, ADC_ASM: the three bytes, most significant first, as a signed 24-bit number, sign-extended to the word.
Every other part of the state is as before. -/
def Obligations.AdcAsmResult : Prop :=
  ∀ (b0 b1 b2 : Byte) (s : State),
    PresentedAs (.adcAsm b0 b1 b2) 0x0C .adc 0 0 0 [byteWord b0, byteWord b1, byteWord b2] ∧ ∃ w : Word,
    exec (.adcAsm b0 b1 b2) s = .next (answer s [w]) ∧
    w.toInt = twosComplement 24 (65536 * b0.toNat + 256 * b1.toNat + b2.toNat)

/-- Rule R142, purity of the codec: each operation answers in every state, changes nothing but the result port, and its
answer depends on the operands and the profile only. -/
def Obligations.CodecIsPure : Prop :=
  ∀ i : Instr, isCodec i = true → ∀ s s' : State, s.profile = s'.profile → ∃ r : Answer,
    exec i s = .next (withResult s r) ∧ exec i s' = .next (withResult s' r)

/-! ### The mirror -/

/-- Rule R174: a request that names no field of the chip, repeats one, or gives one an illegal value, is refused by
CFG_DIFF, CFG_COMMIT and SET_CONFIG with the first offending field, and nothing else changes. -/
def Obligations.BadRequestIsRefused : Prop :=
  ∀ (c : Chip) (good : List Pair) (q : Pair) (more : List Pair) (s : State),
    RequestOk (profOf s c) good → (¬ PairOk (profOf s c) q ∨ q.field ∈ good.map (·.field)) →
    let refused : Host.Outcome State Fault Refusal := .next (deliver { fault := .invalidConfigValue, info := q.field } s)
    exec (.cfgDiff c (good ++ q :: more)) s = refused ∧ exec (.cfgCommit c (good ++ q :: more)) s = refused ∧
    exec (.setConfig c (good ++ q :: more)) s = refused

/-- Rule R171, CFG_DIFF: the first pair that is not valid is refused; for a valid request the pairs that differ from the
mirror are answered, in the request's order; no state but the result port changes. -/
def Obligations.CfgDiffResult : Prop :=
  ∀ (c : Chip) (req : List Pair) (s : State),
    (req.length < 512 → PresentedAs (.cfgDiff c req) 0x0D c req.length 0 0 (pairWords req)) ∧
    (∀ (good : List Pair) (q : Pair) (more : List Pair), req = good ++ q :: more → RequestOk (profOf s c) good →
      ¬ PairOk (profOf s c) q ∨ q.field ∈ good.map (·.field) →
      exec (.cfgDiff c req) s = .next (deliver { fault := .invalidConfigValue, info := q.field } s)) ∧
    (RequestOk (profOf s c) req →
      exec (.cfgDiff c req) s =
        .next (answer s ((changed s c req).map fun q => pairWord q.field q.value)))

/-- Rule R172, CFG_COMMIT: the first pair that is not valid is refused; for a valid request the mirror takes the values and
SetMask the fields; `Stale`, `Mode`, `PulseDone`, the other chips and the ports are as before. -/
def Obligations.CfgCommitResult : Prop :=
  ∀ (c : Chip) (req : List Pair) (s : State),
    (req.length < 512 → PresentedAs (.cfgCommit c req) 0x0E c req.length 0 0 (pairWords req)) ∧
    (∀ (good : List Pair) (q : Pair) (more : List Pair), req = good ++ q :: more → RequestOk (profOf s c) good →
      ¬ PairOk (profOf s c) q ∨ q.field ∈ good.map (·.field) →
      exec (.cfgCommit c req) s = .next (deliver { fault := .invalidConfigValue, info := q.field } s)) ∧
    (RequestOk (profOf s c) req →
      exec (.cfgCommit c req) s =
        .next (answer
          (withCfg s c
            { mirror := overlay (cfgOf s c).mirror req
              setMask := marked (cfgOf s c).setMask req
              stale := (cfgOf s c).stale }) []))

/-- Rule R173, the diff laws: (a) the diff is empty exactly when every pair equals the mirror; (b) after a CFG_COMMIT or
a SET_CONFIG that ended and succeeded the same request's diff is empty; (c) CFG_DIFF leaves the SCCE's state as it was. -/
def Obligations.DiffLaws : Prop :=
  ∀ (c : Chip) (req : List Pair) (s : State), s.inv = true → RequestOk (profOf s c) req →
    (exec (.cfgDiff c req) s = .next (answer s []) ↔
      ∀ q ∈ req, (mirrorGet s c q.field).map BitVec.toNat = some q.value.toNat) ∧
    (∀ t, exec (.cfgCommit c req) s = .next t → exec (.cfgDiff c req) t = .next (answer t [])) ∧
    (∀ t, exec (.setConfig c req) s = .next t → isBusy t c = false → shownCode t = some 0 →
      exec (.cfgDiff c req) t = .next (answer t [])) ∧
    (∀ t, exec (.cfgDiff c req) s = .next t → sameCore s t ∧ samePorts s t)

/-- Rule R176: in a well-formed profile, unpacking a packed register gives back the fields' values. -/
def Obligations.UnpackOfPack : Prop :=
  ∀ (p : ChipProfile) (r : Byte) (vals : List (Byte × Byte)), fieldsOk p = true →
    (∀ f ∈ fieldsOf p r, ∃ v, bankGet vals f.id = some v ∧ v.toNat < 2 ^ (f.hi + 1 - f.lo)) →
    unpack p r (pack p r vals) = (fieldsOf p r).map fun f => (f.id, (bankGet vals f.id).getD 0)

/-- Rules R175 and R177, SET_CONFIG's refusals after a valid request: an RTD conflict of the effective configuration
first, then a conversion in progress; neither changes anything. -/
def Obligations.SetConfigRefused : Prop :=
  ∀ (c : Chip) (req : List Pair) (s : State), RequestOk (profOf s c) req →
    let p := profOf s c
    let eff := fun f => (asked req f).or (mirrorGet s c f)
    let conflict := (fieldSpec p 7).isSome ∧ (fieldSpec p 2).isSome ∧ eff 7 = some p.rtdOn ∧
      ∃ ch ∈ p.rtdReserved, eff 2 = some ch
    (conflict → exec (.setConfig c req) s = .next (deliver { fault := .rtdEnabledError, info := 0 } s)) ∧
    (¬ conflict → ∀ k : ConvChip, k.toChip = c → (convOf s k).mode = .converting →
      exec (.setConfig c req) s = .next (deliver { fault := .illegalTransition, info := 2 } s))

/-- Rule R177, SET_CONFIG that succeeds: for a valid request without conflict, not while converting, with every transfer
answered, exactly one frame per changed register goes out, lowest register first, each with the packed byte of the new
configuration; the mirror holds the request, SetMask its fields, the chip is in `Configuring`, the changed pairs are
answered, and nothing else changes. Its operation number and its pair-words are those of rules R103 and R105. -/
def Obligations.SetConfigSucceeds : Prop :=
  (∀ (c : Chip) (req : List Pair), req.length < 512 →
    PresentedAs (.setConfig c req) 0x0F c req.length 0 0 (pairWords req)) ∧
  ∀ (c : Chip) (req : List Pair) (s : State) (rs : List Frame),
    s.inv = true → RequestOk (profOf s c) req →
    rtdConflict (profOf s c) (cfgOf s c).mirror (req.map fun q => (q.field, q.value.setWidth 8)) = false →
    isConverting s c = false →
    TransportGives s (rs.map .answered) → rs.length = (changedRegs s c req).length →
    let frames := (changedRegs s c req).map fun r =>
      oneRegister (profOf s c) c r (pack (profOf s c) r (overlay (cfgOf s c).mirror req))
    ∃ copies, copiesOf c frames copies ∧
      exec (.setConfig c req) s =
        .next (answer
          (enterConfiguring c
            (withCfg (sent s c frames copies) c
              { mirror := overlay (cfgOf s c).mirror req
                setMask := marked (cfgOf s c).setMask req
                stale := (cfgOf s c).stale }))
          ((changed s c req).map fun q => pairWord q.field q.value))

/-- Rules R177 and R187, SET_CONFIG whose transfer for register `r` fails: the registers before it stay committed, it and
the later ones are not, `Stale` is 1, the chip is in `Configuring`, and `TransportFault(r)` is raised. -/
def Obligations.SetConfigTransferFails : Prop :=
  ∀ (c : Chip) (req : List Pair) (s : State) (before : List Byte) (r : Byte) (after : List Byte) (rs : List Frame),
    s.inv = true → RequestOk (profOf s c) req →
    rtdConflict (profOf s c) (cfgOf s c).mirror (req.map fun q => (q.field, q.value.setWidth 8)) = false →
    isConverting s c = false →
    changedRegs s c req = before ++ r :: after →
    TransportGives s (rs.map .answered ++ [.failed]) → rs.length = before.length →
    let frames := (before ++ [r]).map fun r =>
      oneRegister (profOf s c) c r (pack (profOf s c) r (overlay (cfgOf s c).mirror req))
    let done := (changed s c req).filter fun q => before.any fun b => regOf (profOf s c) q.field == some b
    ∃ copies, copiesOf c frames copies ∧
      exec (.setConfig c req) s =
        .next (deliver { fault := .transportFault, info := r }
          (enterConfiguring c
            (withCfg (sent s c frames copies) c
              { mirror := overlay (cfgOf s c).mirror done
                setMask := marked (cfgOf s c).setMask done
                stale := true })))

/-- Rule R186, CFG_REASSERT: refused while converting; else every register that holds a field is written with what the
mirror holds, lowest first, and `Stale` is cleared; a failed transfer sets `Stale` and raises `TransportFault(r)`. The
mirror, SetMask, Mode and PulseDone do not change. -/
def Obligations.CfgReassertResult : Prop :=
  ∀ (c : Chip) (s : State), profilesOk s.profile = true →
    let frame := fun r => oneRegister (profOf s c) c r (pack (profOf s c) r (cfgOf s c).mirror)
    PresentedAs (.cfgReassert c) 0x17 c 0 0 0 [] ∧
    (isConverting s c = true →
      exec (.cfgReassert c) s = .next (deliver { fault := .illegalTransition, info := 2 } s)) ∧
    (∀ (rs : List Frame), isConverting s c = false →
      TransportGives s (rs.map .answered) → rs.length = (fieldRegs (profOf s c)).length →
      ∃ copies, copiesOf c ((fieldRegs (profOf s c)).map frame) copies ∧
        exec (.cfgReassert c) s =
          .next (answer (withStale (sent s c ((fieldRegs (profOf s c)).map frame) copies) c false) [])) ∧
    (∀ (before : List Byte) (r : Byte) (after : List Byte) (rs : List Frame),
      isConverting s c = false → fieldRegs (profOf s c) = before ++ r :: after →
      TransportGives s (rs.map .answered ++ [.failed]) → rs.length = before.length →
      ∃ copies, copiesOf c ((before ++ [r]).map frame) copies ∧
        exec (.cfgReassert c) s =
          .next (deliver { fault := .transportFault, info := r }
            (withStale (sent s c ((before ++ [r]).map frame) copies) c true)))

/-- Rule R184, MIRROR_RESET: every field at its default and none set, `Stale` 0, and on ADC and TC `Mode` Idle and
`PulseDone` 0; the calibration table, the other chips, the ports, whether an instance is busy and what its controller does are
as before, and nothing but the answer reaches the result port. -/
def Obligations.MirrorResetResult : Prop :=
  ∀ (c : Chip) (s : State),
    PresentedAs (.mirrorReset c) 0x15 c 0 0 0 [] ∧ ∃ t, exec (.mirrorReset c) s = .next (answer t []) ∧
    cfgOf t c =
      { mirror := (profOf s c).fields.map fun f => (f.id, f.dflt)
        setMask := (profOf s c).fields.map fun f => (f.id, false)
        stale := false } ∧
    (∀ k : ConvChip, k.toChip = c → convOf t k = { mode := .idle, pulseDone := false }) ∧
    (∀ d, d ≠ c → cfgOf t d = cfgOf s d) ∧ (∀ k : ConvChip, k.toChip ≠ c → convOf t k = convOf s k) ∧
    t.cal = s.cal ∧ t.profile = s.profile ∧ samePorts s t ∧ (∀ d, ioOf t d = ioOf s d) ∧ t.turn = s.turn ∧
    t.calRace = s.calRace ∧ t.races = s.races

/-- Rule R185, CFG_LOAD: the register list must be exactly the registers that hold a field, once each; the first register
of the list with an illegal value is refused with the field; else each field takes its bits of its register's byte,
`Stale` is cleared, and SetMask, Mode and PulseDone stay. -/
def Obligations.CfgLoadResult : Prop :=
  ∀ (c : Chip) (regs : List RegByte) (s : State), s.inv = true →
    let p := profOf s c
    let value := fun (f : FieldSpec) => (regs.find? fun x => x.reg == f.reg).map fun x => byteBits x.byte f.hi f.lo
    let covers := (regs.map (·.reg)).Nodup ∧ ∀ r, r ∈ regs.map (·.reg) ↔ r ∈ p.fields.map (·.reg)
    (regs.length < 512 → PresentedAs (.cfgLoad c regs) 0x16 c regs.length 0 0 (regs.map regWord)) ∧
    (¬ covers → exec (.cfgLoad c regs) s = .next (deliver { fault := .invalidConfigValue, info := 0xFF } s)) ∧
    (∀ (good : List RegByte) (x : RegByte) (more : List RegByte), covers → regs = good ++ x :: more →
      (∀ y ∈ good, ∀ f ∈ p.fields, f.reg = y.reg → byteBits y.byte f.hi f.lo ∈ f.legal) →
      (∃ f ∈ p.fields, f.reg = x.reg ∧ byteBits x.byte f.hi f.lo ∉ f.legal) →
      ∃ f ∈ p.fields, f.reg = x.reg ∧ byteBits x.byte f.hi f.lo ∉ f.legal ∧
        exec (.cfgLoad c regs) s = .next (deliver { fault := .invalidConfigValue, info := f.id } s)) ∧
    (covers → (∀ f ∈ p.fields, ∀ v, value f = some v → v ∈ f.legal) →
      exec (.cfgLoad c regs) s =
        .next (answer
          (withCfg s c
            { mirror := p.fields.map fun f => (f.id, (value f).getD 0)
              setMask := (cfgOf s c).setMask
              stale := false }) []))

/-! ### The state machine -/

/-- Rule R179, START_CONV: the smallest required field never set, then the mode, then the unit, then the transfer, in this
order; on success the start frame is out and the chip is converting. Every fault but the transfer's leaves all as it was,
and that one changes no core state. For the ADC the frame is the one BUILD_START answers; the TC's is its template
over the mirror (rule R8, log entry 6). -/
def Obligations.StartConvResult : Prop :=
  ∀ (c : ConvChip) (u : BitVec 9) (s : State),
    let p := profOf s c.toChip
    let x := cfgOf s c.toChip
    let frame := UnitFrame p x.mirror c p.opStart 0 p.startFrame u.toNat
    PresentedAs (.startConv c u) 0x10 c.toChip u.toNat 0 0 [] ∧
    (∀ f, f ∈ p.required → isSet x.setMask f = false → (∀ g ∈ p.required, g < f → isSet x.setMask g = true) →
      exec (.startConv c u) s = .next (deliver { fault := .incompleteConfigError, info := f } s)) ∧
    ((∀ g ∈ p.required, isSet x.setMask g = true) →
      ((convOf s c).mode = .idle →
        exec (.startConv c u) s = .next (deliver { fault := .illegalTransition, info := 0 } s)) ∧
      ((convOf s c).mode = .converting →
        exec (.startConv c u) s = .next (deliver { fault := .illegalTransition, info := 2 } s)) ∧
      ((convOf s c).mode = .configuring →
        (NoUnit p c p.opStart p.startFrame u.toNat →
          exec (.startConv c u) s = .next (deliver { fault := .invalidUnit, info := u.setWidth 8 } s)) ∧
        (∀ f, frame f → replyAt s 0 = .failed →
          ∃ copies, copiesOf c.toChip [f] copies ∧
            exec (.startConv c u) s =
              .next (deliver { fault := .transportFault, info := 0 } (sent s c.toChip [f] copies))) ∧
        (∀ f r, frame f → replyAt s 0 = .answered r →
          ∃ copies, copiesOf c.toChip [f] copies ∧
            exec (.startConv c u) s =
              .next (answer
                (withConv (sent s c.toChip [f] copies) c { mode := .converting, pulseDone := false }) [])))) ∧
    (∀ f, c = .adc → frame f →
      exec (.buildStart .adc u) s = .next (answer s (byteListWords f)))

/-- Rule R180, STOP_CONV: legal in `Converting` only; on success the stop frame is out and the chip is idle. For the ADC
the frame is the one BUILD_STOP answers; the TC's is its template over the mirror (rule R8, log entry 6). -/
def Obligations.StopConvResult : Prop :=
  ∀ (c : ConvChip) (u : BitVec 9) (s : State),
    let p := profOf s c.toChip
    let x := cfgOf s c.toChip
    let frame := UnitFrame p x.mirror c p.opStop 0 p.stopFrame u.toNat
    PresentedAs (.stopConv c u) 0x11 c.toChip u.toNat 0 0 [] ∧
    ((convOf s c).mode = .idle →
      exec (.stopConv c u) s = .next (deliver { fault := .illegalTransition, info := 0 } s)) ∧
    ((convOf s c).mode = .configuring →
      exec (.stopConv c u) s = .next (deliver { fault := .illegalTransition, info := 1 } s)) ∧
    ((convOf s c).mode = .converting →
      (NoUnit p c p.opStop p.stopFrame u.toNat →
        exec (.stopConv c u) s = .next (deliver { fault := .invalidUnit, info := u.setWidth 8 } s)) ∧
      (∀ f, frame f → replyAt s 0 = .failed →
        ∃ copies, copiesOf c.toChip [f] copies ∧
          exec (.stopConv c u) s =
            .next (deliver { fault := .transportFault, info := 0 } (sent s c.toChip [f] copies))) ∧
      (∀ f r, frame f → replyAt s 0 = .answered r →
        ∃ copies, copiesOf c.toChip [f] copies ∧
          exec (.stopConv c u) s =
            .next (answer (withConv (sent s c.toChip [f] copies) c { mode := .idle, pulseDone := false }) []))) ∧
    (∀ f, c = .adc → frame f →
      exec (.buildStop .adc u) s = .next (answer s (byteListWords f)))

/-- Rule R181, CONV_DONE: in a pulse-mode conversion the chip becomes idle with its pulse done; in every other state the
event is ignored; it never faults and emits nothing. -/
def Obligations.ConvDoneResult : Prop :=
  ∀ (c : ConvChip) (s : State),
    PresentedAs (.convDone c) 0x12 c.toChip 0 0 0 [] ∧
    ((convOf s c).mode = .converting → mirrorGet s c.toChip 0 = some (profOf s c.toChip).pulse →
      exec (.convDone c) s = .next (answer (withConv s c { mode := .idle, pulseDone := true }) [])) ∧
    ((convOf s c).mode ≠ .converting ∨ mirrorGet s c.toChip 0 ≠ some (profOf s c.toChip).pulse →
      exec (.convDone c) s = .next (answer s []))

/-- Rule R182, READ_CONT: outside a continuous-mode conversion `ContinuousModeError`; then the unit, the transfer and the
response's length, in this order; the code bytes after the one lead byte are answered and no core state changes. For the
ADC the frame is the one BUILD_RDATA answers; the TC's is its template over the mirror (rule R8, log entry 6). -/
def Obligations.ReadContResult : Prop :=
  ∀ (c : ConvChip) (u : BitVec 9) (s : State),
    let p := profOf s c.toChip
    let x := cfgOf s c.toChip
    let frame := UnitFrame p x.mirror c p.opRdata 3 p.readFrame u.toNat
    let keep := match c with
      | .adc => 3
      | .tc => 5
    let running := (convOf s c).mode = .converting ∧ mirrorGet s c.toChip 0 = some p.continuous
    PresentedAs (.readCont c u) 0x13 c.toChip u.toNat 0 0 [] ∧
    (¬ running → exec (.readCont c u) s = .next (deliver { fault := .continuousModeError, info := 0 } s)) ∧
    (running → NoUnit p c p.opRdata p.readFrame u.toNat →
      exec (.readCont c u) s = .next (deliver { fault := .invalidUnit, info := u.setWidth 8 } s)) ∧
    (∀ f, running → frame f → replyAt s 0 = .failed →
      ∃ copies, copiesOf c.toChip [f] copies ∧
        exec (.readCont c u) s =
          .next (deliver { fault := .transportFault, info := 0 } (sent s c.toChip [f] copies))) ∧
    (∀ f r, running → frame f → replyAt s 0 = .answered r →
      ∃ copies, copiesOf c.toChip [f] copies ∧
        exec (.readCont c u) s =
          if r.length < 1 + keep then
            .next (deliver { fault := .shortReadError, info := BitVec.ofNat 8 r.length } (sent s c.toChip [f] copies))
          else .next (answer (sent s c.toChip [f] copies) (byteListWords ((r.drop 1).take keep)))) ∧
    (∀ f, c = .adc → frame f →
      exec (.buildRdata .adc u) s = .next (answer s (byteListWords f)))

/-- Rule R183, READ_PULSE: legal in `Idle` with a pulse conversion done; then the unit, the transfer and the length; on
success the code bytes are answered and `PulseDone` is cleared, so that the same read cannot be made twice. The TC's frame
is its template over the mirror (rule R8, log entry 6). -/
def Obligations.ReadPulseResult : Prop :=
  ∀ (c : ConvChip) (u : BitVec 9) (s : State),
    let p := profOf s c.toChip
    let x := cfgOf s c.toChip
    let frame := UnitFrame p x.mirror c p.opRdata 3 p.readFrame u.toNat
    let keep := match c with
      | .adc => 3
      | .tc => 5
    let ready := (convOf s c).mode = .idle ∧ (convOf s c).pulseDone = true
    PresentedAs (.readPulse c u) 0x14 c.toChip u.toNat 0 0 [] ∧
    (¬ ready →
      exec (.readPulse c u) s =
        .next (deliver { fault := .illegalTransition, info := BitVec.ofNat 8 (modeCode (convOf s c).mode) } s)) ∧
    (ready → NoUnit p c p.opRdata p.readFrame u.toNat →
      exec (.readPulse c u) s = .next (deliver { fault := .invalidUnit, info := u.setWidth 8 } s)) ∧
    (∀ f, ready → frame f → replyAt s 0 = .failed →
      ∃ copies, copiesOf c.toChip [f] copies ∧
        exec (.readPulse c u) s =
          .next (deliver { fault := .transportFault, info := 0 } (sent s c.toChip [f] copies))) ∧
    (∀ f r, ready → frame f → replyAt s 0 = .answered r →
      ∃ copies, copiesOf c.toChip [f] copies ∧
        exec (.readPulse c u) s =
          if r.length < 1 + keep then
            .next (deliver { fault := .shortReadError, info := BitVec.ofNat 8 r.length } (sent s c.toChip [f] copies))
          else
            .next (answer (withConv (sent s c.toChip [f] copies) c { mode := .idle, pulseDone := false })
              (byteListWords ((r.drop 1).take keep))))

/-- Rule R178, the transition table, over every instruction: from one mode to another the machine goes only by the
operation the table names for that chip, and from `Idle` to `Converting` or from `Converting` to `Configuring` never. -/
def Obligations.ModeTransitions : Prop :=
  ∀ (i : Instr) (s t : State) (c : ConvChip), exec i s = .next t → (convOf s c).mode ≠ (convOf t c).mode →
    ((convOf s c).mode = .idle ∧ (convOf t c).mode = .configuring ∧ ∃ req, i = .setConfig c.toChip req) ∨
    ((convOf s c).mode = .configuring ∧ (convOf t c).mode = .converting ∧ ∃ u, i = .startConv c u) ∨
    ((convOf s c).mode = .configuring ∧ (convOf t c).mode = .idle ∧ i = .mirrorReset c.toChip) ∨
    ((convOf s c).mode = .converting ∧ (convOf t c).mode = .idle ∧
      ((∃ u, i = .stopConv c u) ∨ i = .mirrorReset c.toChip ∨
        (i = .convDone c ∧ mirrorGet s c.toChip 0 = some (profOf s c.toChip).pulse)))

/-! ### Whole-machine rules -/

/-- Who writes what, over every instruction (rules R21, R25, R26, R27, R29, R32 and R33): a piece of a chip's state that
changed was changed by an operation on that chip that the spec lists as its writer, and nothing ever writes the
profile. And the instances share nothing (rules R20, R75 and R297): an instruction changes no state of another instance
than the one it is presented to, its calibration entries included, and answers on the port of the instance at work only.
An operation does nothing to the controllers (log entry 22). -/
def Obligations.WhoWritesWhat : Prop :=
  ∀ (i : Instr) (s t : State), exec i s = .next t →
    t.profile = s.profile ∧
    (t.cal ≠ s.cal → writesCal i = true) ∧
    (∀ c : Chip, ((cfgOf t c).mirror ≠ (cfgOf s c).mirror → writesMirror c i = true) ∧
      ((cfgOf t c).setMask ≠ (cfgOf s c).setMask → writesSetMask c i = true) ∧
      ((cfgOf t c).stale ≠ (cfgOf s c).stale → writesStale c i = true)) ∧
    (∀ c : ConvChip, ((convOf t c).mode ≠ (convOf s c).mode → writesMode c i = true) ∧
      ((convOf t c).pulseDone ≠ (convOf s c).pulseDone → writesPulseDone c i = true)) ∧
    (∀ c : Chip, c ≠ instanceOf i →
      cfgOf t c = cfgOf s c ∧ calCells t.cal c = calCells s.cal c ∧ isBusy t c = isBusy s c) ∧
    (∀ k : ConvChip, k.toChip ≠ instanceOf i → convOf t k = convOf s k) ∧
    t.turn = s.turn ∧ (∀ c : Chip, c ≠ s.turn → (ioOf t c).result = (ioOf s c).result) ∧
    ∀ c : Chip, (ioOf t c).running = (ioOf s c).running ∧ (ioOf t c).returned = (ioOf s c).returned

/-- Rules R270 and R288, faults are precise, in a well-formed profile: an operation that ended and whose answer shows a
fault answers no result word and leaves the SCCE's state and what is still presented as they were. Only `TransportFault`
can leave state changed, and that only in the two operations that write registers: `Stale` is 1 then, the calibration
table, the profile and the other chips are as before, CFG_REASSERT has changed nothing else, and SET_CONFIG has the chip in
`Configuring` (what it has committed is rule R187's). -/
def Obligations.FaultsArePrecise : Prop :=
  ∀ (i : Instr) (s t : State) (k : Byte),
    profilesOk s.profile = true → exec i s = .next t → isBusy t (instanceOf i) = false → shownCode t = some k → k ≠ 0x00 →
    t.port = s.port ∧ (∃ a, shown t = some a ∧ a.words = [] ∧ a.status.toNat / 2 ^ 16 = 0) ∧
    (sameCore s t ∨
      k = 0x20 ∧ ∃ c : Chip, (cfgOf t c).stale = true ∧ t.cal = s.cal ∧ t.profile = s.profile ∧
        (∀ d, d ≠ c → cfgOf t d = cfgOf s d) ∧
        ((i = .cfgReassert c ∧ (cfgOf t c).mirror = (cfgOf s c).mirror ∧ (cfgOf t c).setMask = (cfgOf s c).setMask ∧
            ∀ q : ConvChip, convOf t q = convOf s q) ∨
          ((∃ req, i = .setConfig c req) ∧ ∀ q : ConvChip,
            convOf t q = if q.toChip = c then { mode := .configuring, pulseDone := false } else convOf s q)))

/-- Rule R271's column "raised by", over every well-formed instruction in every state that meets the invariant: the answer of an
operation that ended shows no fault, or one the table lists for the operation (for the hand-sent frames, log entry 7), and
no other code ever. -/
def Obligations.RaisedByTable : Prop :=
  ∀ (i : Instr) (s t : State), s.inv = true → i.wellFormed s.profile = true → exec i s = .next t →
    isBusy t (instanceOf i) = false →
    shownCode t = some 0x00 ∨ ∃ f ∈ mayRaise i, shownCode t = some (faultCode f)

/-- Nothing stops the machine: every instruction and every step answers a next state (rules R270 and R292). Only a transfer
that never returns makes an instance busy (rules R15 and R298): without one among the transfers to come, no instruction
does. An operation that waits for its transfer has its frame out, answers nothing and changes no more; shown of START_CONV.
While an instance waits, no further transfer returns: it keeps the bus's lock, which blocks the others forever (rules R71
and R78; that the lock is not given back is the model's inference, log entry 11). -/
def Obligations.HungTransferHoldsItsInstance : Prop :=
  (∀ (i : Instr) (s : State), ∃ t, exec i s = .next t) ∧ (∀ s : State, ∃ t, step s = .next t) ∧
  (∀ (i : Instr) (s t : State), exec i s = .next t → (∀ j, replyAt s j ≠ .never) → ∀ c, isBusy t c = isBusy s c) ∧
  (∀ (c : ConvChip) (u : BitVec 9) (s : State) (f : Frame), replyAt s 0 = .never →
    (∀ g ∈ (profOf s c.toChip).required, isSet (cfgOf s c.toChip).setMask g = true) →
    (convOf s c).mode = .configuring →
    UnitFrame (profOf s c.toChip) (cfgOf s c.toChip).mirror c (profOf s c.toChip).opStart 0
      (profOf s c.toChip).startFrame u.toNat f →
      ∃ t copies, exec (.startConv c u) s = .next t ∧ copiesOf c.toChip [f] copies ∧ isBusy t c.toChip = true ∧
        sameCore s t ∧ samePorts (sent s c.toChip [f] copies) t ∧ ∀ d, (ioOf t d).result = (ioOf s d).result) ∧
  (∀ (s : State) (c : Chip), isBusy s c = true → ∀ j, replyAt s j = .never)

/-- Rules R14 and R296, the output ports over every instruction: the transmit port only grows, only by an operation that
transfers; each frame emitted counts one transfer; the trace takes some of the frames, in order, and what is still
presented stays. -/
def Obligations.PortsOnlyGrow : Prop :=
  ∀ (i : Instr) (s t : State), exec i s = .next t →
    ∃ frames copies, t.tx = s.tx ++ frames ∧ t.trace = s.trace ++ copies ∧ copies.Sublist frames ∧
      t.transfers = s.transfers + frames.length ∧ t.replies = s.replies.drop frames.length ∧ t.port = s.port ∧
      (frames ≠ [] → transfers i = true)

/-- A reserved operation number raises `IllegalCommand` and changes nothing else (rules R106 and R283). -/
def Obligations.ReservedRaisesIllegalCommand : Prop :=
  ∀ (rest : BitVec 27) (payload : List Word) (s : State),
    exec (.reservedOp00 rest payload) s = .next (deliver { fault := .illegalCommand, info := 0x00 } s) ∧
    exec (.reservedOp1f rest payload) s = .next (deliver { fault := .illegalCommand, info := 0x00 } s)

/-! ### Calibration and conversion -/

/-- Rules R210 and R211, the lookup and CAL_GET: an ADC id at or above 8 that is no defined pair is
`InvalidDifferentialPairError`, everything else without an entry `CalibKeyMissingError`; an entry is answered as its gain
and its offset. Nothing else changes. -/
def Obligations.CalGetResult : Prop :=
  ∀ (m : Chip) (ch : Byte) (s : State),
    PresentedAs (.calGet m ch) 0x18 m 0 ch.toNat 0 [] ∧
    channelCount s.profile .adc = 8 + s.profile.adc.npair ∧ channelCount s.profile .dac = 8 ∧
    channelCount s.profile .tc = 1 ∧
    (∀ e, LookupRaises s m ch e → exec (.calGet m ch) s = .next (deliver { fault := e, info := ch } s)) ∧
    (∀ k, ch.toNat < channelCount s.profile m → calGet s.cal m ch.toNat = some k →
      exec (.calGet m ch) s = .next (answer s [k.gain, k.offset]))

/-- Rule R212, CAL_SET: an id outside the table is refused as the lookup would; else the one entry is replaced or created,
whatever the two words, a CAL_GET then answers them, and nothing else changes; what the model keeps for rule R76, that a
CAL_SET was the last to run, is left open here. -/
def Obligations.CalSetResult : Prop :=
  ∀ (m : Chip) (ch : Byte) (gain offset : Word) (s : State), calWf s.profile s.cal = true →
    PresentedAs (.calSet m ch gain offset) 0x19 m 0 ch.toNat 0 [gain, offset] ∧
    (∀ e, channelCount s.profile m ≤ ch.toNat → LookupRaises s m ch e →
      exec (.calSet m ch gain offset) s = .next (deliver { fault := e, info := ch } s)) ∧
    (ch.toNat < channelCount s.profile m → ∃ cal race,
      exec (.calSet m ch gain offset) s = .next (answer { s with cal := cal, calRace := race } []) ∧
      calGet cal m ch.toNat = some { gain := gain, offset := offset } ∧
      exec (.calGet m ch) { s with cal := cal } = .next (answer { s with cal := cal } [gain, offset]) ∧
      ∀ (m' : Chip) (k : Nat), (m', k) ≠ (m, ch.toNat) → calGet cal m' k = calGet s.cal m' k)

/-- Rule R216, calibration entries are independent: after any CAL_SET of one entry, CAL_APPLY of another answers what it
answered before; changing `AIN1`'s entry does not change a result keyed by a pair. -/
def Obligations.CalEntriesIndependent : Prop :=
  ∀ (m m' : Chip) (ch ch' : Byte) (gain offset v : Word) (s t u : State), (m', ch') ≠ (m, ch) →
    exec (.calSet m ch gain offset) s = .next t → exec (.calApply m' ch' v) s = .next u →
      ∃ r, u = withResult s r ∧ exec (.calApply m' ch' v) t = .next (withResult t r)

/-- Rule R214, ADC_CODE2V: a gain setting the chip has, then bits 31:24 zero, then the exact voltage
`sext_24(raw) / 2^23 · VREF / G` inside the format; the answer is it, rounded once. Nothing else changes. -/
def Obligations.AdcCode2vResult : Prop :=
  ∀ (g : BitVec 9) (raw : Word) (s : State),
    let p := s.profile.adc
    let has := ∃ f, fieldSpec p 4 = some f ∧ ∃ x ∈ f.legal, p.gainValue.lookup x = some g.toNat
    let v : ℚ := (twosComplement 24 (raw.toNat % 2 ^ 24) : ℚ) / 2 ^ 23 * ((p.vref.toInt : ℚ) / 2 ^ 24) / g.toNat
    PresentedAs (.adcCode2v g raw) 0x1A .adc g.toNat 0 0 [raw] ∧
    (¬ has → exec (.adcCode2v g raw) s = .next (deliver { fault := .invalidConfigValue, info := 4 } s)) ∧
    (has → 2 ^ 24 ≤ raw.toNat → exec (.adcCode2v g raw) s = .next (deliver { fault := .valueOutOfRange, info := 0 } s)) ∧
    (has → raw.toNat < 2 ^ 24 → ¬ InFormat 24 v →
      exec (.adcCode2v g raw) s = .next (deliver { fault := .voltageOutOfRange, info := 0 } s)) ∧
    (has → raw.toNat < 2 ^ 24 → InFormat 24 v →
      ∃ w : Word, exec (.adcCode2v g raw) s = .next (answer s [w]) ∧ RoundsTo (v * 2 ^ 24) w.toInt)

/-- Rule R215, CAL_APPLY: the lookup's faults, then `v · gain + offset` exactly, rounded once, or `VoltageOutOfRange`.
Nothing else changes. -/
def Obligations.CalApplyResult : Prop :=
  ∀ (m : Chip) (ch : Byte) (v : Word) (s : State),
    PresentedAs (.calApply m ch v) 0x1B m 0 ch.toNat 0 [v] ∧
    (∀ e, LookupRaises s m ch e → exec (.calApply m ch v) s = .next (deliver { fault := e, info := ch } s)) ∧
    (∀ k : CalPair, ch.toNat < channelCount s.profile m → calGet s.cal m ch.toNat = some k →
      let y : ℚ := (v.toInt : ℚ) / 2 ^ 24 * ((k.gain.toInt : ℚ) / 2 ^ 24) + (k.offset.toInt : ℚ) / 2 ^ 24
      (¬ InFormat 24 y → exec (.calApply m ch v) s = .next (deliver { fault := .voltageOutOfRange, info := 0 } s)) ∧
      (InFormat 24 y →
        ∃ w : Word, exec (.calApply m ch v) s = .next (answer s [w]) ∧ RoundsTo (y * 2 ^ 24) w.toInt))

/-- Rule R218, DAC_V2CODE: the lookup's faults, then a zero gain, then the inverse-calibrated voltage inside `[0, VREF]`,
then the rounded code with only 65536 clamped to 65535. Nothing else changes. -/
def Obligations.DacV2codeResult : Prop :=
  ∀ (ch : Byte) (v : Word) (s : State), 0 < s.profile.dac.vref.toInt →
    PresentedAs (.dacV2code ch v) 0x1C .dac 0 ch.toNat 0 [v] ∧
    (∀ e, LookupRaises s .dac ch e → exec (.dacV2code ch v) s = .next (deliver { fault := e, info := ch } s)) ∧
    (∀ k : CalPair, ch.toNat ≤ 7 → calGet s.cal .dac ch.toNat = some k →
      let vref : ℚ := (s.profile.dac.vref.toInt : ℚ) / 2 ^ 24
      let v' : ℚ := ((v.toInt : ℚ) / 2 ^ 24 - (k.offset.toInt : ℚ) / 2 ^ 24) / ((k.gain.toInt : ℚ) / 2 ^ 24)
      (k.gain = 0 → exec (.dacV2code ch v) s = .next (deliver { fault := .calibGainZero, info := ch } s)) ∧
      (k.gain ≠ 0 → v' < 0 ∨ vref < v' →
        exec (.dacV2code ch v) s = .next (deliver { fault := .voltageOutOfRange, info := 0 } s)) ∧
      (k.gain ≠ 0 → 0 ≤ v' → v' ≤ vref →
        ∃ n : Nat, RoundsTo (v' / vref * 65536) n ∧
          exec (.dacV2code ch v) s = .next (answer s [BitVec.ofNat 32 (min n 65535)])))

/-- Rule R219, DAC_CODE2V: a code above 65535 first, then the lookup's faults, then `(code / 65536) · VREF · gain + offset`,
rounded once, or `VoltageOutOfRange`. Nothing else changes. -/
def Obligations.DacCode2vResult : Prop :=
  ∀ (ch : Byte) (code : Word) (s : State),
    PresentedAs (.dacCode2v ch code) 0x1D .dac 0 ch.toNat 0 [code] ∧
    (65535 < code.toNat → exec (.dacCode2v ch code) s = .next (deliver { fault := .valueOutOfRange, info := 0 } s)) ∧
    (∀ e, code.toNat ≤ 65535 → LookupRaises s .dac ch e →
      exec (.dacCode2v ch code) s = .next (deliver { fault := e, info := ch } s)) ∧
    (∀ k : CalPair, code.toNat ≤ 65535 → ch.toNat ≤ 7 → calGet s.cal .dac ch.toNat = some k →
      let y : ℚ := (code.toNat : ℚ) / 65536 * ((s.profile.dac.vref.toInt : ℚ) / 2 ^ 24) * ((k.gain.toInt : ℚ) / 2 ^ 24) +
        (k.offset.toInt : ℚ) / 2 ^ 24
      (¬ InFormat 24 y → exec (.dacCode2v ch code) s = .next (deliver { fault := .voltageOutOfRange, info := 0 } s)) ∧
      (InFormat 24 y →
        ∃ w : Word, exec (.dacCode2v ch code) s = .next (answer s [w]) ∧ RoundsTo (y * 2 ^ 24) w.toInt))

/-- Rule R220, the DAC round trip: the voltage of the code of a voltage is that voltage, within one DAC step seen through
the calibration and the half step of the output's rounding. -/
def Obligations.DacRoundTrip : Prop :=
  ∀ (ch : Byte) (v code w : Word) (k : CalPair) (s : State),
    calGet s.cal .dac ch.toNat = some k → k.gain ≠ 0 → 0 < s.profile.dac.vref.toInt →
    exec (.dacV2code ch v) s = .next (answer s [code]) → exec (.dacCode2v ch code) s = .next (answer s [w]) →
      |(w.toInt : ℚ) / 2 ^ 24 - (v.toInt : ℚ) / 2 ^ 24| ≤
        |(k.gain.toInt : ℚ) / 2 ^ 24| * ((s.profile.dac.vref.toInt : ℚ) / 2 ^ 24) / 65536 + 1 / 2 ^ 25

/-- Rule R221, TC_CODE2T: the two codes are the top bits of their groups as two's-complement numbers, the temperatures
those codes times their LSB weights (2 to the minus the profile's integers), each rounded once; `VoltageOutOfRange` if one
does not fit. The low unused bits and the calibration table do not matter, and nothing else changes. -/
def Obligations.TcCode2tResult : Prop :=
  ∀ (b0 b1 b2 b3 b4 : Byte) (s : State), 1 ≤ s.profile.tc.cjBits → s.profile.tc.cjBits ≤ 16 →
    let p := s.profile.tc
    let cj := twosComplement p.cjBits ((256 * b0.toNat + b1.toNat) / 2 ^ (16 - p.cjBits))
    let lt := twosComplement 19 ((65536 * b2.toNat + 256 * b3.toNat + b4.toNat) / 2 ^ 5)
    let cjTemp : ℚ := (cj : ℚ) / (2 : ℚ) ^ p.cjLsbExp
    let ltTemp : ℚ := (lt : ℚ) / (2 : ℚ) ^ p.ltLsbExp
    PresentedAs (.tcCode2t b0 b1 b2 b3 b4) 0x1E .tc 0 0 0
      [byteWord b0, byteWord b1, byteWord b2, byteWord b3, byteWord b4] ∧
    (¬ (InFormat 16 cjTemp ∧ InFormat 16 ltTemp) →
      exec (.tcCode2t b0 b1 b2 b3 b4) s = .next (deliver { fault := .voltageOutOfRange, info := 0 } s)) ∧
    (InFormat 16 cjTemp → InFormat 16 ltTemp →
      ∃ w0 w1 w2 w3 : Word, exec (.tcCode2t b0 b1 b2 b3 b4) s = .next (answer s [w0, w1, w2, w3]) ∧
        w0.toInt = cj ∧ w1.toInt = lt ∧ RoundsTo (cjTemp * 2 ^ 16) w2.toInt ∧ RoundsTo (ltTemp * 2 ^ 16) w3.toInt)

/-- Rule R226, purity of the conversions: each answers in every state, changes nothing but the result port, and its answer
depends on the operands, the profile and the calibration table only. -/
def Obligations.ConversionIsPure : Prop :=
  ∀ i : Instr, isConversion i = true → ∀ s s' : State, s.profile = s'.profile → s.cal = s'.cal → ∃ r : Answer,
    exec i s = .next (withResult s r) ∧ exec i s' = .next (withResult s' r)

/-- Rule R76: a conversion may run concurrently with anything, a busy instance and a CAL_SET of another entry included, and
answers what it answers alone; any one that races a CAL_SET of the entry it reads finds there the old pair, the new pair, or
the gain of one with the offset of the other (which of them is free; an entry that held none is still none or new: log entry
18). Either way no state of the SCCE changes. -/
def Obligations.ConversionsRunConcurrently : Prop :=
  ∀ (w : Word) (ws : List Word) (i : Instr) (rest : List Event) (s : State), decodeCommand w ws = .ok i →
    isConversion i = true →
    -- no CAL_SET of its entry has just run
    (s.port = .concurrent w ws :: rest → (∀ r, s.calRace = some r → entryRead i ≠ some (r.module, r.channel)) →
      ∃ t, exec i (atWork s (instanceOf i) rest) = .next t ∧
        step s = .next { t with calRace := s.calRace, races := s.races + 1 } ∧ sameCore s t) ∧
    -- a CAL_SET is taken, and the conversion is evaluated meanwhile
    (∀ (m : Chip) (ch : Byte) (gain offset : Word), isFree s m = true →
      s.port = .present (encode s.profile (.calSet m ch gain offset)) :: .concurrent w ws :: rest →
      (entryRead i ≠ some (m, ch.toNat) → ∃ t u x : State, step s = .next t ∧ step t = .next u ∧ sameCore t u ∧
        exec i (atWork t (instanceOf i) rest) = .next x ∧ shown u = shown x) ∧
      (entryRead i = some (m, ch.toNat) → calWf s.profile s.cal = true → ch.toNat < channelCount s.profile m →
        ∃ (t u x : State) (k : Option CalPair), step s = .next t ∧ step t = .next u ∧ sameCore t u ∧
          calGet t.cal m ch.toNat = some { gain := gain, offset := offset } ∧
          raceReads (calGet s.cal m ch.toNat) { gain := gain, offset := offset } k ∧
          exec i (atWork { t with cal := calPut t.cal m ch.toNat k } m rest) = .next x ∧ shown u = shown x))

/-- Rule R12, rounding: `rnd(x)` is the integer nearest to `x` with ties going away from zero, and there is only one. -/
def Obligations.RoundingIsNearest : Prop :=
  ∀ x : ℚ, RoundsTo x (rnd x) ∧ ∀ k : Int, RoundsTo x k → k = rnd x

/-! ### Hand-sent frames -/

/-- A frame sent by hand (rules R15, R97, R319 and R322; the answer and the faults are log entry 7): for each of the 18
rows, when the transport answers, the very bytes presented go out, what a read brings back is answered, and no state of the
SCCE changes; where a read's response is too short for it, `ShortReadError` is; and when the transfer fails,
`TransportFault(0)`, with no state of the SCCE changed either, `Stale` included (rule R27 says who sets it). -/
def Obligations.HandSentFrameCompletes : Prop :=
  ∀ (i : Instr) (c : Chip) (f : Frame) (s : State),
    isWire i = true → i.wellFormed s.profile = true → encode s.profile i = .frame c f →
      (∀ r, replyAt s 0 = .answered r → ∃ copies, copiesOf c [f] copies ∧
        (wireLead i = none ∨ f.length ≤ r.length →
          exec i s = .next (answer (sent s c [f] copies) (wireWords i f.length r))) ∧
        (wireLead i ≠ none → r.length < f.length →
          exec i s =
            .next (deliver { fault := .shortReadError, info := BitVec.ofNat 8 r.length } (sent s c [f] copies)))) ∧
      (replyAt s 0 = .failed → ∃ copies, copiesOf c [f] copies ∧
        exec i s = .next (deliver { fault := .transportFault, info := 0 } (sent s c [f] copies)))

/-! ### Sequences

How a sequence stands in the machine is the model's choice (log entry 22): it is begun by an event, its controller's turns
are events, and `returned` holds what its caller gets. -/

/-- Rule R250, the steps of a sequence: each is the operation that the expansion names, run on the machine, its status word on
the instance's result port, and the next one follows; a step's fault ends the sequence with that fault, and what the steps
before it wrote stays. `WAIT` ends with CONV_DONE, the code's word is masked to 24 bits for ADC_CODE2V (rule R251), and a
batch goes on with its next entry (rule R253). The last two frames' failures are in WriteVoltageChannelResult and
ResetChipResult. -/
def Obligations.SequenceStepsAreOperations : Prop :=
  ∀ (u : BitVec 9) (es : List Byte) (out : List Word),
    let run := fun (n : SeqStep) => ({ unit := u, next := n, entries := es, out := out } : SeqRun)
    let volts := fun (raw : Word) (w : State) =>
      (.next (settle ((adcCode2v w.profile.adc ((settingOf w).getD 0) raw).map fun v => [v]) w) :
        Host.Outcome State Fault Refusal)
    (∀ c : ConvChip,
      (∀ req, StepIs c.toChip (run (.configure c req)) (exec (.setConfig c.toChip req)) fun _ =>
        goingOn c.toChip (run (.start c))) ∧
      (StepIs c.toChip (run (.start c)) (exec (.startConv c u)) fun _ => goingOn c.toChip (run (.complete c))) ∧
      (StepIs c.toChip (run (.complete c)) (exec (.convDone c)) fun _ => goingOn c.toChip (run (.readPulse c))) ∧
      (StepIs c.toChip (run .buildReset) (exec (.buildReset c)) fun ws =>
        goingOn c.toChip (run (.sendReset (bytesOf ws))))) ∧
    (StepIs .adc (run (.readPulse .adc)) (exec (.readPulse .adc u)) fun ws =>
      goingOn .adc (run (.assemble (bytesOf ws)))) ∧
    (StepIs .adc (run (.readCont .adc)) (exec (.readCont .adc u)) fun ws =>
      goingOn .adc (run (.assemble (bytesOf ws)))) ∧
    (StepIs .tc (run (.readPulse .tc)) (exec (.readPulse .tc u)) fun ws =>
      goingOn .tc (run (.toTemperatures (bytesOf ws)))) ∧
    (StepIs .tc (run (.readCont .tc)) (exec (.readCont .tc u)) fun ws =>
      goingOn .tc (run (.toTemperatures (bytesOf ws)))) ∧
    (∀ b0 b1 b2 : Byte, StepIs .adc (run (.assemble [b0, b1, b2])) (exec (.adcAsm b0 b1 b2)) fun ws =>
      goingOn .adc (run (.toVolts (BitVec.ofNat 32 ((ws.headD 0).toNat % 2 ^ 24))))) ∧
    (∀ raw : Word, StepIs .adc (run (.toVolts raw)) (volts raw) fun ws =>
      goingOn .adc (run (.calibrate (ws.headD 0)))) ∧
    (∀ (raw : Word) (g : Nat) (w : State), settingOf w = some g → g < 2 ^ 9 →
      exec (.adcCode2v (BitVec.ofNat 9 g) raw) w = volts raw w) ∧
    (∀ (ch : Byte) (v : Word) (more : List Byte), es = ch :: more →
      StepIs .adc (run (.calibrate v)) (exec (.calApply .adc ch v)) fun ws =>
        match more with
        | [] => returning .adc (okAnswer (out ++ [ws.headD 0]))
        | id :: _ => goingOn .adc
          { unit := u, next := .configure .adc [{ field := 2, value := id.setWidth 24 }], entries := more,
            out := out ++ [ws.headD 0] }) ∧
    (∀ b0 b1 b2 b3 b4 : Byte,
      StepIs .tc (run (.toTemperatures [b0, b1, b2, b3, b4])) (exec (.tcCode2t b0 b1 b2 b3 b4)) fun ws =>
        returning .tc (okAnswer (ws.drop 2))) ∧
    (∀ (ch : Byte) (v : Word), StepIs .dac (run (.toCode ch v)) (exec (.dacV2code ch v)) fun ws =>
      goingOn .dac (run (.buildUpdate ch (ws.headD 0)))) ∧
    (∀ (ch : Byte) (code : Word), StepIs .dac (run (.buildUpdate ch code)) (exec (.dacWrupd ch code)) fun ws =>
      goingOn .dac (run (.sendUpdate (bytesOf ws)))) ∧
    (∀ c : Chip, StepIs c (run .resetMirror) (exec (.mirrorReset c)) fun _ => returning c (okAnswer []))

/-- Rules R256, R20, R75 and R297, the instances interleave: an event taken for one instance, be it an operation, a sequence
or the turn of its controller, leaves all of the other two alone, a sequence in progress or waiting on them included, so any
of their operations may come between two steps of a sequence; and what is presented to an instance whose controller runs a
sequence waits. -/
def Obligations.InstancesInterleave : Prop :=
  ∀ (s t : State) (waiting rest : List Event) (e : Event) (c : Chip), s.inv = true →
    s.port = waiting ++ e :: rest → Waiting s waiting → Ready s e c → step s = .next t →
      t.port = waiting ++ rest ∧ t.profile = s.profile ∧ ∀ d, d ≠ c → sameInstance s t d

/-- Rule R254, WRITE_VOLTAGE_CHANNEL, begun and run to its end: it raises what DAC_V2CODE raises, before any frame; else it
sends one frame, the write-and-update of the converted code, and changes no state of the SCCE, whether the transfer succeeds
or fails. Where the result and the fault stand is the model's choice (log entry 22). -/
def Obligations.WriteVoltageChannelResult : Prop :=
  ∀ (ch : Byte) (v : Word) (s : State) (rest : List Event), isFree s .dac = true →
    s.port = .sequence (.writeVoltageChannel ch v) :: (List.replicate 3 (.proceed .dac) ++ rest) →
    let w := atWork s .dac rest
    (∀ e, dacV2code ch.toNat v s = .error e → steps 4 s = .next (endedBy .dac e w)) ∧
    (∀ code, dacV2code ch.toNat v s = .ok code →
      let f : Frame := [BitVec.ofNat 8 (48 + ch.toNat), BitVec.ofNat 8 (code.toNat / 256), BitVec.ofNat 8 code.toNat]
      (∀ r, replyAt s 0 = .answered r → ∃ copies, copiesOf .dac [f] copies ∧
        steps 4 s = .next (returning .dac (okAnswer []) (answer (sent w .dac [f] copies) []))) ∧
      (replyAt s 0 = .failed → ∃ copies, copiesOf .dac [f] copies ∧
        steps 4 s = .next (endedBy .dac { fault := .transportFault, info := 0 } (sent w .dac [f] copies))))

/-- Rule R258, RESET_CHIP, begun and run to its end: without a reset command `InvalidUnit(0)`; a failed transfer sets `Stale`
and changes nothing else of the SCCE; a confirmed one puts the instance's configuration state back to its reset value. Where
the result and the fault stand is the model's choice (log entry 22). -/
def Obligations.ResetChipResult : Prop :=
  ∀ (c : Chip) (s : State) (rest : List Event), isFree s c = true →
    s.port = .sequence (.resetChip c) :: (List.replicate 3 (.proceed c) ++ rest) →
    let w := atWork s c rest
    ((profOf s c).opReset = none → steps 4 s = .next (endedBy c { fault := .invalidUnit, info := 0 } w)) ∧
    (∀ b, (profOf s c).opReset = some b → replyAt s 0 = .failed → ∃ copies, copiesOf c [[b]] copies ∧
      steps 4 s = .next (endedBy c { fault := .transportFault, info := 0 } (withStale (sent w c [[b]] copies) c true))) ∧
    (∀ b r, (profOf s c).opReset = some b → replyAt s 0 = .answered r → ∃ copies, copiesOf c [[b]] copies ∧
      steps 4 s = .next (returning c (okAnswer []) (answer (mirrorReset c (sent w c [[b]] copies)) [])))

/-- Rules R253 and R259, READ_SAMPLES_BATCH. Before any frame: an empty batch returns nothing; each entry in list order must
be a legal channel, else `InvalidConfigValue(2)`, with a calibration entry, else the lookup's fault; the rate must be legal,
else `InvalidConfigValue(1)`. Then one round per entry, the first with the mode, the rate and the channel in its request, the
others with the channel. The order law: a batch that succeeds returns one voltage per entry, in the entries' order; the
`i`-th is the calibrated voltage, under the `i`-th entry's calibration, of the code bytes in the response to the `i`-th
round's read, made with the mirror's active channel at the `i`-th entry; and the batch ends idle on the last channel. Where
the result and the faults stand is the model's choice (log entry 22). -/
def Obligations.BatchKeepsOrder : Prop :=
  ∀ (dr : BitVec 24) (channels pairs : List Byte) (u : Option (BitVec 9)) (s : State), s.inv = true → isFree s .adc = true →
    let q := Sequence.readSamplesBatch dr channels pairs u
    let l := channels ++ pairs
    let p := s.profile.adc
    let good := fun (ids : List Byte) => ∀ id ∈ ids, (∃ f, fieldSpec p 2 = some f ∧ id ∈ f.legal) ∧
      id.toNat < channelCount s.profile .adc ∧ (calGet s.cal .adc id.toNat).isSome = true
    let rate := ∃ f, fieldSpec p 1 = some f ∧ ∃ b ∈ f.legal, b.toNat = dr.toNat
    let request := fun (i : Nat) (id : Byte) =>
      let channel : Pair := { field := 2, value := id.setWidth 24 }
      if i = 0 then [{ field := 0, value := p.pulse.setWidth 24 }, { field := 1, value := dr }, channel] else [channel]
    (∀ rest, s.port = .sequence q :: rest →
      let w := atWork s .adc rest
      (l = [] → step s = .next (returning .adc (okAnswer []) w)) ∧
      (∀ (before : List Byte) (id : Byte) (more : List Byte), l = before ++ id :: more → good before →
        ((∀ f, fieldSpec p 2 = some f → id ∉ f.legal) →
          step s = .next (endedBy .adc { fault := .invalidConfigValue, info := 2 } w)) ∧
        (∀ f e, fieldSpec p 2 = some f → id ∈ f.legal → LookupRaises s .adc id e →
          step s = .next (endedBy .adc { fault := e, info := id } w))) ∧
      (l ≠ [] → good l → ¬ rate →
        step s = .next (endedBy .adc { fault := .invalidConfigValue, info := 1 } w)) ∧
      (∀ (id : Byte) (more : List Byte), l = id :: more → good l → rate →
        step s = .next (goingOn .adc
          { unit := u.getD 1, next := .configure .adc (request 0 id), entries := l, out := [] } w))) ∧
    (∀ (n : Nat) (t : State) (out : List Word), s.port = .sequence q :: List.replicate n (.proceed .adc) →
      steps (n + 1) s = .next t → (ioOf t .adc).running = none → (ioOf t .adc).returned = some (okAnswer out) →
      out.length = l.length ∧
      (∀ (i : Nat) (ch : Byte), l[i]? = some ch → ∃ (a b : State) (r : Frame) (v : Word),
        let round := fun (n : SeqStep) =>
          ({ unit := u.getD 1, next := n, entries := l.drop i, out := out.take i } : SeqRun)
        steps (7 * i + 1) s = .next a ∧ (ioOf a .adc).running = some (round (.configure .adc (request i ch))) ∧
        steps (7 * i + 4) s = .next b ∧ (ioOf b .adc).running = some (round (.readPulse .adc)) ∧
        mirrorGet b .adc 2 = some ch ∧ replyAt b 0 = .answered r ∧
        Volts s ch ((r.drop 1).take 3) (.ok v) ∧ out[i]? = some v) ∧
      (∀ ch, l.getLast? = some ch → mirrorGet t .adc 2 = some ch ∧ t.adcConv = { mode := .idle, pulseDone := false }))

/-- Rules R251, R252 and R250, READ_VOLTAGE and SINGLE_SAMPLE, with the unit 1 where none is given. They begin with their own
checks, before any frame: in continuous mode they need a running conversion, READ_VOLTAGE on that channel, and the
calibration lookup; then they read once, or configure the channel (SINGLE_SAMPLE: nothing), start, wait and read. Once the
code bytes are read, a continuous read has changed no state and a pulse read has left the chip idle on the channel; and the
three code bytes come back as the calibrated voltage of the channel, or as the fault of their conversion. Where the result
and the faults stand is the model's choice (log entry 22). -/
def Obligations.VoltageSequences : Prop :=
  (∀ (ch : Byte) (u : Option (BitVec 9)) (s : State), s.inv = true → isFree s .adc = true →
    let continuous := mirrorGet s .adc 0 = some s.profile.adc.continuous
    let running := s.adcConv.mode = .converting
    let entry := ch.toNat < channelCount s.profile .adc ∧ (calGet s.cal .adc ch.toNat).isSome = true
    let selected := mirrorGet s .adc 2 = some ch
    let run := fun (n : SeqStep) => ({ unit := u.getD 1, next := n, entries := [ch], out := [] } : SeqRun)
    -- what the two sequences do, `q` being one of them and `req` its configuration
    let does := fun (q : Sequence) (req : List Pair) =>
      (∀ rest, s.port = .sequence q :: rest →
        let w := atWork s .adc rest
        (continuous → ¬ running → step s = .next (endedBy .adc { fault := .continuousModeError, info := 0 } w)) ∧
        (∀ e, (continuous → running ∧ selected) → LookupRaises s .adc ch e →
          step s = .next (endedBy .adc { fault := e, info := ch } w)) ∧
        (continuous → running → selected → entry → step s = .next (goingOn .adc (run (.readCont .adc)) w)) ∧
        (¬ continuous → entry → step s = .next (goingOn .adc (run (.configure .adc req)) w))) ∧
      (∀ (t : State) (bytes : Frame), continuous → s.port = [.sequence q, .proceed .adc] → steps 2 s = .next t →
        (ioOf t .adc).running = some (run (.assemble bytes)) → sameCore s t) ∧
      (∀ (t : State) (bytes : Frame), ¬ continuous → s.port = .sequence q :: List.replicate 4 (.proceed .adc) →
        steps 5 s = .next t → (ioOf t .adc).running = some (run (.assemble bytes)) →
          mirrorGet t .adc 2 = some ch ∧ t.adcConv = { mode := .idle, pulseDone := false } ∧
          mirrorGet t .adc 4 = mirrorGet s .adc 4 ∧ t.cal = s.cal ∧ t.profile = s.profile)
    does (.readVoltage ch u) [{ field := 2, value := ch.setWidth 24 }] ∧
    (∀ rest, s.port = .sequence (.readVoltage ch u) :: rest → continuous → running → ¬ selected →
      step s = .next (endedBy .adc { fault := .invalidConfigValue, info := 2 } (atWork s .adc rest))) ∧
    (selected → does (.singleSample u) [])) ∧
  (∀ (ch b0 b1 b2 : Byte) (r : SeqRun) (v : Except Raised Word) (s : State) (rest : List Event),
    isBusy s .adc = false → (ioOf s .adc).running = some r → r.next = .assemble [b0, b1, b2] → r.entries = [ch] →
    s.port = List.replicate 3 (.proceed .adc) ++ rest → Volts s ch [b0, b1, b2] v →
      (∀ w, v = .ok w → steps 3 s =
        .next (returning .adc (okAnswer (r.out ++ [w])) (answer (atWork s .adc rest) [w]))) ∧
      (∀ e, v = .error e → steps 3 s = .next (endedBy .adc e (atWork s .adc rest))))

/-- Rules R255 and R250, READ_TEMPERATURES, with the unit 1 where none is given: one read of the TC, of a running continuous
conversion or of a pulse conversion that it configures with nothing, starts and waits for. Once the code bytes are read, a
continuous read has changed no state and a pulse read has left the chip idle; the sequence returns the two temperatures
TC_CODE2T gives for the five bytes, the cold junction's first, or its fault. Where the result and the fault stand is the
model's choice (log entry 22). -/
def Obligations.TemperatureSequence : Prop :=
  (∀ (u : Option (BitVec 9)) (s : State), isFree s .tc = true →
    let q := Sequence.readTemperatures u
    let run := fun (n : SeqStep) => ({ unit := u.getD 1, next := n, entries := [], out := [] } : SeqRun)
    let continuous := mirrorGet s .tc 0 = some s.profile.tc.continuous
    (∀ rest, s.port = .sequence q :: rest →
      (continuous → step s = .next (goingOn .tc (run (.readCont .tc)) (atWork s .tc rest))) ∧
      (¬ continuous → step s = .next (goingOn .tc (run (.configure .tc [])) (atWork s .tc rest)))) ∧
    (∀ (t : State) (bytes : Frame), continuous → s.port = [.sequence q, .proceed .tc] → steps 2 s = .next t →
      (ioOf t .tc).running = some (run (.toTemperatures bytes)) → sameCore s t) ∧
    (∀ (t : State) (bytes : Frame), ¬ continuous → s.port = .sequence q :: List.replicate 4 (.proceed .tc) →
      steps 5 s = .next t → (ioOf t .tc).running = some (run (.toTemperatures bytes)) →
        t.tcConv = { mode := .idle, pulseDone := false } ∧ t.profile = s.profile)) ∧
  (∀ (b0 b1 b2 b3 b4 : Byte) (r : SeqRun) (s : State) (rest : List Event), isBusy s .tc = false →
    (ioOf s .tc).running = some r → r.next = .toTemperatures [b0, b1, b2, b3, b4] → s.port = .proceed .tc :: rest →
    let w := atWork s .tc rest
    (∀ x y v z : Word, exec (.tcCode2t b0 b1 b2 b3 b4) w = .next (answer w [x, y, v, z]) →
      step s = .next (returning .tc (okAnswer [v, z]) (answer w [x, y, v, z]))) ∧
    (∀ e, exec (.tcCode2t b0 b1 b2 b3 b4) w = .next (deliver e w) → step s = .next (endedBy .tc e w)))
end

