-- ==== Sys2Proof/Laws/State.lean ====
section
/-! SUPPORT. What each named update of the state does to each field, one lemma per field, so that no proof unfolds a record
update. -/

namespace Sys2Proof.Machine
open Sys2Proof.Config

@[simp] theorem withIo_profile (s : State) (c : Chip) (x : InstanceIo) : (withIo s c x).profile = s.profile := rfl
@[simp] theorem withIo_adc (s : State) (c : Chip) (x : InstanceIo) : (withIo s c x).adc = s.adc := rfl
@[simp] theorem withIo_dac (s : State) (c : Chip) (x : InstanceIo) : (withIo s c x).dac = s.dac := rfl
@[simp] theorem withIo_tc (s : State) (c : Chip) (x : InstanceIo) : (withIo s c x).tc = s.tc := rfl
@[simp] theorem withIo_adcConv (s : State) (c : Chip) (x : InstanceIo) : (withIo s c x).adcConv = s.adcConv := rfl
@[simp] theorem withIo_tcConv (s : State) (c : Chip) (x : InstanceIo) : (withIo s c x).tcConv = s.tcConv := rfl
@[simp] theorem withIo_turn (s : State) (c : Chip) (x : InstanceIo) : (withIo s c x).turn = s.turn := rfl
@[simp] theorem withIo_cal (s : State) (c : Chip) (x : InstanceIo) : (withIo s c x).cal = s.cal := rfl
@[simp] theorem withIo_port (s : State) (c : Chip) (x : InstanceIo) : (withIo s c x).port = s.port := rfl
@[simp] theorem withIo_replies (s : State) (c : Chip) (x : InstanceIo) : (withIo s c x).replies = s.replies := rfl
@[simp] theorem withIo_transfers (s : State) (c : Chip) (x : InstanceIo) : (withIo s c x).transfers = s.transfers := rfl
@[simp] theorem withIo_tx (s : State) (c : Chip) (x : InstanceIo) : (withIo s c x).tx = s.tx := rfl
@[simp] theorem withIo_trace (s : State) (c : Chip) (x : InstanceIo) : (withIo s c x).trace = s.trace := rfl
@[simp] theorem withIo_calRace (s : State) (c : Chip) (x : InstanceIo) : (withIo s c x).calRace = s.calRace := rfl
@[simp] theorem withIo_races (s : State) (c : Chip) (x : InstanceIo) : (withIo s c x).races = s.races := rfl

@[simp] theorem withResult_profile (s : State) (r : Answer) : (withResult s r).profile = s.profile := rfl
@[simp] theorem withResult_adc (s : State) (r : Answer) : (withResult s r).adc = s.adc := rfl
@[simp] theorem withResult_dac (s : State) (r : Answer) : (withResult s r).dac = s.dac := rfl
@[simp] theorem withResult_tc (s : State) (r : Answer) : (withResult s r).tc = s.tc := rfl
@[simp] theorem withResult_adcConv (s : State) (r : Answer) : (withResult s r).adcConv = s.adcConv := rfl
@[simp] theorem withResult_tcConv (s : State) (r : Answer) : (withResult s r).tcConv = s.tcConv := rfl
@[simp] theorem withResult_turn (s : State) (r : Answer) : (withResult s r).turn = s.turn := rfl
@[simp] theorem withResult_cal (s : State) (r : Answer) : (withResult s r).cal = s.cal := rfl
@[simp] theorem withResult_port (s : State) (r : Answer) : (withResult s r).port = s.port := rfl
@[simp] theorem withResult_replies (s : State) (r : Answer) : (withResult s r).replies = s.replies := rfl
@[simp] theorem withResult_transfers (s : State) (r : Answer) : (withResult s r).transfers = s.transfers := rfl
@[simp] theorem withResult_tx (s : State) (r : Answer) : (withResult s r).tx = s.tx := rfl
@[simp] theorem withResult_trace (s : State) (r : Answer) : (withResult s r).trace = s.trace := rfl
@[simp] theorem withResult_calRace (s : State) (r : Answer) : (withResult s r).calRace = s.calRace := rfl
@[simp] theorem withResult_races (s : State) (r : Answer) : (withResult s r).races = s.races := rfl

@[simp] theorem answer_profile (s : State) (ws : List Word) : (answer s ws).profile = s.profile := rfl
@[simp] theorem answer_adc (s : State) (ws : List Word) : (answer s ws).adc = s.adc := rfl
@[simp] theorem answer_dac (s : State) (ws : List Word) : (answer s ws).dac = s.dac := rfl
@[simp] theorem answer_tc (s : State) (ws : List Word) : (answer s ws).tc = s.tc := rfl
@[simp] theorem answer_adcConv (s : State) (ws : List Word) : (answer s ws).adcConv = s.adcConv := rfl
@[simp] theorem answer_tcConv (s : State) (ws : List Word) : (answer s ws).tcConv = s.tcConv := rfl
@[simp] theorem answer_turn (s : State) (ws : List Word) : (answer s ws).turn = s.turn := rfl
@[simp] theorem answer_cal (s : State) (ws : List Word) : (answer s ws).cal = s.cal := rfl
@[simp] theorem answer_port (s : State) (ws : List Word) : (answer s ws).port = s.port := rfl
@[simp] theorem answer_replies (s : State) (ws : List Word) : (answer s ws).replies = s.replies := rfl
@[simp] theorem answer_transfers (s : State) (ws : List Word) : (answer s ws).transfers = s.transfers := rfl
@[simp] theorem answer_tx (s : State) (ws : List Word) : (answer s ws).tx = s.tx := rfl
@[simp] theorem answer_trace (s : State) (ws : List Word) : (answer s ws).trace = s.trace := rfl
@[simp] theorem answer_calRace (s : State) (ws : List Word) : (answer s ws).calRace = s.calRace := rfl
@[simp] theorem answer_races (s : State) (ws : List Word) : (answer s ws).races = s.races := rfl

@[simp] theorem deliver_profile (e : Raised) (s : State) : (deliver e s).profile = s.profile := rfl
@[simp] theorem deliver_adc (e : Raised) (s : State) : (deliver e s).adc = s.adc := rfl
@[simp] theorem deliver_dac (e : Raised) (s : State) : (deliver e s).dac = s.dac := rfl
@[simp] theorem deliver_tc (e : Raised) (s : State) : (deliver e s).tc = s.tc := rfl
@[simp] theorem deliver_adcConv (e : Raised) (s : State) : (deliver e s).adcConv = s.adcConv := rfl
@[simp] theorem deliver_tcConv (e : Raised) (s : State) : (deliver e s).tcConv = s.tcConv := rfl
@[simp] theorem deliver_turn (e : Raised) (s : State) : (deliver e s).turn = s.turn := rfl
@[simp] theorem deliver_cal (e : Raised) (s : State) : (deliver e s).cal = s.cal := rfl
@[simp] theorem deliver_port (e : Raised) (s : State) : (deliver e s).port = s.port := rfl
@[simp] theorem deliver_replies (e : Raised) (s : State) : (deliver e s).replies = s.replies := rfl
@[simp] theorem deliver_transfers (e : Raised) (s : State) : (deliver e s).transfers = s.transfers := rfl
@[simp] theorem deliver_tx (e : Raised) (s : State) : (deliver e s).tx = s.tx := rfl
@[simp] theorem deliver_trace (e : Raised) (s : State) : (deliver e s).trace = s.trace := rfl
@[simp] theorem deliver_calRace (e : Raised) (s : State) : (deliver e s).calRace = s.calRace := rfl
@[simp] theorem deliver_races (e : Raised) (s : State) : (deliver e s).races = s.races := rfl

@[simp] theorem markBusy_profile (s : State) (c : Chip) : (markBusy s c).profile = s.profile := rfl
@[simp] theorem markBusy_adc (s : State) (c : Chip) : (markBusy s c).adc = s.adc := rfl
@[simp] theorem markBusy_dac (s : State) (c : Chip) : (markBusy s c).dac = s.dac := rfl
@[simp] theorem markBusy_tc (s : State) (c : Chip) : (markBusy s c).tc = s.tc := rfl
@[simp] theorem markBusy_adcConv (s : State) (c : Chip) : (markBusy s c).adcConv = s.adcConv := rfl
@[simp] theorem markBusy_tcConv (s : State) (c : Chip) : (markBusy s c).tcConv = s.tcConv := rfl
@[simp] theorem markBusy_turn (s : State) (c : Chip) : (markBusy s c).turn = s.turn := rfl
@[simp] theorem markBusy_cal (s : State) (c : Chip) : (markBusy s c).cal = s.cal := rfl
@[simp] theorem markBusy_port (s : State) (c : Chip) : (markBusy s c).port = s.port := rfl
@[simp] theorem markBusy_replies (s : State) (c : Chip) : (markBusy s c).replies = s.replies := rfl
@[simp] theorem markBusy_transfers (s : State) (c : Chip) : (markBusy s c).transfers = s.transfers := rfl
@[simp] theorem markBusy_tx (s : State) (c : Chip) : (markBusy s c).tx = s.tx := rfl
@[simp] theorem markBusy_trace (s : State) (c : Chip) : (markBusy s c).trace = s.trace := rfl
@[simp] theorem markBusy_calRace (s : State) (c : Chip) : (markBusy s c).calRace = s.calRace := rfl
@[simp] theorem markBusy_races (s : State) (c : Chip) : (markBusy s c).races = s.races := rfl

@[simp] theorem atWork_profile (s : State) (c : Chip) (rest : List Event) : (atWork s c rest).profile = s.profile := rfl
@[simp] theorem atWork_adc (s : State) (c : Chip) (rest : List Event) : (atWork s c rest).adc = s.adc := rfl
@[simp] theorem atWork_dac (s : State) (c : Chip) (rest : List Event) : (atWork s c rest).dac = s.dac := rfl
@[simp] theorem atWork_tc (s : State) (c : Chip) (rest : List Event) : (atWork s c rest).tc = s.tc := rfl
@[simp] theorem atWork_adcConv (s : State) (c : Chip) (rest : List Event) : (atWork s c rest).adcConv = s.adcConv := rfl
@[simp] theorem atWork_tcConv (s : State) (c : Chip) (rest : List Event) : (atWork s c rest).tcConv = s.tcConv := rfl
@[simp] theorem atWork_cal (s : State) (c : Chip) (rest : List Event) : (atWork s c rest).cal = s.cal := rfl
@[simp] theorem atWork_replies (s : State) (c : Chip) (rest : List Event) : (atWork s c rest).replies = s.replies := rfl
@[simp] theorem atWork_transfers (s : State) (c : Chip) (rest : List Event) : (atWork s c rest).transfers = s.transfers := rfl
@[simp] theorem atWork_tx (s : State) (c : Chip) (rest : List Event) : (atWork s c rest).tx = s.tx := rfl
@[simp] theorem atWork_trace (s : State) (c : Chip) (rest : List Event) : (atWork s c rest).trace = s.trace := rfl
@[simp] theorem atWork_races (s : State) (c : Chip) (rest : List Event) : (atWork s c rest).races = s.races := rfl
@[simp] theorem atWork_adcIo (s : State) (c : Chip) (rest : List Event) : (atWork s c rest).adcIo = s.adcIo := rfl
@[simp] theorem atWork_dacIo (s : State) (c : Chip) (rest : List Event) : (atWork s c rest).dacIo = s.dacIo := rfl
@[simp] theorem atWork_tcIo (s : State) (c : Chip) (rest : List Event) : (atWork s c rest).tcIo = s.tcIo := rfl
@[simp] theorem atWork_turn (s : State) (c : Chip) (rest : List Event) : (atWork s c rest).turn = c := rfl
@[simp] theorem atWork_port (s : State) (c : Chip) (rest : List Event) : (atWork s c rest).port = rest := rfl
@[simp] theorem atWork_calRace (s : State) (c : Chip) (rest : List Event) : (atWork s c rest).calRace = none := rfl

@[simp] theorem emit_profile (c : Chip) (f : Frame) (s : State) : (emit c f s).profile = s.profile := rfl
@[simp] theorem emit_adc (c : Chip) (f : Frame) (s : State) : (emit c f s).adc = s.adc := rfl
@[simp] theorem emit_dac (c : Chip) (f : Frame) (s : State) : (emit c f s).dac = s.dac := rfl
@[simp] theorem emit_tc (c : Chip) (f : Frame) (s : State) : (emit c f s).tc = s.tc := rfl
@[simp] theorem emit_adcConv (c : Chip) (f : Frame) (s : State) : (emit c f s).adcConv = s.adcConv := rfl
@[simp] theorem emit_tcConv (c : Chip) (f : Frame) (s : State) : (emit c f s).tcConv = s.tcConv := rfl
@[simp] theorem emit_turn (c : Chip) (f : Frame) (s : State) : (emit c f s).turn = s.turn := rfl
@[simp] theorem emit_cal (c : Chip) (f : Frame) (s : State) : (emit c f s).cal = s.cal := rfl
@[simp] theorem emit_port (c : Chip) (f : Frame) (s : State) : (emit c f s).port = s.port := rfl
@[simp] theorem emit_replies (c : Chip) (f : Frame) (s : State) : (emit c f s).replies = s.replies := rfl
@[simp] theorem emit_transfers (c : Chip) (f : Frame) (s : State) : (emit c f s).transfers = s.transfers := rfl
@[simp] theorem emit_calRace (c : Chip) (f : Frame) (s : State) : (emit c f s).calRace = s.calRace := rfl
@[simp] theorem emit_races (c : Chip) (f : Frame) (s : State) : (emit c f s).races = s.races := rfl
@[simp] theorem emit_adcIo (c : Chip) (f : Frame) (s : State) : (emit c f s).adcIo = s.adcIo := rfl
@[simp] theorem emit_dacIo (c : Chip) (f : Frame) (s : State) : (emit c f s).dacIo = s.dacIo := rfl
@[simp] theorem emit_tcIo (c : Chip) (f : Frame) (s : State) : (emit c f s).tcIo = s.tcIo := rfl
@[simp] theorem emit_tx (c : Chip) (f : Frame) (s : State) : (emit c f s).tx = s.tx ++ [(c, f)] := rfl
@[simp] theorem emit_trace (c : Chip) (f : Frame) (s : State) : (emit c f s).trace = if traceTaken s.transfers then s.trace ++ [(c, f)] else s.trace := rfl

@[simp] theorem afterTransfer_profile (s : State) : (afterTransfer s).profile = s.profile := rfl
@[simp] theorem afterTransfer_adc (s : State) : (afterTransfer s).adc = s.adc := rfl
@[simp] theorem afterTransfer_dac (s : State) : (afterTransfer s).dac = s.dac := rfl
@[simp] theorem afterTransfer_tc (s : State) : (afterTransfer s).tc = s.tc := rfl
@[simp] theorem afterTransfer_adcConv (s : State) : (afterTransfer s).adcConv = s.adcConv := rfl
@[simp] theorem afterTransfer_tcConv (s : State) : (afterTransfer s).tcConv = s.tcConv := rfl
@[simp] theorem afterTransfer_turn (s : State) : (afterTransfer s).turn = s.turn := rfl
@[simp] theorem afterTransfer_cal (s : State) : (afterTransfer s).cal = s.cal := rfl
@[simp] theorem afterTransfer_port (s : State) : (afterTransfer s).port = s.port := rfl
@[simp] theorem afterTransfer_tx (s : State) : (afterTransfer s).tx = s.tx := rfl
@[simp] theorem afterTransfer_trace (s : State) : (afterTransfer s).trace = s.trace := rfl
@[simp] theorem afterTransfer_calRace (s : State) : (afterTransfer s).calRace = s.calRace := rfl
@[simp] theorem afterTransfer_races (s : State) : (afterTransfer s).races = s.races := rfl
@[simp] theorem afterTransfer_adcIo (s : State) : (afterTransfer s).adcIo = s.adcIo := rfl
@[simp] theorem afterTransfer_dacIo (s : State) : (afterTransfer s).dacIo = s.dacIo := rfl
@[simp] theorem afterTransfer_tcIo (s : State) : (afterTransfer s).tcIo = s.tcIo := rfl
@[simp] theorem afterTransfer_replies (s : State) : (afterTransfer s).replies = s.replies.tail := rfl
@[simp] theorem afterTransfer_transfers (s : State) : (afterTransfer s).transfers = s.transfers + 1 := rfl

@[simp] theorem withCfg_profile (s : State) (c : Chip) (x : CfgInstance) : (withCfg s c x).profile = s.profile := by cases c <;> rfl
@[simp] theorem withCfg_adcConv (s : State) (c : Chip) (x : CfgInstance) : (withCfg s c x).adcConv = s.adcConv := by cases c <;> rfl
@[simp] theorem withCfg_tcConv (s : State) (c : Chip) (x : CfgInstance) : (withCfg s c x).tcConv = s.tcConv := by cases c <;> rfl
@[simp] theorem withCfg_turn (s : State) (c : Chip) (x : CfgInstance) : (withCfg s c x).turn = s.turn := by cases c <;> rfl
@[simp] theorem withCfg_cal (s : State) (c : Chip) (x : CfgInstance) : (withCfg s c x).cal = s.cal := by cases c <;> rfl
@[simp] theorem withCfg_port (s : State) (c : Chip) (x : CfgInstance) : (withCfg s c x).port = s.port := by cases c <;> rfl
@[simp] theorem withCfg_replies (s : State) (c : Chip) (x : CfgInstance) : (withCfg s c x).replies = s.replies := by cases c <;> rfl
@[simp] theorem withCfg_transfers (s : State) (c : Chip) (x : CfgInstance) : (withCfg s c x).transfers = s.transfers := by cases c <;> rfl
@[simp] theorem withCfg_tx (s : State) (c : Chip) (x : CfgInstance) : (withCfg s c x).tx = s.tx := by cases c <;> rfl
@[simp] theorem withCfg_trace (s : State) (c : Chip) (x : CfgInstance) : (withCfg s c x).trace = s.trace := by cases c <;> rfl
@[simp] theorem withCfg_calRace (s : State) (c : Chip) (x : CfgInstance) : (withCfg s c x).calRace = s.calRace := by cases c <;> rfl
@[simp] theorem withCfg_races (s : State) (c : Chip) (x : CfgInstance) : (withCfg s c x).races = s.races := by cases c <;> rfl
@[simp] theorem withCfg_adcIo (s : State) (c : Chip) (x : CfgInstance) : (withCfg s c x).adcIo = s.adcIo := by cases c <;> rfl
@[simp] theorem withCfg_dacIo (s : State) (c : Chip) (x : CfgInstance) : (withCfg s c x).dacIo = s.dacIo := by cases c <;> rfl
@[simp] theorem withCfg_tcIo (s : State) (c : Chip) (x : CfgInstance) : (withCfg s c x).tcIo = s.tcIo := by cases c <;> rfl
@[simp] theorem withConv_profile (s : State) (c : ConvChip) (x : ConvState) : (withConv s c x).profile = s.profile := by cases c <;> rfl
@[simp] theorem withConv_adc (s : State) (c : ConvChip) (x : ConvState) : (withConv s c x).adc = s.adc := by cases c <;> rfl
@[simp] theorem withConv_dac (s : State) (c : ConvChip) (x : ConvState) : (withConv s c x).dac = s.dac := by cases c <;> rfl
@[simp] theorem withConv_tc (s : State) (c : ConvChip) (x : ConvState) : (withConv s c x).tc = s.tc := by cases c <;> rfl
@[simp] theorem withConv_turn (s : State) (c : ConvChip) (x : ConvState) : (withConv s c x).turn = s.turn := by cases c <;> rfl
@[simp] theorem withConv_cal (s : State) (c : ConvChip) (x : ConvState) : (withConv s c x).cal = s.cal := by cases c <;> rfl
@[simp] theorem withConv_port (s : State) (c : ConvChip) (x : ConvState) : (withConv s c x).port = s.port := by cases c <;> rfl
@[simp] theorem withConv_replies (s : State) (c : ConvChip) (x : ConvState) : (withConv s c x).replies = s.replies := by cases c <;> rfl
@[simp] theorem withConv_transfers (s : State) (c : ConvChip) (x : ConvState) : (withConv s c x).transfers = s.transfers := by cases c <;> rfl
@[simp] theorem withConv_tx (s : State) (c : ConvChip) (x : ConvState) : (withConv s c x).tx = s.tx := by cases c <;> rfl
@[simp] theorem withConv_trace (s : State) (c : ConvChip) (x : ConvState) : (withConv s c x).trace = s.trace := by cases c <;> rfl
@[simp] theorem withConv_calRace (s : State) (c : ConvChip) (x : ConvState) : (withConv s c x).calRace = s.calRace := by cases c <;> rfl
@[simp] theorem withConv_races (s : State) (c : ConvChip) (x : ConvState) : (withConv s c x).races = s.races := by cases c <;> rfl
@[simp] theorem withConv_adcIo (s : State) (c : ConvChip) (x : ConvState) : (withConv s c x).adcIo = s.adcIo := by cases c <;> rfl
@[simp] theorem withConv_dacIo (s : State) (c : ConvChip) (x : ConvState) : (withConv s c x).dacIo = s.dacIo := by cases c <;> rfl
@[simp] theorem withConv_tcIo (s : State) (c : ConvChip) (x : ConvState) : (withConv s c x).tcIo = s.tcIo := by cases c <;> rfl

@[simp] theorem cfgOf_adc (s : State) : cfgOf s .adc = s.adc := rfl
@[simp] theorem cfgOf_dac (s : State) : cfgOf s .dac = s.dac := rfl
@[simp] theorem cfgOf_tc (s : State) : cfgOf s .tc = s.tc := rfl
@[simp] theorem convOf_adc (s : State) : convOf s .adc = s.adcConv := rfl
@[simp] theorem convOf_tc (s : State) : convOf s .tc = s.tcConv := rfl

theorem cfgOf_withCfg (s : State) (c d : Chip) (x : CfgInstance) :
    cfgOf (withCfg s c x) d = if d = c then x else cfgOf s d := by
  cases c <;> cases d <;> rfl

@[simp] theorem cfgOf_withCfg_same (s : State) (c : Chip) (x : CfgInstance) : cfgOf (withCfg s c x) c = x := by
  cases c <;> rfl

theorem cfgOf_withCfg_ne (s : State) {c d : Chip} (x : CfgInstance) (h : d ≠ c) :
    cfgOf (withCfg s c x) d = cfgOf s d := by
  rw [cfgOf_withCfg, if_neg h]

@[simp] theorem withCfg_withCfg (s : State) (c : Chip) (x y : CfgInstance) :
    withCfg (withCfg s c x) c y = withCfg s c y := by
  cases c <;> rfl

@[simp] theorem withCfg_cfgOf (s : State) (c : Chip) : withCfg s c (cfgOf s c) = s := by
  cases c <;> rfl

@[simp] theorem convOf_withCfg (s : State) (c : Chip) (x : CfgInstance) (k : ConvChip) :
    convOf (withCfg s c x) k = convOf s k := by
  cases c <;> cases k <;> rfl

theorem convOf_withConv (s : State) (c d : ConvChip) (x : ConvState) :
    convOf (withConv s c x) d = if d = c then x else convOf s d := by
  cases c <;> cases d <;> rfl

@[simp] theorem convOf_withConv_same (s : State) (c : ConvChip) (x : ConvState) : convOf (withConv s c x) c = x := by
  cases c <;> rfl

theorem convOf_withConv_ne (s : State) {c d : ConvChip} (x : ConvState) (h : d ≠ c) :
    convOf (withConv s c x) d = convOf s d := by
  rw [convOf_withConv, if_neg h]

@[simp] theorem withConv_convOf (s : State) (c : ConvChip) : withConv s c (convOf s c) = s := by
  cases c <;> rfl

@[simp] theorem cfgOf_withConv (s : State) (c : ConvChip) (x : ConvState) (d : Chip) :
    cfgOf (withConv s c x) d = cfgOf s d := by
  cases c <;> cases d <;> rfl

theorem withConv_withCfg (s : State) (c : Chip) (x : CfgInstance) (k : ConvChip) (y : ConvState) :
    withConv (withCfg s c x) k y = withCfg (withConv s k y) c x := by
  cases c <;> cases k <;> rfl

@[simp] theorem cfgOf_withIo (s : State) (k : Chip) (x : InstanceIo) (c : Chip) : cfgOf (withIo s k x) c = cfgOf s c := by cases c <;> rfl
@[simp] theorem convOf_withIo (s : State) (k : Chip) (x : InstanceIo) (c : ConvChip) : convOf (withIo s k x) c = convOf s c := by cases c <;> rfl
@[simp] theorem profOf_withIo (s : State) (k : Chip) (x : InstanceIo) (c : Chip) : profOf (withIo s k x) c = profOf s c := rfl
@[simp] theorem cfgOf_withResult (s : State) (r : Answer) (c : Chip) : cfgOf (withResult s r) c = cfgOf s c := by cases c <;> rfl
@[simp] theorem convOf_withResult (s : State) (r : Answer) (c : ConvChip) : convOf (withResult s r) c = convOf s c := by cases c <;> rfl
@[simp] theorem profOf_withResult (s : State) (r : Answer) (c : Chip) : profOf (withResult s r) c = profOf s c := rfl
@[simp] theorem cfgOf_markBusy (s : State) (k : Chip) (c : Chip) : cfgOf (markBusy s k) c = cfgOf s c := by cases c <;> rfl
@[simp] theorem convOf_markBusy (s : State) (k : Chip) (c : ConvChip) : convOf (markBusy s k) c = convOf s c := by cases c <;> rfl
@[simp] theorem profOf_markBusy (s : State) (k : Chip) (c : Chip) : profOf (markBusy s k) c = profOf s c := rfl
@[simp] theorem cfgOf_atWork (s : State) (k : Chip) (rest : List Event) (c : Chip) : cfgOf (atWork s k rest) c = cfgOf s c := by cases c <;> rfl
@[simp] theorem convOf_atWork (s : State) (k : Chip) (rest : List Event) (c : ConvChip) : convOf (atWork s k rest) c = convOf s c := by cases c <;> rfl
@[simp] theorem profOf_atWork (s : State) (k : Chip) (rest : List Event) (c : Chip) : profOf (atWork s k rest) c = profOf s c := rfl
@[simp] theorem cfgOf_answer (s : State) (ws : List Word) (c : Chip) : cfgOf (answer s ws) c = cfgOf s c := by cases c <;> rfl
@[simp] theorem convOf_answer (s : State) (ws : List Word) (c : ConvChip) : convOf (answer s ws) c = convOf s c := by cases c <;> rfl
@[simp] theorem profOf_answer (s : State) (ws : List Word) (c : Chip) : profOf (answer s ws) c = profOf s c := rfl
@[simp] theorem cfgOf_deliver (e : Raised) (s : State) (c : Chip) : cfgOf (deliver e s) c = cfgOf s c := by cases c <;> rfl
@[simp] theorem convOf_deliver (e : Raised) (s : State) (c : ConvChip) : convOf (deliver e s) c = convOf s c := by cases c <;> rfl
@[simp] theorem profOf_deliver (e : Raised) (s : State) (c : Chip) : profOf (deliver e s) c = profOf s c := rfl
@[simp] theorem cfgOf_emit (k : Chip) (f : Frame) (s : State) (c : Chip) : cfgOf (emit k f s) c = cfgOf s c := by cases c <;> rfl
@[simp] theorem convOf_emit (k : Chip) (f : Frame) (s : State) (c : ConvChip) : convOf (emit k f s) c = convOf s c := by cases c <;> rfl
@[simp] theorem profOf_emit (k : Chip) (f : Frame) (s : State) (c : Chip) : profOf (emit k f s) c = profOf s c := rfl
@[simp] theorem cfgOf_afterTransfer (s : State) (c : Chip) : cfgOf (afterTransfer s) c = cfgOf s c := by cases c <;> rfl
@[simp] theorem convOf_afterTransfer (s : State) (c : ConvChip) : convOf (afterTransfer s) c = convOf s c := by cases c <;> rfl
@[simp] theorem profOf_afterTransfer (s : State) (c : Chip) : profOf (afterTransfer s) c = profOf s c := rfl
@[simp] theorem cfgOf_sent (s : State) (k : Chip) (fs : List Frame) (cs : List (Chip × Frame)) (c : Chip) : cfgOf (sent s k fs cs) c = cfgOf s c := by cases c <;> rfl
@[simp] theorem convOf_sent (s : State) (k : Chip) (fs : List Frame) (cs : List (Chip × Frame)) (c : ConvChip) : convOf (sent s k fs cs) c = convOf s c := by cases c <;> rfl
@[simp] theorem profOf_sent (s : State) (k : Chip) (fs : List Frame) (cs : List (Chip × Frame)) (c : Chip) : profOf (sent s k fs cs) c = profOf s c := rfl
@[simp] theorem ioOf_emit (k : Chip) (f : Frame) (s : State) (c : Chip) : ioOf (emit k f s) c = ioOf s c := by cases c <;> rfl
@[simp] theorem ioOf_afterTransfer (s : State) (c : Chip) : ioOf (afterTransfer s) c = ioOf s c := by cases c <;> rfl
@[simp] theorem ioOf_sent (s : State) (k : Chip) (fs : List Frame) (cs : List (Chip × Frame)) (c : Chip) : ioOf (sent s k fs cs) c = ioOf s c := by cases c <;> rfl
@[simp] theorem ioOf_atWork (s : State) (k : Chip) (rest : List Event) (c : Chip) : ioOf (atWork s k rest) c = ioOf s c := by cases c <;> rfl
@[simp] theorem ioOf_withCfg (s : State) (k : Chip) (x : CfgInstance) (c : Chip) : ioOf (withCfg s k x) c = ioOf s c := by
  cases k <;> cases c <;> rfl
@[simp] theorem ioOf_withConv (s : State) (k : ConvChip) (x : ConvState) (c : Chip) : ioOf (withConv s k x) c = ioOf s c := by
  cases k <;> cases c <;> rfl

theorem ioOf_withIo (s : State) (c d : Chip) (x : InstanceIo) :
    ioOf (withIo s c x) d = if d = c then x else ioOf s d := by
  cases c <;> cases d <;> rfl

@[simp] theorem ioOf_withIo_same (s : State) (c : Chip) (x : InstanceIo) : ioOf (withIo s c x) c = x := by
  cases c <;> rfl

theorem ioOf_withIo_ne (s : State) {c d : Chip} (x : InstanceIo) (h : d ≠ c) : ioOf (withIo s c x) d = ioOf s d := by
  rw [ioOf_withIo, if_neg h]

@[simp] theorem withIo_withIo (s : State) (c : Chip) (x y : InstanceIo) : withIo (withIo s c x) c y = withIo s c y := by
  cases c <;> rfl

/-- A result changes the port of the instance at work only, and makes nothing busy. -/
theorem ioOf_withResult (s : State) (r : Answer) (c : Chip) :
    ioOf (withResult s r) c = if c = s.turn then { ioOf s c with result := some r } else ioOf s c := by
  unfold withResult
  rw [ioOf_withIo]
  split
  · rename_i h; rw [h]
  · rfl

@[simp] theorem shown_withResult (s : State) (r : Answer) : shown (withResult s r) = some r := by
  simp [shown, ioOf_withResult]
@[simp] theorem shown_answer (s : State) (ws : List Word) :
    shown (answer s ws) = some { status := statusWord 0 0 ws.length, words := ws } := shown_withResult ..
@[simp] theorem shown_deliver (e : Raised) (s : State) :
    shown (deliver e s) = some { status := statusWord (faultCode e.fault) e.info 0, words := [] } := shown_withResult ..
@[simp] theorem isBusy_withResult (s : State) (r : Answer) (c : Chip) : isBusy (withResult s r) c = isBusy s c := by
  unfold isBusy
  rw [ioOf_withResult]
  split <;> rfl
@[simp] theorem isBusy_answer (s : State) (ws : List Word) (c : Chip) : isBusy (answer s ws) c = isBusy s c :=
  isBusy_withResult ..
@[simp] theorem isBusy_deliver (e : Raised) (s : State) (c : Chip) : isBusy (deliver e s) c = isBusy s c :=
  isBusy_withResult ..
theorem isBusy_markBusy (s : State) (c d : Chip) : isBusy (markBusy s c) d = (decide (d = c) || isBusy s d) := by
  cases c <;> cases d <;> rfl
theorem result_markBusy (s : State) (c d : Chip) : (ioOf (markBusy s c) d).result = (ioOf s d).result := by
  cases c <;> cases d <;> rfl
@[simp] theorem running_withResult (s : State) (r : Answer) (c : Chip) :
    (ioOf (withResult s r) c).running = (ioOf s c).running := by
  rw [ioOf_withResult]
  split <;> rfl
@[simp] theorem returned_withResult (s : State) (r : Answer) (c : Chip) :
    (ioOf (withResult s r) c).returned = (ioOf s c).returned := by
  rw [ioOf_withResult]
  split <;> rfl
@[simp] theorem running_answer (s : State) (ws : List Word) (c : Chip) :
    (ioOf (answer s ws) c).running = (ioOf s c).running := running_withResult ..
@[simp] theorem returned_answer (s : State) (ws : List Word) (c : Chip) :
    (ioOf (answer s ws) c).returned = (ioOf s c).returned := returned_withResult ..
@[simp] theorem running_deliver (e : Raised) (s : State) (c : Chip) :
    (ioOf (deliver e s) c).running = (ioOf s c).running := running_withResult ..
@[simp] theorem returned_deliver (e : Raised) (s : State) (c : Chip) :
    (ioOf (deliver e s) c).returned = (ioOf s c).returned := returned_withResult ..
@[simp] theorem running_markBusy (s : State) (c d : Chip) :
    (ioOf (markBusy s c) d).running = (ioOf s d).running := by
  cases c <;> cases d <;> rfl
@[simp] theorem returned_markBusy (s : State) (c d : Chip) :
    (ioOf (markBusy s c) d).returned = (ioOf s d).returned := by
  cases c <;> cases d <;> rfl
theorem isFree_iff (s : State) (c : Chip) : isFree s c = true ↔ isBusy s c = false ∧ (ioOf s c).running = none := by
  simp [isFree, isBusy]
@[simp] theorem isBusy_sent (s : State) (k : Chip) (fs : List Frame) (cs : List (Chip × Frame)) (c : Chip) :
    isBusy (sent s k fs cs) c = isBusy s c := by
  simp [isBusy]
@[simp] theorem isBusy_withCfg (s : State) (k : Chip) (x : CfgInstance) (c : Chip) : isBusy (withCfg s k x) c = isBusy s c := by
  simp [isBusy]
@[simp] theorem isBusy_withConv (s : State) (k : ConvChip) (x : ConvState) (c : Chip) :
    isBusy (withConv s k x) c = isBusy s c := by
  simp [isBusy]

@[simp] theorem profOf_withCfg (s : State) (k : Chip) (x : CfgInstance) (c : Chip) :
    profOf (withCfg s k x) c = profOf s c := by cases k <;> rfl
@[simp] theorem profOf_withConv (s : State) (k : ConvChip) (x : ConvState) (c : Chip) :
    profOf (withConv s k x) c = profOf s c := by cases k <;> rfl

@[simp] theorem sent_profile (s : State) (k : Chip) (fs : List Frame) (cs : List (Chip × Frame)) : (sent s k fs cs).profile = s.profile := rfl
@[simp] theorem sent_adc (s : State) (k : Chip) (fs : List Frame) (cs : List (Chip × Frame)) : (sent s k fs cs).adc = s.adc := rfl
@[simp] theorem sent_dac (s : State) (k : Chip) (fs : List Frame) (cs : List (Chip × Frame)) : (sent s k fs cs).dac = s.dac := rfl
@[simp] theorem sent_tc (s : State) (k : Chip) (fs : List Frame) (cs : List (Chip × Frame)) : (sent s k fs cs).tc = s.tc := rfl
@[simp] theorem sent_adcConv (s : State) (k : Chip) (fs : List Frame) (cs : List (Chip × Frame)) : (sent s k fs cs).adcConv = s.adcConv := rfl
@[simp] theorem sent_tcConv (s : State) (k : Chip) (fs : List Frame) (cs : List (Chip × Frame)) : (sent s k fs cs).tcConv = s.tcConv := rfl
@[simp] theorem sent_turn (s : State) (k : Chip) (fs : List Frame) (cs : List (Chip × Frame)) : (sent s k fs cs).turn = s.turn := rfl
@[simp] theorem sent_cal (s : State) (k : Chip) (fs : List Frame) (cs : List (Chip × Frame)) : (sent s k fs cs).cal = s.cal := rfl
@[simp] theorem sent_port (s : State) (k : Chip) (fs : List Frame) (cs : List (Chip × Frame)) : (sent s k fs cs).port = s.port := rfl
@[simp] theorem sent_replies (s : State) (k : Chip) (fs : List Frame) (cs : List (Chip × Frame)) : (sent s k fs cs).replies = s.replies.drop fs.length := rfl
@[simp] theorem sent_transfers (s : State) (k : Chip) (fs : List Frame) (cs : List (Chip × Frame)) : (sent s k fs cs).transfers = s.transfers + fs.length := rfl
@[simp] theorem sent_tx (s : State) (k : Chip) (fs : List Frame) (cs : List (Chip × Frame)) : (sent s k fs cs).tx = s.tx ++ fs.map fun f => (k, f) := rfl
@[simp] theorem sent_trace (s : State) (k : Chip) (fs : List Frame) (cs : List (Chip × Frame)) : (sent s k fs cs).trace = s.trace ++ cs := rfl
@[simp] theorem sent_calRace (s : State) (k : Chip) (fs : List Frame) (cs : List (Chip × Frame)) : (sent s k fs cs).calRace = s.calRace := rfl
@[simp] theorem sent_races (s : State) (k : Chip) (fs : List Frame) (cs : List (Chip × Frame)) : (sent s k fs cs).races = s.races := rfl
@[simp] theorem sent_adcIo (s : State) (k : Chip) (fs : List Frame) (cs : List (Chip × Frame)) : (sent s k fs cs).adcIo = s.adcIo := rfl
@[simp] theorem sent_dacIo (s : State) (k : Chip) (fs : List Frame) (cs : List (Chip × Frame)) : (sent s k fs cs).dacIo = s.dacIo := rfl
@[simp] theorem sent_tcIo (s : State) (k : Chip) (fs : List Frame) (cs : List (Chip × Frame)) : (sent s k fs cs).tcIo = s.tcIo := rfl

@[simp] theorem ioOf_goingOn (c : Chip) (r : SeqRun) (s : State) :
    ioOf (goingOn c r s) c = { ioOf s c with running := some r } := ioOf_withIo_same ..
@[simp] theorem ioOf_returning (c : Chip) (a : Answer) (s : State) :
    ioOf (returning c a s) c = { ioOf s c with running := none, returned := some a } := ioOf_withIo_same ..
@[simp] theorem ioOf_endedBy (c : Chip) (e : Raised) (s : State) :
    ioOf (endedBy c e s) c =
      { ioOf s c with result := some (faultAnswer e), running := none, returned := some (faultAnswer e) } :=
  ioOf_withIo_same ..
@[simp] theorem goingOn_port (c : Chip) (r : SeqRun) (s : State) : (goingOn c r s).port = s.port := rfl
@[simp] theorem returning_port (c : Chip) (a : Answer) (s : State) : (returning c a s).port = s.port := rfl
@[simp] theorem endedBy_port (c : Chip) (e : Raised) (s : State) : (endedBy c e s).port = s.port := rfl

/-- No frame sent: nothing changed. -/
@[simp] theorem sent_nil (s : State) (k : Chip) : sent s k [] [] = s := by
  simp [sent]

/-- Frames sent one batch after the other. -/
theorem sent_sent (s : State) (k : Chip) (fs gs : List Frame) (cs ds : List (Chip × Frame)) :
    sent (sent s k fs cs) k gs ds = sent s k (fs ++ gs) (cs ++ ds) := by
  simp [sent, List.drop_drop, Nat.add_assoc]

theorem sent_withCfg (s : State) (c k : Chip) (x : CfgInstance) (fs : List Frame) (cs : List (Chip × Frame)) :
    sent (withCfg s c x) k fs cs = withCfg (sent s k fs cs) c x := by
  cases c <;> rfl

theorem sent_withConv (s : State) (c : ConvChip) (k : Chip) (x : ConvState) (fs : List Frame)
    (cs : List (Chip × Frame)) : sent (withConv s c x) k fs cs = withConv (sent s k fs cs) c x := by
  cases c <;> rfl

/-- The core state is the same when nothing but the ports differs. -/
theorem sameCore_refl (s : State) : sameCore s s := ⟨rfl, rfl, rfl, rfl, rfl, rfl, rfl⟩

theorem sameCore_markBusy (s : State) (c : Chip) : sameCore s (markBusy s c) := ⟨rfl, rfl, rfl, rfl, rfl, rfl, rfl⟩

theorem sameCore_sent (s : State) (k : Chip) (fs : List Frame) (cs : List (Chip × Frame)) :
    sameCore s (sent s k fs cs) := ⟨rfl, rfl, rfl, rfl, rfl, rfl, rfl⟩

end Sys2Proof.Machine
end

