-- ==== Sys2Proof/Laws/Bank.lean ====
section
/-! SUPPORT. The register bank and the sorted register lists: reading after writing, which keys there are, and the overlay of
rule R177. -/

namespace Sys2Proof.Machine
open Sys2Proof.Config

theorem lookup_map_fst {α : Type} (b : List (Byte × α)) (g : Byte → α → α) (k : Byte) :
    (b.map fun e => (e.1, g e.1 e.2)).lookup k = (b.lookup k).map (g k) := by
  induction b with
  | nil => rfl
  | cons e rest ih =>
    obtain ⟨j, v⟩ := e
    by_cases h : k = j
    · subst h; simp [List.lookup]
    · have : (k == j) = false := by simpa using h
      simp [List.lookup, this, ih]

/-- A write as a map over the bank. -/
theorem bankSet_eq {α : Type} (b : List (Byte × α)) (k : Byte) (v : α) :
    bankSet b k v = b.map fun e => (e.1, if e.1 = k then v else e.2) := by
  refine List.map_congr_left fun e _ => ?_
  by_cases h : e.1 = k <;> simp [h]

theorem bankGet_bankSet {α : Type} (b : List (Byte × α)) (k j : Byte) (v : α) :
    bankGet (bankSet b k v) j = if j = k then (bankGet b j).map fun _ => v else bankGet b j := by
  unfold bankGet
  rw [bankSet_eq, lookup_map_fst b (fun i w => if i = k then v else w)]
  by_cases h : j = k <;> simp [h]

/-- A write leaves every other key alone. -/
theorem bankGet_bankSet_ne {α : Type} (b : List (Byte × α)) {k j : Byte} (v : α) (h : j ≠ k) :
    bankGet (bankSet b k v) j = bankGet b j := by
  rw [bankGet_bankSet, if_neg h]

/-- A key that is there reads as what was written. -/
theorem bankGet_bankSet_same {α : Type} (b : List (Byte × α)) (k : Byte) (v : α) (h : (bankGet b k).isSome) :
    bankGet (bankSet b k v) k = some v := by
  rw [bankGet_bankSet, if_pos rfl]
  obtain ⟨w, hw⟩ := Option.isSome_iff_exists.mp h
  simp [hw]

/-- A write keeps the keys. -/
@[simp] theorem bankSet_keys {α : Type} (b : List (Byte × α)) (k : Byte) (v : α) :
    (bankSet b k v).map (·.1) = b.map (·.1) := by
  rw [bankSet_eq]
  simp [Function.comp_def]

@[simp] theorem bankSetAll_nil {α : Type} (b : List (Byte × α)) : bankSetAll b [] = b := rfl

@[simp] theorem bankSetAll_cons {α : Type} (b : List (Byte × α)) (e : Byte × α) (vs : List (Byte × α)) :
    bankSetAll b (e :: vs) = bankSetAll (bankSet b e.1 e.2) vs := rfl

theorem bankSetAll_append {α : Type} (b : List (Byte × α)) (us vs : List (Byte × α)) :
    bankSetAll b (us ++ vs) = bankSetAll (bankSetAll b us) vs := by
  simp [bankSetAll, List.foldl_append]

/-- Many writes keep the keys. -/
@[simp] theorem bankSetAll_keys {α : Type} (b vs : List (Byte × α)) :
    (bankSetAll b vs).map (·.1) = b.map (·.1) := by
  induction vs generalizing b with
  | nil => rfl
  | cons e rest ih => rw [bankSetAll_cons, ih, bankSet_keys]

/-- Writes of distinct keys, as one map over the bank. -/
theorem bankSetAll_eq {α : Type} (vs : List (Byte × α)) (h : (vs.map (·.1)).Nodup) (b : List (Byte × α)) :
    bankSetAll b vs = b.map fun e => (e.1, (vs.lookup e.1).getD e.2) := by
  induction vs generalizing b with
  | nil => simp
  | cons u rest ih =>
    obtain ⟨k, v⟩ := u
    simp only [List.map_cons, List.nodup_cons] at h
    rw [bankSetAll_cons, ih h.2, bankSet_eq, List.map_map]
    refine List.map_congr_left fun e _ => ?_
    by_cases he : e.1 = k
    · have : rest.lookup k = none := by
        rw [List.lookup_eq_none_iff]
        intro p hp
        simp only [bne_iff_ne, ne_eq]
        intro hk
        exact h.1 (List.mem_map.mpr ⟨p, hp, hk.symm⟩)
      simp [List.lookup, he, this]
    · have : (e.1 == k) = false := by simpa using he
      simp [List.lookup, he, this]

/-- Every entry after many writes is an old one or one that was written. -/
theorem mem_bankSetAll {α : Type} (b vs : List (Byte × α)) (e : Byte × α) (h : e ∈ bankSetAll b vs) :
    e ∈ b ∨ e ∈ vs := by
  induction vs generalizing b with
  | nil => exact .inl h
  | cons u rest ih =>
    rcases ih _ h with hb | hr
    · unfold bankSet at hb
      obtain ⟨x, hx, rfl⟩ := List.mem_map.mp hb
      by_cases hk : x.1 = u.1
      · simp [hk]
      · simp [hk, hx]
    · exact .inr (List.mem_cons_of_mem _ hr)

/-! ### Sorted lists of bytes -/

theorem mem_byteRun_all (b : Byte) : b ∈ byteRun 0 256 := by
  simp only [byteRun, List.mem_map, List.mem_range'_1]
  exact ⟨b.toNat, ⟨Nat.zero_le _, by have := b.isLt; omega⟩, by simp⟩

theorem byteRun_sorted : (byteRun 0 256).Pairwise (· < ·) := by
  unfold byteRun
  rw [List.pairwise_map]
  refine (List.pairwise_lt_range' (s := 0) (n := 256)).imp_of_mem fun {a b} ha hb h => ?_
  simp only [List.mem_range'_1] at ha hb
  simp only [BitVec.lt_def, BitVec.toNat_ofNat]
  omega

/-- What is in a sorted list. -/
@[simp] theorem mem_ascending (bs : List Byte) (b : Byte) : b ∈ ascending bs ↔ b ∈ bs := by
  simp [ascending, mem_byteRun_all]

/-- A sorted list is strictly rising. -/
theorem ascending_sorted (bs : List Byte) : (ascending bs).Pairwise (· < ·) := byteRun_sorted.filter _

/-- Two lists with the same members have the same sorted list. -/
theorem ascending_congr {as bs : List Byte} (h : ∀ b, b ∈ as ↔ b ∈ bs) : ascending as = ascending bs := by
  unfold ascending
  exact List.filter_congr fun b _ => by simp [h]

/-- The sorted lists tell the members apart. -/
theorem ascending_eq_iff (as bs : List Byte) : ascending as = ascending bs ↔ ∀ b, b ∈ as ↔ b ∈ bs :=
  ⟨fun h b => by rw [← mem_ascending as, h, mem_ascending], ascending_congr⟩

/-- The first member of a sorted list with a property is its least. -/
theorem find_ascending {bs : List Byte} {q : Byte → Bool} {f : Byte} (hf : f ∈ bs) (hq : q f = true)
    (hmin : ∀ g ∈ bs, g < f → q g = false) : (ascending bs).find? q = some f := by
  have key : ∀ l : List Byte, l.Pairwise (· < ·) → f ∈ l → (∀ g ∈ l, g ∈ bs) → l.find? q = some f := by
    intro l
    induction l with
    | nil => intro _ h; cases h
    | cons x rest ih =>
      intro hs hm hb
      rw [List.pairwise_cons] at hs
      rcases List.mem_cons.mp hm with rfl | hr
      · simp [hq]
      · have hx := hmin x (hb x (by simp)) (hs.1 f hr)
        simp [hx, ih hs.2 hr fun g hg => hb g (List.mem_cons_of_mem _ hg)]
  exact key _ (ascending_sorted bs) ((mem_ascending bs f).mpr hf) fun g hg => (mem_ascending bs g).mp hg

end Sys2Proof.Machine
end

