-- ==== Sys2Proof/Laws/Ops.lean ====
section
/-! SUPPORT. One lemma for each shared operation that says everything it can do: the transfer, the sequencing of effects, the
outcome, request validation, the register-write loop, the calibration look-up. -/

namespace Sys2Proof.Machine
open Sys2Proof.Config

/-! ### Outcomes -/

/-- An effect always answers a next state: it ended with a result or with a fault, or waits for its transfer. -/
theorem outcome_next {α : Type} {fmt : α → List Word} {x : OpEnd α} {t : State}
    (h : outcome fmt x = .next t) :
    (∃ a s, x = .done a s ∧ t = answer s (fmt a)) ∨ (∃ e s, x = .raised e s ∧ t = deliver e s) ∨ x = .hung t := by
  cases x with
  | done a s => exact .inl ⟨a, s, rfl, by simpa [outcome] using h.symm⟩
  | raised e s => exact .inr (.inl ⟨e, s, rfl, by simpa [outcome] using h.symm⟩)
  | hung s => exact .inr (.inr (by simpa [outcome] using h))

@[simp] theorem outcome_done {α : Type} (fmt : α → List Word) (a : α) (s : State) :
    outcome fmt (.done a s) = .next (answer s (fmt a)) := rfl
@[simp] theorem outcome_raised {α : Type} (fmt : α → List Word) (e : Raised) (s : State) :
    outcome fmt (.raised e s) = .next (deliver e s) := rfl
@[simp] theorem outcome_hung {α : Type} (fmt : α → List Word) (s : State) : outcome fmt (.hung s) = .next s := rfl

@[simp] theorem pureOutcome_ok (ws : List Word) (s : State) : pureOutcome (.ok ws) s = .next (answer s ws) := rfl
@[simp] theorem pureOutcome_error (e : Raised) (s : State) : pureOutcome (.error e) s = .next (deliver e s) := rfl
@[simp] theorem frameWords_ok (f : Frame) : frameWords (.ok f) = .ok (byteListWords f) := rfl
@[simp] theorem frameWords_error (e : Raised) : frameWords (.error e) = .error e := rfl
@[simp] theorem oneWord_ok (w : Word) : oneWord (.ok w) = .ok [w] := rfl
@[simp] theorem oneWord_error (e : Raised) : oneWord (.error e) = .error e := rfl
@[simp] theorem calWords_ok (k : CalPair) : calWords (.ok k) = .ok [k.gain, k.offset] := rfl
@[simp] theorem calWords_error (e : Raised) : calWords (.error e) = .error e := rfl
@[simp] theorem noWords_eq (u : Unit) : noWords u = [] := rfl
@[simp] theorem lift_ok {α : Type} (a : α) (s : State) : lift (.ok a) s = .done a s := rfl
@[simp] theorem lift_error {α : Type} (e : Raised) (s : State) : lift (α := α) (.error e) s = .raised e s := rfl
@[simp] theorem andThen_done {α β : Type} (a : α) (s : State) (f : α → State → OpEnd β) :
    andThen (.done a s) f = f a s := rfl
@[simp] theorem andThen_raised {α β : Type} (e : Raised) (s : State) (f : α → State → OpEnd β) :
    andThen (.raised e s) f = .raised e s := rfl
@[simp] theorem andThen_hung {α β : Type} (s : State) (f : α → State → OpEnd β) : andThen (.hung s) f = .hung s := rfl

/-- A pure outcome is a next state that differs in the result port only. -/
theorem pureOutcome_next {x : Except Raised (List Word)} {s t : State} (h : pureOutcome x s = .next t) :
    (∃ ws, x = .ok ws ∧ t = answer s ws) ∨ (∃ e, x = .error e ∧ t = deliver e s) := by
  cases x with
  | ok ws => exact .inl ⟨ws, rfl, by simpa using h.symm⟩
  | error e => exact .inr ⟨e, rfl, by simpa using h.symm⟩

/-- Two effects in a row that end with a result: both did. -/
theorem andThen_eq_done {α β : Type} {x : OpEnd α} {f : α → State → OpEnd β} {b : β} {t : State}
    (h : andThen x f = .done b t) : ∃ a s, x = .done a s ∧ f a s = .done b t := by
  cases x with
  | done a s => exact ⟨a, s, rfl, h⟩
  | raised e s => cases h
  | hung => cases h

/-- Two effects in a row that end with a fault: the first did, or the second after the first. -/
theorem andThen_eq_raised {α β : Type} {x : OpEnd α} {f : α → State → OpEnd β} {e : Raised} {t : State}
    (h : andThen x f = .raised e t) : x = .raised e t ∨ ∃ a s, x = .done a s ∧ f a s = .raised e t := by
  cases x with
  | done a s => exact .inr ⟨a, s, rfl, h⟩
  | raised e' s => exact .inl (by simpa using h)
  | hung => cases h

/-- Two effects in a row that do not end: the first does not, or the second after the first. -/
theorem andThen_eq_hung {α β : Type} {x : OpEnd α} {f : α → State → OpEnd β} {t : State}
    (h : andThen x f = .hung t) : x = .hung t ∨ ∃ a s, x = .done a s ∧ f a s = .hung t := by
  cases x with
  | done a s => exact .inr ⟨a, s, rfl, h⟩
  | raised e s => cases h
  | hung s => exact .inl (by simpa using h)

/-! ### The transfer -/

/-- Emitting and counting one transfer is sending one frame. -/
theorem emit_sent (c : Chip) (f : Frame) (s : State) :
    ∃ copies, copiesOf c [f] copies ∧ afterTransfer (emit c f s) = sent s c [f] copies := by
  by_cases h : traceTaken s.transfers = true
  · exact ⟨[(c, f)], by simp [copiesOf], by simp [emit, afterTransfer, sent, h]⟩
  · exact ⟨[], by simp [copiesOf], by simp [emit, afterTransfer, sent, h]⟩

/-- Whether a transfer holds the bus is seen at any instance. -/
theorem busHeld_iff (s : State) : busHeld s = true ↔ ∃ c, isBusy s c = true := by
  unfold busHeld
  simp only [Bool.or_eq_true]
  constructor
  · rintro ((h | h) | h)
    exacts [⟨.adc, h⟩, ⟨.dac, h⟩, ⟨.tc, h⟩]
  · rintro ⟨c, h⟩
    cases c
    exacts [.inl (.inl h), .inl (.inr h), .inr h]

/-- What the transport answers depends on three things only: who is busy, the listed answers, the count of transfers. -/
theorem replyAt_congr {s t : State} (hb : ∀ c, isBusy t c = isBusy s c) {k : Nat}
    (hr : t.replies = s.replies.drop k) (ht : t.transfers = s.transfers + k) (n : Nat) :
    replyAt t n = replyAt s (k + n) := by
  have h : busHeld t = busHeld s := by
    rw [Bool.eq_iff_iff, busHeld_iff, busHeld_iff]
    simp [hb]
  unfold replyAt
  rw [h, hr, ht, List.getElem?_drop, Nat.add_assoc]

@[simp] theorem replyAt_withCfg (s : State) (c : Chip) (x : CfgInstance) (n : Nat) :
    replyAt (withCfg s c x) n = replyAt s n := by
  simpa using replyAt_congr (s := s) (t := withCfg s c x) (k := 0) (by simp) (by simp) (by simp) n
@[simp] theorem replyAt_withConv (s : State) (c : ConvChip) (x : ConvState) (n : Nat) :
    replyAt (withConv s c x) n = replyAt s n := by
  simpa using replyAt_congr (s := s) (t := withConv s c x) (k := 0) (by simp) (by simp) (by simp) n
@[simp] theorem replyAt_answer (s : State) (ws : List Word) (n : Nat) : replyAt (answer s ws) n = replyAt s n := by
  simpa using replyAt_congr (s := s) (t := answer s ws) (k := 0) (by simp) (by simp) (by simp) n
@[simp] theorem replyAt_deliver (e : Raised) (s : State) (n : Nat) : replyAt (deliver e s) n = replyAt s n := by
  simpa using replyAt_congr (s := s) (t := deliver e s) (k := 0) (by simp) (by simp) (by simp) n
@[simp] theorem replyAt_atWork (s : State) (c : Chip) (rest : List Event) (n : Nat) :
    replyAt (atWork s c rest) n = replyAt s n := rfl
/-- Frames sent use up as many answers. -/
@[simp] theorem replyAt_sent (s : State) (k : Chip) (fs : List Frame) (cs : List (Chip × Frame)) (n : Nat) :
    replyAt (sent s k fs cs) n = replyAt s (fs.length + n) :=
  replyAt_congr (by simp) (by simp) (by simp) n

/-- An instance that is busy keeps every transfer from returning. -/
theorem replyAt_busy {s : State} {c : Chip} (h : isBusy s c = true) (n : Nat) : replyAt s n = .never := by
  simp [replyAt, (busHeld_iff s).mpr ⟨c, h⟩]

/-- The listed answers are what the transport gives, while no instance waits for one. -/
theorem gives_listed {s : State} {rs more : List Reply} (hb : busHeld s = false) (h : s.replies = rs ++ more) :
    TransportGives s rs := by
  intro j r hj
  have hl : j < rs.length := (List.getElem?_eq_some_iff.mp hj).1
  simp [replyAt, hb, h, List.getElem?_append_left hl, hj]

/-- A transfer that the transport answers. -/
theorem transfer_answered {s : State} {r : Frame} (h : replyAt s 0 = .answered r) (c : Chip) (f : Frame) (info : Nat) :
    ∃ copies, copiesOf c [f] copies ∧ transfer c f info s = .done r (sent s c [f] copies) := by
  obtain ⟨copies, hc, he⟩ := emit_sent c f s
  exact ⟨copies, hc, by simp [transfer, h, he]⟩

/-- A transfer that fails. -/
theorem transfer_failed {s : State} (h : replyAt s 0 = .failed) (c : Chip) (f : Frame) (info : Nat) :
    ∃ copies, copiesOf c [f] copies ∧
      transfer c f info s = .raised (raised .transportFault info) (sent s c [f] copies) := by
  obtain ⟨copies, hc, he⟩ := emit_sent c f s
  exact ⟨copies, hc, by simp [transfer, h, he]⟩

/-- A transfer that never returns. -/
theorem transfer_never {s : State} (h : replyAt s 0 = .never) (c : Chip) (f : Frame) (info : Nat) :
    ∃ copies, copiesOf c [f] copies ∧ transfer c f info s = .hung (markBusy (sent s c [f] copies) c) := by
  obtain ⟨copies, hc, he⟩ := emit_sent c f s
  exact ⟨copies, hc, by simp [transfer, h, he]⟩

/-- All a transfer can do. -/
theorem transfer_cases (c : Chip) (f : Frame) (info : Nat) (s : State) :
    (∃ r copies, copiesOf c [f] copies ∧ replyAt s 0 = .answered r ∧
      transfer c f info s = .done r (sent s c [f] copies)) ∨
    (∃ copies, copiesOf c [f] copies ∧
      transfer c f info s = .raised (raised .transportFault info) (sent s c [f] copies)) ∨
    (∃ copies, copiesOf c [f] copies ∧ replyAt s 0 = .never ∧
      transfer c f info s = .hung (markBusy (sent s c [f] copies) c)) := by
  cases h : replyAt s 0 with
  | answered r =>
    obtain ⟨cs, hc, he⟩ := transfer_answered h c f info
    exact .inl ⟨r, cs, hc, rfl, he⟩
  | failed => exact .inr (.inl (transfer_failed h c f info))
  | never =>
    obtain ⟨cs, hc, he⟩ := transfer_never h c f info
    exact .inr (.inr ⟨cs, hc, rfl, he⟩)

/-- Copies of frames sent one batch after the other. -/
theorem copiesOf_append {c : Chip} {fs gs : List Frame} {cs ds : List (Chip × Frame)} (h : copiesOf c fs cs)
    (k : copiesOf c gs ds) : copiesOf c (fs ++ gs) (cs ++ ds) := by
  unfold copiesOf at *
  rw [List.map_append]
  exact h.append k

/-! ### Requests -/

/-- A request as the field values it stands for. -/
def valuesOf (req : List Pair) : List (Byte × Byte) := req.map fun q => (q.field, q.value.setWidth 8)

theorem valuesOf_keys (req : List Pair) : (valuesOf req).map (·.1) = req.map (·.field) := by
  simp [valuesOf, Function.comp_def]

theorem lookup_valuesOf (req : List Pair) (f : Byte) : (valuesOf req).lookup f = asked req f := by
  induction req with
  | nil => rfl
  | cons q rest ih =>
    by_cases h : f = q.field
    · simp [valuesOf, asked, List.find?, h]
    · have h1 : (f == q.field) = false := by simpa using h
      have h2 : (q.field == f) = false := by simpa using fun e : q.field = f => h e.symm
      have e1 : (valuesOf (q :: rest)).lookup f = (valuesOf rest).lookup f := by simp [valuesOf, List.lookup, h1]
      have e2 : asked (q :: rest) f = asked rest f := by simp [asked, List.find?, h2]
      rw [e1, ih, e2]

/-- The legal value found is the request's value. -/
theorem legalValue_some {spec : FieldSpec} {v : BitVec 24} {b : Byte} (h : legalValue spec v = some b) :
    b ∈ spec.legal ∧ b.toNat = v.toNat ∧ b = v.setWidth 8 := by
  have h1 : b.toNat = v.toNat := by simpa using List.find?_some h
  refine ⟨List.mem_of_find?_eq_some h, h1, ?_⟩
  apply BitVec.eq_of_toNat_eq
  have := b.isLt
  rw [BitVec.toNat_setWidth]
  omega

theorem pairOk_iff (p : ChipProfile) (q : Pair) :
    PairOk p q ↔ ∃ spec b, fieldSpec p q.field = some spec ∧ legalValue spec q.value = some b := by
  constructor
  · rintro ⟨spec, hs, b, hb, hv⟩
    have : (legalValue spec q.value).isSome := by
      unfold legalValue
      rw [List.find?_isSome]
      exact ⟨b, hb, by simpa using hv⟩
    obtain ⟨b', hb'⟩ := Option.isSome_iff_exists.mp this
    exact ⟨spec, b', hs, hb'⟩
  · rintro ⟨spec, b, hs, hb⟩
    obtain ⟨hm, hn, _⟩ := legalValue_some hb
    exact ⟨spec, hs, b, hm, hn⟩

theorem validateFrom_ok {p : ChipProfile} {req : List Pair} {seen : List Byte}
    (hn : (req.map (·.field)).Nodup) (hs : ∀ q ∈ req, q.field ∉ seen) (hp : ∀ q ∈ req, PairOk p q) :
    validateFrom p seen req = .ok (valuesOf req) := by
  induction req generalizing seen with
  | nil => rfl
  | cons q rest ih =>
    obtain ⟨spec, b, h1, h2⟩ := (pairOk_iff p q).mp (hp q (by simp))
    obtain ⟨_, _, hb⟩ := legalValue_some h2
    have h3 : seen.contains q.field = false := by simpa using hs q (by simp)
    simp only [List.map_cons, List.nodup_cons] at hn
    have h4 := ih (seen := q.field :: seen) hn.2
      (fun x hx => by
        simp only [List.mem_cons, not_or]
        exact ⟨fun e => hn.1 (List.mem_map.mpr ⟨x, hx, e⟩), hs x (by simp [hx])⟩)
      (fun x hx => hp x (by simp [hx]))
    simp [validateFrom, h1, h2, h3, h4, valuesOf, hb, -List.contains_eq_mem]

/-- A good request is validated to its values. -/
theorem validate_ok {p : ChipProfile} {req : List Pair} (h : RequestOk p req) : validate p req = .ok (valuesOf req) :=
  validateFrom_ok h.1 (fun _ _ => by simp) h.2

/-- A good request followed by a bad pair is refused with that pair's field. -/
theorem validateFrom_bad {p : ChipProfile} {good : List Pair} {q : Pair} {more : List Pair} {seen : List Byte}
    (hn : (good.map (·.field)).Nodup) (hs : ∀ x ∈ good, x.field ∉ seen) (hp : ∀ x ∈ good, PairOk p x)
    (hq : ¬ PairOk p q ∨ q.field ∈ seen ∨ q.field ∈ good.map (·.field)) :
    validateFrom p seen (good ++ q :: more) = .error { fault := .invalidConfigValue, info := q.field } := by
  induction good generalizing seen with
  | nil =>
    simp only [List.map_nil, List.not_mem_nil, or_false] at hq
    simp only [List.nil_append, validateFrom]
    cases h1 : fieldSpec p q.field with
    | none => simp [raised]
    | some spec =>
      simp only
      split
      · simp [raised]
      · rename_i h3
        have hq' : ¬ PairOk p q := by
          rcases hq with h | h
          · exact h
          · simp [h] at h3
        have : legalValue spec q.value = none := by
          by_contra hne
          obtain ⟨b, hb⟩ := Option.ne_none_iff_exists'.mp hne
          exact hq' ((pairOk_iff p q).mpr ⟨spec, b, h1, hb⟩)
        simp [this, raised]
  | cons x rest ih =>
    obtain ⟨spec, b, h1, h2⟩ := (pairOk_iff p x).mp (hp x (by simp))
    have h3 : seen.contains x.field = false := by simpa using hs x (by simp)
    simp only [List.map_cons, List.nodup_cons] at hn
    have h4 := ih (seen := x.field :: seen) hn.2
      (fun y hy => by
        simp only [List.mem_cons, not_or]
        exact ⟨fun e => hn.1 (List.mem_map.mpr ⟨y, hy, e⟩), hs y (by simp [hy])⟩)
      (fun y hy => hp y (by simp [hy]))
      (by
        rcases hq with h | h | h
        · exact .inl h
        · exact .inr (.inl (List.mem_cons_of_mem _ h))
        · simp only [List.map_cons, List.mem_cons] at h
          rcases h with h | h
          · exact .inr (.inl (by simp [h]))
          · exact .inr (.inr h))
    simp [validateFrom, h1, h2, h3, h4, -List.contains_eq_mem]

theorem validate_bad {p : ChipProfile} {good : List Pair} {q : Pair} {more : List Pair} (h : RequestOk p good)
    (hq : ¬ PairOk p q ∨ q.field ∈ good.map (·.field)) :
    validate p (good ++ q :: more) = .error { fault := .invalidConfigValue, info := q.field } :=
  validateFrom_bad h.1 (fun _ _ => by simp) h.2 (by tauto)

theorem validateFrom_inv {p : ChipProfile} {req : List Pair} {seen : List Byte} {vs : List (Byte × Byte)}
    (h : validateFrom p seen req = .ok vs) :
    (req.map (·.field)).Nodup ∧ (∀ q ∈ req, q.field ∉ seen) ∧ (∀ q ∈ req, PairOk p q) ∧ vs = valuesOf req := by
  induction req generalizing seen vs with
  | nil => simp only [validateFrom, Except.ok.injEq] at h; simp [← h, valuesOf]
  | cons q rest ih =>
    simp only [validateFrom] at h
    split at h
    · cases h
    · rename_i spec h1
      split at h
      · cases h
      · rename_i h3
        split at h
        · cases h
        · rename_i b h2
          split at h
          · cases h
          · rename_i vs' h4
            obtain ⟨i1, i2, i3, i4⟩ := ih h4
            simp only [Except.ok.injEq] at h
            refine ⟨?_, ?_, ?_, ?_⟩
            · simp only [List.map_cons, List.nodup_cons]
              refine ⟨fun hm => ?_, i1⟩
              obtain ⟨x, hx, he⟩ := List.mem_map.mp hm
              exact i2 x hx (by simp [he])
            · intro x hx
              rcases List.mem_cons.mp hx with rfl | hx
              · simpa using h3
              · have := i2 x hx
                simp only [List.mem_cons, not_or] at this
                exact this.2
            · intro x hx
              rcases List.mem_cons.mp hx with rfl | hx
              · exact (pairOk_iff p x).mpr ⟨spec, b, h1, h2⟩
              · exact i3 x hx
            · subst h
              obtain ⟨_, _, hb⟩ := legalValue_some h2
              simp [valuesOf, i4, hb]

/-- All that validation can do. -/
theorem validate_inv {p : ChipProfile} {req : List Pair} {vs : List (Byte × Byte)} (h : validate p req = .ok vs) :
    RequestOk p req ∧ vs = valuesOf req := by
  obtain ⟨h1, _, h3, h4⟩ := validateFrom_inv h
  exact ⟨⟨h1, h3⟩, h4⟩

theorem validateFrom_error {p : ChipProfile} {req : List Pair} {seen : List Byte} {e : Raised}
    (h : validateFrom p seen req = .error e) : e.fault = .invalidConfigValue := by
  induction req generalizing seen with
  | nil => cases h
  | cons q rest ih =>
    simp only [validateFrom] at h
    split at h
    · cases h; rfl
    · split at h
      · cases h; rfl
      · split at h
        · cases h; rfl
        · split at h
          · rename_i e' h4
            cases h
            exact ih h4
          · cases h

theorem validate_error {p : ChipProfile} {req : List Pair} {e : Raised} (h : validate p req = .error e) :
    e.fault = .invalidConfigValue := validateFrom_error h

/-- The diff of a validated request is the values of the pairs that changed. -/
theorem diffOf_valuesOf {s : State} {c : Chip} {req : List Pair} (h : RequestOk (profOf s c) req) :
    diffOf (cfgOf s c).mirror (valuesOf req) = valuesOf (changed s c req) := by
  unfold diffOf changed valuesOf
  rw [List.filter_map]
  congr 1
  refine List.filter_congr fun q hq => ?_
  obtain ⟨spec, hs, b, hb, hv⟩ := h.2 q hq
  have hb8 : q.value.setWidth 8 = b := by
    apply BitVec.eq_of_toNat_eq
    have := b.isLt
    rw [BitVec.toNat_setWidth]
    omega
  simp only [Function.comp_apply, mirrorGet, hb8]
  cases hm : bankGet (cfgOf s c).mirror q.field with
  | none => simp
  | some w =>
    by_cases hw : w = b
    · simp [hw, hv]
    · have : w.toNat ≠ q.value.toNat := fun e => hw (BitVec.eq_of_toNat_eq (by omega))
      have e1 : (w == b) = false := by simpa using hw
      have e2 : (some w.toNat == some q.value.toNat) = false := by simpa using this
      simp [bne, e1, e2]

/-- The words of the changed pairs are the request's own. -/
theorem fieldWords_valuesOf {p : ChipProfile} {req : List Pair} (h : ∀ q ∈ req, PairOk p q) :
    fieldWords (valuesOf req) = req.map fun q => pairWord q.field q.value := by
  unfold fieldWords valuesOf
  rw [List.map_map]
  refine List.map_congr_left fun q hq => ?_
  obtain ⟨_, _, b, _, hv⟩ := h q hq
  have hw : (q.value.setWidth 8).setWidth 24 = q.value := by
    apply BitVec.eq_of_toNat_eq
    have := b.isLt
    simp only [BitVec.toNat_setWidth]
    omega
  simp [hw]

theorem RequestOk.changed {s : State} {c : Chip} {p : ChipProfile} {req : List Pair} (h : RequestOk p req) :
    RequestOk p (changed s c req) :=
  ⟨h.1.sublist (List.filter_sublist.map _), fun q hq => h.2 q (List.mem_of_mem_filter hq)⟩

/-- Committing a request's values lays it over the mirror. -/
theorem bankSetAll_valuesOf {req : List Pair} (h : (req.map (·.field)).Nodup) (b : List (Byte × Byte)) :
    bankSetAll b (valuesOf req) = overlay b req := by
  rw [bankSetAll_eq _ (by rwa [valuesOf_keys])]
  unfold overlay
  simp [lookup_valuesOf]

theorem lookup_marks (fs : List Byte) (k : Byte) :
    (fs.map fun f => (f, true)).lookup k = if k ∈ fs then some true else none := by
  induction fs with
  | nil => rfl
  | cons f rest ih =>
    by_cases h : k = f
    · simp [h]
    · have : (k == f) = false := by simpa using h
      simp [List.lookup, this, ih, h]

/-- Marking fields, as one map over the mask. -/
theorem markSet_eq (mask : List (Byte × Bool)) (fs : List Byte) :
    markSet mask fs = mask.map fun e => (e.1, e.2 || fs.contains e.1) := by
  unfold markSet
  induction fs generalizing mask with
  | nil => simp
  | cons f rest ih =>
    rw [List.map_cons, bankSetAll_cons, ih, bankSet_eq, List.map_map]
    refine List.map_congr_left fun e _ => ?_
    by_cases h : e.1 = f <;> simp [h]

theorem asked_isSome (req : List Pair) (f : Byte) : (asked req f).isSome = (req.map (·.field)).contains f := by
  unfold asked
  rw [Option.isSome_map, Bool.eq_iff_iff, List.find?_isSome]
  simp

/-- Marking a request's fields. -/
theorem markSet_fields (mask : List (Byte × Bool)) (req : List Pair) :
    markSet mask (req.map (·.field)) = marked mask req := by
  rw [markSet_eq]
  unfold marked
  simp only [asked_isSome]

/-! ### The calibration table -/

/-- All a look-up can do. -/
theorem lookupCal_ok {s : State} {m : Chip} {ch : Nat} {k : CalPair} (h : ch < channelCount s.profile m)
    (hk : calGet s.cal m ch = some k) : lookupCal s m ch = .ok k := by
  simp [lookupCal, validCh, h, hk]

theorem lookupCal_none {s : State} {m : Chip} {ch : Nat} (h : ch < channelCount s.profile m)
    (hk : calGet s.cal m ch = none) : lookupCal s m ch = .error (raised .calibKeyMissingError ch) := by
  simp [lookupCal, validCh, h, hk]

theorem lookupCal_bad {s : State} {m : Chip} {ch : Nat} (h : channelCount s.profile m ≤ ch) :
    lookupCal s m ch = .error (badChannel m ch) := by
  simp [lookupCal, validCh, Nat.not_lt.mpr h]

theorem lookupCal_inv {s : State} {m : Chip} {ch : Nat} {k : CalPair} (h : lookupCal s m ch = .ok k) :
    ch < channelCount s.profile m ∧ calGet s.cal m ch = some k := by
  unfold lookupCal at h
  split at h
  · cases h
  · rename_i hv
    split at h
    · cases h
    · rename_i k' hk
      cases h
      exact ⟨by simpa [validCh] using hv, hk⟩

/-- A command word's fields, as numbers (rule R102). -/
theorem commandWord_toNat (op : BitVec 5) (k : BitVec 2) (n : BitVec 9) (a aux : Byte) :
    (commandWord op k n a aux).toNat =
      2 ^ 27 * op.toNat + 2 ^ 25 * k.toNat + 2 ^ 16 * n.toNat + 2 ^ 8 * a.toNat + aux.toNat := by
  have h2 := k.isLt
  have h3 := n.isLt
  have h4 := a.isLt
  have h5 := aux.isLt
  simp only [commandWord, BitVec.toNat_append]
  rw [← Nat.shiftLeft_add_eq_or_of_lt h2, ← Nat.shiftLeft_add_eq_or_of_lt h3, ← Nat.shiftLeft_add_eq_or_of_lt h4,
    ← Nat.shiftLeft_add_eq_or_of_lt h5]
  simp only [Nat.shiftLeft_eq]
  omega

/-- An instruction that the encoder writes as a command is presented as that command. -/
theorem presentedAs {i : Instr} {op : BitVec 5} {c : Chip} {n : BitVec 9} {a aux : Byte} {ws : List Word}
    (h : ∀ p, encode p i = encodeCommand op c n a aux ws) :
    PresentedAs i op.toNat c n.toNat a.toNat aux.toNat ws :=
  fun p => ⟨_, h p, commandWord_toNat ..⟩

/-- The look-up's faults, as the statements say them (rule R210). -/
theorem lookupCal_raises {s : State} {m : Chip} {ch : Byte} {e : FaultCode} (h : LookupRaises s m ch e) :
    lookupCal s m ch.toNat = .error { fault := e, info := ch } := by
  rcases h with ⟨rfl, h, rfl⟩ | ⟨hm, h, rfl⟩ | ⟨h, hn, rfl⟩
  · rw [lookupCal_bad (by simpa [channelCount] using h)]
    simp [badChannel, show 8 ≤ ch.toNat by omega, raised]
  · rw [lookupCal_bad h]
    simp [badChannel, hm, raised]
  · rw [lookupCal_none h hn]
    simp [raised]

/-- A look-up depends on the profile and its one cell only. -/
theorem lookupCal_congr {s t : State} {m : Chip} {ch : Nat} (hp : t.profile = s.profile)
    (hc : calGet t.cal m ch = calGet s.cal m ch) : lookupCal t m ch = lookupCal s m ch := by
  simp [lookupCal, hp, hc]

/-- Writing one cell leaves every other alone. -/
theorem calGet_calPut_ne (t : CalTable) {m m' : Chip} {ch k : Nat} (x : Option CalPair) (h : (m', k) ≠ (m, ch)) :
    calGet (calPut t m ch x) m' k = calGet t m' k := by
  have hk : m' = m → ch ≠ k := fun e1 e2 => h (by rw [e1, e2])
  cases m <;> cases m' <;>
    first | rfl | (simp [calGet, calCells, calPut, withCells, List.getElem?_set_ne (hk rfl)])

theorem calGet_calSet_ne (t : CalTable) {m m' : Chip} {ch k : Nat} (x : CalPair) (h : (m', k) ≠ (m, ch)) :
    calGet (calSet t m ch x) m' k = calGet t m' k := calGet_calPut_ne t _ h

/-- Reading the cell that was written. -/
theorem calGet_calPut_same {p : Profiles} {t : CalTable} (hw : calWf p t = true) {m : Chip} {ch : Nat}
    (h : ch < channelCount p m) (x : Option CalPair) : calGet (calPut t m ch x) m ch = x := by
  simp only [calWf, Bool.and_eq_true, beq_iff_eq] at hw
  obtain ⟨⟨h1, h2⟩, h3⟩ := hw
  cases m <;> simp only [calGet, calCells, calPut, withCells] <;> rw [List.getElem?_set_self (by omega)] <;> rfl

theorem calGet_calSet_same {p : Profiles} {t : CalTable} (hw : calWf p t = true) {m : Chip} {ch : Nat}
    (h : ch < channelCount p m) (x : CalPair) : calGet (calSet t m ch x) m ch = some x :=
  calGet_calPut_same hw h _

/-- Replacing one module's cells leaves every other module's alone. -/
theorem calCells_withCells (t : CalTable) (m m' : Chip) (cells : List (Option CalPair)) :
    calCells (withCells t m cells) m' = if m' = m then cells else calCells t m' := by
  cases m <;> cases m' <;> rfl

/-- A write keeps the table's shape. -/
theorem calWf_calPut {p : Profiles} {t : CalTable} (hw : calWf p t = true) (m : Chip) (ch : Nat) (x : Option CalPair) :
    calWf p (calPut t m ch x) = true := by
  cases m <;> simpa [calWf, calPut, withCells, calCells] using hw

theorem calWf_calSet {p : Profiles} {t : CalTable} (hw : calWf p t = true) (m : Chip) (ch : Nat) (x : CalPair) :
    calWf p (calSet t m ch x) = true := calWf_calPut hw m ch _

/-- The table loaded at reset has its shape. -/
theorem calWf_loadCal (p : Profiles) (store : CalTable) : calWf p (loadCal p store) = true := by
  simp [calWf, loadCal, loadCells]

end Sys2Proof.Machine
end

