-- ==== Sys2Proof/Laws/Writes.lean ====
section
/-! SUPPORT. The frames the builders build and the loop that writes registers, each said once in full. -/

namespace Sys2Proof.Machine
open Sys2Proof.Config

/-! ### Address runs -/

theorem validAddr_iff (valid : List Byte) (k : Nat) : validAddr valid k = true ↔ inMap valid k := by
  simp [validAddr, inMap]

theorem validAddr_false (valid : List Byte) (k : Nat) : validAddr valid k = false ↔ ¬ inMap valid k := by
  rw [← validAddr_iff]; simp

/-- A run that is wholly inside the map. -/
theorem checkRun_ok {valid : List Byte} {a : Byte} {n : Nat} (h1 : 1 ≤ n) (h2 : n ≤ 256)
    (h : ∀ j < n, inMap valid (a.toNat + j)) : checkRun valid a n = .ok () := by
  have h0 : validAddr valid a.toNat = true := (validAddr_iff _ _).mpr (by simpa using h 0 (by omega))
  have hf : (List.range' (a.toNat + 1) (n - 1)).find? (fun x => !validAddr valid x) = none := by
    rw [List.find?_eq_none]
    intro x hx
    obtain ⟨i, hi, rfl⟩ := List.mem_range'.mp hx
    have := (validAddr_iff valid _).mpr (h (1 + i) (by omega))
    rw [← Nat.add_assoc] at this
    simpa using this
  simp [checkRun, h0, countMax, hf]
  omega

theorem checkRun_start {valid : List Byte} {a : Byte} {n : Nat} (h : ¬ inMap valid a.toNat) :
    checkRun valid a n = .error { fault := .invalidAddress, info := a } := by
  have := (validAddr_false valid a.toNat).mpr h
  simp [checkRun, this, raised]

theorem checkRun_count {valid : List Byte} {a : Byte} {n : Nat} (h : inMap valid a.toNat) (hn : n < 1 ∨ 256 < n) :
    checkRun valid a n = .error { fault := .invalidCount, info := BitVec.ofNat 8 n } := by
  have h0 := (validAddr_iff valid a.toNat).mpr h
  have hc : n < 1 ∨ countMax < n := hn
  unfold checkRun
  rw [if_neg (by simp [h0]), if_pos hc]
  rfl

theorem find_range' {q : Nat → Bool} {b k n : Nat} (hk : k < n) (hq : q (b + k) = true)
    (hlt : ∀ j < k, q (b + j) = false) : (List.range' b n).find? q = some (b + k) := by
  induction k generalizing b n with
  | zero =>
    cases n with
    | zero => omega
    | succ n => simp [List.range'_succ] at hq ⊢; simp [hq]
  | succ k ih =>
    cases n with
    | zero => omega
    | succ n =>
      have h0 := hlt 0 (by omega)
      simp only [Nat.add_zero] at h0
      have := ih (b := b + 1) (n := n) (by omega) (by rw [← hq]; congr 1; omega)
        (fun j hj => by have := hlt (j + 1) (by omega); rw [← this]; congr 1; omega)
      simp only [List.range'_succ, List.find?_cons, h0]
      rw [this]
      congr 1
      omega

/-- A run that leaves the map at its `k`-th address. -/
theorem checkRun_later {valid : List Byte} {a : Byte} {n k : Nat} (hn : n ≤ 256) (h0 : 0 < k) (hk : k < n)
    (hin : ∀ j < k, inMap valid (a.toNat + j)) (hout : ¬ inMap valid (a.toNat + k)) :
    checkRun valid a n = .error { fault := .invalidAddress, info := BitVec.ofNat 8 (a.toNat + k) } := by
  have hs : validAddr valid a.toNat = true := (validAddr_iff _ _).mpr (by simpa using hin 0 h0)
  have hf : (List.range' (a.toNat + 1) (n - 1)).find? (fun x => !validAddr valid x) = some (a.toNat + 1 + (k - 1)) := by
    refine find_range' (by omega) ?_ ?_
    · have := (validAddr_false valid _).mpr hout
      have e : a.toNat + 1 + (k - 1) = a.toNat + k := by omega
      simp [e, this]
    · intro j hj
      have := (validAddr_iff valid _).mpr (hin (1 + j) (by omega))
      rw [← Nat.add_assoc] at this
      simp [this]
  have e : a.toNat + 1 + (k - 1) = a.toNat + k := by omega
  rw [e] at hf
  unfold checkRun
  rw [if_neg (by simp [hs]), if_neg (by unfold countMax; omega), hf]
  rfl

/-- All a run check can do: it passes exactly for a run of 1 to 256 addresses inside the map. -/
theorem checkRun_inv {valid : List Byte} {a : Byte} {n : Nat} (h : checkRun valid a n = .ok ()) :
    1 ≤ n ∧ n ≤ 256 ∧ ∀ j < n, inMap valid (a.toNat + j) := by
  unfold checkRun at h
  split at h
  · cases h
  · rename_i h0
    split at h
    · cases h
    · rename_i hn
      split at h
      · cases h
      · rename_i hf
        simp only [countMax] at hn
        refine ⟨by omega, by omega, fun j hj => ?_⟩
        cases j with
        | zero => exact (validAddr_iff _ _).mp (by simpa using h0)
        | succ j =>
          rw [List.find?_eq_none] at hf
          have := hf (a.toNat + 1 + j) (List.mem_range'.mpr ⟨j, by omega, by omega⟩)
          refine (validAddr_iff _ _).mp ?_
          rw [show a.toNat + (j + 1) = a.toNat + 1 + j by omega]
          simpa using this

theorem checkRun_fault {valid : List Byte} {a : Byte} {n : Nat} {e : Raised} (h : checkRun valid a n = .error e) :
    e.fault = .invalidAddress ∨ e.fault = .invalidCount := by
  unfold checkRun at h
  split at h
  · cases h; exact .inl rfl
  · split at h
    · cases h; exact .inr rfl
    · split at h
      · cases h; exact .inl rfl
      · cases h

theorem header_eq (c : ConvChip) (b : Byte) (n : Nat) : header c b n = headerBytes c b n := by
  cases c <;> rfl

/-! ### The register-write loop -/

/-- The frame of one register write, where the map has it. -/
theorem regWriteFrame_ok {p : ChipProfile} {c : Chip} {r b : Byte} (hc : c ≠ .dac)
    (h : p.validWr.contains (waddrOf p r) = true) :
    regWriteFrame p c (waddrOf p r) b = .ok (oneRegister p c r b) := by
  have hm : ∀ j < 1, inMap p.validWr ((waddrOf p r).toNat + j) := by
    intro j hj
    obtain rfl : j = 0 := by omega
    exact ⟨waddrOf p r, by simpa using h, by simp⟩
  have hr := checkRun_ok (a := waddrOf p r) (valid := p.validWr) (n := 1) (by omega) (by omega) hm
  cases c with
  | dac => exact absurd rfl hc
  | adc => simp [regWriteFrame, asConv, writeFrame, hr, oneRegister, header, hasCount]
  | tc => simp [regWriteFrame, asConv, writeFrame, hr, oneRegister, header, hasCount]

theorem commitFields_nil (c : Chip) (s : State) : commitFields c [] s = s := by
  cases c <;> rfl

theorem commitFields_append (c : Chip) (us vs : List (Byte × Byte)) (s : State) :
    commitFields c vs (commitFields c us s) = commitFields c (us ++ vs) s := by
  simp [commitFields, bankSetAll_append, markSet]

theorem commitFields_sent (c k : Chip) (vs : List (Byte × Byte)) (s : State) (fs : List Frame)
    (cs : List (Chip × Frame)) : commitFields c vs (sent s k fs cs) = sent (commitFields c vs s) k fs cs := by
  cases c <;> rfl

@[simp] theorem commitFields_profOf (c d : Chip) (vs : List (Byte × Byte)) (s : State) :
    profOf (commitFields c vs s) d = profOf s d := by
  simp [commitFields]

@[simp] theorem commitFields_replyAt (c : Chip) (vs : List (Byte × Byte)) (s : State) (n : Nat) :
    replyAt (commitFields c vs s) n = replyAt s n := by
  simp [commitFields]

@[simp] theorem commitFields_ioOf (c d : Chip) (vs : List (Byte × Byte)) (s : State) :
    ioOf (commitFields c vs s) d = ioOf s d := by
  simp [commitFields]

@[simp] theorem commitFields_convOf (c : Chip) (vs : List (Byte × Byte)) (s : State) (k : ConvChip) :
    convOf (commitFields c vs s) k = convOf s k := by
  simp [commitFields]

/-- What a list of writes commits. -/
def committed (ws : List RegWrite) : List (Byte × Byte) := ws.flatMap (·.commit)

/-- Every write of the list has its frame. -/
def Buildable (s : State) (c : Chip) (ws : List RegWrite) : Prop :=
  ∀ w ∈ ws, regWriteFrame (profOf s c) c (waddrOf (profOf s c) w.reg) w.byte =
    .ok (oneRegister (profOf s c) c w.reg w.byte)

/-- The frames of a list of writes. -/
def writeFrames (s : State) (c : Chip) (ws : List RegWrite) : List Frame :=
  ws.map fun w => oneRegister (profOf s c) c w.reg w.byte

@[simp] theorem writeFrames_later (s : State) (c : Chip) (vs : List (Byte × Byte)) (fs : List Frame)
    (cs : List (Chip × Frame)) (ws : List RegWrite) :
    writeFrames (commitFields c vs (sent s c fs cs)) c ws = writeFrames s c ws := by
  simp [writeFrames]

/-- Send and commit, then send and commit more. -/
theorem commit_sent_twice (c : Chip) (us vs : List (Byte × Byte)) (s : State) (fs gs : List Frame)
    (cs ds : List (Chip × Frame)) :
    commitFields c vs (sent (commitFields c us (sent s c fs cs)) c gs ds) =
      commitFields c (us ++ vs) (sent s c (fs ++ gs) (cs ++ ds)) := by
  rw [← commitFields_sent, sent_sent, commitFields_append]

/-- The first of the transfers to come, and what the others are after it. -/
theorem TransportGives.cons {s : State} {r : Reply} {rs : List Reply} (h : TransportGives s (r :: rs)) :
    replyAt s 0 = r ∧ ∀ (c k : Chip) (vs : List (Byte × Byte)) (f : Frame) (cs : List (Chip × Frame)),
      TransportGives (commitFields c vs (sent s k [f] cs)) rs := by
  refine ⟨h 0 r rfl, fun c k vs f cs j x hj => ?_⟩
  simpa [Nat.add_comm] using h (j + 1) x (by simpa using hj)

/-- The loop when the first writes are answered: their frames are out, their fields committed, and it goes on; so do the
transport's answers. -/
theorem writeRegisters_answered {c : Chip} {ws us : List RegWrite} {s : State} {rs : List Frame} {more : List Reply}
    (hb : Buildable s c ws) (hr : TransportGives s (rs.map .answered ++ more)) (hl : rs.length = ws.length) :
    ∃ copies, copiesOf c (writeFrames s c ws) copies ∧
      writeRegisters c (ws ++ us) s =
        writeRegisters c us (commitFields c (committed ws) (sent s c (writeFrames s c ws) copies)) ∧
      TransportGives (commitFields c (committed ws) (sent s c (writeFrames s c ws) copies)) more := by
  induction ws generalizing s rs with
  | nil =>
    obtain rfl : rs = [] := by simpa using hl
    refine ⟨[], by simp [copiesOf, writeFrames], ?_⟩
    simpa [writeFrames, committed, commitFields_nil] using hr
  | cons w rest ih =>
    cases rs with
    | nil => simp at hl
    | cons r rs =>
      obtain ⟨h0, hr'⟩ := TransportGives.cons (rs := rs.map .answered ++ more) hr
      obtain ⟨c1, h1, e1⟩ := transfer_answered h0 c (oneRegister (profOf s c) c w.reg w.byte) w.reg.toNat
      have hb' : Buildable (commitFields c w.commit (sent s c [oneRegister (profOf s c) c w.reg w.byte] c1)) c rest := by
        intro x hx
        simpa using hb x (by simp [hx])
      obtain ⟨c2, h2, e2, e3⟩ := ih hb' (hr' _ _ _ _ _) (by simpa using hl)
      have e : commitFields c (committed rest) (sent (commitFields c w.commit
          (sent s c [oneRegister (profOf s c) c w.reg w.byte] c1)) c (writeFrames s c rest) c2) =
          commitFields c (committed (w :: rest)) (sent s c (writeFrames s c (w :: rest)) (c1 ++ c2)) := by
        rw [commit_sent_twice]
        simp [writeFrames, committed]
      rw [writeFrames_later, e] at e2 e3
      refine ⟨c1 ++ c2, ?_, ?_, e3⟩
      · have := copiesOf_append h1 h2
        simpa [writeFrames] using this
      · rw [List.cons_append, writeRegisters, hb w (by simp)]
        simp only [e1]
        exact e2

/-- The loop when a write's transfer fails: it ends, and `Stale` is set. -/
theorem writeRegisters_failed {c : Chip} {w : RegWrite} {us : List RegWrite} {s : State}
    (hb : Buildable s c [w]) (hr : replyAt s 0 = .failed) :
    ∃ copies, copiesOf c (writeFrames s c [w]) copies ∧
      writeRegisters c (w :: us) s =
        .raised { fault := .transportFault, info := w.reg } (withStale (sent s c (writeFrames s c [w]) copies) c true) := by
  obtain ⟨c1, h1, e1⟩ := transfer_failed hr c (oneRegister (profOf s c) c w.reg w.byte) w.reg.toNat
  refine ⟨c1, h1, ?_⟩
  rw [writeRegisters, hb w (by simp)]
  simp [e1, raised, writeFrames]

/-- The loop on any transport: what it sent, what it committed, and how it ended. -/
theorem writeRegisters_cases {c : Chip} {ws : List RegWrite} {s : State} (hb : Buildable s c ws) :
    (∃ copies, copiesOf c (writeFrames s c ws) copies ∧
      writeRegisters c ws s = .done () (commitFields c (committed ws) (sent s c (writeFrames s c ws) copies))) ∨
    ∃ before w after copies, ws = before ++ w :: after ∧ copiesOf c (writeFrames s c (before ++ [w])) copies ∧
      let t := commitFields c (committed before) (sent s c (writeFrames s c (before ++ [w])) copies)
      (writeRegisters c ws s = .raised { fault := .transportFault, info := w.reg } (withStale t c true) ∨
        (writeRegisters c ws s = .hung (markBusy t c) ∧ replyAt s before.length = .never)) := by
  induction ws generalizing s with
  | nil =>
    exact .inl ⟨[], by simp [copiesOf, writeFrames], by simp [writeRegisters, writeFrames, committed, commitFields_nil]⟩
  | cons w rest ih =>
    rw [writeRegisters, hb w (by simp)]
    simp only
    rcases transfer_cases c (oneRegister (profOf s c) c w.reg w.byte) w.reg.toNat s with
      ⟨r, c1, h1, _, e1⟩ | ⟨c1, h1, e1⟩ | ⟨c1, h1, hn, e1⟩
    · have hb' : Buildable (commitFields c w.commit (sent s c [oneRegister (profOf s c) c w.reg w.byte] c1)) c rest := by
        intro x hx
        simpa using hb x (by simp [hx])
      rw [e1]
      simp only
      rcases ih hb' with ⟨c2, h2, e2⟩ | ⟨before, x, after, c2, hw, h2, e2⟩
      · refine .inl ⟨c1 ++ c2, by simpa [writeFrames] using copiesOf_append h1 h2, ?_⟩
        rw [e2, writeFrames_later, commit_sent_twice]
        simp [writeFrames, committed]
      · refine .inr ⟨w :: before, x, after, c1 ++ c2, by simp [hw],
          by simpa [writeFrames] using copiesOf_append h1 h2, ?_⟩
        simp only [writeFrames_later, commit_sent_twice, commitFields_replyAt, replyAt_sent, List.length_singleton] at e2
        simpa [writeFrames, committed, Nat.add_comm] using e2
    · rw [e1]
      exact .inr ⟨[], w, rest, c1, rfl, by simpa [writeFrames] using h1,
        .inl (by simp [committed, commitFields_nil, writeFrames, raised])⟩
    · rw [e1]
      exact .inr ⟨[], w, rest, c1, rfl, by simpa [writeFrames] using h1,
        .inr ⟨by simp [committed, commitFields_nil, writeFrames], hn⟩⟩

/-! ### The writes of a diff -/

theorem lookup_eq_some_iff {α : Type} {l : List (Byte × α)} (h : (l.map (·.1)).Nodup) (k : Byte) (v : α) :
    l.lookup k = some v ↔ (k, v) ∈ l := by
  induction l with
  | nil => simp
  | cons e rest ih =>
    obtain ⟨j, w⟩ := e
    simp only [List.map_cons, List.nodup_cons] at h
    by_cases hk : k = j
    · subst hk
      have : (k, v) ∉ rest := fun hm => h.1 (List.mem_map.mpr ⟨_, hm, rfl⟩)
      simp [this, eq_comm]
    · have hb : (k == j) = false := by simpa using hk
      simp [List.lookup, hb, ih h.2, hk]

/-- Two lists of writes of distinct keys with the same members have the same effect. -/
theorem bankSetAll_congr {α : Type} {us vs : List (Byte × α)} (hu : (us.map (·.1)).Nodup) (hv : (vs.map (·.1)).Nodup)
    (h : ∀ e, e ∈ us ↔ e ∈ vs) (b : List (Byte × α)) : bankSetAll b us = bankSetAll b vs := by
  have hl : ∀ k, us.lookup k = vs.lookup k := by
    intro k
    apply Option.ext
    intro v
    rw [lookup_eq_some_iff hu, lookup_eq_some_iff hv, h]
  rw [bankSetAll_eq us hu, bankSetAll_eq vs hv]
  simp only [hl]

theorem markSet_congr {fs gs : List Byte} (h : ∀ f, f ∈ fs ↔ f ∈ gs) (mask : List (Byte × Bool)) :
    markSet mask fs = markSet mask gs := by
  rw [markSet_eq, markSet_eq]
  refine List.map_congr_left fun e _ => ?_
  have : fs.contains e.1 = gs.contains e.1 := by
    rw [Bool.eq_iff_iff]
    simp [h]
  rw [this]

/-- Committing lists with the same members has the same effect. -/
theorem commitFields_congr {us vs : List (Byte × Byte)} (hu : (us.map (·.1)).Nodup) (hv : (vs.map (·.1)).Nodup)
    (h : ∀ e, e ∈ us ↔ e ∈ vs) (c : Chip) (s : State) : commitFields c us s = commitFields c vs s := by
  have h1 := bankSetAll_congr hu hv h (cfgOf s c).mirror
  have h2 : markSet (cfgOf s c).setMask (us.map (·.1)) = markSet (cfgOf s c).setMask (vs.map (·.1)) := by
    refine markSet_congr (fun f => ?_) _
    simp only [List.mem_map]
    exact ⟨fun ⟨e, he, hf⟩ => ⟨e, (h e).mp he, hf⟩, fun ⟨e, he, hf⟩ => ⟨e, (h e).mpr he, hf⟩⟩
  simp only [commitFields, h1, h2]

/-- Grouping distinct keys by a register list without repeats keeps distinct keys and the members of those registers. -/
theorem grouped (d : List (Byte × Byte)) (hd : (d.map (·.1)).Nodup) (g : Byte → Option Byte) (regs : List Byte)
    (hr : regs.Nodup) :
    let l := regs.flatMap fun r => d.filter fun e => g e.1 == some r
    (l.map (·.1)).Nodup ∧ ∀ e, e ∈ l ↔ e ∈ d.filter fun e => regs.any fun r => g e.1 == some r := by
  constructor
  · rw [List.map_flatMap, List.nodup_flatMap]
    refine ⟨fun r _ => hd.sublist (List.filter_sublist.map _), ?_⟩
    refine (List.nodup_iff_pairwise_ne.mp hr).imp fun {r1 r2} hne => ?_
    intro k h1 h2
    simp only [List.mem_map, List.mem_filter, beq_iff_eq] at h1 h2
    obtain ⟨e1, ⟨_, g1⟩, k1⟩ := h1
    obtain ⟨e2, ⟨_, g2⟩, k2⟩ := h2
    rw [k1] at g1
    rw [k2, g1] at g2
    exact hne (by simpa using g2)
  · intro e
    simp only [List.mem_flatMap, List.mem_filter, List.any_eq_true, beq_iff_eq]
    exact ⟨fun ⟨r, h1, h2, h3⟩ => ⟨h2, r, h1, h3⟩, fun ⟨h2, r, h1, h3⟩ => ⟨r, h1, h2, h3⟩⟩

theorem ascending_nodup (bs : List Byte) : (ascending bs).Nodup :=
  List.nodup_iff_pairwise_ne.mpr ((ascending_sorted bs).imp fun {a b} h e => by rw [e] at h; simp at h)

end Sys2Proof.Machine
end

