-- ==== Sys2Proof/Laws/Config.lean ====
section
/-! SUPPORT. Everything SET_CONFIG, CFG_REASSERT, CFG_LOAD and MIRROR_RESET can do, and what the invariant says of a mirror. -/

namespace Sys2Proof.Machine
open Sys2Proof.Config

/-! ### Well-formed profiles -/

theorem profilesOk_fields {p : Profiles} (h : profilesOk p = true) (c : Chip) : fieldsOk (p.of c) = true := by
  simp only [profilesOk, Bool.and_eq_true] at h
  cases c
  · exact h.1.1.1.1.1.1.1.1.1.2
  · exact h.1.1.1.1.1.1.1.1.2
  · exact h.1.1.1.1.1.1.1.2

theorem profilesOk_dacMap {p : Profiles} (h : profilesOk p = true) : p.dac.validWr = [] := by
  simp only [profilesOk, Bool.and_eq_true, dacFramesOk, List.isEmpty_iff] at h
  exact h.1.1.1.1.1.1.1.1.1.1.2.1.2

theorem fieldSpec_some {p : ChipProfile} {f : Byte} {spec : FieldSpec} (h : fieldSpec p f = some spec) :
    spec ∈ p.fields ∧ spec.id = f :=
  ⟨List.mem_of_find?_eq_some h, by simpa using List.find?_some h⟩

theorem fieldsOk_parts {p : ChipProfile} (h : fieldsOk p = true) :
    (p.fields.map (·.id)).Nodup ∧ (∀ f ∈ p.fields, fieldOk p f = true) ∧
      p.fields.Pairwise fun f g => apart f g = true := by
  simp only [fieldsOk, Bool.and_eq_true, decide_eq_true_eq, List.all_eq_true] at h
  exact ⟨h.1.1, h.1.2, h.2⟩

theorem fieldOk_parts {p : ChipProfile} {f : FieldSpec} (h : fieldOk p f = true) :
    f.lo ≤ f.hi ∧ f.hi ≤ 7 ∧ f.dflt ∈ f.legal ∧ (∀ b ∈ f.legal, b.toNat < 2 ^ (f.hi + 1 - f.lo)) ∧
      p.validWr.contains (waddrOf p f.reg) = true ∧ p.validRd.contains (raddrOf p f.reg) = true ∧
      byteBits (reservedOf p f.reg) f.hi f.lo = 0 := by
  simp only [fieldOk, Bool.and_eq_true, decide_eq_true_eq, List.all_eq_true, beq_iff_eq] at h
  obtain ⟨⟨⟨⟨⟨⟨h1, h2⟩, h3⟩, h4⟩, h5⟩, h6⟩, h7⟩ := h
  exact ⟨h1, h2, by simpa using h3, h4, h5, h6, h7⟩

/-- With distinct field ids, a field of the table is what its id names. -/
theorem fieldSpec_mem {p : ChipProfile} (h : (p.fields.map (·.id)).Nodup) {f : FieldSpec} (hf : f ∈ p.fields) :
    fieldSpec p f.id = some f := by
  unfold fieldSpec
  generalize p.fields = l at h hf
  induction l with
  | nil => cases hf
  | cons g rest ih =>
    simp only [List.map_cons, List.nodup_cons] at h
    rcases List.mem_cons.mp hf with rfl | hr
    · simp
    · have hne : (g.id == f.id) = false := by
        simpa using fun e : g.id = f.id => h.1 (List.mem_map.mpr ⟨f, hr, e.symm⟩)
      simp [hne, ih h.2 hr]

/-- In a well-formed profile every register that holds a field can be written. -/
theorem buildable {s : State} {c : Chip} {ws : List RegWrite} (h : profilesOk s.profile = true)
    (hw : ∀ w ∈ ws, ∃ f ∈ (profOf s c).fields, f.reg = w.reg) : Buildable s c ws := by
  intro w hm
  obtain ⟨f, hf, hr⟩ := hw w hm
  obtain ⟨_, _, _, _, hv, _, _⟩ := fieldOk_parts ((fieldsOk_parts (profilesOk_fields h c)).2.1 f hf)
  rw [hr] at hv
  refine regWriteFrame_ok (fun hc => ?_) hv
  subst hc
  simp [Profiles.of, profilesOk_dacMap h] at hv

/-! ### The invariant -/

/-- The invariant, part by part. -/
theorem inv_iff {s : State} : s.inv = true ↔ profilesOk s.profile = true ∧ (∀ c, cfgWf (profOf s c) (cfgOf s c) = true) ∧
    calWf s.profile s.cal = true ∧
    (∀ k : ConvChip, convWf (profOf s k.toChip) (cfgOf s k.toChip) (convOf s k) = true) ∧
    ∀ c, ioWf c (ioOf s c) = true := by
  simp only [State.inv, Bool.and_eq_true]
  constructor
  · rintro ⟨⟨⟨⟨⟨⟨⟨hp, h1⟩, h2⟩, h3⟩, ha⟩, k1⟩, k2⟩, ⟨i1, i2⟩, i3⟩
    refine ⟨hp, fun c => ?_, ha, fun k => ?_, fun c => ?_⟩
    · cases c <;> assumption
    · cases k <;> assumption
    · cases c <;> assumption
  · rintro ⟨hp, hc, ha, hk, hi⟩
    exact ⟨⟨⟨⟨⟨⟨⟨hp, hc .adc⟩, hc .dac⟩, hc .tc⟩, ha⟩, hk .adc⟩, hk .tc⟩, ⟨hi .adc, hi .dac⟩, hi .tc⟩

theorem inv_profile {s : State} (h : s.inv = true) : profilesOk s.profile = true := (inv_iff.mp h).1

theorem inv_cfg {s : State} (h : s.inv = true) (c : Chip) : cfgWf (profOf s c) (cfgOf s c) = true := (inv_iff.mp h).2.1 c

theorem inv_cal {s : State} (h : s.inv = true) : calWf s.profile s.cal = true := (inv_iff.mp h).2.2.1

theorem inv_conv {s : State} (h : s.inv = true) (k : ConvChip) :
    convWf (profOf s k.toChip) (cfgOf s k.toChip) (convOf s k) = true := (inv_iff.mp h).2.2.2.1 k

theorem inv_io {s : State} (h : s.inv = true) (c : Chip) : ioWf c (ioOf s c) = true := (inv_iff.mp h).2.2.2.2 c

theorem cfgWf_iff {p : ChipProfile} {x : CfgInstance} : cfgWf p x = true ↔
    x.mirror.map (·.1) = p.fields.map (·.id) ∧ x.setMask.map (·.1) = p.fields.map (·.id) ∧
      ∀ e ∈ x.mirror, ∃ f, fieldSpec p e.1 = some f ∧ e.2 ∈ f.legal := by
  simp only [cfgWf, Bool.and_eq_true, beq_iff_eq, List.all_eq_true, and_assoc]
  refine and_congr_right fun _ => and_congr_right fun _ => forall₂_congr fun e _ => ?_
  cases fieldSpec p e.1 with
  | none => simp
  | some f => simp

/-- The mirror of a well-formed instance has one entry per field. -/
theorem mirror_nodup {s : State} (h : s.inv = true) (c : Chip) : ((cfgOf s c).mirror.map (·.1)).Nodup := by
  rw [(cfgWf_iff.mp (inv_cfg h c)).1]
  exact (fieldsOk_parts (profilesOk_fields (inv_profile h) c)).1

theorem bankGet_isSome {α : Type} {b : List (Byte × α)} {k : Byte} (h : k ∈ b.map (·.1)) : (bankGet b k).isSome := by
  unfold bankGet
  induction b with
  | nil => cases h
  | cons e rest ih =>
    by_cases hk : k = e.1
    · simp [List.lookup, hk]
    · have hb : (k == e.1) = false := by simpa using hk
      simp only [List.map_cons, List.mem_cons] at h
      simp only [List.lookup, hb]
      exact ih (h.resolve_left hk)

/-- Every field of the profile has a mirrored value. -/
theorem mirrorGet_isSome {s : State} (h : s.inv = true) {c : Chip} {f : Byte}
    (hf : (fieldSpec (profOf s c) f).isSome) : (mirrorGet s c f).isSome := by
  obtain ⟨spec, hs⟩ := Option.isSome_iff_exists.mp hf
  obtain ⟨hm, hi⟩ := fieldSpec_some hs
  refine bankGet_isSome ?_
  rw [(cfgWf_iff.mp (inv_cfg h c)).1]
  exact List.mem_map.mpr ⟨spec, hm, hi⟩

/-- A mirrored value is legal. -/
theorem mirrorGet_legal {s : State} (h : s.inv = true) {c : Chip} {f v : Byte} (hv : mirrorGet s c f = some v) :
    ∃ spec, fieldSpec (profOf s c) f = some spec ∧ v ∈ spec.legal :=
  (cfgWf_iff.mp (inv_cfg h c)).2.2 (f, v)
    ((lookup_eq_some_iff (mirror_nodup h c) f v).mp hv)

theorem valuesOf_changed_nodup {s : State} {c : Chip} {p : ChipProfile} {req : List Pair} (h : RequestOk p req) :
    ((valuesOf (changed s c req)).map (·.1)).Nodup := by
  rw [valuesOf_keys]
  exact (h.changed).1

/-- Laying the changed pairs over the mirror lays the whole request over it. -/
theorem overlay_changed {s : State} {c : Chip} {req : List Pair} (hn : ((cfgOf s c).mirror.map (·.1)).Nodup)
    (hr : RequestOk (profOf s c) req) :
    overlay (cfgOf s c).mirror (changed s c req) = overlay (cfgOf s c).mirror req := by
  unfold overlay
  refine List.map_congr_left fun e he => ?_
  congr 1
  have hget : mirrorGet s c e.1 = some e.2 := (lookup_eq_some_iff hn e.1 e.2).mpr he
  rw [← lookup_valuesOf, ← lookup_valuesOf]
  cases h : (valuesOf req).lookup e.1 with
  | none =>
    have : (valuesOf (changed s c req)).lookup e.1 = none := by
      by_contra hne
      obtain ⟨v, hv⟩ := Option.ne_none_iff_exists'.mp hne
      rw [lookup_eq_some_iff (valuesOf_changed_nodup hr)] at hv
      obtain ⟨q, hq, hqe⟩ := List.mem_map.mp hv
      have hm : (e.1, v) ∈ valuesOf req := List.mem_map.mpr ⟨q, List.mem_of_mem_filter hq, hqe⟩
      rw [← lookup_eq_some_iff (by rw [valuesOf_keys]; exact hr.1), h] at hm
      cases hm
    rw [this]
  | some v =>
    have hm := (lookup_eq_some_iff (by rw [valuesOf_keys]; exact hr.1) e.1 v).mp h
    obtain ⟨q, hq, hqe⟩ := List.mem_map.mp hm
    obtain ⟨h1, h2⟩ := Prod.mk.inj hqe
    by_cases hc : q ∈ changed s c req
    · have : (valuesOf (changed s c req)).lookup e.1 = some v :=
        (lookup_eq_some_iff (valuesOf_changed_nodup hr) e.1 v).mpr (List.mem_map.mpr ⟨q, hc, hqe⟩)
      rw [this]
    · have hd : (mirrorGet s c q.field).map BitVec.toNat = some q.value.toNat := by
        by_contra hne
        exact hc (List.mem_filter.mpr ⟨hq, by simpa using hne⟩)
      rw [h1, hget] at hd
      simp only [Option.map_some, Option.some.injEq] at hd
      have hve : v = e.2 := by
        apply BitVec.eq_of_toNat_eq
        rw [← h2, BitVec.toNat_setWidth, ← hd]
        have := e.2.isLt
        omega
      cases hx : (valuesOf (changed s c req)).lookup e.1 with
      | none => simp [hve]
      | some w =>
        rw [lookup_eq_some_iff (valuesOf_changed_nodup hr)] at hx
        obtain ⟨q', hq', hqe'⟩ := List.mem_map.mp hx
        have hm' : (e.1, w) ∈ valuesOf req := List.mem_map.mpr ⟨q', List.mem_of_mem_filter hq', hqe'⟩
        rw [← lookup_eq_some_iff (by rw [valuesOf_keys]; exact hr.1), h] at hm'
        rw [hm']

theorem marked_changed {s : State} {c : Chip} {req : List Pair} (mask : List (Byte × Bool)) :
    markSet (markSet mask ((valuesOf (changed s c req)).map (·.1))) (req.map (·.field)) = marked mask req := by
  rw [← markSet_fields, markSet_eq, markSet_eq, markSet_eq, List.map_map]
  refine List.map_congr_left fun e _ => ?_
  simp only [Function.comp_apply, Prod.mk.injEq, true_and, Bool.or_assoc]
  congr 1
  by_cases h : (req.map (·.field)).contains e.1 = true
  · rw [h, Bool.or_true]
  · have h1 : (req.map (·.field)).contains e.1 = false := by simpa using h
    have : ((valuesOf (changed s c req)).map (·.1)).contains e.1 = false := by
      rw [valuesOf_keys]
      by_contra hne
      simp only [Bool.not_eq_false, List.contains_iff_mem, List.mem_map] at hne
      obtain ⟨q, hq, hf⟩ := hne
      exact h (by simpa using ⟨q, List.mem_of_mem_filter hq, hf⟩)
    rw [h1, this, Bool.or_false]

/-! ### SET_CONFIG -/

theorem any_regOf (d : List Pair) (p : ChipProfile) (r : Byte) :
    ((valuesOf d).filterMap fun e => regOf p e.1).contains r = d.any fun q => regOf p q.field == some r := by
  rw [Bool.eq_iff_iff]
  simp only [List.contains_iff_mem, List.mem_filterMap, valuesOf, List.mem_map, List.any_eq_true, beq_iff_eq]
  exact ⟨fun ⟨_, ⟨q, hq, he⟩, h⟩ => ⟨q, hq, by simpa [← he] using h⟩, fun ⟨q, hq, h⟩ => ⟨_, ⟨q, hq, rfl⟩, h⟩⟩

/-- The registers a diff writes. -/
theorem changedRegs_eq (s : State) (c : Chip) (req : List Pair) :
    ascending ((valuesOf (changed s c req)).filterMap fun e => regOf (profOf s c) e.1) = changedRegs s c req := by
  unfold ascending changedRegs
  simp only [any_regOf]

theorem changedRegs_nodup (s : State) (c : Chip) (req : List Pair) : (changedRegs s c req).Nodup := by
  rw [← changedRegs_eq]
  exact ascending_nodup _

theorem changedRegs_field {s : State} {c : Chip} {req : List Pair} {r : Byte} (h : r ∈ changedRegs s c req) :
    ∃ f ∈ (profOf s c).fields, f.reg = r := by
  rw [← changedRegs_eq, mem_ascending, List.mem_filterMap] at h
  obtain ⟨e, _, he⟩ := h
  unfold regOf at he
  obtain ⟨spec, hs, hr⟩ := Option.map_eq_some_iff.mp he
  exact ⟨spec, (fieldSpec_some hs).1, hr⟩

/-- One write of a diff. -/
def oneWrite (s : State) (c : Chip) (req : List Pair) (r : Byte) : RegWrite :=
  { reg := r
    byte := pack (profOf s c) r (overlay (cfgOf s c).mirror (changed s c req))
    commit := (valuesOf (changed s c req)).filter fun e => regOf (profOf s c) e.1 == some r }

theorem diffWrites_eq {s : State} {c : Chip} {req : List Pair} (h : RequestOk (profOf s c) req) :
    diffWrites (profOf s c) (cfgOf s c).mirror (diffOf (cfgOf s c).mirror (valuesOf req)) =
      (changedRegs s c req).map (oneWrite s c req) := by
  rw [diffOf_valuesOf h, ← changedRegs_eq]
  unfold diffWrites oneWrite
  rw [bankSetAll_valuesOf (h.changed (s := s) (c := c)).1]
  rfl

/-- What writing some of the changed registers commits: the changed pairs of those registers. -/
theorem commit_some {s : State} {c : Chip} {req : List Pair} (h : RequestOk (profOf s c) req) {regs : List Byte}
    (hr : regs.Nodup) (x : State) :
    commitFields c (committed (regs.map (oneWrite s c req))) x =
      commitFields c (valuesOf ((changed s c req).filter fun q =>
        regs.any fun r => regOf (profOf s c) q.field == some r)) x := by
  obtain ⟨h1, h2⟩ := grouped (valuesOf (changed s c req)) (valuesOf_changed_nodup h) (regOf (profOf s c)) regs hr
  have e1 : committed (regs.map (oneWrite s c req)) =
      regs.flatMap fun r => (valuesOf (changed s c req)).filter fun e => regOf (profOf s c) e.1 == some r := by
    simp [committed, List.flatMap_map, oneWrite]
  have e2 : valuesOf ((changed s c req).filter fun q => regs.any fun r => regOf (profOf s c) q.field == some r) =
      (valuesOf (changed s c req)).filter fun e => regs.any fun r => regOf (profOf s c) e.1 == some r := by
    unfold valuesOf
    rw [List.filter_map]
    rfl
  rw [e1, e2]
  exact commitFields_congr h1 ((valuesOf_changed_nodup h).sublist (List.filter_sublist.map _)) h2 c x

/-- Writing all of them commits the diff. -/
theorem commit_all {s : State} {c : Chip} {req : List Pair} (h : RequestOk (profOf s c) req) (x : State) :
    commitFields c (committed ((changedRegs s c req).map (oneWrite s c req))) x =
      commitFields c (valuesOf (changed s c req)) x := by
  rw [commit_some h (changedRegs_nodup s c req)]
  congr 2
  rw [List.filter_eq_self]
  intro q hq
  obtain ⟨spec, hs, _⟩ := h.2 q (List.mem_of_mem_filter hq)
  have hreg : regOf (profOf s c) q.field = some spec.reg := by simp [regOf, hs]
  rw [List.any_eq_true]
  refine ⟨spec.reg, ?_, by simp [hreg]⟩
  rw [← changedRegs_eq, mem_ascending, List.mem_filterMap]
  exact ⟨(q.field, q.value.setWidth 8), List.mem_map.mpr ⟨q, hq, rfl⟩, hreg⟩

@[simp] theorem enterConfiguring_cfgOf (c d : Chip) (s : State) : cfgOf (enterConfiguring c s) d = cfgOf s d := by
  cases c <;> cases d <;> rfl
@[simp] theorem enterConfiguring_profOf (c d : Chip) (s : State) : profOf (enterConfiguring c s) d = profOf s d := by
  cases c <;> rfl
@[simp] theorem enterConfiguring_profile (c : Chip) (s : State) : (enterConfiguring c s).profile = s.profile := by
  cases c <;> rfl
@[simp] theorem enterConfiguring_replyAt (c : Chip) (s : State) (n : Nat) :
    replyAt (enterConfiguring c s) n = replyAt s n := by
  cases c <;> simp [enterConfiguring, asConv]
@[simp] theorem enterConfiguring_ioOf (c d : Chip) (s : State) : ioOf (enterConfiguring c s) d = ioOf s d := by
  cases c <;> cases d <;> rfl
@[simp] theorem enterConfiguring_replies (c : Chip) (s : State) : (enterConfiguring c s).replies = s.replies := by
  cases c <;> rfl
@[simp] theorem enterConfiguring_cal (c : Chip) (s : State) : (enterConfiguring c s).cal = s.cal := by
  cases c <;> rfl
@[simp] theorem enterConfiguring_port (c : Chip) (s : State) : (enterConfiguring c s).port = s.port := by
  cases c <;> rfl
@[simp] theorem enterConfiguring_tx (c : Chip) (s : State) : (enterConfiguring c s).tx = s.tx := by
  cases c <;> rfl
@[simp] theorem enterConfiguring_trace (c : Chip) (s : State) : (enterConfiguring c s).trace = s.trace := by
  cases c <;> rfl
@[simp] theorem enterConfiguring_transfers (c : Chip) (s : State) : (enterConfiguring c s).transfers = s.transfers := by
  cases c <;> rfl

theorem enterConfiguring_sent (c k : Chip) (s : State) (fs : List Frame) (cs : List (Chip × Frame)) :
    sent (enterConfiguring c s) k fs cs = enterConfiguring c (sent s k fs cs) := by
  cases c <;> rfl

theorem enterConfiguring_withCfg (c k : Chip) (s : State) (x : CfgInstance) :
    withCfg (enterConfiguring c s) k x = enterConfiguring c (withCfg s k x) := by
  cases c <;> cases k <;> rfl

theorem enterConfiguring_convOf (c : Chip) (s : State) (k : ConvChip) :
    convOf (enterConfiguring c s) k =
      if k.toChip = c then { mode := .configuring, pulseDone := false } else convOf s k := by
  cases c <;> cases k <;> rfl

/-- A converting chip's `Mode` by its chip selector. -/
theorem isConverting_iff (s : State) (c : Chip) :
    isConverting s c = true ↔ ∃ k : ConvChip, k.toChip = c ∧ (convOf s k).mode = .converting := by
  cases c
  · exact ⟨fun h => ⟨.adc, rfl, of_decide_eq_true h⟩, fun ⟨k, hk, h⟩ => by
      cases k <;> simp_all [isConverting, asConv, ConvChip.toChip]⟩
  · exact ⟨fun h => by simp [isConverting, asConv] at h, fun ⟨k, hk, _⟩ => by cases k <;> cases hk⟩
  · exact ⟨fun h => ⟨.tc, rfl, of_decide_eq_true h⟩, fun ⟨k, hk, h⟩ => by
      cases k <;> simp_all [isConverting, asConv, ConvChip.toChip]⟩

/-- The state after some registers of a configuration were written and committed. -/
def afterWrites (s : State) (c : Chip) (req : List Pair) (regs : List Byte) (frames : List Frame)
    (copies : List (Chip × Frame)) : State :=
  commitFields c (valuesOf ((changed s c req).filter fun q => regs.any fun r => regOf (profOf s c) q.field == some r))
    (enterConfiguring c (sent s c frames copies))

/-- The frames of some registers of a configuration. -/
def configFrames (s : State) (c : Chip) (req : List Pair) (regs : List Byte) : List Frame :=
  regs.map fun r => oneRegister (profOf s c) c r (pack (profOf s c) r (overlay (cfgOf s c).mirror (changed s c req)))

/-- SET_CONFIG's writes, whatever the transport does. -/
theorem setConfig_writes {s : State} {c : Chip} {req : List Pair} (hp : profilesOk s.profile = true)
    (h : RequestOk (profOf s c) req)
    (hc : rtdConflict (profOf s c) (cfgOf s c).mirror (valuesOf req) = false) (hk : isConverting s c = false) :
    (∃ copies, copiesOf c (configFrames s c req (changedRegs s c req)) copies ∧
      setConfig c req s = .done (valuesOf (changed s c req))
        (markFields c (req.map (·.field))
          (commitFields c (valuesOf (changed s c req))
            (enterConfiguring c (sent s c (configFrames s c req (changedRegs s c req)) copies))))) ∨
    (∃ before r after copies, changedRegs s c req = before ++ r :: after ∧
      copiesOf c (configFrames s c req (before ++ [r])) copies ∧
      let t := afterWrites s c req before (configFrames s c req (before ++ [r])) copies
      (setConfig c req s = .raised { fault := .transportFault, info := r } (withStale t c true) ∨
        (setConfig c req s = .hung (markBusy t c) ∧ replyAt s before.length = .never))) := by
  have hb : Buildable (enterConfiguring c s) c ((changedRegs s c req).map (oneWrite s c req)) := by
    refine buildable (by simpa using hp) fun w hw => ?_
    obtain ⟨r, hr, rfl⟩ := List.mem_map.mp hw
    simpa [oneWrite] using changedRegs_field hr
  have hset : setConfig c req s =
      andThen (writeRegisters c ((changedRegs s c req).map (oneWrite s c req)) (enterConfiguring c s))
        fun _ s' => .done (valuesOf (changed s c req)) (markFields c (req.map (·.field)) s') := by
    unfold setConfig
    rw [validate_ok h]
    simp only [hc, hk, diffWrites_eq h, Bool.false_eq_true, if_false]
    simp only [diffOf_valuesOf h, valuesOf_keys]
  have hframes : ∀ regs : List Byte,
      writeFrames (enterConfiguring c s) c (regs.map (oneWrite s c req)) = configFrames s c req regs := by
    intro regs
    simp [writeFrames, configFrames, oneWrite]
  rcases writeRegisters_cases hb with ⟨copies, h1, h2⟩ | ⟨before, w, after, copies, hw, h1, h2⟩
  · rw [hframes] at h1 h2
    refine .inl ⟨copies, h1, ?_⟩
    rw [hset, h2, andThen_done, commit_all h, enterConfiguring_sent]
  · obtain ⟨b, l2, hbl, rfl, hl2⟩ := List.map_eq_append_iff.mp hw
    obtain ⟨r, a, rfl, rfl, rfl⟩ := List.map_eq_cons_iff.mp hl2
    have e : List.map (oneWrite s c req) b ++ [oneWrite s c req r] = (b ++ [r]).map (oneWrite s c req) := by simp
    rw [e, hframes] at h1 h2
    refine .inr ⟨b, r, a, copies, hbl, h1, ?_⟩
    have hn : b.Nodup := by
      have := changedRegs_nodup s c req
      rw [hbl, List.nodup_append] at this
      exact this.1
    simp only [commit_some h hn, enterConfiguring_sent] at h2
    rcases h2 with h2 | ⟨h2, hr⟩
    · exact .inl (by rw [hset, h2, andThen_raised]; rfl)
    · exact .inr ⟨by rw [hset, h2, andThen_hung]; rfl, by simpa using hr⟩

/-- Everything SET_CONFIG can do, in a well-formed profile. -/
theorem setConfig_cases {s : State} {c : Chip} {req : List Pair} (hp : profilesOk s.profile = true) :
    (∃ e, validate (profOf s c) req = .error e ∧ setConfig c req s = .raised e s) ∨
    (RequestOk (profOf s c) req ∧
      ((rtdConflict (profOf s c) (cfgOf s c).mirror (valuesOf req) = true ∧
          setConfig c req s = .raised { fault := .rtdEnabledError, info := 0 } s) ∨
       (rtdConflict (profOf s c) (cfgOf s c).mirror (valuesOf req) = false ∧ isConverting s c = true ∧
          setConfig c req s = .raised { fault := .illegalTransition, info := 2 } s) ∨
       (rtdConflict (profOf s c) (cfgOf s c).mirror (valuesOf req) = false ∧ isConverting s c = false ∧
        ((∃ copies, copiesOf c (configFrames s c req (changedRegs s c req)) copies ∧
            setConfig c req s = .done (valuesOf (changed s c req))
              (markFields c (req.map (·.field))
                (commitFields c (valuesOf (changed s c req))
                  (enterConfiguring c (sent s c (configFrames s c req (changedRegs s c req)) copies))))) ∨
         (∃ before r after copies, changedRegs s c req = before ++ r :: after ∧
            copiesOf c (configFrames s c req (before ++ [r])) copies ∧
            let t := afterWrites s c req before (configFrames s c req (before ++ [r])) copies
            (setConfig c req s = .raised { fault := .transportFault, info := r } (withStale t c true) ∨
              (setConfig c req s = .hung (markBusy t c) ∧ replyAt s before.length = .never))))))) := by
  cases hv : validate (profOf s c) req with
  | error e => exact .inl ⟨e, rfl, by simp [setConfig, hv]⟩
  | ok vs =>
    obtain ⟨h, rfl⟩ := validate_inv hv
    refine .inr ⟨h, ?_⟩
    cases hc : rtdConflict (profOf s c) (cfgOf s c).mirror (valuesOf req) with
    | true => exact .inl ⟨rfl, by simp [setConfig, hv, hc, raised]⟩
    | false =>
      cases hk : isConverting s c with
      | true => exact .inr (.inl ⟨rfl, rfl, by simp [setConfig, hv, hc, hk, illegalTransition, raised, modeCode]⟩)
      | false => exact .inr (.inr ⟨rfl, rfl, setConfig_writes hp h hc hk⟩)

/-! ### CFG_REASSERT -/

/-- The frames that re-assert some registers. -/
def assertFrames (s : State) (c : Chip) (regs : List Byte) : List Frame :=
  regs.map fun r => oneRegister (profOf s c) c r (pack (profOf s c) r (cfgOf s c).mirror)

theorem fieldRegs_field {p : ChipProfile} {r : Byte} (h : r ∈ fieldRegs p) : ∃ f ∈ p.fields, f.reg = r := by
  unfold fieldRegs at h
  rw [mem_ascending] at h
  exact List.mem_map.mp h

theorem committed_allWrites (p : ChipProfile) (m : List (Byte × Byte)) (regs : List Byte) :
    committed (regs.map fun r => { reg := r, byte := pack p r m, commit := [] }) = [] := by
  simp [committed, List.flatMap_map]

/-- Everything CFG_REASSERT can do, in a well-formed profile. -/
theorem cfgReassert_cases {s : State} {c : Chip} (hp : profilesOk s.profile = true) :
    (isConverting s c = true ∧ cfgReassert c s = .raised { fault := .illegalTransition, info := 2 } s) ∨
    (isConverting s c = false ∧
      ((∃ copies, copiesOf c (assertFrames s c (fieldRegs (profOf s c))) copies ∧
          cfgReassert c s =
            .done () (withStale (sent s c (assertFrames s c (fieldRegs (profOf s c))) copies) c false)) ∨
       (∃ before r after copies, fieldRegs (profOf s c) = before ++ r :: after ∧
          copiesOf c (assertFrames s c (before ++ [r])) copies ∧
          let t := sent s c (assertFrames s c (before ++ [r])) copies
          (cfgReassert c s = .raised { fault := .transportFault, info := r } (withStale t c true) ∨
            (cfgReassert c s = .hung (markBusy t c) ∧ replyAt s before.length = .never))))) := by
  cases hk : isConverting s c with
  | true => exact .inl ⟨rfl, by simp [cfgReassert, hk, illegalTransition, raised, modeCode]⟩
  | false =>
    refine .inr ⟨rfl, ?_⟩
    have hset : cfgReassert c s =
        andThen (writeRegisters c (allWrites (profOf s c) (cfgOf s c).mirror) s)
          fun _ s' => .done () (withStale s' c false) := by
      simp [cfgReassert, hk]
    have hb : Buildable s c (allWrites (profOf s c) (cfgOf s c).mirror) := by
      refine buildable hp fun w hw => ?_
      obtain ⟨r, hr, rfl⟩ := List.mem_map.mp hw
      exact fieldRegs_field hr
    have hframes : ∀ regs : List Byte,
        writeFrames s c (regs.map fun r => { reg := r, byte := pack (profOf s c) r (cfgOf s c).mirror, commit := [] }) =
          assertFrames s c regs := by
      intro regs
      simp [writeFrames, assertFrames]
    rcases writeRegisters_cases hb with ⟨copies, h1, h2⟩ | ⟨before, w, after, copies, hw, h1, h2⟩
    · unfold allWrites at h1 h2
      rw [hframes] at h1 h2
      rw [committed_allWrites, commitFields_nil] at h2
      refine .inl ⟨copies, h1, ?_⟩
      rw [hset]
      unfold allWrites
      rw [h2]
      rfl
    · unfold allWrites at hw
      obtain ⟨b, l2, hbl, rfl, hl2⟩ := List.map_eq_append_iff.mp hw
      obtain ⟨r, a, rfl, rfl, rfl⟩ := List.map_eq_cons_iff.mp hl2
      rw [← List.map_singleton (f := fun r =>
        ({ reg := r, byte := pack (profOf s c) r (cfgOf s c).mirror, commit := [] } : RegWrite)),
        ← List.map_append, hframes] at h1 h2
      rw [committed_allWrites, commitFields_nil] at h2
      refine .inr ⟨b, r, a, copies, hbl, h1, ?_⟩
      rcases h2 with h2 | ⟨h2, hr⟩
      · exact .inl (by rw [hset, h2]; rfl)
      · exact .inr ⟨by rw [hset, h2]; rfl, by simpa using hr⟩

end Sys2Proof.Machine
end

