-- ==== Sys2Proof/Laws/Effects.lean ====
section
/-! SUPPORT. Everything the state machine's operations, the hand-sent frames and the pure operations can do, one lemma each,
and that lemma for every instruction at once. -/

namespace Sys2Proof.Machine
open Sys2Proof.Config

/-! ### Frames of the state machine -/

/-- A unit's command frame is its table entry, or the unit is not defined. -/
theorem unitFrame_cases (p : ChipProfile) (table : List Byte) (u extra : Nat) :
    (∃ b, unitEntry p.nunits table u = some b ∧ unitFrame p table u extra = .ok (b :: List.replicate extra dummy)) ∨
    (unitEntry p.nunits table u = none ∧ unitFrame p table u extra = .error (raised .invalidUnit u)) := by
  unfold unitFrame
  cases unitEntry p.nunits table u with
  | some b => exact .inl ⟨b, rfl, rfl⟩
  | none => exact .inr ⟨rfl, rfl⟩

theorem templateFrame_cases (p : ChipProfile) (m : List (Byte × Byte)) (table : List (List FrameByte)) (u : Nat) :
    (∃ f, templateFrame p m table u = .ok f) ∨ templateFrame p m table u = .error (raised .invalidUnit u) := by
  unfold templateFrame
  cases unitEntry p.nunits table u with
  | some t => exact .inl ⟨_, rfl⟩
  | none => exact .inr rfl

theorem startFrame_cases (p : ChipProfile) (m : List (Byte × Byte)) (c : ConvChip) (u : Nat) :
    (∃ f, startFrame p m c u = .ok f) ∨ startFrame p m c u = .error (raised .invalidUnit u) := by
  cases c with
  | adc => rcases unitFrame_cases p p.opStart u 0 with ⟨b, _, h⟩ | ⟨_, h⟩ <;> simp [startFrame, h]
  | tc => exact templateFrame_cases p m p.startFrame u

theorem stopFrame_cases (p : ChipProfile) (m : List (Byte × Byte)) (c : ConvChip) (u : Nat) :
    (∃ f, stopFrame p m c u = .ok f) ∨ stopFrame p m c u = .error (raised .invalidUnit u) := by
  cases c with
  | adc => rcases unitFrame_cases p p.opStop u 0 with ⟨b, _, h⟩ | ⟨_, h⟩ <;> simp [stopFrame, h]
  | tc => exact templateFrame_cases p m p.stopFrame u

theorem readDataFrame_cases (p : ChipProfile) (m : List (Byte × Byte)) (c : ConvChip) (u : Nat) :
    (∃ f, readDataFrame p m c u = .ok f) ∨ readDataFrame p m c u = .error (raised .invalidUnit u) := by
  cases c with
  | adc => rcases unitFrame_cases p p.opRdata u (codeBytes .adc) with ⟨b, _, h⟩ | ⟨_, h⟩ <;> simp [readDataFrame, h]
  | tc => exact templateFrame_cases p m p.readFrame u

/-! ### The required fields -/

theorem firstUnset_none {s : State} {c : ConvChip} :
    firstUnset s c = none ↔ ∀ f ∈ (profOf s c.toChip).required, isSet (cfgOf s c.toChip).setMask f = true := by
  unfold firstUnset
  rw [List.find?_eq_none]
  simp

theorem firstUnset_some {s : State} {c : ConvChip} {f : Byte} (hf : f ∈ (profOf s c.toChip).required)
    (hu : isSet (cfgOf s c.toChip).setMask f = false)
    (hm : ∀ g ∈ (profOf s c.toChip).required, g < f → isSet (cfgOf s c.toChip).setMask g = true) :
    firstUnset s c = some f :=
  find_ascending hf (by simp [hu]) fun g hg hl => by simp [hm g hg hl]

/-! ### The state machine's operations -/

/-- Everything START_CONV can do. -/
theorem startConv_cases (c : ConvChip) (u : BitVec 9) (s : State) :
    (∃ e, startConv c u s = .raised e s ∧
      (e.fault = .incompleteConfigError ∨ e.fault = .illegalTransition ∨ e.fault = .invalidUnit)) ∨
    (firstUnset s c = none ∧ (convOf s c).mode = .configuring ∧ ∃ f, startFrame (profOf s c.toChip) (cfgOf s c.toChip).mirror c u.toNat = .ok f ∧
      ((∃ copies, copiesOf c.toChip [f] copies ∧ startConv c u s =
          .done () (withConv (sent s c.toChip [f] copies) c { mode := .converting, pulseDone := false })) ∨
       (∃ copies, copiesOf c.toChip [f] copies ∧ startConv c u s =
          .raised { fault := .transportFault, info := 0 } (sent s c.toChip [f] copies)) ∨
       (∃ copies, copiesOf c.toChip [f] copies ∧ replyAt s 0 = .never ∧
          startConv c u s = .hung (markBusy (sent s c.toChip [f] copies) c.toChip)))) := by
  unfold startConv
  cases h : firstUnset s c with
  | some f => exact .inl ⟨_, rfl, .inl rfl⟩
  | none =>
    by_cases hm : (convOf s c).mode = .configuring
    · rcases startFrame_cases (profOf s c.toChip) (cfgOf s c.toChip).mirror c u.toNat with ⟨f, hf⟩ | hf
      · refine .inr ⟨rfl, hm, f, hf, ?_⟩
        simp only [hm, ne_eq, not_true, if_false, hf]
        rcases transfer_cases c.toChip f 0 s with ⟨r, cs, h1, hr, h2⟩ | ⟨cs, h1, h2⟩ | ⟨cs, h1, hn, h2⟩
        · exact .inl ⟨cs, h1, by simp [h2]⟩
        · exact .inr (.inl ⟨cs, h1, by simp [h2, raised]⟩)
        · exact .inr (.inr ⟨cs, h1, hn, by simp [h2]⟩)
      · refine .inl ⟨raised .invalidUnit u.toNat, ?_, .inr (.inr rfl)⟩
        simp [hm, hf]
    · refine .inl ⟨illegalTransition (convOf s c).mode, ?_, .inr (.inl rfl)⟩
      simp [hm]

/-- Everything STOP_CONV can do. -/
theorem stopConv_cases (c : ConvChip) (u : BitVec 9) (s : State) :
    (∃ e, stopConv c u s = .raised e s ∧ (e.fault = .illegalTransition ∨ e.fault = .invalidUnit)) ∨
    ((convOf s c).mode = .converting ∧ ∃ f, stopFrame (profOf s c.toChip) (cfgOf s c.toChip).mirror c u.toNat = .ok f ∧
      ((∃ copies, copiesOf c.toChip [f] copies ∧ stopConv c u s =
          .done () (withConv (sent s c.toChip [f] copies) c { mode := .idle, pulseDone := false })) ∨
       (∃ copies, copiesOf c.toChip [f] copies ∧ stopConv c u s =
          .raised { fault := .transportFault, info := 0 } (sent s c.toChip [f] copies)) ∨
       (∃ copies, copiesOf c.toChip [f] copies ∧ replyAt s 0 = .never ∧
          stopConv c u s = .hung (markBusy (sent s c.toChip [f] copies) c.toChip)))) := by
  unfold stopConv
  by_cases hm : (convOf s c).mode = .converting
  · rcases stopFrame_cases (profOf s c.toChip) (cfgOf s c.toChip).mirror c u.toNat with ⟨f, hf⟩ | hf
    · refine .inr ⟨hm, f, hf, ?_⟩
      simp only [hm, ne_eq, not_true, if_false, hf]
      rcases transfer_cases c.toChip f 0 s with ⟨r, cs, h1, hr, h2⟩ | ⟨cs, h1, h2⟩ | ⟨cs, h1, hn, h2⟩
      · exact .inl ⟨cs, h1, by simp [h2]⟩
      · exact .inr (.inl ⟨cs, h1, by simp [h2, raised]⟩)
      · exact .inr (.inr ⟨cs, h1, hn, by simp [h2]⟩)
    · refine .inl ⟨raised .invalidUnit u.toNat, ?_, .inr rfl⟩
      simp [hm, hf]
  · refine .inl ⟨illegalTransition (convOf s c).mode, ?_, .inl rfl⟩
    simp [hm]

/-- Everything the read frame's transfer can do. -/
theorem readCode_cases (c : ConvChip) (u : BitVec 9) (s : State) :
    (readCode c u s = .raised (raised .invalidUnit u.toNat) s) ∨
    ∃ f, readDataFrame (profOf s c.toChip) (cfgOf s c.toChip).mirror c u.toNat = .ok f ∧
      ((∃ (r : Frame) (copies : List (Chip × Frame)), copiesOf c.toChip [f] copies ∧ replyAt s 0 = .answered r ∧
          readLead c + readLen c ≤ r.length ∧
          readCode c u s = .done ((r.drop (readLead c)).take (readLen c)) (sent s c.toChip [f] copies)) ∨
       (∃ (r : Frame) (copies : List (Chip × Frame)), copiesOf c.toChip [f] copies ∧ r.length < readLead c + readLen c ∧
          readCode c u s = .raised (raised .shortReadError r.length) (sent s c.toChip [f] copies)) ∨
       (∃ copies, copiesOf c.toChip [f] copies ∧
          readCode c u s = .raised { fault := .transportFault, info := 0 } (sent s c.toChip [f] copies)) ∨
       (∃ copies, copiesOf c.toChip [f] copies ∧ replyAt s 0 = .never ∧
          readCode c u s = .hung (markBusy (sent s c.toChip [f] copies) c.toChip))) := by
  unfold readCode
  rcases readDataFrame_cases (profOf s c.toChip) (cfgOf s c.toChip).mirror c u.toNat with ⟨f, hf⟩ | hf
  · refine .inr ⟨f, hf, ?_⟩
    simp only [hf]
    rcases transfer_cases c.toChip f 0 s with ⟨r, cs, h1, hr, h2⟩ | ⟨cs, h1, h2⟩ | ⟨cs, h1, hn, h2⟩
    · by_cases hl : r.length < readLead c + readLen c
      · exact .inr (.inl ⟨r, cs, h1, hl, by simp [h2, keepCode, hl]⟩)
      · exact .inl ⟨r, cs, h1, hr, by omega, by simp [h2, keepCode, hl]⟩
    · exact .inr (.inr (.inl ⟨cs, h1, by simp [h2, raised]⟩))
    · exact .inr (.inr (.inr ⟨cs, h1, hn, by simp [h2]⟩))
  · exact .inl (by simp [hf])

/-- Everything a hand-sent frame can do. -/
theorem sendByHand_cases (c : Chip) (frame : Except Raised Frame) (parse : Frame → Except Raised (List Word))
    (s : State) :
    (∃ e, frame = .error e ∧ sendByHand c frame parse s = .raised e s) ∨
    ∃ f, frame = .ok f ∧
      ((∃ r ws copies, copiesOf c [f] copies ∧ replyAt s 0 = .answered r ∧ parse r = .ok ws ∧
          sendByHand c frame parse s = .done ws (sent s c [f] copies)) ∨
       (∃ r e copies, copiesOf c [f] copies ∧ parse r = .error e ∧
          sendByHand c frame parse s = .raised e (sent s c [f] copies)) ∨
       (∃ copies, copiesOf c [f] copies ∧
          sendByHand c frame parse s = .raised { fault := .transportFault, info := 0 } (sent s c [f] copies)) ∨
       (∃ copies, copiesOf c [f] copies ∧ replyAt s 0 = .never ∧
          sendByHand c frame parse s = .hung (markBusy (sent s c [f] copies) c))) := by
  cases frame with
  | error e => exact .inl ⟨e, rfl, rfl⟩
  | ok f =>
    refine .inr ⟨f, rfl, ?_⟩
    simp only [sendByHand]
    rcases transfer_cases c f 0 s with ⟨r, cs, h1, hr, h2⟩ | ⟨cs, h1, h2⟩ | ⟨cs, h1, hn, h2⟩
    · cases hp : parse r with
      | ok ws => exact .inl ⟨r, ws, cs, h1, hr, hp, by simp [h2, hp]⟩
      | error e => exact .inr (.inl ⟨r, e, cs, h1, hp, by simp [h2, hp]⟩)
    · exact .inr (.inr (.inl ⟨cs, h1, by simp [h2, raised]⟩))
    · exact .inr (.inr (.inr ⟨cs, h1, hn, by simp [h2]⟩))

/-! ### Whole instructions -/

/-- A pure instruction changes the result port only. -/
theorem settle_result (x : Except Raised (List Word)) (s : State) : ∃ r, settle x s = withResult s r := by
  cases x with
  | ok ws => exact ⟨_, rfl⟩
  | error e => exact ⟨_, rfl⟩

/-- What every hand-sent row is: one frame handed to one chip. -/
theorem exec_wire {i : Instr} (h : isWire i = true) (s : State) : ∃ c frame parse,
    exec i s = wireOutcome (sendByHand c frame parse s) := by
  cases i <;> first
    | exact absurd h Bool.false_ne_true
    | exact ⟨_, _, _, rfl⟩

/-- What every codec, converting or reserved row is: a pure function of the profile and the calibration table. -/
theorem exec_pure {i : Instr} (h : isCodec i = true ∨ isConversion i = true ∨ isReserved i = true) (s : State) :
    ∃ x, exec i s = .next (settle x s) := by
  rcases h with h | h | h <;> cases i <;> first
    | exact absurd h Bool.false_ne_true
    | exact ⟨_, rfl⟩
    | exact ⟨.error illegalCommand, rfl⟩

end Sys2Proof.Machine
end

