-- ==== Sys2Proof/Laws/Frames.lean ====
section
/-! SUPPORT. What the frame builders, the value list, the status word and the calibration lookup give, one lemma each:
what they build and which faults they can raise. -/

namespace Sys2Proof.Machine
open Sys2Proof.Config

/-- A value-word carries an integer when its low eight bits are zero. -/
theorem valueIsInteger_iff (v : Word) : valueIsInteger v = true ↔ v.toNat % 256 = 0 := by
  simp [valueIsInteger]
  constructor
  · intro h; have := congrArg BitVec.toNat h; simpa using this
  · intro h; apply BitVec.eq_of_toNat_eq; simpa using h

/-- The value-word of a byte carries that byte. -/
theorem valueWord_integer (b : Byte) : valueIsInteger (valueWord b) = true ∧ valueInteger (valueWord b) = b.toNat := by
  have : b.toNat < 256 := b.isLt
  constructor
  · rw [valueIsInteger_iff]; simp [valueWord]
  · simp [valueInteger, valueWord, BitVec.toInt_eq_toNat_bmod, Int.bmod]; omega

/-- A value list that begins with bytes: they are taken, and the rest decides. -/
theorem valueBytes_prefix (bytes : Frame) (rest : List Word) (i : Nat) :
    valueBytes i (bytes.map valueWord ++ rest) = match valueBytes (i + bytes.length) rest with
      | .error e => .error e
      | .ok bs => .ok (bytes ++ bs) := by
  induction bytes generalizing i with
  | nil => simp; cases valueBytes i rest <;> rfl
  | cons b bs ih =>
    obtain ⟨h1, h2⟩ := valueWord_integer b
    have hb : b.toNat < 256 := b.isLt
    rw [List.map_cons, List.cons_append, valueBytes]
    have e : BitVec.ofInt 8 (valueInteger (valueWord b)) = b := by rw [h2]; simp
    rw [if_neg (by simp [h1]), if_neg (by rw [h2]; omega), ih, e]
    have e2 : i + 1 + bs.length = i + (b :: bs).length := by simp; omega
    rw [e2]
    cases valueBytes (i + (b :: bs).length) rest <;> rfl

/-- The result words of an answer are determined by the state after it. -/
theorem answer_words_inj {s ws vs} (h : answer s ws = answer s vs) : ws = vs := by
  have := congrArg shown h
  simp only [shown_answer, Option.some.injEq, Answer.mk.injEq] at this
  exact this.2

/-- Byte-words determine their bytes. -/
theorem map_byteWord_inj {a b : Frame} (h : a.map byteWord = b.map byteWord) : a = b := by
  refine List.map_injective_iff.mpr ?_ h
  intro x y h
  have := congrArg (fun w : Word => w.setWidth 8) h
  simpa [byteWord, BitVec.setWidth_setWidth_of_le] using this

/-- The frame of a DAC write whose channel, opcode and data are in range. -/
theorem dacFrame_bytes (op ch : Byte) (d : Word) (h1 : ch.toNat ≤ 7) (h2 : op.toNat ≤ 15) (h3 : d.toNat ≤ 65535) :
   dacFrame op ch d = .ok [BitVec.ofNat 8 (16 * op.toNat + ch.toNat), BitVec.ofNat 8 (d.toNat / 256), BitVec.ofNat 8 d.toNat] := by
  simp only [dacFrame, if_neg (Nat.not_lt.mpr h1), if_neg (Nat.not_lt.mpr h2), if_neg (Nat.not_lt.mpr h3), frameBytes24]
  have e : (dacWord op ch d).toNat = op.toNat * 2^20 + (ch.toNat * 2 ^ 16 + d.toNat) := by
    unfold dacWord
    rw [BitVec.toNat_or, BitVec.toNat_or, BitVec.toNat_shiftLeft, BitVec.toNat_shiftLeft]
    simp only [BitVec.toNat_setWidth, Nat.shiftLeft_eq]
    rw [Nat.mod_eq_of_lt (a := op.toNat) (by omega), Nat.mod_eq_of_lt (a := ch.toNat) (by omega),
      Nat.mod_eq_of_lt (a := d.toNat) (by omega), Nat.mod_eq_of_lt (a := op.toNat * 2 ^ 20) (by omega), Nat.mod_eq_of_lt (a := ch.toNat * 2 ^ 16) (by omega)]
    rw [Nat.or_assoc, ← Nat.shiftLeft_eq ch.toNat, ← Nat.shiftLeft_add_eq_or_of_lt (by omega), ← Nat.shiftLeft_eq op.toNat, ← Nat.shiftLeft_add_eq_or_of_lt (by rw [Nat.shiftLeft_eq]; omega)]
  congr 1
  simp only [List.cons.injEq, and_true]
  refine ⟨?_, ?_, ?_⟩ <;> apply BitVec.eq_of_toNat_eq <;> simp [e] <;> omega

/-- Bits 7:0 of a status word are its last byte. -/
theorem statusWord_low (a : BitVec 16) (b c : Byte) : (a ++ b ++ c : BitVec 32).extractLsb' 0 8 = c := by
  apply BitVec.eq_of_toNat_eq
  rw [BitVec.extractLsb'_toNat, BitVec.toNat_append, ← Nat.shiftLeft_add_eq_or_of_lt c.isLt, Nat.shiftLeft_eq]
  have := c.isLt
  simp
  omega

/-- An answer shows no fault. -/
theorem shownCode_answer (s ws) : shownCode (answer s ws) = some 0x00 := by
  simp only [shownCode, shown_answer, Option.map_some, statusWord, statusWord_low]

/-- A delivered fault shows its code. -/
theorem shownCode_deliver (e s) : shownCode (deliver e s) = some (faultCode e.fault) := by
  simp only [shownCode, shown_deliver, Option.map_some, statusWord, statusWord_low]

/-- The faults of a value list. -/
theorem valueBytes_fault {i vs e} (h : valueBytes i vs = .error e) : e.fault = .nonIntegerValue ∨ e.fault = .valueOutOfRange := by
  induction vs generalizing i with
  | nil => cases h
  | cons v r ih =>
    rw [valueBytes] at h
    split at h
    · cases h; exact .inl rfl
    · split at h
      · cases h; exact .inr rfl
      · split at h
        · rename_i h2; cases h; exact ih h2
        · cases h

/-- The fault of a per-unit command. -/
theorem unitFrame_fault {p t u x e} (h : unitFrame p t u x = .error e) : e.fault = .invalidUnit := by
  rcases unitFrame_cases p t u x with ⟨b, _, h'⟩ | ⟨_, h'⟩ <;> rw [h'] at h <;> cases h; rfl

/-- The fault of a command without operand. -/
theorem commandFrame_fault {o e} (h : commandFrame o = .error e) : e.fault = .invalidUnit := by
  cases o <;> cases h; rfl

/-- The faults of PARSE_READ. -/
theorem parseRead_fault {c r n e} (h : parseRead c r n = .error e) : e.fault = .invalidCount ∨ e.fault = .shortReadError := by
  unfold parseRead at h
  split at h
  · cases h; exact .inl rfl
  · split at h <;> cases h; exact .inr rfl

/-- The faults of DAC_FRAME. -/
theorem dacFrame_fault {o c d e} (h : dacFrame o c d = .error e) : e.fault = .invalidAddress ∨ e.fault = .valueOutOfRange := by
  unfold dacFrame at h
  split at h
  · cases h; exact .inl rfl
  · split at h
    · cases h; exact .inr rfl
    · split at h <;> cases h; exact .inr rfl

/-- The faults of a calibration lookup. -/
theorem lookupCal_fault {s m ch e} (h : lookupCal s m ch = .error e) : e.fault = .calibKeyMissingError ∨ (m = .adc ∧ e.fault = .invalidDifferentialPairError) := by
  unfold lookupCal badChannel at h
  split at h
  · split at h <;> cases h
    · rename_i h; exact .inr ⟨h.1, rfl⟩
    · exact .inl rfl
  · split at h <;> cases h; exact .inl rfl

/-- The fault of a result word. -/
theorem voltWord_fault {x e} (h : voltWord x = .error e) : e.fault = .voltageOutOfRange := by
  unfold voltWord at h; split at h <;> cases h; rfl

/-- A fault behind one result word. -/
theorem oneWord_error_inv {x e} (h : oneWord x = .error e) : x = .error e := by cases x <;> cases h; rfl

/-- A fault behind a frame. -/
theorem frameWords_error_inv {x e} (h : frameWords x = .error e) : x = .error e := by cases x <;> cases h; rfl

end Sys2Proof.Machine
end

