-- ==== Sys2Proof/Laws/PerInstr.lean ====
section
/-! SUPPORT. One lemma per instruction: its encoding has the bits that its row of spec/opcode_table.json fixes. -/

namespace Sys2Proof.Laws.EncodingRow
set_option linter.unusedTactic false
set_option linter.unreachableTactic false
set_option linter.unusedSimpArgs false
set_option linter.unnecessarySeqFocus false
open Sys2Proof Sys2Proof.Config Sys2Proof.Machine

/-- Bits `hi` down to `lo` of a command word that a row fixes, and their value. -/
structure FixedBits where
  hi : Nat
  lo : Nat
  value : Nat
  deriving DecidableEq, Repr

/-- The column "fixed" of a command's row; a wire frame has none here. -/
def fixedBits : Instr → Option (List FixedBits)
  | .buildRead _ _ _ => some [⟨7, 0, 0⟩, ⟨25, 25, 0⟩, ⟨31, 27, 1⟩]
  | .buildWrite _ _ _ => some [⟨7, 0, 0⟩, ⟨25, 25, 0⟩, ⟨31, 27, 2⟩]
  | .buildStart _ _ => some [⟨15, 0, 0⟩, ⟨25, 25, 0⟩, ⟨31, 27, 3⟩]
  | .buildStop _ _ => some [⟨15, 0, 0⟩, ⟨25, 25, 0⟩, ⟨31, 27, 4⟩]
  | .buildReset _ => some [⟨25, 0, 0⟩, ⟨31, 27, 5⟩]
  | .buildNop _ => some [⟨25, 0, 0⟩, ⟨31, 27, 6⟩]
  | .buildSelfcal _ _ => some [⟨15, 0, 0⟩, ⟨25, 25, 0⟩, ⟨31, 27, 7⟩]
  | .buildRdata _ _ => some [⟨15, 0, 0⟩, ⟨25, 25, 0⟩, ⟨31, 27, 8⟩]
  | .parseRead _ _ _ => some [⟨15, 0, 0⟩, ⟨25, 25, 0⟩, ⟨31, 27, 9⟩]
  | .dacFrame _ _ _ => some [⟨31, 16, 20992⟩]
  | .dacWrupd _ _ => some [⟨7, 0, 0⟩, ⟨31, 16, 23040⟩]
  | .adcAsm _ _ _ => some [⟨31, 0, 1610612736⟩]
  | .cfgDiff _ _ => some [⟨15, 0, 0⟩, ⟨31, 27, 13⟩]
  | .cfgCommit _ _ => some [⟨15, 0, 0⟩, ⟨31, 27, 14⟩]
  | .setConfig _ _ => some [⟨15, 0, 0⟩, ⟨31, 27, 15⟩]
  | .startConv _ _ => some [⟨15, 0, 0⟩, ⟨25, 25, 0⟩, ⟨31, 27, 16⟩]
  | .stopConv _ _ => some [⟨15, 0, 0⟩, ⟨25, 25, 0⟩, ⟨31, 27, 17⟩]
  | .convDone _ => some [⟨25, 0, 0⟩, ⟨31, 27, 18⟩]
  | .readCont _ _ => some [⟨15, 0, 0⟩, ⟨25, 25, 0⟩, ⟨31, 27, 19⟩]
  | .readPulse _ _ => some [⟨15, 0, 0⟩, ⟨25, 25, 0⟩, ⟨31, 27, 20⟩]
  | .mirrorReset _ => some [⟨24, 0, 0⟩, ⟨31, 27, 21⟩]
  | .cfgLoad _ _ => some [⟨15, 0, 0⟩, ⟨31, 27, 22⟩]
  | .cfgReassert _ => some [⟨24, 0, 0⟩, ⟨31, 27, 23⟩]
  | .calGet _ _ => some [⟨7, 0, 0⟩, ⟨24, 16, 0⟩, ⟨31, 27, 24⟩]
  | .calSet _ _ _ _ => some [⟨7, 0, 0⟩, ⟨24, 16, 0⟩, ⟨31, 27, 25⟩]
  | .adcCode2v _ _ => some [⟨15, 0, 0⟩, ⟨31, 25, 104⟩]
  | .calApply _ _ _ => some [⟨7, 0, 0⟩, ⟨24, 16, 0⟩, ⟨31, 27, 27⟩]
  | .dacV2code _ _ => some [⟨7, 0, 0⟩, ⟨31, 16, 57856⟩]
  | .dacCode2v _ _ => some [⟨7, 0, 0⟩, ⟨31, 16, 59904⟩]
  | .tcCode2t _ _ _ _ _ => some [⟨31, 0, 4093640704⟩]
  | .reservedOp00 _ _ => some [⟨31, 27, 0⟩]
  | .reservedOp1f _ _ => some [⟨31, 27, 31⟩]
  | .wRreg _ _ => none
  | .wRregRefAdc _ _ => none
  | .wWreg _ _ => none
  | .wWregRefAdc _ _ => none
  | .wTcRead _ _ => none
  | .wTcWrite _ _ => none
  | .wStart1 => none
  | .wStart2 => none
  | .wStop1 => none
  | .wStop2 => none
  | .wReset => none
  | .wNop => none
  | .wSelfcal1 => none
  | .wSelfcal2 => none
  | .wRdata1 => none
  | .wRdata2 => none
  | .wDacFrame _ _ _ => none
  | .wDacWrupd _ _ => none

/-- A command's encoding is a command word with the row's fixed bits; a wire frame's is a frame (rule R102). -/
def Statement (i : Instr) : Prop :=
  ∀ p : Profiles, match fixedBits i with
    | some l => ∃ w ws, encode p i = .command w ws ∧ ∀ x ∈ l, w.toNat / 2 ^ x.lo % 2 ^ (x.hi + 1 - x.lo) = x.value
    | none => ∃ c f, encode p i = .frame c f

/-- The command word as a number. -/
theorem commandWord_toNat (op : BitVec 5) (chip : BitVec 2) (n : BitVec 9) (a aux : Byte) :
    (commandWord op chip n a aux).toNat =
      op.toNat * 2 ^ 27 + chip.toNat * 2 ^ 25 + n.toNat * 2 ^ 16 + a.toNat * 2 ^ 8 + aux.toNat := by
  unfold commandWord
  rw [BitVec.toNat_append, BitVec.toNat_append, BitVec.toNat_append, BitVec.toNat_append,
    ← Nat.shiftLeft_add_eq_or_of_lt chip.isLt, ← Nat.shiftLeft_add_eq_or_of_lt n.isLt,
    ← Nat.shiftLeft_add_eq_or_of_lt a.isLt, ← Nat.shiftLeft_add_eq_or_of_lt aux.isLt,
    Nat.shiftLeft_eq, Nat.shiftLeft_eq, Nat.shiftLeft_eq, Nat.shiftLeft_eq]
  omega

/-- A command whose fields are known has the fixed bits that its fields have. -/
theorem of_command {i : Instr} {op : BitVec 5} {c : Chip} {n : BitVec 9} {a aux : Byte} {ws : List Word}
    {l : List FixedBits} (hl : fixedBits i = some l) (he : ∀ p, encode p i = encodeCommand op c n a aux ws)
    (hx : ∀ x ∈ l,
      (op.toNat * 2 ^ 27 + (chipCode c).toNat * 2 ^ 25 + n.toNat * 2 ^ 16 + a.toNat * 2 ^ 8 + aux.toNat) / 2 ^ x.lo %
        2 ^ (x.hi + 1 - x.lo) = x.value) : Statement i := by
  intro p
  rw [hl]
  exact ⟨_, ws, he p, fun x h => by rw [commandWord_toNat]; exact hx x h⟩

/-- A wire frame. -/
theorem of_frame {i : Instr} (hl : fixedBits i = none) (he : ∀ p, ∃ c f, encode p i = .frame c f) : Statement i := by
  intro p
  rw [hl]
  exact he p

theorem buildRead (c : ConvChip) (n : BitVec 9) (a : Byte) : Statement (.buildRead c n a) := by
  refine of_command rfl (fun _ => rfl) fun x h => ?_
  have hn := n.isLt
  have ha := a.isLt
  cases c <;> simp [chipCode, ConvChip.toChip] at h ⊢ <;> rcases h with rfl | rfl | rfl <;> simp <;> omega

theorem buildWrite (c : ConvChip) (a : Byte) (values : List Word) : Statement (.buildWrite c a values) := by
  refine of_command rfl (fun _ => rfl) fun x h => ?_
  have ha := a.isLt
  have hl := (BitVec.ofNat 9 values.length).isLt
  cases c <;> simp [chipCode, ConvChip.toChip] at h ⊢ <;> rcases h with rfl | rfl | rfl <;> simp <;> omega

theorem buildStart (c : ConvChip) (u : BitVec 9) : Statement (.buildStart c u) := by
  refine of_command rfl (fun _ => rfl) fun x h => ?_
  have hu := u.isLt
  cases c <;> simp [chipCode, ConvChip.toChip] at h ⊢ <;> rcases h with rfl | rfl | rfl <;> simp <;> omega

theorem buildStop (c : ConvChip) (u : BitVec 9) : Statement (.buildStop c u) := by
  refine of_command rfl (fun _ => rfl) fun x h => ?_
  have hu := u.isLt
  cases c <;> simp [chipCode, ConvChip.toChip] at h ⊢ <;> rcases h with rfl | rfl | rfl <;> simp <;> omega

theorem buildReset (c : ConvChip) : Statement (.buildReset c) := by
  refine of_command rfl (fun _ => rfl) fun x h => ?_
  cases c <;> simp [chipCode, ConvChip.toChip] at h ⊢ <;> rcases h with rfl | rfl <;> simp <;> omega

theorem buildNop (c : ConvChip) : Statement (.buildNop c) := by
  refine of_command rfl (fun _ => rfl) fun x h => ?_
  cases c <;> simp [chipCode, ConvChip.toChip] at h ⊢ <;> rcases h with rfl | rfl <;> simp <;> omega

theorem buildSelfcal (c : ConvChip) (u : BitVec 9) : Statement (.buildSelfcal c u) := by
  refine of_command rfl (fun _ => rfl) fun x h => ?_
  have hu := u.isLt
  cases c <;> simp [chipCode, ConvChip.toChip] at h ⊢ <;> rcases h with rfl | rfl | rfl <;> simp <;> omega

theorem buildRdata (c : ConvChip) (u : BitVec 9) : Statement (.buildRdata c u) := by
  refine of_command rfl (fun _ => rfl) fun x h => ?_
  have hu := u.isLt
  cases c <;> simp [chipCode, ConvChip.toChip] at h ⊢ <;> rcases h with rfl | rfl | rfl <;> simp <;> omega

theorem parseRead (c : ConvChip) (n : BitVec 9) (raw : Frame) : Statement (.parseRead c n raw) := by
  refine of_command rfl (fun _ => rfl) fun x h => ?_
  have hn := n.isLt
  cases c <;> simp [chipCode, ConvChip.toChip] at h ⊢ <;> rcases h with rfl | rfl | rfl <;> simp <;> omega

theorem dacFrame (op ch : Byte) (d : Word) : Statement (.dacFrame op ch d) := by
  refine of_command rfl (fun _ => rfl) fun x h => ?_
  have hop := op.isLt
  have hch := ch.isLt
  simp [chipCode] at h ⊢
  rcases h with rfl <;> simp <;> omega

theorem dacWrupd (ch : Byte) (d : Word) : Statement (.dacWrupd ch d) := by
  refine of_command rfl (fun _ => rfl) fun x h => ?_
  have hch := ch.isLt
  simp [chipCode] at h ⊢
  rcases h with rfl | rfl <;> simp <;> omega

theorem adcAsm (b0 b1 b2 : Byte) : Statement (.adcAsm b0 b1 b2) := by
  refine of_command rfl (fun _ => rfl) fun x h => ?_
  have hb0 := b0.isLt
  have hb1 := b1.isLt
  have hb2 := b2.isLt
  simp [chipCode] at h ⊢
  rcases h with rfl <;> simp <;> omega

theorem cfgDiff (c : Chip) (req : List Pair) : Statement (.cfgDiff c req) := by
  refine of_command rfl (fun _ => rfl) fun x h => ?_
  have hl := (BitVec.ofNat 9 req.length).isLt
  cases c <;> simp [chipCode, ConvChip.toChip] at h ⊢ <;> rcases h with rfl | rfl <;> simp <;> omega

theorem cfgCommit (c : Chip) (req : List Pair) : Statement (.cfgCommit c req) := by
  refine of_command rfl (fun _ => rfl) fun x h => ?_
  have hl := (BitVec.ofNat 9 req.length).isLt
  cases c <;> simp [chipCode, ConvChip.toChip] at h ⊢ <;> rcases h with rfl | rfl <;> simp <;> omega

theorem setConfig (c : Chip) (req : List Pair) : Statement (.setConfig c req) := by
  refine of_command rfl (fun _ => rfl) fun x h => ?_
  have hl := (BitVec.ofNat 9 req.length).isLt
  cases c <;> simp [chipCode, ConvChip.toChip] at h ⊢ <;> rcases h with rfl | rfl <;> simp <;> omega

theorem startConv (c : ConvChip) (u : BitVec 9) : Statement (.startConv c u) := by
  refine of_command rfl (fun _ => rfl) fun x h => ?_
  have hu := u.isLt
  cases c <;> simp [chipCode, ConvChip.toChip] at h ⊢ <;> rcases h with rfl | rfl | rfl <;> simp <;> omega

theorem stopConv (c : ConvChip) (u : BitVec 9) : Statement (.stopConv c u) := by
  refine of_command rfl (fun _ => rfl) fun x h => ?_
  have hu := u.isLt
  cases c <;> simp [chipCode, ConvChip.toChip] at h ⊢ <;> rcases h with rfl | rfl | rfl <;> simp <;> omega

theorem convDone (c : ConvChip) : Statement (.convDone c) := by
  refine of_command rfl (fun _ => rfl) fun x h => ?_
  cases c <;> simp [chipCode, ConvChip.toChip] at h ⊢ <;> rcases h with rfl | rfl <;> simp <;> omega

theorem readCont (c : ConvChip) (u : BitVec 9) : Statement (.readCont c u) := by
  refine of_command rfl (fun _ => rfl) fun x h => ?_
  have hu := u.isLt
  cases c <;> simp [chipCode, ConvChip.toChip] at h ⊢ <;> rcases h with rfl | rfl | rfl <;> simp <;> omega

theorem readPulse (c : ConvChip) (u : BitVec 9) : Statement (.readPulse c u) := by
  refine of_command rfl (fun _ => rfl) fun x h => ?_
  have hu := u.isLt
  cases c <;> simp [chipCode, ConvChip.toChip] at h ⊢ <;> rcases h with rfl | rfl | rfl <;> simp <;> omega

theorem mirrorReset (c : Chip) : Statement (.mirrorReset c) := by
  refine of_command rfl (fun _ => rfl) fun x h => ?_
  cases c <;> simp [chipCode, ConvChip.toChip] at h ⊢ <;> rcases h with rfl | rfl <;> simp <;> omega

theorem cfgLoad (c : Chip) (regs : List RegByte) : Statement (.cfgLoad c regs) := by
  refine of_command rfl (fun _ => rfl) fun x h => ?_
  have hl := (BitVec.ofNat 9 regs.length).isLt
  cases c <;> simp [chipCode, ConvChip.toChip] at h ⊢ <;> rcases h with rfl | rfl <;> simp <;> omega

theorem cfgReassert (c : Chip) : Statement (.cfgReassert c) := by
  refine of_command rfl (fun _ => rfl) fun x h => ?_
  cases c <;> simp [chipCode, ConvChip.toChip] at h ⊢ <;> rcases h with rfl | rfl <;> simp <;> omega

theorem calGet (m : Chip) (ch : Byte) : Statement (.calGet m ch) := by
  refine of_command rfl (fun _ => rfl) fun x h => ?_
  have hch := ch.isLt
  cases m <;> simp [chipCode, ConvChip.toChip] at h ⊢ <;> rcases h with rfl | rfl | rfl <;> simp <;> omega

theorem calSet (m : Chip) (ch : Byte) (gain offset : Word) : Statement (.calSet m ch gain offset) := by
  refine of_command rfl (fun _ => rfl) fun x h => ?_
  have hch := ch.isLt
  cases m <;> simp [chipCode, ConvChip.toChip] at h ⊢ <;> rcases h with rfl | rfl | rfl <;> simp <;> omega

theorem adcCode2v (g : BitVec 9) (raw : Word) : Statement (.adcCode2v g raw) := by
  refine of_command rfl (fun _ => rfl) fun x h => ?_
  have hg := g.isLt
  simp [chipCode] at h ⊢
  rcases h with rfl | rfl <;> simp <;> omega

theorem calApply (m : Chip) (ch : Byte) (v : Word) : Statement (.calApply m ch v) := by
  refine of_command rfl (fun _ => rfl) fun x h => ?_
  have hch := ch.isLt
  cases m <;> simp [chipCode, ConvChip.toChip] at h ⊢ <;> rcases h with rfl | rfl | rfl <;> simp <;> omega

theorem dacV2code (ch : Byte) (v : Word) : Statement (.dacV2code ch v) := by
  refine of_command rfl (fun _ => rfl) fun x h => ?_
  have hch := ch.isLt
  simp [chipCode] at h ⊢
  rcases h with rfl | rfl <;> simp <;> omega

theorem dacCode2v (ch : Byte) (code : Word) : Statement (.dacCode2v ch code) := by
  refine of_command rfl (fun _ => rfl) fun x h => ?_
  have hch := ch.isLt
  simp [chipCode] at h ⊢
  rcases h with rfl | rfl <;> simp <;> omega

theorem tcCode2t (b0 b1 b2 b3 b4 : Byte) : Statement (.tcCode2t b0 b1 b2 b3 b4) := by
  refine of_command rfl (fun _ => rfl) fun x h => ?_
  have hb0 := b0.isLt
  have hb1 := b1.isLt
  have hb2 := b2.isLt
  have hb3 := b3.isLt
  have hb4 := b4.isLt
  simp [chipCode] at h ⊢
  rcases h with rfl <;> simp <;> omega

theorem reservedOp00 (rest : BitVec 27) (payload : List Word) : Statement (.reservedOp00 rest payload) := by
  intro p
  refine ⟨_, payload, rfl, fun x h => ?_⟩
  obtain rfl := List.mem_singleton.mp h
  have := rest.isLt
  rw [BitVec.toNat_append, ← Nat.shiftLeft_add_eq_or_of_lt rest.isLt, Nat.shiftLeft_eq]
  simp
  omega

theorem reservedOp1f (rest : BitVec 27) (payload : List Word) : Statement (.reservedOp1f rest payload) := by
  intro p
  refine ⟨_, payload, rfl, fun x h => ?_⟩
  obtain rfl := List.mem_singleton.mp h
  have := rest.isLt
  rw [BitVec.toNat_append, ← Nat.shiftLeft_add_eq_or_of_lt rest.isLt, Nat.shiftLeft_eq]
  simp
  omega

theorem wRreg (a : Byte) (dummies : Frame) : Statement (.wRreg a dummies) :=
  of_frame rfl fun _ => ⟨_, _, rfl⟩

theorem wRregRefAdc (a : BitVec 5) (cnt : Byte) : Statement (.wRregRefAdc a cnt) :=
  of_frame rfl fun _ => ⟨_, _, rfl⟩

theorem wWreg (a : Byte) (values : Frame) : Statement (.wWreg a values) :=
  of_frame rfl fun _ => ⟨_, _, rfl⟩

theorem wWregRefAdc (a : BitVec 5) (values : Frame) : Statement (.wWregRefAdc a values) :=
  of_frame rfl fun _ => ⟨_, _, rfl⟩

theorem wTcRead (a : Byte) (dummies : Frame) : Statement (.wTcRead a dummies) :=
  of_frame rfl fun _ => ⟨_, _, rfl⟩

theorem wTcWrite (a : Byte) (values : Frame) : Statement (.wTcWrite a values) :=
  of_frame rfl fun _ => ⟨_, _, rfl⟩

theorem wStart1 : Statement (.wStart1) :=
  of_frame rfl fun _ => ⟨_, _, rfl⟩

theorem wStart2 : Statement (.wStart2) :=
  of_frame rfl fun _ => ⟨_, _, rfl⟩

theorem wStop1 : Statement (.wStop1) :=
  of_frame rfl fun _ => ⟨_, _, rfl⟩

theorem wStop2 : Statement (.wStop2) :=
  of_frame rfl fun _ => ⟨_, _, rfl⟩

theorem wReset : Statement (.wReset) :=
  of_frame rfl fun _ => ⟨_, _, rfl⟩

theorem wNop : Statement (.wNop) :=
  of_frame rfl fun _ => ⟨_, _, rfl⟩

theorem wSelfcal1 : Statement (.wSelfcal1) :=
  of_frame rfl fun _ => ⟨_, _, rfl⟩

theorem wSelfcal2 : Statement (.wSelfcal2) :=
  of_frame rfl fun _ => ⟨_, _, rfl⟩

theorem wRdata1 : Statement (.wRdata1) :=
  of_frame rfl fun _ => ⟨_, _, rfl⟩

theorem wRdata2 : Statement (.wRdata2) :=
  of_frame rfl fun _ => ⟨_, _, rfl⟩

theorem wDacFrame (op ch : BitVec 4) (d : BitVec 16) : Statement (.wDacFrame op ch d) :=
  of_frame rfl fun _ => ⟨_, _, rfl⟩

theorem wDacWrupd (ch : BitVec 4) (d : BitVec 16) : Statement (.wDacWrupd ch d) :=
  of_frame rfl fun _ => ⟨_, _, rfl⟩

end Sys2Proof.Laws.EncodingRow
end

