-- ==== Sys2Proof/Laws/Whole.lean ====
section
/-! SUPPORT. What each operation leaves alone, one lemma per operation, for the statements about the whole machine. -/

namespace Sys2Proof.Machine
open Sys2Proof.Config

/-! ### How an operation ends -/

/-- The state an operation ends in, or waits in. -/
def endState {α : Type} : OpEnd α → State
  | .done _ s => s
  | .raised _ s => s
  | .hung s => s

/-- A state, perhaps with another result on the port of the instance at work. -/
def Shows (u t : State) : Prop := t = u ∨ ∃ r, t = withResult u r

/-- A next state is the operation's end, with its result on the port unless it waits. -/
theorem outcome_inv {α : Type} {fmt : α → List Word} {x : OpEnd α} {t : State} (h : outcome fmt x = .next t) :
    Shows (endState x) t := by
  rcases outcome_next h with ⟨a, u, rfl, rfl⟩ | ⟨e, u, rfl, rfl⟩ | rfl
  · exact .inr ⟨_, rfl⟩
  · exact .inr ⟨_, rfl⟩
  · exact .inl rfl

/-- A result changes nothing else. -/
theorem Shows.parts {u t : State} (h : Shows u t) :
    sameCore u t ∧ samePorts u t ∧ t.turn = u.turn ∧ (∀ c, isBusy t c = isBusy u c) ∧
      ∀ c, c ≠ u.turn → (ioOf t c).result = (ioOf u c).result := by
  rcases h with rfl | ⟨r, rfl⟩
  · exact ⟨sameCore_refl _, ⟨rfl, rfl, rfl, rfl, rfl⟩, rfl, fun _ => rfl, fun _ _ => rfl⟩
  · refine ⟨⟨rfl, rfl, rfl, rfl, rfl, rfl, rfl⟩, ⟨rfl, rfl, rfl, rfl, rfl⟩, rfl, fun c => isBusy_withResult u r c, ?_⟩
    intro c hc
    rw [ioOf_withResult, if_neg hc]

/-- States with the same core have the same parts of it. -/
theorem sameCore.parts {s t : State} (h : sameCore s t) :
    t.profile = s.profile ∧ t.cal = s.cal ∧ (∀ c, cfgOf t c = cfgOf s c) ∧ ∀ k, convOf t k = convOf s k := by
  obtain ⟨h1, h2, h3, h4, h5, h6, h7⟩ := h
  refine ⟨h1, h7, fun c => ?_, fun k => ?_⟩
  · cases c <;> assumption
  · cases k <;> assumption

/-- The end of two operations in a row. -/
theorem andThen_end {α β : Type} (x : OpEnd α) (f : α → State → OpEnd β) :
    endState (andThen x f) = endState x ∨ ∃ a v, x = .done a v ∧ endState (andThen x f) = endState (f a v) := by
  cases x with
  | done a v => exact .inr ⟨a, v, rfl, rfl⟩
  | raised e v => exact .inl rfl
  | hung v => exact .inl rfl

/-! ### The operations that write registers -/

/-- What the register-write loop leaves alone. -/
theorem writeRegisters_frame (c : Chip) (ws : List RegWrite) (s : State) :
    let t := endState (writeRegisters c ws s)
    t.profile = s.profile ∧ t.cal = s.cal ∧ t.turn = s.turn ∧ (∀ k, convOf t k = convOf s k) ∧
      (∀ d, d ≠ c → cfgOf t d = cfgOf s d ∧ isBusy t d = isBusy s d) ∧ ∀ d, (ioOf t d).result = (ioOf s d).result := by
  induction ws generalizing s with
  | nil => exact ⟨rfl, rfl, rfl, fun _ => rfl, fun _ _ => ⟨rfl, rfl⟩, fun _ => rfl⟩
  | cons w rest ih =>
    rw [writeRegisters]
    split
    · exact ⟨rfl, rfl, rfl, fun _ => rfl, fun _ _ => ⟨rfl, rfl⟩, fun _ => rfl⟩
    · rename_i f hf
      rcases transfer_cases c f w.reg.toNat s with ⟨r, cs, h1, _, h2⟩ | ⟨cs, h1, h2⟩ | ⟨cs, h1, _, h2⟩ <;> rw [h2]
      · obtain ⟨a1, a2, a3, a4, a5, a6⟩ := ih (commitFields c w.commit (sent s c [f] cs))
        refine ⟨by simpa [commitFields] using a1, by simpa [commitFields] using a2, by simpa [commitFields] using a3,
          fun k => by simpa [commitFields] using a4 k, fun d hd => ?_, fun d => by simpa using a6 d⟩
        obtain ⟨b1, b2⟩ := a5 d hd
        refine ⟨?_, by simpa [isBusy] using b2⟩
        rw [b1]
        unfold commitFields
        rw [cfgOf_withCfg_ne _ _ hd]
        simp
      · refine ⟨by simp [endState, withStale], by simp [endState, withStale], by simp [endState, withStale],
          fun k => by simp [endState, withStale], fun d hd => ⟨?_, by simp [endState, withStale]⟩,
          fun d => by simp [endState, withStale]⟩
        simp only [endState, withStale]
        rw [cfgOf_withCfg_ne _ _ hd]
        simp
      · refine ⟨rfl, rfl, rfl, fun k => by simp [endState], fun d hd => ⟨by simp [endState], ?_⟩, fun d => ?_⟩
        · simp [endState, isBusy_markBusy, hd]
        · simp only [endState]
          rw [result_markBusy]
          simp

/-- A loop that commits nothing leaves the mirror and SetMask alone. -/
theorem writeRegisters_quiet {c : Chip} {ws : List RegWrite} (hq : ∀ w ∈ ws, w.commit = []) (s : State) :
    (cfgOf (endState (writeRegisters c ws s)) c).mirror = (cfgOf s c).mirror ∧
      (cfgOf (endState (writeRegisters c ws s)) c).setMask = (cfgOf s c).setMask := by
  induction ws generalizing s with
  | nil => exact ⟨rfl, rfl⟩
  | cons w rest ih =>
    rw [writeRegisters]
    split
    · exact ⟨rfl, rfl⟩
    · rename_i f hf
      rcases transfer_cases c f w.reg.toNat s with ⟨r, cs, h1, _, h2⟩ | ⟨cs, h1, h2⟩ | ⟨cs, h1, _, h2⟩ <;> rw [h2]
      · have := ih (fun w hw => hq w (List.mem_cons_of_mem _ hw)) (sent s c [f] cs)
        simpa [hq w List.mem_cons_self, commitFields_nil] using this
      · simp [endState, withStale]
      · simp [endState]

/-- What SET_CONFIG leaves alone, and what it does to Mode. -/
theorem setConfig_frame (c : Chip) (req : List Pair) (s : State) :
    let t := endState (setConfig c req s)
    t.profile = s.profile ∧ t.cal = s.cal ∧ t.turn = s.turn ∧
      (∀ k, convOf t k = convOf s k ∨ (k.toChip = c ∧ (convOf s k).mode ≠ .converting ∧
        convOf t k = { mode := .configuring, pulseDone := false })) ∧
      (∀ d, d ≠ c → cfgOf t d = cfgOf s d ∧ isBusy t d = isBusy s d) ∧ ∀ d, (ioOf t d).result = (ioOf s d).result := by
  unfold setConfig
  split
  · exact ⟨rfl, rfl, rfl, fun _ => .inl rfl, fun _ _ => ⟨rfl, rfl⟩, fun _ => rfl⟩
  · rename_i vs _
    split
    · exact ⟨rfl, rfl, rfl, fun _ => .inl rfl, fun _ _ => ⟨rfl, rfl⟩, fun _ => rfl⟩
    · split
      · exact ⟨rfl, rfl, rfl, fun _ => .inl rfl, fun _ _ => ⟨rfl, rfl⟩, fun _ => rfl⟩
      · rename_i hk
        have hmode : ∀ k, convOf (enterConfiguring c s) k = convOf s k ∨ (k.toChip = c ∧
            (convOf s k).mode ≠ .converting ∧
            convOf (enterConfiguring c s) k = { mode := .configuring, pulseDone := false }) := by
          intro k
          rw [enterConfiguring_convOf]
          split
          · rename_i hkc
            exact .inr ⟨hkc, fun hm => hk ((isConverting_iff s c).mpr ⟨k, hkc, hm⟩), rfl⟩
          · exact .inl rfl
        have hturn : (enterConfiguring c s).turn = s.turn := by cases c <;> rfl
        obtain ⟨a1, a2, a3, a4, a5, a6⟩ := writeRegisters_frame c
          (diffWrites (profOf s c) (cfgOf s c).mirror (diffOf (cfgOf s c).mirror vs)) (enterConfiguring c s)
        rcases andThen_end (writeRegisters c
          (diffWrites (profOf s c) (cfgOf s c).mirror (diffOf (cfgOf s c).mirror vs)) (enterConfiguring c s))
          (fun _ s' => OpEnd.done (diffOf (cfgOf s c).mirror vs) (markFields c (vs.map (·.1)) s')) with h | ⟨a, v, hx, h⟩
        · simp only [h]
          exact ⟨by simpa using a1, by simpa using a2, by rw [a3, hturn], fun k => by rw [a4]; exact hmode k,
            fun d hd => by simpa [isBusy] using a5 d hd, fun d => by simpa using a6 d⟩
        · rw [hx] at a1 a2 a3 a4 a5 a6
          simp only [h]
          simp only [endState] at a1 a2 a3 a4 a5 a6
          refine ⟨by simpa [endState, markFields] using a1, by simpa [endState, markFields] using a2, ?_,
            fun k => ?_, fun d hd => ⟨?_, ?_⟩, fun d => by simpa [endState, markFields] using a6 d⟩
          · simp only [endState, markFields, withCfg_turn, a3, hturn]
          · simp only [endState, markFields, convOf_withCfg, a4]
            exact hmode k
          · simp only [endState, markFields]
            rw [cfgOf_withCfg_ne _ _ hd]
            simpa using (a5 d hd).1
          · simpa [endState, markFields, isBusy] using (a5 d hd).2

/-- What CFG_REASSERT leaves alone. -/
theorem cfgReassert_frame (c : Chip) (s : State) :
    let t := endState (cfgReassert c s)
    t.profile = s.profile ∧ t.cal = s.cal ∧ t.turn = s.turn ∧ (∀ k, convOf t k = convOf s k) ∧
      (∀ d, d ≠ c → cfgOf t d = cfgOf s d ∧ isBusy t d = isBusy s d) ∧
      (∀ d, (ioOf t d).result = (ioOf s d).result) ∧
      (cfgOf t c).mirror = (cfgOf s c).mirror ∧ (cfgOf t c).setMask = (cfgOf s c).setMask := by
  unfold cfgReassert
  split
  · exact ⟨rfl, rfl, rfl, fun _ => rfl, fun _ _ => ⟨rfl, rfl⟩, fun _ => rfl, rfl, rfl⟩
  · have hq : ∀ w ∈ allWrites (profOf s c) (cfgOf s c).mirror, w.commit = [] := by
      intro w hw
      obtain ⟨r, _, rfl⟩ := List.mem_map.mp hw
      rfl
    obtain ⟨a1, a2, a3, a4, a5, a6⟩ := writeRegisters_frame c (allWrites (profOf s c) (cfgOf s c).mirror) s
    obtain ⟨b1, b2⟩ := writeRegisters_quiet hq s
    rcases andThen_end (writeRegisters c (allWrites (profOf s c) (cfgOf s c).mirror) s)
      (fun _ s' => OpEnd.done () (withStale s' c false)) with h | ⟨a, v, hx, h⟩
    · simp only [h]
      exact ⟨a1, a2, a3, a4, a5, a6, b1, b2⟩
    · rw [hx] at a1 a2 a3 a4 a5 a6 b1 b2
      simp only [h]
      simp only [endState] at a1 a2 a3 a4 a5 a6 b1 b2
      refine ⟨by simpa [endState, withStale] using a1, by simpa [endState, withStale] using a2,
        by simpa [endState, withStale] using a3, fun k => by simpa [endState, withStale] using a4 k,
        fun d hd => ⟨?_, by simpa [endState, withStale] using (a5 d hd).2⟩,
        fun d => by simpa [endState, withStale] using a6 d,
        by simpa [endState, withStale] using b1, by simpa [endState, withStale] using b2⟩
      simp only [endState, withStale]
      rw [cfgOf_withCfg_ne _ _ hd]
      exact (a5 d hd).1

/-- What MIRROR_RESET does to Mode and PulseDone. -/
theorem mirrorReset_convOf (c : Chip) (s : State) (k : ConvChip) :
    convOf (mirrorReset c s) k = if k.toChip = c then resetConv else convOf s k := by
  cases c <;> cases k <;> rfl

/-- A SET_CONFIG that raises a fault: nothing changed, or Stale is set. -/
theorem setConfig_end {c : Chip} {req : List Pair} {s t : State} {e : Raised} (hp : profilesOk s.profile = true)
    (h : setConfig c req s = .raised e t) :
    (t = s ∧ (e.fault = .invalidConfigValue ∨ e.fault = .rtdEnabledError ∨ e.fault = .illegalTransition)) ∨
      (e.fault = .transportFault ∧ t.port = s.port ∧ (cfgOf t c).stale = true ∧ isConverting s c = false ∧
        ∀ k, convOf t k = convOf (enterConfiguring c s) k) := by
  rcases setConfig_cases (c := c) (req := req) hp with ⟨e', he, h'⟩ | ⟨_, ⟨_, h'⟩ | ⟨_, _, h'⟩ |
    ⟨_, hk, ⟨cs, _, h'⟩ | ⟨b, r, a, cs, _, _, h' | ⟨h', _⟩⟩⟩⟩ <;> rw [h'] at h <;> cases h
  · exact .inl ⟨rfl, .inl (validate_error he)⟩
  · exact .inl ⟨rfl, .inr (.inl rfl)⟩
  · exact .inl ⟨rfl, .inr (.inr rfl)⟩
  · exact .inr ⟨rfl, by simp [withStale, afterWrites, commitFields], by simp [withStale], hk,
      fun k => by simp [withStale, afterWrites, enterConfiguring_convOf]⟩

/-- A CFG_REASSERT that raises a fault: nothing changed, or Stale is set. -/
theorem cfgReassert_end {c : Chip} {s t : State} {e : Raised} (hp : profilesOk s.profile = true)
    (h : cfgReassert c s = .raised e t) :
    (t = s ∧ e.fault = .illegalTransition) ∨
      (e.fault = .transportFault ∧ t.port = s.port ∧ (cfgOf t c).stale = true) := by
  rcases cfgReassert_cases (c := c) hp with ⟨_, h'⟩ | ⟨_, ⟨cs, _, h'⟩ | ⟨b, r, a, cs, _, _, h' | ⟨h', _⟩⟩⟩ <;>
    rw [h'] at h <;> cases h
  · exact .inl ⟨rfl, rfl⟩
  · exact .inr ⟨rfl, by simp [withStale], by simp [withStale]⟩

/-! ### The other operations -/

/-- A pure operation changes the result port only. -/
theorem exec_pure_end {i : Instr} {s t : State} (hp : isCodec i = true ∨ isConversion i = true ∨ isReserved i = true)
    (h : exec i s = .next t) : ∃ r, t = withResult s r := by
  obtain ⟨x, he⟩ := exec_pure hp s
  rw [he] at h
  cases h
  exact settle_result x s

/-- Frames out, and perhaps an instance waiting for its transfer: nothing of the SCCE changed. -/
def Sent (s : State) (c : Chip) (t : State) : Prop :=
  ∃ fs cs, t = sent s c fs cs ∨ (t = markBusy (sent s c fs cs) c ∧ replyAt s 0 = .never)

theorem Sent.core {s t : State} {c : Chip} (h : Sent s c t) : sameCore s t := by
  obtain ⟨fs, cs, rfl | ⟨rfl, _⟩⟩ := h
  · exact sameCore_sent ..
  · exact sameCore_sent s c fs cs

/-- A hand-sent frame changes the ports only. -/
theorem sendByHand_end (c : Chip) (frame : Except Raised Frame) (parse : Frame → Except Raised (List Word)) (s : State) :
    Sent s c (endState (sendByHand c frame parse s)) := by
  rcases sendByHand_cases c frame parse s with ⟨e, _, h⟩ | ⟨f, _, ⟨r, ws, cs, h1, _, _, h⟩ | ⟨r, e, cs, h1, _, h⟩ |
    ⟨cs, h1, h⟩ | ⟨cs, h1, hn, h⟩⟩ <;> rw [h]
  · exact ⟨[], [], .inl (by simp [endState])⟩
  all_goals first
    | exact ⟨_, _, .inl rfl⟩
    | exact ⟨_, _, .inr ⟨rfl, hn⟩⟩

/-- The read frame's transfer changes the ports only. -/
theorem readCode_end (c : ConvChip) (u : BitVec 9) (s : State) : Sent s c.toChip (endState (readCode c u s)) := by
  rcases readCode_cases c u s with h | ⟨f, _, ⟨r, cs, h1, _, _, h⟩ | ⟨r, cs, h1, _, h⟩ | ⟨cs, h1, h⟩ |
    ⟨cs, h1, hn, h⟩⟩ <;> rw [h]
  · exact ⟨[], [], .inl (by simp [endState])⟩
  all_goals first
    | exact ⟨_, _, .inl rfl⟩
    | exact ⟨_, _, .inr ⟨rfl, hn⟩⟩

/-- READ_CONT changes the ports only. -/
theorem readCont_end (c : ConvChip) (u : BitVec 9) (s : State) : Sent s c.toChip (endState (readCont c u s)) := by
  unfold readCont
  split
  · exact readCode_end c u s
  · exact ⟨[], [], .inl (by simp [endState])⟩

/-- READ_PULSE changes the ports and PulseDone only. -/
theorem readPulse_end (c : ConvChip) (u : BitVec 9) (s : State) :
    Sent s c.toChip (endState (readPulse c u s)) ∨
      ∃ fs cs, endState (readPulse c u s) = withConv (sent s c.toChip fs cs) c { convOf s c with pulseDone := false } := by
  unfold readPulse
  split
  · rcases readCode_cases c u s with h | ⟨f, _, ⟨r, cs, h1, _, _, h⟩ | ⟨r, cs, h1, _, h⟩ | ⟨cs, h1, h⟩ |
      ⟨cs, h1, hn, h⟩⟩ <;> rw [h]
    · exact .inl ⟨[], [], .inl (by simp [endState])⟩
    · exact .inr ⟨[f], cs, by simp [endState]⟩
    · exact .inl ⟨_, _, .inl rfl⟩
    · exact .inl ⟨_, _, .inl rfl⟩
    · exact .inl ⟨_, _, .inr ⟨rfl, hn⟩⟩
  · exact .inl ⟨[], [], .inl (by simp [endState])⟩

/-- The faults of the read frame's transfer. -/
theorem readCode_fault {c : ConvChip} {u : BitVec 9} {s v : State} {e : Raised} (hv : readCode c u s = .raised e v) :
    e.fault = .invalidUnit ∨ e.fault = .shortReadError ∨ e.fault = .transportFault := by
  rcases readCode_cases c u s with h | ⟨f, _, ⟨r, cs, h1, _, _, h⟩ | ⟨r, cs, h1, _, h⟩ | ⟨cs, h1, h⟩ |
    ⟨cs, h1, _, h⟩⟩ <;> rw [h] at hv <;> cases hv <;> simp [raised]

/-! ### Events -/

/-- Every event that is taken stood on the port, and what is left keeps its order. -/
theorem takeNext_some {s : State} {es rest : List Event} {e : Event} (h : takeNext s es = some (e, rest)) :
    ∃ before after, es = before ++ e :: after ∧ rest = (if lostWith e then after else before ++ after) ∧
      canTake s e = true ∧ ∀ x ∈ before, canTake s x = false := by
  induction es generalizing rest with
  | nil => cases h
  | cons x es ih =>
    simp only [takeNext] at h
    split at h
    · rename_i hx
      cases h
      exact ⟨[], es, rfl, by simp, hx, by simp⟩
    · rename_i hx
      obtain ⟨⟨y, r⟩, hy, he⟩ := Option.map_eq_some_iff.mp h
      cases he
      obtain ⟨b, a, rfl, hr, hc, hb⟩ := ih hy
      refine ⟨x :: b, a, rfl, ?_, hc, by simpa using ⟨by simpa using hx, hb⟩⟩
      simp only at hr ⊢
      rw [hr]
      split <;> rfl

/-- The first event that can be taken is taken. -/
theorem takeNext_append {s : State} {before after : List Event} {e : Event} (hb : ∀ x ∈ before, canTake s x = false)
    (he : canTake s e = true) :
    takeNext s (before ++ e :: after) = some (e, if lostWith e then after else before ++ after) := by
  induction before with
  | nil => simp [takeNext, he]
  | cons x before ih =>
    have hx : canTake s x = false := hb x (by simp)
    simp only [List.cons_append, takeNext, hx, ih fun y hy => hb y (by simp [hy]), Option.map_some, Bool.false_eq_true,
      if_false]
    split <;> simp_all

/-- Nothing is taken when nothing can be. -/
theorem takeNext_none {s : State} {es : List Event} (h : ∀ x ∈ es, canTake s x = false) : takeNext s es = none := by
  induction es with
  | nil => rfl
  | cons x es ih => simp [takeNext, h x (by simp), ih fun y hy => h y (by simp [hy])]

/-- What something presented to a free instance does. -/
theorem runEvent_present (item : PortItem) (s : State) (rest : List Event) :
    runEvent (.present item) { s with port := rest } = runItem item (atWork s (itemChip item) rest) := rfl

/-! ### Racing conversions (rule R76) -/

/-- A conversion's answer depends on the profile and on the one entry it reads. -/
theorem exec_conversion {i : Instr} (hi : isConversion i = true) {s t : State} (hp : t.profile = s.profile)
    (hc : ∀ m n, entryRead i = some (m, n) → calGet t.cal m n = calGet s.cal m n) :
    ∃ x, exec i s = .next (settle x s) ∧ exec i t = .next (settle x t) := by
  have hl : ∀ m n, entryRead i = some (m, n) → lookupCal t m n = lookupCal s m n := by
    intro m n h
    unfold lookupCal
    rw [hp, hc m n h]
  cases i <;> first
    | exact absurd hi Bool.false_ne_true
    | refine ⟨_, rfl, ?_⟩
  case calGet m ch => simp only [exec, execCalGet, pureOutcome, hl m _ rfl]
  case adcCode2v g raw => simp only [exec, execAdcCode2v, pureOutcome, profOf, hp]
  case calApply m ch v => simp only [exec, execCalApply, pureOutcome, calApply, hl m _ rfl]
  case dacV2code ch v =>
    have h : dacV2code ch.toNat v t = dacV2code ch.toNat v s := by
      unfold dacV2code profOf
      rw [hl .dac _ rfl, hp]
    simp only [exec, execDacV2code, pureOutcome, h]
  case dacCode2v ch v => simp only [exec, execDacCode2v, pureOutcome, dacCode2v, hl .dac _ rfl, profOf, hp]
  case tcCode2t => simp only [exec, execTcCode2t, pureOutcome, profOf, hp]

/-- A conversion that races answers what it answers over any table with the same entry. -/
theorem runRacing_next {i : Instr} (hi : isConversion i = true) {s t : State} (hp : t.profile = s.profile)
    (hc : ∀ m n, entryRead i = some (m, n) → calGet t.cal m n = calGet (racedCal s) m n) :
    ∃ x, exec i t = .next (settle x t) ∧ runRacing i s = .next { settle x s with races := s.races + 1 } := by
  obtain ⟨x, h1, h2⟩ := exec_conversion hi (s := { s with cal := racedCal s }) hp hc
  refine ⟨x, h2, ?_⟩
  unfold runRacing
  rw [h1]
  cases x <;> rfl

/-- A race touches no entry but that of its CAL_SET. -/
theorem racedCal_other {s : State} {m : Chip} {n : Nat} (h : ∀ r, s.calRace = some r → (m, n) ≠ (r.module, r.channel)) :
    calGet (racedCal s) m n = calGet s.cal m n := by
  unfold racedCal
  cases hr : s.calRace with
  | none => rfl
  | some r =>
    simp only
    cases calGet s.cal r.module r.channel with
    | none => rfl
    | some new => exact calGet_calPut_ne _ _ (h r hr)

end Sys2Proof.Machine
end

