-- ==== Sys2Proof/Laws/Sequences.lean ====
section
/-! SUPPORT. What an operation leaves alone of the controllers, which events are taken, and everything a controller's turn can
do, one lemma each. -/

namespace Sys2Proof.Machine
open Sys2Proof.Config

/-! ### An operation does nothing to the controllers -/

/-- The controllers of the three instances are the same in two states, and so are what is still presented and whose turn it
is. -/
def SameControllers (s t : State) : Prop :=
  t.port = s.port ∧ t.turn = s.turn ∧
  ∀ c, (ioOf t c).running = (ioOf s c).running ∧ (ioOf t c).returned = (ioOf s c).returned

theorem SameControllers.refl (s : State) : SameControllers s s := ⟨rfl, rfl, fun _ => ⟨rfl, rfl⟩⟩

theorem SameControllers.trans {s t u : State} (h : SameControllers s t) (k : SameControllers t u) : SameControllers s u :=
  ⟨k.1.trans h.1, k.2.1.trans h.2.1, fun c => ⟨(k.2.2 c).1.trans (h.2.2 c).1, (k.2.2 c).2.trans (h.2.2 c).2⟩⟩

theorem SameControllers.result {s t : State} (h : SameControllers s t) (r : Answer) : SameControllers s (withResult t r) :=
  h.trans ⟨rfl, rfl, fun c => by simp⟩

theorem SameControllers.cfg {s t : State} (h : SameControllers s t) (c : Chip) (x : CfgInstance) :
    SameControllers s (withCfg t c x) :=
  h.trans ⟨by simp, by simp, fun c => by simp⟩

theorem SameControllers.conv {s t : State} (h : SameControllers s t) (c : ConvChip) (x : ConvState) :
    SameControllers s (withConv t c x) :=
  h.trans ⟨by cases c <;> rfl, by cases c <;> rfl, fun c => by simp⟩

/-- A transfer does nothing to the controllers. -/
theorem transfer_controllers (c : Chip) (f : Frame) (info : Nat) (s : State) :
    SameControllers s (endState (transfer c f info s)) := by
  unfold transfer
  split <;> exact ⟨rfl, rfl, fun d => by simp [endState]⟩

/-- Two operations in a row do nothing to the controllers when neither does. -/
theorem andThen_controllers {α β : Type} {x : OpEnd α} {f : α → State → OpEnd β} {s : State}
    (hx : SameControllers s (endState x)) (hf : ∀ a v, SameControllers v (endState (f a v))) :
    SameControllers s (endState (andThen x f)) := by
  rcases andThen_end x f with h | ⟨a, v, rfl, h⟩ <;> rw [h]
  · exact hx
  · exact hx.trans (hf a v)

theorem writeRegisters_controllers (c : Chip) (ws : List RegWrite) (s : State) :
    SameControllers s (endState (writeRegisters c ws s)) := by
  induction ws generalizing s with
  | nil => exact .refl s
  | cons w rest ih =>
    rw [writeRegisters]
    split
    · exact .refl s
    · rename_i f _
      have h := transfer_controllers c f w.reg.toNat s
      cases ht : transfer c f w.reg.toNat s with
      | done r v => rw [ht] at h; exact (SameControllers.cfg h ..).trans (ih _)
      | raised e v => rw [ht] at h; exact h.cfg ..
      | hung v => rw [ht] at h; exact h

theorem enterConfiguring_controllers (c : Chip) (s : State) : SameControllers s (enterConfiguring c s) :=
  ⟨by simp, by cases c <;> rfl, fun d => by simp⟩

theorem setConfig_controllers (c : Chip) (req : List Pair) (s : State) :
    SameControllers s (endState (setConfig c req s)) := by
  unfold setConfig
  split
  · exact .refl s
  · split
    · exact .refl s
    · split
      · exact .refl s
      · exact andThen_controllers ((enterConfiguring_controllers c s).trans (writeRegisters_controllers ..))
          fun _ v => (SameControllers.refl v).cfg ..

theorem cfgReassert_controllers (c : Chip) (s : State) : SameControllers s (endState (cfgReassert c s)) := by
  unfold cfgReassert
  split
  · exact .refl s
  · exact andThen_controllers (writeRegisters_controllers ..) fun _ v => (SameControllers.refl v).cfg ..

theorem lift_controllers {α : Type} (x : Except Raised α) (s : State) : SameControllers s (endState (lift x s)) := by
  cases x <;> exact .refl s

theorem readCode_controllers (c : ConvChip) (u : BitVec 9) (s : State) :
    SameControllers s (endState (readCode c u s)) := by
  unfold readCode
  split
  · exact .refl s
  · exact andThen_controllers (transfer_controllers ..) fun _ v => lift_controllers _ v

theorem sendByHand_controllers (c : Chip) (frame : Except Raised Frame) (parse : Frame → Except Raised (List Word))
    (s : State) : SameControllers s (endState (sendByHand c frame parse s)) := by
  cases frame with
  | error e => exact .refl s
  | ok f => exact andThen_controllers (transfer_controllers ..) fun _ v => lift_controllers _ v

theorem startConv_controllers (c : ConvChip) (u : BitVec 9) (s : State) :
    SameControllers s (endState (startConv c u s)) := by
  unfold startConv
  split
  · exact .refl s
  · split
    · exact .refl s
    · split
      · exact .refl s
      · exact andThen_controllers (transfer_controllers ..) fun _ v => (SameControllers.refl v).conv ..

theorem stopConv_controllers (c : ConvChip) (u : BitVec 9) (s : State) :
    SameControllers s (endState (stopConv c u s)) := by
  unfold stopConv
  split
  · exact .refl s
  · split
    · exact .refl s
    · exact andThen_controllers (transfer_controllers ..) fun _ v => (SameControllers.refl v).conv ..

theorem readCont_controllers (c : ConvChip) (u : BitVec 9) (s : State) :
    SameControllers s (endState (readCont c u s)) := by
  unfold readCont
  split
  · exact readCode_controllers c u s
  · exact .refl s

theorem readPulse_controllers (c : ConvChip) (u : BitVec 9) (s : State) :
    SameControllers s (endState (readPulse c u s)) := by
  unfold readPulse
  split
  · exact andThen_controllers (readCode_controllers c u s) fun _ v => (SameControllers.refl v).conv ..
  · exact .refl s

theorem mirrorReset_controllers (c : Chip) (s : State) : SameControllers s (mirrorReset c s) :=
  ⟨by cases c <;> rfl, by cases c <;> rfl, fun d => by cases c <;> cases d <;> exact ⟨rfl, rfl⟩⟩

theorem cfgCommit_controllers (c : Chip) (req : List Pair) (s : State) :
    SameControllers s (endState (cfgCommit c req s)) := by
  unfold cfgCommit
  split
  · exact .refl s
  · exact (SameControllers.refl s).cfg ..

theorem cfgLoad_controllers (c : Chip) (regs : List RegByte) (s : State) :
    SameControllers s (endState (cfgLoad c regs s)) := by
  unfold cfgLoad
  repeat' split
  all_goals first
    | exact .refl s
    | exact (SameControllers.refl s).cfg ..

theorem setCal_controllers (m : Chip) (ch : Nat) (x : CalPair) (s : State) :
    SameControllers s (endState (setCal m ch x s)) := by
  unfold setCal
  split <;> exact ⟨rfl, rfl, fun d => by cases d <;> exact ⟨rfl, rfl⟩⟩

theorem convDone_controllers (c : ConvChip) (s : State) : SameControllers s (convDone c s) := by
  unfold convDone
  split
  · exact (SameControllers.refl s).conv ..
  · exact .refl s

/-- A next state of an operation has the controllers of its end. -/
theorem outcome_controllers {α : Type} {fmt : α → List Word} {x : OpEnd α} {s t : State}
    (hx : SameControllers s (endState x)) (h : outcome fmt x = .next t) : SameControllers s t := by
  rcases outcome_inv h with rfl | ⟨r, rfl⟩
  · exact hx
  · exact hx.result r

/-- An operation does nothing to the controllers (rule R250), leaves what is still presented, and works on. -/
theorem exec_controllers {i : Instr} {s t : State} (h : exec i s = .next t) : SameControllers s t := by
  by_cases hp : isCodec i = true ∨ isConversion i = true ∨ isReserved i = true
  · obtain ⟨r, rfl⟩ := exec_pure_end hp h
    exact (SameControllers.refl s).result r
  by_cases hw : isWire i = true
  · obtain ⟨c, frame, parse, he⟩ := exec_wire hw s
    rw [he] at h
    exact outcome_controllers (sendByHand_controllers c frame parse s) h
  cases i <;> first
    | exact absurd (by first | exact .inl rfl | exact .inr (.inl rfl) | exact .inr (.inr rfl)) hp
    | exact absurd rfl hw
    | exact outcome_controllers (lift_controllers _ _) h
    | exact outcome_controllers (cfgCommit_controllers ..) h
    | exact outcome_controllers (setConfig_controllers ..) h
    | exact outcome_controllers (cfgLoad_controllers ..) h
    | exact outcome_controllers (cfgReassert_controllers ..) h
    | exact outcome_controllers (startConv_controllers ..) h
    | exact outcome_controllers (stopConv_controllers ..) h
    | exact outcome_controllers (readCont_controllers ..) h
    | exact outcome_controllers (readPulse_controllers ..) h
    | exact outcome_controllers (setCal_controllers ..) h
    | (cases h; exact (mirrorReset_controllers ..).result _)
    | (cases h; exact (convDone_controllers ..).result _)

/-! ### Which events are taken -/

theorem canTake_waiting {s : State} {events : List Event} (h : Waiting s events) : ∀ e ∈ events, canTake s e = false := by
  intro e he
  rcases h e he with ⟨x, rfl, hx⟩ | ⟨q, rfl, hx⟩ | ⟨c, rfl, hx⟩
  · exact hx
  · exact hx
  · simpa [canTake, isBusy] using hx

theorem canTake_ready {s : State} {e : Event} {c : Chip} (h : Ready s e c) : canTake s e = true ∧ lostWith e = false := by
  rcases h with ⟨hf, ⟨x, rfl, rfl⟩ | ⟨q, rfl, rfl⟩ | ⟨st, rfl⟩⟩ | ⟨rfl, hb⟩
  · exact ⟨hf, rfl⟩
  · exact ⟨hf, rfl⟩
  · exact ⟨hf, rfl⟩
  · exact ⟨by simpa [canTake, isBusy] using hb, rfl⟩

/-- A step takes the first event that its instance can take. -/
theorem step_ready {s : State} {waiting rest : List Event} {e : Event} {c : Chip} (hp : s.port = waiting ++ e :: rest)
    (hw : Waiting s waiting) (he : Ready s e c) : step s = runEvent e { s with port := waiting ++ rest } := by
  obtain ⟨h1, h2⟩ := canTake_ready he
  unfold step
  rw [hp, takeNext_append (canTake_waiting hw) h1, h2]
  rfl

/-- A step that takes a controller's turn. -/
theorem step_proceed {s : State} {waiting rest : List Event} {c : Chip} (hp : s.port = waiting ++ .proceed c :: rest)
    (hw : Waiting s waiting) (hb : isBusy s c = false) : step s = proceed c (atWork s c (waiting ++ rest)) :=
  step_ready hp hw (.inr ⟨rfl, hb⟩)

/-- A step that takes the beginning of a sequence. -/
theorem step_sequence {s : State} {waiting rest : List Event} {q : Sequence}
    (hp : s.port = waiting ++ .sequence q :: rest) (hw : Waiting s waiting) (hf : isFree s (seqChip q) = true) :
    step s = .next (beginSequence q (atWork s (seqChip q) (waiting ++ rest))) :=
  step_ready hp hw (.inl ⟨hf, .inr (.inl ⟨q, rfl, rfl⟩)⟩)

/-! ### What a controller's turn can do -/

/-- A controller without a sequence does nothing. -/
theorem proceed_none {c : Chip} {s : State} (h : (ioOf s c).running = none) : proceed c s = .next s := by
  unfold proceed
  rw [h]

/-- A controller's turn: its operation, then what its answer makes of the sequence. -/
theorem proceed_some {c : Chip} {s t : State} {r : SeqRun} (h : (ioOf s c).running = some r)
    (ht : performStep c r s = .next t) : proceed c s = .next (carryOn c r t) := by
  unfold proceed
  rw [h]
  simp only [ht]

/-- The fault code of a status word. -/
theorem statusCode_iff (w : Word) : statusCode w = 0 ↔ w.toNat % 2 ^ 8 = 0 := by
  unfold statusCode
  constructor
  · intro h
    have := congrArg BitVec.toNat h
    simpa using this
  · intro h
    apply BitVec.eq_of_toNat_eq
    simpa using h

/-- While its operation waits for its transfer, the controller waits too. -/
theorem carryOn_busy {c : Chip} {r : SeqRun} {t : State} (h : isBusy t c = true) : carryOn c r t = t := if_pos h

/-- A fault ends the sequence, and the caller has it; else the sequence goes on. -/
theorem carryOn_answered {c : Chip} {r : SeqRun} {t : State} {a : Answer} (h : isBusy t c = false)
    (ha : (ioOf t c).result = some a) :
    carryOn c r t = if a.status.toNat % 2 ^ 8 = 0 then goOnward c (follow r a.words) t else returning c a t := by
  have hb : ¬ (ioOf t c).busy = true := by simpa [isBusy] using h
  unfold carryOn lastAnswer breakOff
  rw [if_neg hb, ha]
  simp only [Option.getD_some, ne_eq, statusCode_iff, ite_not]
  rfl

/-- What a step of a sequence is, from what its operation and its successor are. -/
theorem stepIs_of {c : Chip} {r : SeqRun} {run : State → Host.Outcome State Fault Refusal}
    {after : List Word → State → State} (hr : ∀ w, performStep c r w = run w)
    (ha : ∀ ws t, goOnward c (follow r ws) t = after ws t) : StepIs c r run after := by
  intro s t waiting rest hp hw hb hs ht
  have hp' : proceed c (atWork s c (waiting ++ rest)) = .next (carryOn c r t) :=
    proceed_some (by simpa using hs) (by rw [hr]; exact ht)
  rw [step_proceed hp hw hb, hp']
  refine ⟨fun hbt => by rw [carryOn_busy hbt], fun a hbt hat => ?_⟩
  rw [carryOn_answered hbt hat, ha]

/-- An answer in the port of the instance at work is what stands there. -/
theorem result_answer {s : State} {c : Chip} (h : s.turn = c) (ws : List Word) :
    (ioOf (answer s ws) c).result = some (okAnswer ws) := by
  subst h
  simp [answer, ioOf_withResult, okAnswer]

theorem result_deliver {s : State} {c : Chip} (h : s.turn = c) (e : Raised) :
    (ioOf (deliver e s) c).result = some (faultAnswer e) := by
  subst h
  simp [deliver, ioOf_withResult, faultAnswer]

/-- An answer shows no fault, and a fault shows its code, which is none of success (rules R104 and R271). -/
theorem okAnswer_status (ws : List Word) : (okAnswer ws).status.toNat % 2 ^ 8 = 0 := by
  rw [← statusCode_iff]
  exact statusWord_low ..

theorem faultAnswer_status (e : Raised) : (faultAnswer e).status.toNat % 2 ^ 8 ≠ 0 := by
  rw [ne_eq, ← statusCode_iff]
  have : statusCode (faultAnswer e).status = faultCode e.fault := statusWord_low ..
  rw [this]
  cases e.fault <;> decide

/-- An operation of a sequence that succeeds: the sequence goes on. -/
theorem carryOn_answer {c : Chip} {r : SeqRun} {s : State} (ht : s.turn = c) (hb : isBusy s c = false) (ws : List Word) :
    carryOn c r (answer s ws) = goOnward c (follow r ws) (answer s ws) := by
  rw [carryOn_answered (by simpa using hb) (result_answer ht ws), if_pos (okAnswer_status ws)]
  rfl

/-- An operation of a sequence that raises a fault: the sequence ends with it. -/
theorem carryOn_deliver {c : Chip} {r : SeqRun} {s : State} (ht : s.turn = c) (hb : isBusy s c = false) (e : Raised) :
    carryOn c r (deliver e s) = endedBy c e s := by
  rw [carryOn_answered (by simpa using hb) (result_deliver ht e), if_neg (faultAnswer_status e)]
  subst ht
  simp [returning, endedBy, deliver, withResult, faultAnswer]

/-- The beginning of a sequence: its first step, its result, or the fault of its own checks. -/
theorem beginSequence_ok {q : Sequence} {s : State} {o : Onward} (h : openSequence q s = .ok o) :
    beginSequence q s = goOnward (seqChip q) o s := by
  simp [beginSequence, h]

theorem beginSequence_error {q : Sequence} {s : State} {e : Raised} (h : openSequence q s = .error e)
    (ht : s.turn = seqChip q) : beginSequence q s = endedBy (seqChip q) e s := by
  unfold beginSequence breakOff
  rw [h]
  simp [← ht, endedBy, deliver, withResult, faultAnswer]

/-! ### Several turns in a row -/

theorem waiting_nil (s : State) : Waiting s [] := by
  intro e he
  cases he

theorem steps_next {s t : State} {n : Nat} (h : step s = .next t) : steps (n + 1) s = steps n t := by
  simp [steps, h]

/-- One of several turns: its operation, then what its answer makes of the sequence. -/
theorem steps_turn {s t : State} {c : Chip} {n : Nat} {rest : List Event} {r : SeqRun} (hp : s.port = .proceed c :: rest)
    (hb : isBusy s c = false) (hr : (ioOf s c).running = some r) (h : performStep c r (atWork s c rest) = .next t) :
    steps (n + 1) s = steps n (carryOn c r t) :=
  steps_next ((step_proceed (waiting := []) hp (waiting_nil s) hb).trans (proceed_some (by simpa using hr) h))

/-- One of several turns whose operation succeeds. -/
theorem steps_answer {s v : State} {c : Chip} {n : Nat} {rest : List Event} {r : SeqRun} {ws : List Word}
    (hp : s.port = .proceed c :: rest) (hb : isBusy s c = false) (hr : (ioOf s c).running = some r)
    (h : performStep c r (atWork s c rest) = .next (answer v ws)) (hv : v.turn = c) (hvb : isBusy v c = false) :
    steps (n + 1) s = steps n (goOnward c (follow r ws) (answer v ws)) := by
  rw [steps_turn hp hb hr h, carryOn_answer hv hvb]

/-- One of several turns whose operation raises a fault. -/
theorem steps_deliver {s v : State} {c : Chip} {n : Nat} {rest : List Event} {r : SeqRun} {e : Raised}
    (hp : s.port = .proceed c :: rest) (hb : isBusy s c = false) (hr : (ioOf s c).running = some r)
    (h : performStep c r (atWork s c rest) = .next (deliver e v)) (hv : v.turn = c) (hvb : isBusy v c = false) :
    steps (n + 1) s = steps n (endedBy c e v) := by
  rw [steps_turn hp hb hr h, carryOn_deliver hv hvb]

/-- The turns left over when the sequence has ended do nothing. -/
theorem steps_idle {s : State} {c : Chip} {n : Nat} {rest : List Event}
    (hp : s.port = List.replicate n (.proceed c) ++ rest) (hf : isFree s c = true) (ht : s.turn = c)
    (hr : s.calRace = none) : steps n s = .next (atWork s c rest) := by
  induction n generalizing s with
  | zero =>
    have hp' : s.port = rest := hp
    subst ht hp'
    exact congrArg Host.Outcome.next (by unfold atWork; rw [← hr])
  | succ n ih =>
    obtain ⟨hb, hn⟩ := (isFree_iff s c).mp hf
    rw [List.replicate_succ, List.cons_append] at hp
    have h : step s = .next (atWork s c (List.replicate n (.proceed c) ++ rest)) :=
      (step_proceed (waiting := []) hp (waiting_nil s) hb).trans (proceed_none (by simpa using hn))
    rw [steps_next h, ih rfl (by rw [isFree_iff]; exact ⟨by simpa [isBusy] using hb, by simpa using hn⟩) rfl rfl]
    rfl

end Sys2Proof.Machine
end

