-- ==== Sys2Proof/Tests/Slice0.lean ====
section
/-! SUPPORT. The tests: each ill-formed term is refused, each row's words decode, one or two steps of each instruction give
what spec/95_test_vectors.md says (its number stands in the test's comment), and every statement's hypotheses can be met. -/

namespace Sys2Proof.Tests
set_option Elab.async false
open Sys2Proof Sys2Proof.Config Sys2Proof.Machine

/-! ### Small states -/

/-- A calibration cell. -/
def cell (gain offset : Word) : Option CalPair := some { gain := gain, offset := offset }

/-- The calibration table of the vectors' section 4, as the persistent store delivers it. -/
def store : CalTable :=
  { adc := [none, cell 0x01004000 0xFFFF8000, none, cell 0x7F000000 0x7F000000, cell 1 0, none, none, none, none,
      cell 0x00800000 0x00400000]
    dac := [none, none, none, cell 0x01000000 0, cell 0x00FF8000 0x00010000, cell 0 0, cell 0xFF000000 0x05000000]
    tc := [cell 0x01000000 0] }

/-- The state after reset with that table. -/
def start : State := State.resetWith refProfiles store

/-- A state with some ADC fields set to values, in a mode. -/
def adcIn (fields : List (Byte × Byte)) (mode : Mode) (pulseDone : Bool) : State :=
  { commitFields .adc fields start with adcConv := { mode := mode, pulseDone := pulseDone } }

/-- `ST1` of the vectors: configured for continuous mode. -/
def st1 : State := adcIn [(0, 0), (1, 4), (2, 2)] .configuring false
/-- `ST2`: converting in continuous mode. -/
def st2 : State := adcIn [(0, 0), (1, 4), (2, 2)] .converting false
/-- `ST3`: converting in pulse mode. -/
def st3 : State := adcIn [(0, 1), (1, 4), (2, 2)] .converting false
/-- `ST4`: a pulse conversion is done. -/
def st4 : State := adcIn [(0, 1), (1, 4), (2, 2)] .idle true

/-- A command presented, with the transport's answers. -/
def given (s : State) (w : Word) (ws : List Word) (replies : List Reply) : State :=
  { s with port := [.present (.command w ws)], replies := replies }

/-- A frame handed over, with the transport's answers. -/
def handed (s : State) (c : Chip) (f : Frame) (replies : List Reply) : State :=
  { s with port := [.present (.frame c f)], replies := replies }

/-- So many answers of ten zero bytes. -/
def zeros (k : Nat) : List Reply := List.replicate k (.answered (List.replicate 10 0))

/-- The status word, the result words and the frames of one step; `none` where it does not answer a next state. -/
def seen (s : State) : Option (Word × List Word × List Frame) :=
  match step s with
  | .next t => match shown t with
    | some a => some (a.status, a.words, t.tx.map (·.2))
    | none => none
  | _ => none

/-- The ADC's conversion state after one step. -/
def convAfter (s : State) : Option ConvState :=
  match step s with
  | .next t => some t.adcConv
  | _ => none

/-- The ADC's mirror, mask and stale bit after one step. -/
def cfgAfter (s : State) : Option CfgInstance :=
  match step s with
  | .next t => some t.adc
  | _ => none

/-- A step that answers status `OK` with some words and some frames. -/
def okWith (ws : List Word) (frames : List Frame) : Option (Word × List Word × List Frame) :=
  some (BitVec.ofNat 32 (65536 * ws.length), ws, frames)

/-- A step that answers a fault: code, info, and some frames. -/
def faultWith (code info : Nat) (frames : List Frame) : Option (Word × List Word × List Frame) :=
  some (BitVec.ofNat 32 (256 * info + code), [], frames)

/-! ### What WellFormed refuses -/

theorem test_refused_buildWrite_count :
    (.buildWrite .adc 0 (List.replicate 512 0) : Instr).wellFormed refProfiles = false :=
  by decide +kernel

theorem test_refused_parseRead_length :
    ∀ raw : Frame, raw.length = 2 ^ 32 → (Instr.parseRead .adc 1 raw).wellFormed refProfiles = false :=
  fun raw h => by simp [Instr.wellFormed, h]

theorem test_refused_cfgDiff_count :
    (.cfgDiff .adc (List.replicate 512 { field := 0, value := 0 }) : Instr).wellFormed refProfiles = false :=
  by decide +kernel

theorem test_refused_cfgCommit_count :
    (.cfgCommit .adc (List.replicate 512 { field := 0, value := 0 }) : Instr).wellFormed refProfiles = false :=
  by decide +kernel

theorem test_refused_setConfig_count :
    (.setConfig .adc (List.replicate 512 { field := 0, value := 0 }) : Instr).wellFormed refProfiles = false :=
  by decide +kernel

theorem test_refused_cfgLoad_count :
    (.cfgLoad .adc (List.replicate 512 { reg := 0, byte := 0 }) : Instr).wellFormed refProfiles = false :=
  by decide +kernel

/-- The reference profile with other ADC register opcodes, which the rows `001aaaaa` and `010aaaaa` do not fit. -/
def otherOps : Profiles := { refProfiles with adc := { refAdc with opRreg := 0x60, opWreg := 0x80 } }

/-- The reference profile with no ADC commands. -/
def noCommands : Profiles :=
  { refProfiles with adc := { refAdc with opNop := none, opReset := none, nunits := 0 } }

theorem test_refused_wRreg_none : (.wRreg 0x1F [] : Instr).wellFormed refProfiles = false := by decide +kernel

theorem test_refused_wRreg_many :
    (.wRreg 0x1F (List.replicate 257 0) : Instr).wellFormed refProfiles = false :=
  by decide +kernel

theorem test_refused_wRreg_address : (.wRreg 0x3F [0] : Instr).wellFormed refProfiles = false := by decide +kernel

theorem test_refused_wRreg_refRow : (.wRreg 0x1A [0] : Instr).wellFormed refProfiles = false := by decide +kernel

theorem test_refused_wRregRefAdc_address :
    (.wRregRefAdc 0x1B 0 : Instr).wellFormed refProfiles = false :=
  by decide +kernel

theorem test_refused_wRregRefAdc_profile : (.wRregRefAdc 0 0 : Instr).wellFormed otherOps = false := by decide +kernel

theorem test_refused_wWreg_none : (.wWreg 0x1F [] : Instr).wellFormed refProfiles = false := by decide +kernel

theorem test_refused_wWreg_address : (.wWreg 0x3F [0] : Instr).wellFormed refProfiles = false := by decide +kernel

theorem test_refused_wWreg_refRow : (.wWreg 0x1A [0] : Instr).wellFormed refProfiles = false := by decide +kernel

theorem test_refused_wWregRefAdc_many :
    (.wWregRefAdc 0 (List.replicate 257 0) : Instr).wellFormed refProfiles = false :=
  by decide +kernel

theorem test_refused_wWregRefAdc_address :
    (.wWregRefAdc 0x1B [0] : Instr).wellFormed refProfiles = false :=
  by decide +kernel

theorem test_refused_wWregRefAdc_profile :
    (.wWregRefAdc 0 [0] : Instr).wellFormed otherOps = false :=
  by decide +kernel

theorem test_refused_wTcRead_none : (.wTcRead 0 [] : Instr).wellFormed refProfiles = false := by decide +kernel

theorem test_refused_wTcRead_address : (.wTcRead 0x10 [0] : Instr).wellFormed refProfiles = false := by decide +kernel

theorem test_refused_wTcWrite_none : (.wTcWrite 0x80 [] : Instr).wellFormed refProfiles = false := by decide +kernel

theorem test_refused_wTcWrite_address :
    (.wTcWrite 0x8C [0] : Instr).wellFormed refProfiles = false :=
  by decide +kernel

theorem test_refused_wStart1_profile : (.wStart1 : Instr).wellFormed noCommands = false := by decide +kernel

theorem test_refused_wStart2_profile : (.wStart2 : Instr).wellFormed noCommands = false := by decide +kernel

theorem test_refused_wStop1_profile : (.wStop1 : Instr).wellFormed noCommands = false := by decide +kernel

theorem test_refused_wStop2_profile : (.wStop2 : Instr).wellFormed noCommands = false := by decide +kernel

theorem test_refused_wReset_profile : (.wReset : Instr).wellFormed noCommands = false := by decide +kernel

theorem test_refused_wNop_profile : (.wNop : Instr).wellFormed noCommands = false := by decide +kernel

theorem test_refused_wSelfcal1_profile : (.wSelfcal1 : Instr).wellFormed noCommands = false := by decide +kernel

theorem test_refused_wSelfcal2_profile : (.wSelfcal2 : Instr).wellFormed noCommands = false := by decide +kernel

theorem test_refused_wRdata1_profile : (.wRdata1 : Instr).wellFormed noCommands = false := by decide +kernel

theorem test_refused_wRdata2_profile : (.wRdata2 : Instr).wellFormed noCommands = false := by decide +kernel

theorem test_refused_wDacFrame_wrupd : (.wDacFrame 3 0 0 : Instr).wellFormed refProfiles = false := by decide +kernel

/-! ### Which profiles are refused (rules R8 and R9) -/

theorem test_profile_reference : profilesOk refProfiles = true ∧ decodeOk refAdc = true := by decide +kernel

theorem test_profile_other : profilesOk otherOps = true := by decide +kernel

theorem test_profile_opcodeOverlap :
    profilesOk { refProfiles with adc := { refAdc with opRreg := 0x21 } } = false :=
  by decide +kernel

theorem test_profile_sameOpcodes :
    profilesOk { refProfiles with adc := { refAdc with opWreg := 0x20 } } = false :=
  by decide +kernel

theorem test_profile_twoMaps :
    profilesOk { refProfiles with adc := { refAdc with validWr := byteRun 0 26 } } = false :=
  by decide +kernel

theorem test_profile_waddr :
    profilesOk { refProfiles with adc := { refAdc with waddr := [(0, 1)] } } = false :=
  by decide +kernel

theorem test_profile_raddr :
    profilesOk { refProfiles with adc := { refAdc with raddr := [(0, 1)] } } = false :=
  by decide +kernel

theorem test_profile_commandIsFrame :
    profilesOk { refProfiles with adc := { refAdc with opReset := some 0x26 } } = false :=
  by decide +kernel

theorem test_profile_noReference :
    profilesOk { refProfiles with adc := { refAdc with vref := 0 } } = false :=
  by decide +kernel

theorem test_profile_sameModes :
    profilesOk { refProfiles with adc := { refAdc with pulse := 0 } } = false :=
  by decide +kernel

theorem test_profile_illegalMode :
    profilesOk { refProfiles with adc := { refAdc with pulse := 2 } } = false :=
  by decide +kernel

theorem test_profile_requiredNoField :
    profilesOk { refProfiles with adc := { refAdc with required := [9] } } = false :=
  by decide +kernel

theorem test_profile_zeroGain :
    profilesOk { refProfiles with adc := { refAdc with gainValue := [(0, 0)] } } = false :=
  by decide +kernel

theorem test_profile_dacMap :
    profilesOk { refProfiles with dac := { refDac with validWr := [0] } } = false :=
  by decide +kernel

theorem test_profile_dacReference :
    profilesOk { refProfiles with dac := { refDac with vref := 0 } } = false :=
  by decide +kernel

theorem test_profile_tcOpcode :
    profilesOk { refProfiles with tc := { refTc with opRreg := 1 } } = false :=
  by decide +kernel

theorem test_profile_tcMaps :
    profilesOk { refProfiles with tc := { refTc with validRd := [0x80] } } = false :=
  by decide +kernel

theorem test_profile_tcCommand :
    profilesOk { refProfiles with tc := { refTc with opNop := some 0 } } = false :=
  by decide +kernel

theorem test_profile_tcNoBits :
    profilesOk { refProfiles with tc := { refTc with cjBits := 0 } } = false :=
  by decide +kernel

theorem test_profile_tcManyBits :
    profilesOk { refProfiles with tc := { refTc with cjBits := 17 } } = false :=
  by decide +kernel

/-- A field of the TC, for the checks of one field. -/
def oneField (f : FieldSpec) : Profiles := { refProfiles with tc := { refTc with fields := f :: fixTc } }
/-- A field that passes every check. -/
def goodField : FieldSpec := { id := 0x20, reg := 2, hi := 3, lo := 2, legal := [0, 3], dflt := 3 }

theorem test_field_good : profilesOk (oneField goodField) = true := by decide +kernel

theorem test_field_upsideDown : profilesOk (oneField { goodField with hi := 1 }) = false := by decide +kernel

theorem test_field_tooHigh : profilesOk (oneField { goodField with hi := 8 }) = false := by decide +kernel

theorem test_field_default : profilesOk (oneField { goodField with dflt := 1 }) = false := by decide +kernel

theorem test_field_tooWide : profilesOk (oneField { goodField with legal := [3, 4] }) = false := by decide +kernel

theorem test_field_unwritable : profilesOk (oneField { goodField with reg := 0x0C }) = false := by decide +kernel

theorem test_field_unreadable : profilesOk (oneField { goodField with reg := 0x10 }) = false := by decide +kernel

theorem test_field_sameId : profilesOk (oneField { goodField with id := 5 }) = false := by decide +kernel

theorem test_field_overlap : profilesOk (oneField { goodField with reg := 1 }) = false := by decide +kernel

theorem test_field_reserved :
    profilesOk { oneField goodField with tc := { (oneField goodField).tc with reserved := [(2, 4)] } } = false :=
  by decide +kernel

theorem test_decode_mask : decodeOk { refAdc with opMask := 0xC0 } = false := by decide +kernel

theorem test_decode_commandByte : decodeOk { refAdc with opReset := some 0x3F } = false := by decide +kernel

theorem test_decode_twice : decodeOk { refAdc with opReset := some 0x08 } = false := by decide +kernel

/-! ### Decoding: words and frames written out from rules R91 to R96, R102 and R105 -/

theorem test_decode_buildRead : decodeCommand 0x08020500 [] = .ok (.buildRead .adc 2 0x05) := rfl

theorem test_decode_buildWrite :
    decodeCommand 0x14028000 [0x00009000, 0x00000300] = .ok (.buildWrite .tc 0x80 [0x00009000, 0x00000300]) :=
  rfl

theorem test_decode_buildStart : decodeCommand 0x18020000 [] = .ok (.buildStart .adc 2) := rfl

theorem test_decode_buildStop : decodeCommand 0x20010000 [] = .ok (.buildStop .adc 1) := rfl

theorem test_decode_buildReset : decodeCommand 0x2C000000 [] = .ok (.buildReset .tc) := rfl

theorem test_decode_buildNop : decodeCommand 0x30000000 [] = .ok (.buildNop .adc) := rfl

theorem test_decode_buildSelfcal : decodeCommand 0x39FF0000 [] = .ok (.buildSelfcal .adc 0x1FF) := rfl

theorem test_decode_buildRdata : decodeCommand 0x44010000 [] = .ok (.buildRdata .tc 1) := rfl

theorem test_decode_parseRead :
    decodeCommand 0x48020000 [3, 0xFF, 0xFE, 4] = .ok (.parseRead .adc 2 [0xFF, 0xFE, 4]) :=
  rfl

theorem test_decode_dacFrame : decodeCommand 0x5200070F [0xABCD] = .ok (.dacFrame 0x0F 7 0xABCD) := rfl

theorem test_decode_dacWrupd : decodeCommand 0x5A000300 [0x3E8] = .ok (.dacWrupd 3 1000) := rfl

theorem test_decode_adcAsm : decodeCommand 0x60000000 [0x80, 1, 2] = .ok (.adcAsm 0x80 1 2) := rfl

theorem test_decode_cfgDiff :
    decodeCommand 0x68020000 [0x01000004, 0x04000002] = .ok (.cfgDiff .adc [{ field := 1, value := 4 }, { field := 4, value := 2 }]) :=
  rfl

theorem test_decode_cfgCommit :
    decodeCommand 0x72010000 [0xFF800001] = .ok (.cfgCommit .dac [{ field := 0xFF, value := 0x800001 }]) :=
  rfl

theorem test_decode_setConfig : decodeCommand 0x7C000000 [] = .ok (.setConfig .tc []) := rfl

theorem test_decode_startConv : decodeCommand 0x84010000 [] = .ok (.startConv .tc 1) := rfl

theorem test_decode_stopConv : decodeCommand 0x88010000 [] = .ok (.stopConv .adc 1) := rfl

theorem test_decode_convDone : decodeCommand 0x94000000 [] = .ok (.convDone .tc) := rfl

theorem test_decode_readCont : decodeCommand 0x98010000 [] = .ok (.readCont .adc 1) := rfl

theorem test_decode_readPulse : decodeCommand 0xA4010000 [] = .ok (.readPulse .tc 1) := rfl

theorem test_decode_mirrorReset : decodeCommand 0xAA000000 [] = .ok (.mirrorReset .dac) := rfl

theorem test_decode_cfgLoad :
    decodeCommand 0xB0010000 [0x0340] = .ok (.cfgLoad .adc [{ reg := 3, byte := 0x40 }]) :=
  rfl

theorem test_decode_cfgReassert : decodeCommand 0xBC000000 [] = .ok (.cfgReassert .tc) := rfl

theorem test_decode_calGet : decodeCommand 0xC0000900 [] = .ok (.calGet .adc 9) := rfl

theorem test_decode_calSet : decodeCommand 0xCA000300 [0x01000000, 7] = .ok (.calSet .dac 3 0x01000000 7) := rfl

theorem test_decode_adcCode2v : decodeCommand 0xD0200000 [4] = .ok (.adcCode2v 32 4) := rfl

theorem test_decode_calApply : decodeCommand 0xDC000000 [5] = .ok (.calApply .tc 0 5) := rfl

theorem test_decode_dacV2code : decodeCommand 0xE2000300 [6] = .ok (.dacV2code 3 6) := rfl

theorem test_decode_dacCode2v : decodeCommand 0xEA000400 [7] = .ok (.dacCode2v 4 7) := rfl

theorem test_decode_tcCode2t : decodeCommand 0xF4000000 [1, 2, 3, 4, 5] = .ok (.tcCode2t 1 2 3 4 5) := rfl

theorem test_decode_reservedOp00 : decodeCommand 0x07FFFFFF [9] = .ok (.reservedOp00 0x7FFFFFF [9]) := rfl

theorem test_decode_reservedOp1f : decodeCommand 0xF8000001 [] = .ok (.reservedOp1f 1 []) := rfl

/-- Vectors VD3 to VD12. -/
theorem test_malformed_reservedChip : decodeCommand 0x0E020500 [] = .error .reservedChip := rfl

/-- Vectors VD3 to VD12. -/
theorem test_malformed_dacChip : decodeCommand 0x0A020500 [] = .error .chipNotListed := rfl

/-- Vectors VD3 to VD12. -/
theorem test_malformed_aux : decodeCommand 0x08020501 [] = .error .nonzeroField := rfl

/-- Vectors VD3 to VD12. -/
theorem test_malformed_count : decodeCommand 0x28010000 [] = .error .nonzeroField := rfl

/-- Vectors VD3 to VD12. -/
theorem test_malformed_asmLength : decodeCommand 0x60000000 [0x40, 0] = .error .payloadLength := rfl

/-- Vectors VD3 to VD12. -/
theorem test_malformed_asmByte : decodeCommand 0x60000000 [0x140, 0, 0] = .error .byteWordHigh := rfl

/-- Vectors VD3 to VD12. -/
theorem test_malformed_startDac : decodeCommand 0x82010000 [] = .error .chipNotListed := rfl

/-- Vectors VD3 to VD12. -/
theorem test_malformed_dacOnAdc : decodeCommand 0x50000303 [0x3E8] = .error .chipNotListed := rfl

/-- Vectors VD3 to VD12. -/
theorem test_malformed_writeLength : decodeCommand 0x10020500 [0x400] = .error .payloadLength := rfl

/-- Vectors VD3 to VD12. -/
theorem test_malformed_regWord : decodeCommand 0xB0010000 [0x10340] = .error .regWordHigh := rfl

theorem test_decode_wRreg : decodeFrame otherOps .adc [0x65, 0x01, 0, 0] = .ok (.wRreg 0x05 [0, 0]) := rfl

theorem test_decode_wRregRefAdc :
    decodeFrame refProfiles .adc [0x25, 0x01, 0, 0] = .ok (.wRregRefAdc 0x05 0x01) :=
  rfl

theorem test_decode_wWreg : decodeFrame otherOps .adc [0x85, 0x00, 0x24] = .ok (.wWreg 0x05 [0x24]) := rfl

theorem test_decode_wWregRefAdc :
    decodeFrame refProfiles .adc [0x45, 0x00, 0x24] = .ok (.wWregRefAdc 0x05 [0x24]) :=
  rfl

theorem test_decode_wTcRead : decodeFrame refProfiles .tc [0x0A, 0, 0] = .ok (.wTcRead 0x0A [0, 0]) := rfl

theorem test_decode_wTcWrite :
    decodeFrame refProfiles .tc [0x80, 0x90, 0x03] = .ok (.wTcWrite 0x80 [0x90, 0x03]) :=
  rfl

theorem test_decode_wStart1 : decodeFrame refProfiles .adc [0x08] = .ok (.wStart1) := rfl

theorem test_decode_wStart2 : decodeFrame refProfiles .adc [0x0C] = .ok (.wStart2) := rfl

theorem test_decode_wStop1 : decodeFrame refProfiles .adc [0x0A] = .ok (.wStop1) := rfl

theorem test_decode_wStop2 : decodeFrame refProfiles .adc [0x0E] = .ok (.wStop2) := rfl

theorem test_decode_wReset : decodeFrame refProfiles .adc [0x06] = .ok (.wReset) := rfl

theorem test_decode_wNop : decodeFrame refProfiles .adc [0x00] = .ok (.wNop) := rfl

theorem test_decode_wSelfcal1 : decodeFrame refProfiles .adc [0x19] = .ok (.wSelfcal1) := rfl

theorem test_decode_wSelfcal2 : decodeFrame refProfiles .adc [0x1E] = .ok (.wSelfcal2) := rfl

theorem test_decode_wRdata1 : decodeFrame refProfiles .adc [0x12, 0, 0, 0] = .ok (.wRdata1) := rfl

theorem test_decode_wRdata2 : decodeFrame refProfiles .adc [0x14, 0, 0, 0] = .ok (.wRdata2) := rfl

theorem test_decode_wDacFrame :
    decodeFrame refProfiles .dac [0xF7, 0xAB, 0xCD] = .ok (.wDacFrame 0x0F 0x07 0xABCD) :=
  rfl

theorem test_decode_wDacWrupd : decodeFrame refProfiles .dac [0x33, 0x03, 0xE8] = .ok (.wDacWrupd 3 1000) := rfl

theorem test_table_dacWrupd : decodeTableWord 24 0x350000 = some (.wDacWrupd 5 0) := rfl

theorem test_table_buildRead : decodeTableWord 32 0x08020500 = some (.buildRead .adc 2 0x05) := rfl

theorem test_table_start2 : decodeTableWord 8 0x0C = some .wStart2 := rfl

/-! ### Steps -/

/-- VA1. -/
theorem test_step_buildRead : seen (given start 0x08020500 [] []) = okWith [4, 0x25, 1, 0, 0] [] := by decide +kernel

/-- VA7. -/
theorem test_step_buildRead_fault : seen (given start 0x08021A00 [] []) = faultWith 0x01 0x1B [] := by decide +kernel

/-- VA22. -/
theorem test_step_buildWrite :
    seen (given start 0x10030300 [0x4000, 0x8000, 0x400] []) = okWith [5, 0x43, 2, 0x40, 0x80, 0x04] [] :=
  by decide +kernel

/-- VA29. -/
theorem test_step_buildWrite_fault :
    seen (given start 0x10030500 [0x700, 0x12C00, 0x80] []) = faultWith 0x03 1 [] :=
  by decide +kernel

/-- VA33. -/
theorem test_step_buildStart : seen (given start 0x18020000 [] []) = okWith [1, 0x0C] [] := by decide +kernel

/-- VA34. -/
theorem test_step_buildStart_fault : seen (given start 0x18030000 [] []) = faultWith 0x11 3 [] := by decide +kernel

/-- VA38. -/
theorem test_step_buildStop : seen (given start 0x20020000 [] []) = okWith [1, 0x0E] [] := by decide +kernel

/-- VA39. -/
theorem test_step_buildReset : seen (given start 0x28000000 [] []) = okWith [1, 0x06] [] := by decide +kernel

/-- VA40. -/
theorem test_step_buildReset_fault : seen (given start 0x2C000000 [] []) = faultWith 0x11 0 [] := by decide +kernel

/-- VA41. -/
theorem test_step_buildNop : seen (given start 0x30000000 [] []) = okWith [1, 0x00] [] := by decide +kernel

/-- VA43. -/
theorem test_step_buildSelfcal : seen (given start 0x38020000 [] []) = okWith [1, 0x1E] [] := by decide +kernel

/-- VA45. -/
theorem test_step_buildRdata : seen (given start 0x40020000 [] []) = okWith [4, 0x14, 0, 0, 0] [] := by decide +kernel

/-- VA10. -/
theorem test_step_parseRead :
    seen (given start 0x4C050000 [6, 0x0D, 0x88, 0, 0xC0, 0, 0] []) = okWith [5, 0x88, 0, 0xC0, 0, 0] [] :=
  by decide +kernel

/-- VA11. -/
theorem test_step_parseRead_fault :
    seen (given start 0x48020000 [3, 0xFF, 0xFF, 4] []) = faultWith 0x05 3 [] :=
  by decide +kernel

/-- VA19. -/
theorem test_step_dacFrame :
    seen (given start 0x5200070F [0xABCD] []) = okWith [3, 0xF7, 0xAB, 0xCD] [] :=
  by decide +kernel

/-- VA20. -/
theorem test_step_dacFrame_fault : seen (given start 0x52000010 [0] []) = faultWith 0x03 0 [] := by decide +kernel

/-- VA13. -/
theorem test_step_dacWrupd :
    seen (given start 0x5A000500 [0x3E8] []) = okWith [3, 0x35, 0x03, 0xE8] [] :=
  by decide +kernel

/-- VA18. -/
theorem test_step_dacWrupd_fault :
    seen (given start 0x5A000000 [0x10000] []) = faultWith 0x03 1 [] :=
  by decide +kernel

/-- VA48. -/
theorem test_step_adcAsm : seen (given start 0x60000000 [0x80, 0, 0] []) = okWith [0xFF800000] [] := by decide +kernel

/-- VB1. -/
theorem test_step_cfgDiff :
    seen (given start 0x68020000 [0x01000004, 0x04000002] []) = okWith [0x04000002] [] :=
  by decide +kernel

/-- VB32. -/
theorem test_step_cfgCommit :
    (cfgAfter (given start 0x70010000 [0x04000002] [])).map (fun x => (bankGet x.mirror 4, isSet x.setMask 4, isSet x.setMask 1)) =
      some (some 2, true, false) :=
  by decide +kernel

/-- VB6. -/
theorem test_step_setConfig :
    seen (given (adcIn [(1, 4), (4, 2), (2, 5), (3, 10)] .configuring false) 0x78030000 [0x06000002, 0x00000001, 0x07000001] (zeros 3)) =
      okWith [0x06000002, 0x00000001, 0x07000001] [[0x43, 0x00, 0x40], [0x44, 0x00, 0x40], [0x4D, 0x00, 0x01]] :=
  by decide +kernel

/-- VB37. -/
theorem test_step_setConfig_fails :
    (cfgAfter (given start 0x78030000 [0x00000001, 0x04000003, 0x02000005] [.answered [], .failed])).map
        (fun x => (x.stale, bankGet x.mirror 0, isSet x.setMask 0, bankGet x.mirror 4, isSet x.setMask 4)) =
      some (true, some 1, true, some 0, false) :=
  by decide +kernel

/-- VB11. -/
theorem test_step_startConv : seen (given st1 0x80010000 [] (zeros 1)) = okWith [] [[0x08]] := by decide +kernel

/-- VB9. -/
theorem test_step_startConv_fault : seen (given start 0x80010000 [] []) = faultWith 0x06 1 [] := by decide +kernel

/-- VB19. -/
theorem test_step_stopConv :
    convAfter (given st2 0x88010000 [] (zeros 1)) = some { mode := .idle, pulseDone := false } :=
  by decide +kernel

/-- VB22. -/
theorem test_step_convDone :
    convAfter (given st3 0x90000000 [] []) = some { mode := .idle, pulseDone := true } :=
  by decide +kernel

/-- VB18. -/
theorem test_step_convDone_ignored :
    convAfter (given st2 0x90000000 [] []) = some { mode := .converting, pulseDone := false } :=
  by decide +kernel

/-- VB15. -/
theorem test_step_readCont :
    seen (given st2 0x98010000 [] [.answered [0x00, 0x40, 0x00, 0x00]]) = okWith [3, 0x40, 0, 0] [[0x12, 0, 0, 0]] :=
  by decide +kernel

/-- VB20. -/
theorem test_step_readCont_fault : seen (given st3 0x98010000 [] []) = faultWith 0x07 0 [] := by decide +kernel

/-- VB23. -/
theorem test_step_readPulse :
    seen (given st4 0xA0010000 [] [.answered [0x00, 0x80, 0x00, 0x00]]) = okWith [3, 0x80, 0, 0] [[0x12, 0, 0, 0]] :=
  by decide +kernel

/-- VB25. -/
theorem test_step_readPulse_short :
    seen (given st4 0xA0010000 [] [.answered [0x00, 0x80]]) = faultWith 0x05 2 [[0x12, 0, 0, 0]] :=
  by decide +kernel

/-- VB28. -/
theorem test_step_mirrorReset : cfgAfter (given st2 0xA8000000 [] []) = some (resetCfg refAdc) := by decide +kernel

/-- VB29. -/
theorem test_step_cfgLoad :
    (cfgAfter (given start 0xB0050000 [0x0340, 0x0480, 0x0524, 0x0621, 0x0D00] [])).map
        (fun x => (bankGet x.mirror 0, bankGet x.mirror 2, bankGet x.mirror 4, bankGet x.mirror 6, isSet x.setMask 4)) =
      some (some 1, some 2, some 2, some 4, false) :=
  by decide +kernel

/-- VB31. -/
theorem test_step_cfgLoad_fault :
    seen (given start 0xB0050000 [0x0340, 0x04E0, 0x0524, 0x0621, 0x0D00] []) = faultWith 0x12 6 [] :=
  by decide +kernel

/-- VB27. -/
theorem test_step_cfgReassert :
    seen (given start 0xB8000000 [] (zeros 5)) = okWith []
      [[0x43, 0, 0], [0x44, 0, 0x80], [0x45, 0, 0x04], [0x46, 0, 0x01], [0x4D, 0, 0]] :=
  by decide +kernel

/-- VC20. -/
theorem test_step_calGet :
    seen (given start 0xC0000100 [] []) = okWith [0x01004000, 0xFFFF8000] [] :=
  by decide +kernel

/-- VC23. -/
theorem test_step_calSet_fault :
    seen (given start 0xC8000C00 [0x01000000, 0] []) = faultWith 0x09 0x0C [] :=
  by decide +kernel

/-- VC4. -/
theorem test_step_adcCode2v :
    seen (given start 0xD0010000 [0x00800000] []) = okWith [0xFD800000] [] :=
  by decide +kernel

/-- VC9. -/
theorem test_step_adcCode2v_fault :
    seen (given start 0xD0030000 [0x00400000] []) = faultWith 0x12 4 [] :=
  by decide +kernel

/-- VC11. -/
theorem test_step_calApply :
    seen (given start 0xD8000100 [0x01400000] []) = okWith [0x013FD000] [] :=
  by decide +kernel

/-- VC17. -/
theorem test_step_calApply_fault :
    seen (given start 0xD8000300 [0x02000000] []) = faultWith 0x0A 0 [] :=
  by decide +kernel

/-- VC32. -/
theorem test_step_dacV2code :
    seen (given start 0xE2000400 [0x02800000] []) = okWith [0x0000800D] [] :=
  by decide +kernel

/-- VC33. -/
theorem test_step_dacV2code_fault :
    seen (given start 0xE2000500 [0x01000000] []) = faultWith 0x14 5 [] :=
  by decide +kernel

/-- VC41. -/
theorem test_step_dacCode2v :
    seen (given start 0xEA000400 [0x0000800D] []) = okWith [0x028000E0] [] :=
  by decide +kernel

/-- VC43. -/
theorem test_step_dacCode2v_fault :
    seen (given start 0xEA000300 [0x00010000] []) = faultWith 0x03 0 [] :=
  by decide +kernel

/-- VC52. -/
theorem test_step_tcCode2t :
    seen (given start 0xF4000000 [0x88, 0, 0xC0, 0, 0] []) = okWith [0xFFFFE200, 0xFFFE0000, 0xFF880000, 0xFC000000] [] :=
  by decide +kernel

/-- VD1. -/
theorem test_step_reservedOp00 : seen (given start 0x00000000 [] []) = faultWith 0x10 0 [] := by decide +kernel

/-- VD2. -/
theorem test_step_reservedOp1f : seen (given start 0xF8000000 [] []) = faultWith 0x10 0 [] := by decide +kernel

/-- VD4. -/
theorem test_step_malformed : seen (given start 0x0A020500 [] []) = faultWith 0x10 0 [] := by decide +kernel

/-- Rules R15, R97 and R322; log entry 7. -/
theorem test_step_wRregRefAdc :
    seen (handed start .adc [0x25, 0x01, 0, 0] [.answered [0xFF, 0xFE, 0x07, 0x09]]) = okWith [2, 7, 9] [[0x25, 0x01, 0, 0]] :=
  by decide +kernel

/-- Rules R15, R97 and R322; log entry 7. -/
theorem test_step_wWregRefAdc :
    seen (handed start .adc [0x45, 0x00, 0x24] [.answered [0, 0, 0]]) = okWith [] [[0x45, 0x00, 0x24]] :=
  by decide +kernel

/-- Rules R15, R97 and R322; log entry 7. -/
theorem test_step_wTcRead :
    seen (handed start .tc [0x0A, 0, 0] [.answered [0xFF, 5, 6]]) = okWith [2, 5, 6] [[0x0A, 0, 0]] :=
  by decide +kernel

/-- Rules R15, R97 and R322; log entry 7. -/
theorem test_step_wTcWrite :
    seen (handed start .tc [0x80, 0x90, 0x03] [.answered [0, 0, 0]]) = okWith [] [[0x80, 0x90, 0x03]] :=
  by decide +kernel

/-- Rules R15, R97 and R322; log entry 7. -/
theorem test_step_wReset : seen (handed start .adc [0x06] [.answered [0]]) = okWith [] [[0x06]] := by decide +kernel

/-- Rules R15, R97 and R322; log entry 7. -/
theorem test_step_wRdata1 :
    seen (handed start .adc [0x12, 0, 0, 0] [.answered [0, 0x7F, 1, 2]]) = okWith [3, 0x7F, 1, 2] [[0x12, 0, 0, 0]] :=
  by decide +kernel

/-- Rules R15, R97 and R322; log entry 7. -/
theorem test_step_wDacWrupd :
    seen (handed start .dac [0x33, 0x03, 0xE8] [.answered [0, 0, 0]]) = okWith [] [[0x33, 0x03, 0xE8]] :=
  by decide +kernel

/-- Rule R288; log entry 7. -/
theorem test_step_wDacFrame_fails :
    seen (handed start .dac [0xF7, 0xAB, 0xCD] [.failed]) = faultWith 0x20 0 [[0xF7, 0xAB, 0xCD]] :=
  by decide +kernel

/-- Rules R100 and R101; log entry 12. -/
theorem test_step_unknown_frame :
    seen (handed start .adc [0x90, 0x01] [.answered [5, 6]]) = okWith [] [[0x90, 0x01]] := by decide +kernel

/-- Rules R94, R95, R100 and R322; log entry 14: a read-data command of a third unit. -/
theorem test_step_further_unit :
    seen (handed { start with profile := { refProfiles with adc := { refAdc with
        nunits := 3, opRdata := [0x12, 0x14, 0x15] } } } .adc [0x15, 0, 0, 0] [.answered [0, 0x7F, 1, 2]]) =
      okWith [3, 0x7F, 1, 2] [[0x15, 0, 0, 0]] := by
  decide +kernel

/-- Rule R298: a transfer that never returns leaves its instance busy, the frame out and the others at work. -/
theorem test_step_hung_instance :
    ∃ t, step (given st1 0x80010000 [] [.never]) = .next t ∧
      (isBusy t .adc && !isBusy t .dac && t.tx == [(.adc, [0x08])] && t.adcConv == st1.adcConv) = true := by
  have h : (match step (given st1 0x80010000 [] [.never]) with
    | .next t => isBusy t .adc && !isBusy t .dac && t.tx == [(.adc, [0x08])] && t.adcConv == st1.adcConv
    | _ => false) = true := by decide +kernel
  cases hs : step (given st1 0x80010000 [] [.never]) with
  | next t => rw [hs] at h; exact ⟨t, rfl, h⟩
  | fault r => rw [hs] at h; cases h
  | refused r => rw [hs] at h; cases h

/-- Rules R310 to R312: constructing the ADC's instance resets it and leaves the DAC's calibration alone. -/
theorem test_step_construct :
    (match step { st2 with port := [.construct .adc [cell 1 2]] } with
      | .next t => t.adc == start.adc && t.adcConv == resetConv && calGet t.cal .adc 0 == cell 1 2 &&
          calGet t.cal .adc 1 == none && calCells t.cal .dac == calCells start.cal .dac && t.tx == []
      | _ => false) = true := by
  decide +kernel

/-- Rule R298: a process that ends takes what waits with it, a busy instance included; the frame it sent stays sent. -/
theorem test_step_restart :
    (match step { markBusy start .dac with
        port := [.present (.command 0xC2000000 []), .restart store, .present (.command 0x60000000 [0, 0, 0])]
        tx := [(.dac, [1])] } with
      | .next t => !isBusy t .dac && t.port == [.present (.command 0x60000000 [0, 0, 0])] && t.tx == [(.dac, [1])] &&
          t.cal == start.cal
      | _ => false) = true := by
  decide +kernel

/-! ### Sequences: one step each -/

/-- A state whose controller has this next to do, and its turn. -/
def inSequence (s : State) (c : Chip) (n : SeqStep) (entries : List Byte) (replies : List Reply) : State :=
  { goingOn c { unit := 1, next := n, entries := entries, out := [] } s with port := [.proceed c], replies := replies }

/-- A sequence asked for, with its own beginning as the step. -/
def asked (s : State) (q : Sequence) : State := { s with port := [.sequence q] }

/-- The status word on an instance's result port after one step, the status its caller has, and the sequence in progress. -/
def controlled (s : State) (c : Chip) : Option (Option Word × Option Word × Option SeqRun) :=
  match step s with
  | .next t => some ((ioOf t c).result.map (·.status), (ioOf t c).returned.map (·.status), (ioOf t c).running)
  | _ => none

/-- VQ1: after reset READ_VOLTAGE raises `ContinuousModeError`. -/
theorem test_sequence_idle :
    controlled (asked start (.readVoltage 2 none)) .adc = some (some 0x07, some 0x07, none) := by decide +kernel

/-- Rules R250 and R255: the unit is 1 where none is given. -/
theorem test_sequence_unit :
    controlled (asked start (.readTemperatures none)) .tc =
      some (none, none, some { unit := 1, next := .configure .tc [], entries := [], out := [] }) := by decide +kernel

/-- Rule R253: an illegal channel, an illegal rate, and nothing to read. -/
theorem test_sequence_batch :
    controlled (asked start (.readSamplesBatch 6 [1, 12] [] none)) .adc = some (some 0x0212, some 0x0212, none) ∧
      controlled (asked start (.readSamplesBatch 16 [1] [] none)) .adc = some (some 0x0112, some 0x0112, none) ∧
      controlled (asked start (.readSamplesBatch 6 [] [] none)) .adc = some (none, some 0, none) := by
  decide +kernel

/-- VQ7, its first step: the code of 2.5 V is answered on the result port, and the frame is built next. -/
theorem test_sequence_turn :
    controlled (inSequence start .dac (.toCode 3 0x02800000) [] []) .dac =
      some (some 0x00010000, none, some { unit := 1, next := .buildUpdate 3 0x8000, entries := [], out := [] }) := by
  decide +kernel

/-- Rule R250: a fault of a step ends the sequence; rule R258: a failed reset leaves the mirror stale. -/
theorem test_sequence_fault :
    controlled (inSequence start .adc (.sendReset [0x06]) [] [.failed]) .adc = some (some 0x20, some 0x20, none) ∧
      (cfgAfter (inSequence start .adc (.sendReset [0x06]) [] [.failed])).map (·.stale) = some true := by
  decide +kernel

/-- Rules R256 and R297: between two steps of the ADC's sequence another instance's command is run, the ADC's own waits. -/
theorem test_sequence_interleaved :
    (match step { inSequence start .adc (.complete .adc) [1] [] with
        port := [.present (.command 0x60000000 [0, 0, 0]), .present (.command 0xAC000000 []), .proceed .adc] } with
      | .next t => t.port == [.present (.command 0x60000000 [0, 0, 0]), .proceed .adc] && t.turn == .tc &&
          (ioOf t .adc).running == some { unit := 1, next := .complete .adc, entries := [1], out := [] }
      | _ => false) = true := by
  decide +kernel

/-- The identity string of rule R1. -/
theorem test_identity : identity = "SCCE/edgepi-python-sdk#sub001/doc-v7" := rfl

/-! ### The statements' hypotheses can be met

One theorem a statement, a concrete state and operands for each of its clauses, at the ends of its ranges. -/

/-- A request that `validate` passes is a good one. -/
theorem request_ok {p : ChipProfile} {req : List Pair} (h : (validate p req).toOption.isSome = true) : RequestOk p req := by
  cases hv : validate p req with
  | error e => rw [hv] at h; cases h
  | ok vs => exact (validate_inv hv).1

/-- A pair that `validate` refuses alone is a bad one. -/
theorem pair_bad {p : ChipProfile} {q : Pair} (h : (validate p [q]).toOption.isSome = false) : ¬ PairOk p q := by
  intro hq
  have : RequestOk p [q] := ⟨by simp, by simpa using hq⟩
  rw [validate_ok this] at h
  cases h

/-- Whether an outcome is a next state with a property. -/
def nextWith (q : State → Bool) (o : Host.Outcome State Fault Refusal) : Bool :=
  match o with
  | .next t => q t
  | _ => false

theorem next_of {q : State → Bool} {o : Host.Outcome State Fault Refusal} (h : nextWith q o = true) :
    ∃ t, o = .next t ∧ q t = true := by
  cases o with
  | next t => exact ⟨t, rfl, h⟩
  | fault f => cases h
  | refused r => cases h

theorem next_any {o : Host.Outcome State Fault Refusal} (h : nextWith (fun _ => true) o = true) : ∃ t, o = .next t := by
  obtain ⟨t, ht, _⟩ := next_of h
  exact ⟨t, ht⟩

/-- The state after reset whose transport answers so. -/
def answering (s : State) (replies : List Reply) : State := { s with replies := replies }

/-- The state after reset in another ADC profile. -/
def withAdc (p : ChipProfile) : State := { start with profile := { refProfiles with adc := p } }

/-- The DAC waits for its transfer; a CAL_GET stands before it, an ADC_ASM before the ADC. -/
def dacWaits : State :=
  { markBusy start .dac with port := [.present (.command 0xC2000000 []), .present (.command 0x60000000 [0, 0, 0])] }

theorem witness_StepRunsDecodedInstruction :
    (Waiting start [] ∧
      (given start 0x60000000 [0, 0, 0] []).port = [] ++ .present (.command 0x60000000 [0, 0, 0]) :: [] ∧
      isFree start (itemChip (.command 0x60000000 [0, 0, 0])) = true ∧
      decodeItem start.profile (.command 0x60000000 [0, 0, 0]) = .ok (.adcAsm 0 0 0)) ∧
      -- the DAC waits for a transfer, its next command waits for the DAC, and the ADC goes on
      (Waiting dacWaits [.present (.command 0xC2000000 [])] ∧
        dacWaits.port = [.present (.command 0xC2000000 [])] ++ .present (.command 0x60000000 [0, 0, 0]) :: [] ∧
        isFree dacWaits (itemChip (.command 0x60000000 [0, 0, 0])) = true) ∧
      -- the ADC's controller runs a sequence: a command and another sequence wait; the DAC is busy: its controller waits
      Waiting (markBusy (inSequence start .adc (.start .adc) [] []) .dac)
        [.present (.command 0x60000000 [0, 0, 0]), .sequence (.readVoltage 1 none), .proceed .dac] ∧ start.port = [] := by
  refine ⟨⟨waiting_nil _, rfl, rfl, rfl⟩, ⟨?_, rfl, rfl⟩, ?_, rfl⟩
  · intro e he
    exact .inl ⟨_, List.mem_singleton.mp he, rfl⟩
  · intro e he
    simp only [List.mem_cons, List.not_mem_nil, or_false] at he
    rcases he with rfl | rfl | rfl
    · exact .inl ⟨_, rfl, rfl⟩
    · exact .inr (.inl ⟨_, rfl, rfl⟩)
    · exact .inr (.inr ⟨_, rfl, rfl⟩)

theorem witness_CommandsFollowTheTable :
    (given start 0 [] []).port = .present (.command 0 []) :: [] ∧ isFree start (itemChip (.command 0 [])) = true ∧
      (0x0C020500 : Word).toNat / 2 ^ 25 % 4 = (chipCode .tc).toNat ∧ commandOk 0 [] = false ∧ commandOk 0xF8000000 [] = false ∧
      commandOk 0x0E020500 [] = false ∧ commandOk 0x08000000 [] = true ∧
      commandOk 0xF4000000 [0xFF, 0xFF, 0xFF, 0xFF, 0xFF] = true ∧ commandOk 0xF4000000 [0, 0, 0, 0, 0x100] = false := by
  decide +kernel

theorem witness_DecodeOfEncode :
    profilesOk refProfiles = true ∧ decodeOk refProfiles.adc = true ∧ profilesOk otherOps = true ∧
      decodeOk otherOps.adc = true ∧ (Instr.buildRead .tc 0x1FF 0xFF).wellFormed refProfiles = true ∧
      (Instr.setConfig .dac (List.replicate 511 { field := 0xFF, value := 0xFFFFFF })).wellFormed refProfiles = true ∧
      (Instr.wRregRefAdc 0x1A 0xFF).wellFormed refProfiles = true ∧ (Instr.wRdata2).wellFormed refProfiles = true ∧
      (Instr.wTcWrite 0x8B [0xFF]).wellFormed refProfiles = true ∧
      (Instr.wDacFrame 15 15 0xFFFF).wellFormed refProfiles = true ∧
      (Instr.wRreg 0x1F (List.replicate 256 0xFF)).wellFormed otherOps = true ∧
      (Instr.wWreg 0 [0xFF]).wellFormed otherOps = true := by
  decide +kernel

theorem witness_EncodeOfDecoded :
    decodeItem refProfiles (.command 0x08020500 []) = .ok (.buildRead .adc 2 0x05) ∧
      decodeItem refProfiles (.frame .dac [0x33, 0x03, 0xE8]) = .ok (.wDacWrupd 3 1000) := ⟨rfl, rfl⟩

/-- A profile whose ADC has three units. -/
def threeUnits : ChipProfile :=
  { refAdc with
    nunits := 3, opStart := [0x08, 0x0C, 0x10], opStop := [0x0A, 0x0E, 0x11], opRdata := [0x12, 0x14, 0x15]
    opSelfcal := [0x19, 0x1E, 0x1F] }

theorem noRow_command {p : Profiles} {b : Byte} {rest : Frame}
    (h : ¬(b &&& p.adc.opMask = p.adc.opRreg ∨ b &&& p.adc.opMask = p.adc.opWreg))
    (h' : if b ∈ p.adc.opRdata then rest ≠ [0x00, 0x00, 0x00] else b ∈ commandBytes p.adc → rest ≠ []) :
    NoRow p .adc (b :: rest) := by
  show ite _ _ _
  rw [if_neg h]
  exact h'

theorem witness_FramesWithoutRowAreSent :
    (decodeOk refAdc = true ∧ isFree start .adc = true ∧ (handed start .adc [0x90] []).port = [.present (.frame .adc [0x90])]) ∧
      NoRow refProfiles .adc [] ∧ NoRow refProfiles .adc [0x90] ∧ NoRow refProfiles .adc [0x1F, 0x00] ∧
      NoRow refProfiles .adc [0x08, 0x00] ∧ NoRow refProfiles .adc [0x12, 0x00] ∧ NoRow refProfiles .adc [0x25] ∧
      NoRow refProfiles .adc [0x45, 0x01, 0x00] ∧ NoRow refProfiles .tc [0xFF] ∧ NoRow refProfiles .tc [0x8B] ∧
      NoRow refProfiles .tc (0x0F :: List.replicate 257 0) ∧ NoRow refProfiles .dac [0x33, 0x00] ∧
      replyAt (answering start [.answered []]) 0 = .answered [] ∧ replyAt (answering start [.failed]) 0 = .failed ∧
      decodeOk threeUnits = true ∧ 3 ≤ threeUnits.nunits ∧ threeUnits.opStart[3 - 1]? = some 0x10 ∧
      threeUnits.opStop[3 - 1]? = some 0x11 ∧ threeUnits.opSelfcal[3 - 1]? = some 0x1F ∧
      threeUnits.opRdata[3 - 1]? = some 0x15 ∧
      ({ withAdc threeUnits with port := [.present (.frame .adc [0x15, 0, 0, 0])] } : State).port =
        .present (.frame .adc [0x15, 0, 0, 0]) :: [] := by
  refine ⟨by decide +kernel, trivial, noRow_command (by decide +kernel) (by decide +kernel),
    noRow_command (by decide +kernel) (by decide +kernel), noRow_command (by decide +kernel) (by decide +kernel),
    noRow_command (by decide +kernel) (by decide +kernel), ?_, ?_, .inl (by decide +kernel), .inr (.inl rfl), .inr (.inr (by rw [List.length_replicate]; decide)), (show (1 : Nat) ≠ 2 by decide),
    by decide +kernel, by decide +kernel, by decide +kernel, by decide +kernel, by decide +kernel, by decide +kernel,
    by decide +kernel, by decide +kernel, rfl⟩
  · intro cnt bytes h
    cases h
  · intro cnt bytes h
    cases h
    decide

theorem witness_ResultPortLayout : (List.replicate 65535 (0 : Word)).length < 2 ^ 16 := by
  rw [List.length_replicate]; decide

theorem witness_ResetValues :
    validCh refProfiles .adc 0 = true ∧ validCh refProfiles .adc 11 = true ∧ validCh refProfiles .dac 7 = true ∧
      validCh refProfiles .tc 0 = true ∧
      ({ st2 with port := [.construct .adc [cell 1 2]] } : State).port = .construct .adc [cell 1 2] :: [] ∧
      isFree st2 .adc = true ∧
      ({ dacWaits with port := .present (.command 0xC2000000 []) :: [.restart store] } : State).port =
        [.present (.command 0xC2000000 [])] ++ .restart store :: [] ∧
      Waiting dacWaits [.present (.command 0xC2000000 [])] := by
  refine ⟨by decide +kernel, by decide +kernel, by decide +kernel, by decide +kernel, rfl, by decide +kernel, rfl, ?_⟩
  intro e he
  exact .inl ⟨_, List.mem_singleton.mp he, rfl⟩

theorem witness_ResetMeetsInvariant : profilesOk refProfiles = true ∧ profilesOk otherOps = true := by decide +kernel

theorem witness_StepKeepsInvariant :
    (given st3 0x90000000 [] []).inv = true ∧ (∃ t, step (given st3 0x90000000 [] []) = .next t) ∧
      (given start 0x78010000 [0x04000002] (zeros 1)).inv = true ∧
      (∃ t, step (given start 0x78010000 [0x04000002] (zeros 1)) = .next t) ∧
      (inSequence st4 .adc (.readPulse .adc) [1] (zeros 1)).inv = true ∧
      ∃ t, step (inSequence st4 .adc (.readPulse .adc) [1] (zeros 1)) = .next t :=
  ⟨by decide +kernel, next_any (by decide +kernel), by decide +kernel, next_any (by decide +kernel), by decide +kernel,
    next_any (by decide +kernel)⟩

/-- A profile whose ADC has every address. -/
def fullMap : ChipProfile := { refAdc with validRd := byteRun 0 256, validWr := byteRun 0 256 }

theorem witness_BuildReadResult :
    (¬ inMap refAdc.validRd (0x1B : Byte).toNat ∧ ¬ inMap refTc.validRd (0x80 : Byte).toNat) ∧
      (inMap refAdc.validRd (0x1A : Byte).toNat ∧ (0 : BitVec 9).toNat < 1 ∧ 256 < (257 : BitVec 9).toNat) ∧
      ((2 : BitVec 9).toNat ≤ 256 ∧ 0 < 1 ∧ 1 < (2 : BitVec 9).toNat ∧
        (∀ j < 1, inMap refAdc.validRd ((0x1A : Byte).toNat + j)) ∧ ¬ inMap refAdc.validRd ((0x1A : Byte).toNat + 1)) ∧
      ((256 : BitVec 9).toNat ≤ 256 ∧ 0 < 255 ∧ 255 < (256 : BitVec 9).toNat ∧
        (∀ j < 255, inMap fullMap.validRd ((1 : Byte).toNat + j)) ∧ ¬ inMap fullMap.validRd ((1 : Byte).toNat + 255)) ∧
      (1 ≤ (1 : BitVec 9).toNat ∧ ∀ j < (1 : BitVec 9).toNat, inMap refTc.validRd ((0x0F : Byte).toNat + j)) ∧
      ∀ j < (256 : BitVec 9).toNat, inMap fullMap.validRd ((0 : Byte).toNat + j) := by
  simp only [← validAddr_iff]
  decide +kernel

theorem witness_BuildWriteResult :
    (¬ inMap refAdc.validWr (0x1B : Byte).toNat ∧ ¬ inMap refTc.validWr (0x00 : Byte).toNat) ∧
      (inMap refAdc.validWr (0x1A : Byte).toNat ∧ ([] : List Word).length < 1 ∧ 256 < (List.replicate 257 (0 : Word)).length) ∧
      ((List.replicate 2 (0 : Word)).length ≤ 256 ∧ 0 < 1 ∧ 1 < (List.replicate 2 (0 : Word)).length ∧
        (∀ j < 1, inMap refTc.validWr ((0x8B : Byte).toNat + j)) ∧ ¬ inMap refTc.validWr ((0x8B : Byte).toNat + 1)) ∧
      (∀ j < 2, inMap refAdc.validWr ((0x19 : Byte).toNat + j)) ∧
      ([0xFF00, 0x80] : List Word) = [(0xFF : Byte)].map valueWord ++ 0x80 :: [] ∧ (0x80 : Word).toNat % 256 ≠ 0 ∧
      ([0x10000, 0x80] : List Word) = ([] : Frame).map valueWord ++ 0x10000 :: [0x80] ∧ (0x10000 : Word).toNat % 256 = 0 ∧
      255 * 256 < (0x10000 : Word).toInt ∧ (0xFFFFFF00 : Word).toNat % 256 = 0 ∧ (0xFFFFFF00 : Word).toInt < 0 ∧
      ([0, 0xFF00] : List Word) = [(0 : Byte), 0xFF].map valueWord ∧
      ∀ j < 256, inMap fullMap.validWr ((0 : Byte).toNat + j) := by
  simp only [← validAddr_iff]
  decide +kernel

theorem witness_ParseReadResult :
    (((0 : BitVec 9).toNat < 1 ∧ 256 < (257 : BitVec 9).toNat) ∧ 1 ≤ (256 : BitVec 9).toNat ∧ (256 : BitVec 9).toNat ≤ 256 ∧
      (List.replicate 257 (0 : Byte)).length < 2 + (256 : BitVec 9).toNat ∧
      2 + (256 : BitVec 9).toNat ≤ (List.replicate 258 (0 : Byte)).length ∧ ([0] : Frame).length < 1 + (1 : BitVec 9).toNat ∧
      1 + (1 : BitVec 9).toNat ≤ ([0, 0] : Frame).length) ∧
    exec (.buildRead .adc 2 5) start = .next (answer start (byteListWords [0x25, 0x01, 0, 0])) ∧
      ([1, 2, 3, 4] : Frame).length = ([0x25, 0x01, 0, 0] : Frame).length :=
  ⟨by decide +kernel, rfl, rfl⟩

theorem witness_CommandBuilders :
    (refAdc.opStart[0]? = some 0x08 ∧ refAdc.opStart[1]? = some 0x0C ∧ refAdc.opStop[1]? = some 0x0E ∧
      refAdc.opSelfcal[1]? = some 0x1E ∧ refAdc.opRdata[1]? = some 0x14 ∧ 1 ≤ (1 : BitVec 9).toNat ∧
      (2 : BitVec 9).toNat ≤ refAdc.nunits) ∧
      refAdc.nunits < (3 : BitVec 9).toNat ∧ refTc.opStart[0]? = none ∧ refTc.opSelfcal[0]? = none ∧
      refAdc.opReset = some 0x06 ∧ refAdc.opNop = some 0x00 ∧ refTc.opReset = none ∧ refTc.opNop = none := by
  decide +kernel

theorem witness_DacFrameResult :
    7 < (8 : Byte).toNat ∧ (7 : Byte).toNat ≤ 7 ∧ 15 < (16 : Byte).toNat ∧ (15 : Byte).toNat ≤ 15 ∧
      65535 < (65536 : Word).toNat ∧ (65535 : Word).toNat ≤ 65535 := by
  decide +kernel

theorem witness_CodecIsPure : isCodec (.adcAsm 0 0 0) = true ∧ isCodec (.buildRead .tc 0 0) = true ∧ start.profile = st2.profile :=
  ⟨rfl, rfl, rfl⟩

theorem witness_BadRequestIsRefused :
    RequestOk (profOf start .adc) [ask 4 5] ∧ ¬ PairOk (profOf start .adc) (ask 4 6) ∧
      ¬ PairOk (profOf start .adc) (ask 5 0) ∧ (ask 4 1).field ∈ [ask 4 5].map (·.field) ∧
      RequestOk (profOf start .dac) [] ∧ ¬ PairOk (profOf start .dac) (ask 0 0) :=
  ⟨request_ok (by decide +kernel), pair_bad (by decide +kernel), pair_bad (by decide +kernel), by decide +kernel,
    request_ok (by decide +kernel), pair_bad (by decide +kernel)⟩

theorem witness_CfgDiffResult :
    [ask 1 4, ask 4 2].length < 512 ∧ ¬ PairOk (profOf start .adc) (ask 4 6) ∧ (ask 4 1).field ∈ [ask 4 5].map (·.field) ∧
      RequestOk (profOf start .adc) [ask 1 4, ask 4 2] ∧ RequestOk (profOf start .dac) [] :=
  ⟨by decide, pair_bad (by decide +kernel), by decide, request_ok (by decide +kernel), request_ok (by decide +kernel)⟩

theorem witness_CfgCommitResult :
    [ask 2 11].length < 512 ∧ ¬ PairOk (profOf st2 .adc) (ask 2 12) ∧ (ask 2 1).field ∈ [ask 2 11].map (·.field) ∧
      RequestOk (profOf st2 .adc) [ask 2 11] ∧ RequestOk (profOf st2 .tc) [ask 5 4] :=
  ⟨by decide, pair_bad (by decide +kernel), by decide, request_ok (by decide +kernel), request_ok (by decide +kernel)⟩

theorem witness_DiffLaws :
    (answering start (zeros 1)).inv = true ∧ RequestOk (profOf start .adc) [ask 4 2, ask 1 4] ∧
      (∃ t, exec (.cfgCommit .adc [ask 4 2, ask 1 4]) (answering start (zeros 1)) = .next t) ∧
      (∃ t, exec (.setConfig .adc [ask 4 2, ask 1 4]) (answering start (zeros 1)) = .next t ∧
        (!isBusy t .adc && shownCode t == some 0) = true) ∧
      ∃ t, exec (.cfgDiff .adc [ask 4 2, ask 1 4]) (answering start (zeros 1)) = .next t :=
  ⟨by decide +kernel, request_ok (by decide +kernel), next_any (by decide +kernel), next_of (by decide +kernel),
    next_any (by decide +kernel)⟩

theorem witness_UnpackOfPack :
    fieldsOk refAdc = true ∧
      ∀ f ∈ fieldsOf refAdc 0x05, ∃ v : Byte, bankGet ([(4, 7), (1, 15)] : List (Byte × Byte)) f.id = some v ∧ v.toNat < 2 ^ (f.hi + 1 - f.lo) := by
  decide +kernel

theorem witness_SetConfigRefused :
    (RequestOk (profOf (adcIn [(7, 1)] .converting false) .adc) [ask 2 10] ∧
      rtdConflict (profOf start .adc) (adcIn [(7, 1)] .converting false).adc.mirror [(2, 10)] = true) ∧
      RequestOk (profOf st2 .adc) [ask 2 10] ∧ rtdConflict (profOf st2 .adc) st2.adc.mirror [(2, 10)] = false ∧
      (convOf st2 .adc).mode = .converting :=
  ⟨⟨request_ok (by decide +kernel), by decide +kernel⟩, request_ok (by decide +kernel), by decide +kernel, by decide +kernel⟩

theorem witness_SetConfigSucceeds :
    (answering st1 (zeros 3)).inv = true ∧ RequestOk (profOf st1 .adc) [ask 6 2, ask 0 1, ask 7 1] ∧
      rtdConflict (profOf st1 .adc) st1.adc.mirror [(6, 2), (0, 1), (7, 1)] = false ∧ isConverting st1 .adc = false ∧
      TransportGives (answering st1 (zeros 3)) ((List.replicate 3 (List.replicate 10 0)).map .answered) ∧
      changedRegs (answering st1 (zeros 3)) .adc [ask 6 2, ask 0 1, ask 7 1] = [0x03, 0x04, 0x0D] ∧
      (List.replicate 511 (ask 0 1)).length < 512 ∧ start.inv = true ∧ RequestOk (profOf start .dac) [] ∧ changedRegs start .dac [] = [] :=
  ⟨by decide +kernel, request_ok (by decide +kernel), by decide +kernel, by decide +kernel,
    gives_listed (more := []) rfl rfl, by decide +kernel, by rw [List.length_replicate]; decide, by decide +kernel,
    request_ok (by decide +kernel), by decide +kernel⟩

/-- The state of vector VB37: the second transfer fails. -/
def failsSecond : State := answering start [.answered [0, 0, 0], .failed]

theorem witness_SetConfigTransferFails :
    failsSecond.inv = true ∧ RequestOk (profOf failsSecond .adc) [ask 0 1, ask 4 3, ask 2 5] ∧
      rtdConflict (profOf failsSecond .adc) failsSecond.adc.mirror [(0, 1), (4, 3), (2, 5)] = false ∧
      isConverting failsSecond .adc = false ∧
      changedRegs failsSecond .adc [ask 0 1, ask 4 3, ask 2 5] = [0x03] ++ 0x05 :: [0x06] ∧
      TransportGives failsSecond ([[0, 0, 0]].map .answered ++ [.failed]) :=
  ⟨by decide +kernel, request_ok (by decide +kernel), by decide +kernel, by decide +kernel, by decide +kernel,
    gives_listed (more := []) rfl rfl⟩

theorem witness_CfgReassertResult :
    profilesOk start.profile = true ∧ isConverting st2 .adc = true ∧ isConverting start .adc = false ∧
      TransportGives (answering start (zeros 5)) ((List.replicate 5 (List.replicate 10 0)).map .answered) ∧
      fieldRegs (profOf start .adc) = [0x03] ++ 0x04 :: [0x05, 0x06, 0x0D] ∧
      TransportGives failsSecond ([[0, 0, 0]].map .answered ++ [.failed]) ∧ fieldRegs (profOf start .dac) = [] :=
  ⟨by decide +kernel, by decide +kernel, by decide +kernel, gives_listed (more := []) rfl rfl, by decide +kernel,
    gives_listed (more := []) rfl rfl, by decide +kernel⟩

/-- The register list of vector VB29, with another byte for register 0x04. -/
def loadList (b : Byte) : List RegByte :=
  [{ reg := 0x03, byte := 0x40 }, { reg := 0x04, byte := b }, { reg := 0x05, byte := 0x24 }, { reg := 0x06, byte := 0x21 },
    { reg := 0x0D, byte := 0x00 }]

theorem witness_CfgLoadResult :
    start.inv = true ∧ (loadList 0).length < 512 ∧ ¬ (([] : List RegByte).map (·.reg)).contains 0x03 ∧
      ((loadList 0).map (·.reg)).Nodup ∧
      (∀ r : Byte, r ∈ (loadList 0).map (·.reg) ↔ r ∈ refAdc.fields.map (·.reg)) ∧
      loadList 0xE0 = (loadList 0xE0).take 1 ++ { reg := 0x04, byte := 0xE0 } :: (loadList 0xE0).drop 2 ∧
      (∀ y ∈ (loadList 0xE0).take 1, ∀ f ∈ refAdc.fields, f.reg = y.reg → byteBits y.byte f.hi f.lo ∈ f.legal) ∧
      (∃ f ∈ refAdc.fields, f.reg = 0x04 ∧ byteBits 0xE0 f.hi f.lo ∉ f.legal) ∧
      ∀ f ∈ refAdc.fields, ∀ v, ((loadList 0x80).find? fun x => x.reg == f.reg).map
        (fun x => byteBits x.byte f.hi f.lo) = some v → v ∈ f.legal := by
  decide +kernel

theorem witness_StartConvResult :
    ((1 : Byte) ∈ refAdc.required ∧ isSet start.adc.setMask 1 = false ∧
      ∀ g ∈ refAdc.required, g < 1 → isSet start.adc.setMask g = true) ∧
      ((2 : Byte) ∈ refAdc.required ∧ isSet (adcIn [(1, 4)] .configuring false).adc.setMask 2 = false ∧
        ∀ g ∈ refAdc.required, g < 2 → isSet (adcIn [(1, 4)] .configuring false).adc.setMask g = true) ∧
      (∀ g ∈ refAdc.required, isSet st1.adc.setMask g = true) ∧ (convOf st1 .adc).mode = .configuring ∧
      (∀ g ∈ refAdc.required, isSet st2.adc.setMask g = true) ∧ (convOf st2 .adc).mode = .converting ∧
      (∀ g ∈ refAdc.required, isSet st4.adc.setMask g = true) ∧ (convOf st4 .adc).mode = .idle ∧
      NoUnit refAdc .adc refAdc.opStart refAdc.startFrame 3 ∧ NoUnit refAdc .adc refAdc.opStart refAdc.startFrame 0 ∧
      UnitFrame refAdc st1.adc.mirror .adc refAdc.opStart 0 refAdc.startFrame 2 [0x0C] ∧
      UnitFrame refTc start.tc.mirror .tc refTc.opStart 0 refTc.startFrame 1 [0x80, 0x40] ∧
      replyAt (answering st1 [.failed]) 0 = .failed ∧ replyAt (answering st1 [.answered [0]]) 0 = .answered [0] := by
  refine ⟨by decide +kernel, by decide +kernel, by decide +kernel, by decide +kernel, by decide +kernel, by decide +kernel,
    by decide +kernel, by decide +kernel, .inr (.inl (by decide +kernel)), .inl (by decide), ⟨by decide, by decide, 0x0C, rfl, rfl⟩,
    ⟨by decide, by decide, _, rfl, by decide +kernel⟩, by decide +kernel, by decide +kernel⟩

theorem witness_StopConvResult :
    (convOf start .adc).mode = .idle ∧ (convOf st1 .adc).mode = .configuring ∧ (convOf st2 .adc).mode = .converting ∧
      NoUnit refAdc .adc refAdc.opStop refAdc.stopFrame 3 ∧
      UnitFrame refAdc st2.adc.mirror .adc refAdc.opStop 0 refAdc.stopFrame 1 [0x0A] ∧
      UnitFrame refTc start.tc.mirror .tc refTc.opStop 0 refTc.stopFrame 1 [0x80, 0x00] ∧
      replyAt (answering st2 [.failed]) 0 = .failed ∧ replyAt (answering st2 [.answered [0]]) 0 = .answered [0] := by
  refine ⟨by decide +kernel, by decide +kernel, by decide +kernel, .inr (.inl (by decide +kernel)), ⟨by decide, by decide, 0x0A, rfl, rfl⟩,
    ⟨by decide, by decide, _, rfl, by decide +kernel⟩, by decide +kernel, by decide +kernel⟩

theorem witness_ConvDoneResult :
    ((convOf st3 .adc).mode = .converting ∧ mirrorGet st3 .adc 0 = some refAdc.pulse) ∧
      (convOf start .tc).mode ≠ .converting ∧ mirrorGet st2 .adc 0 ≠ some refAdc.pulse := by
  decide +kernel

theorem witness_ReadContResult :
    ((convOf st2 .adc).mode = .converting ∧ mirrorGet st2 .adc 0 = some refAdc.continuous) ∧
      mirrorGet st3 .adc 0 ≠ some refAdc.continuous ∧ (convOf start .tc).mode ≠ .converting ∧
      NoUnit refAdc .adc refAdc.opRdata refAdc.readFrame 3 ∧
      UnitFrame refAdc st2.adc.mirror .adc refAdc.opRdata 3 refAdc.readFrame 2 [0x14, 0, 0, 0] ∧
      UnitFrame refTc start.tc.mirror .tc refTc.opRdata 3 refTc.readFrame 1 [0x0A, 0, 0, 0, 0, 0] ∧
      replyAt (answering st2 [.failed]) 0 = .failed ∧
      replyAt (answering st2 [.answered [0, 1, 2, 3]]) 0 = .answered [0, 1, 2, 3] := by
  refine ⟨by decide +kernel, by decide +kernel, by decide +kernel, .inr (.inl (by decide +kernel)), ⟨by decide, by decide, 0x14, rfl, rfl⟩,
    ⟨by decide, by decide, _, rfl, by decide +kernel⟩, by decide +kernel, by decide +kernel⟩

theorem witness_ReadPulseResult :
    ((convOf st4 .adc).mode = .idle ∧ (convOf st4 .adc).pulseDone = true) ∧ (convOf start .adc).pulseDone = false ∧
      (convOf st3 .adc).mode ≠ .idle ∧ NoUnit refAdc .adc refAdc.opRdata refAdc.readFrame 0 ∧
      UnitFrame refAdc st4.adc.mirror .adc refAdc.opRdata 3 refAdc.readFrame 1 [0x12, 0, 0, 0] ∧
      replyAt (answering st4 [.failed]) 0 = .failed ∧
      replyAt (answering st4 [.answered [0, 1, 2]]) 0 = .answered [0, 1, 2] := by
  refine ⟨by decide +kernel, by decide +kernel, by decide +kernel, .inl (by decide), ⟨by decide, by decide, 0x12, rfl, rfl⟩,
    by decide +kernel, by decide +kernel⟩

theorem witness_ModeTransitions :
    (∃ t, exec (.setConfig .adc []) start = .next t ∧
      (decide ((convOf start .adc).mode = .idle) && decide ((convOf t .adc).mode = .configuring)) = true) ∧
      (∃ t, exec (.startConv .adc 1) (answering st1 (zeros 1)) = .next t ∧
        (decide ((convOf st1 .adc).mode = .configuring) && decide ((convOf t .adc).mode = .converting)) = true) ∧
      (∃ t, exec (.mirrorReset .adc) st1 = .next t ∧ decide ((convOf t .adc).mode = .idle) = true) ∧
      ∃ t, exec (.convDone .adc) st3 = .next t ∧ decide ((convOf t .adc).mode = .idle) = true :=
  ⟨next_of (by decide +kernel), next_of (by decide +kernel), next_of (by decide +kernel), next_of (by decide +kernel)⟩

theorem witness_WhoWritesWhat :
    (∃ t, exec (.calSet .adc 11 1 2) start = .next t ∧ decide (t.cal ≠ start.cal) = true) ∧
      (∃ t, exec (.cfgCommit .adc [ask 4 2]) start = .next t ∧
        (decide (t.adc.mirror ≠ start.adc.mirror) && decide (t.adc.setMask ≠ start.adc.setMask)) = true) ∧
      (∃ t, exec (.setConfig .adc [ask 4 2]) (answering start [.failed]) = .next t ∧
        (decide (t.adc.stale ≠ start.adc.stale) && decide (t.adcConv.mode ≠ start.adcConv.mode)) = true) ∧
      (∃ t, exec (.convDone .adc) st3 = .next t ∧ decide (t.adcConv.pulseDone ≠ st3.adcConv.pulseDone) = true) ∧
      Chip.dac ≠ instanceOf (.convDone .adc) ∧ ConvChip.tc.toChip ≠ instanceOf (.convDone .adc) ∧ Chip.tc ≠ start.turn :=
  ⟨next_of (by decide +kernel), next_of (by decide +kernel), next_of (by decide +kernel), next_of (by decide +kernel),
    by decide, by decide, by decide⟩

theorem witness_FaultsArePrecise :
    profilesOk start.profile = true ∧
      (∃ t, exec (.startConv .adc 1) start = .next t ∧
        (!isBusy t .adc && shownCode t == some 0x06) = true) ∧
      ∃ t, exec (.setConfig .adc [ask 4 2]) (answering start [.failed]) = .next t ∧
        (!isBusy t .adc && shownCode t == some 0x20) = true :=
  ⟨by decide +kernel, next_of (by decide +kernel), next_of (by decide +kernel)⟩

theorem witness_RaisedByTable :
    start.inv = true ∧ (Instr.readPulse .tc 1).wellFormed start.profile = true ∧
      (∃ t, exec (.readPulse .tc 1) start = .next t ∧ (!isBusy t .tc) = true) ∧
      (Instr.wTcRead 0x0F [0]).wellFormed start.profile = true ∧
      ∃ t, exec (.wTcRead 0x0F [0]) (answering start [.answered [0]]) = .next t ∧
        (!isBusy t .tc && shownCode t == some 0x05) = true :=
  ⟨by decide +kernel, rfl, next_of (by decide +kernel), by decide +kernel, next_of (by decide +kernel)⟩

/-- Whatever the transport's free answers are, none is a transfer that never returns. -/
theorem never_absent {s : State} (hb : busHeld s = false) (h : s.replies = []) (j : Nat) : replyAt s j ≠ .never := by
  simp only [replyAt, hb, h, List.getElem?_nil, Bool.false_eq_true, if_false]
  cases freeReply (s.transfers + j) <;> simp

theorem witness_HungTransferHoldsItsInstance :
    ((∃ t, exec (.startConv .adc 1) start = .next t) ∧ ∀ j, replyAt start j ≠ .never) ∧
      (replyAt (answering st1 [.never]) 0 = .never ∧ (∀ g ∈ refAdc.required, isSet st1.adc.setMask g = true) ∧
        (convOf st1 .adc).mode = .configuring ∧
        UnitFrame refAdc st1.adc.mirror .adc refAdc.opStart 0 refAdc.startFrame 1 [0x08]) ∧ isBusy dacWaits .dac = true :=
  ⟨⟨next_any (by decide +kernel), never_absent rfl rfl⟩,
    ⟨by decide +kernel, by decide +kernel, by decide +kernel, ⟨by decide, by decide, 0x08, rfl, rfl⟩⟩, by decide +kernel⟩

theorem witness_PortsOnlyGrow :
    (∃ t, exec (.startConv .adc 1) (answering st1 (zeros 1)) = .next t) ∧ ∃ t, exec (.adcAsm 0 0 0) start = .next t :=
  ⟨next_any (by decide +kernel), next_any (by decide +kernel)⟩

theorem witness_CalGetResult :
    LookupRaises start .adc 12 .invalidDifferentialPairError ∧ LookupRaises start .dac 8 .calibKeyMissingError ∧
      LookupRaises start .tc 1 .calibKeyMissingError ∧ LookupRaises start .adc 11 .calibKeyMissingError ∧
      LookupRaises start .dac 7 .calibKeyMissingError ∧ (0 : Byte).toNat < channelCount start.profile .tc ∧
      calGet start.cal .tc (0 : Byte).toNat = some { gain := 0x01000000, offset := 0 } := by
  unfold LookupRaises
  decide +kernel

theorem witness_CalSetResult :
    calWf start.profile start.cal = true ∧ channelCount start.profile .adc ≤ (12 : Byte).toNat ∧
      LookupRaises start .adc 12 .invalidDifferentialPairError ∧ channelCount start.profile .dac ≤ (8 : Byte).toNat ∧
      LookupRaises start .dac 8 .calibKeyMissingError ∧ (11 : Byte).toNat < channelCount start.profile .adc := by
  unfold LookupRaises
  decide +kernel

theorem witness_CalEntriesIndependent :
    ((Chip.adc, (9 : Byte)) ≠ (Chip.adc, (1 : Byte))) ∧ (∃ t, exec (.calSet .adc 1 2 3) start = .next t) ∧
      ∃ u, exec (.calApply .adc 9 0x01400000) start = .next u :=
  ⟨by decide, next_any (by decide +kernel), next_any (by decide +kernel)⟩

theorem witness_AdcCode2vResult :
    (gainSettings refAdc).contains (3 : BitVec 9).toNat = false ∧
      (∃ f, fieldSpec refAdc 4 = some f ∧ ∃ x ∈ f.legal, refAdc.gainValue.lookup x = some (32 : BitVec 9).toNat) ∧
      2 ^ 24 ≤ (0x01000000 : Word).toNat ∧ (0x00FFFFFF : Word).toNat < 2 ^ 24 ∧
      ¬ InFormat 24 ((twosComplement 24 ((0x00800000 : Word).toNat % 2 ^ 24) : ℚ) / 2 ^ 23 *
        (((0x80000000 : Word).toInt : ℚ) / 2 ^ 24) / (1 : BitVec 9).toNat) ∧
      InFormat 24 ((twosComplement 24 ((0x00800000 : Word).toNat % 2 ^ 24) : ℚ) / 2 ^ 23 *
        ((refAdc.vref.toInt : ℚ) / 2 ^ 24) / (1 : BitVec 9).toNat) :=
  ⟨by decide +kernel, ⟨_, rfl, 5, by decide +kernel, by decide +kernel⟩, by decide +kernel, by decide +kernel,
    by unfold InFormat; decide +kernel, by unfold InFormat; decide +kernel⟩

theorem witness_CalApplyResult :
    LookupRaises start .adc 12 .invalidDifferentialPairError ∧ (3 : Byte).toNat < channelCount start.profile .adc ∧
      calGet start.cal .adc (3 : Byte).toNat = some { gain := 0x7F000000, offset := 0x7F000000 } ∧
      ¬ InFormat 24 (((0x02000000 : Word).toInt : ℚ) / 2 ^ 24 * (((0x7F000000 : Word).toInt : ℚ) / 2 ^ 24) +
        ((0x7F000000 : Word).toInt : ℚ) / 2 ^ 24) ∧
      InFormat 24 (((0xFF000000 : Word).toInt : ℚ) / 2 ^ 24 * (((0x7F000000 : Word).toInt : ℚ) / 2 ^ 24) +
        ((0x7F000000 : Word).toInt : ℚ) / 2 ^ 24) := by
  unfold LookupRaises InFormat
  decide +kernel

theorem witness_DacV2codeResult :
    0 < start.profile.dac.vref.toInt ∧ LookupRaises start .dac 8 .calibKeyMissingError ∧ (5 : Byte).toNat ≤ 7 ∧
      calGet start.cal .dac (5 : Byte).toNat = some { gain := 0, offset := 0 } ∧
      calGet start.cal .dac (3 : Byte).toNat = some { gain := 0x01000000, offset := 0 } ∧
      ((((0xFFFFFFFF : Word).toInt : ℚ) / 2 ^ 24 - ((0 : Word).toInt : ℚ) / 2 ^ 24) /
        (((0x01000000 : Word).toInt : ℚ) / 2 ^ 24) < 0) ∧
      ((start.profile.dac.vref.toInt : ℚ) / 2 ^ 24 < (((0x05000001 : Word).toInt : ℚ) / 2 ^ 24 -
        ((0 : Word).toInt : ℚ) / 2 ^ 24) / (((0x01000000 : Word).toInt : ℚ) / 2 ^ 24)) ∧
      (0 ≤ (((0x05000000 : Word).toInt : ℚ) / 2 ^ 24 - ((0 : Word).toInt : ℚ) / 2 ^ 24) /
        (((0x01000000 : Word).toInt : ℚ) / 2 ^ 24)) ∧
      (((0x05000000 : Word).toInt : ℚ) / 2 ^ 24 - ((0 : Word).toInt : ℚ) / 2 ^ 24) /
        (((0x01000000 : Word).toInt : ℚ) / 2 ^ 24) ≤ (start.profile.dac.vref.toInt : ℚ) / 2 ^ 24 := by
  unfold LookupRaises
  decide +kernel

theorem witness_DacCode2vResult :
    65535 < (65536 : Word).toNat ∧ LookupRaises start .dac 8 .calibKeyMissingError ∧ (65535 : Word).toNat ≤ 65535 ∧ (3 : Byte).toNat ≤ 7 ∧
      calGet start.cal .dac (3 : Byte).toNat = some { gain := 0x01000000, offset := 0 } ∧
      ¬ InFormat 24 (((65535 : Word).toNat : ℚ) / 65536 * ((start.profile.dac.vref.toInt : ℚ) / 2 ^ 24) *
        (((0x7F000000 : Word).toInt : ℚ) / 2 ^ 24) + ((0 : Word).toInt : ℚ) / 2 ^ 24) ∧
      InFormat 24 (((65535 : Word).toNat : ℚ) / 65536 * ((start.profile.dac.vref.toInt : ℚ) / 2 ^ 24) *
        (((0x01000000 : Word).toInt : ℚ) / 2 ^ 24) + ((0 : Word).toInt : ℚ) / 2 ^ 24) :=
  ⟨by decide +kernel, by unfold LookupRaises; decide +kernel, by decide +kernel, by decide +kernel, by decide +kernel,
    by unfold InFormat; decide +kernel, by unfold InFormat; decide +kernel⟩

theorem ok_of {x : Except Raised Word} {w : Word} (h : x.toOption = some w) : x = .ok w := by
  cases x with
  | ok a => cases h; rfl
  | error e => cases h

theorem oks_of {x : Except Raised (List Word)} {ws : List Word} (h : x.toOption = some ws) : x = .ok ws := by
  cases x with
  | ok a => cases h; rfl
  | error e => cases h

theorem witness_DacRoundTrip :
    calGet start.cal .dac (4 : Byte).toNat = some { gain := 0x00FF8000, offset := 0x00010000 } ∧ (0x00FF8000 : Word) ≠ 0 ∧
      0 < start.profile.dac.vref.toInt ∧
      exec (.dacV2code 4 0x02800000) start = .next (answer start [0x0000800D]) ∧
      exec (.dacCode2v 4 0x0000800D) start = .next (answer start [0x028000E0]) :=
  ⟨by decide +kernel, by decide +kernel, by decide +kernel,
    congrArg (fun x => pureOutcome (oneWord x) start) (ok_of (by decide +kernel)),
    congrArg (fun x => pureOutcome (oneWord x) start) (ok_of (by decide +kernel))⟩

theorem witness_TcCode2tResult :
    (1 ≤ start.profile.tc.cjBits ∧ start.profile.tc.cjBits ≤ 16) ∧
      (InFormat 16 (((-8192 : Int) : ℚ) / (2 : ℚ) ^ (6 : Int)) ∧ InFormat 16 (((-262144 : Int) : ℚ) / (2 : ℚ) ^ (7 : Int))) ∧
      ¬ InFormat 16 (((-8192 : Int) : ℚ) / (2 : ℚ) ^ (-3 : Int)) := by
  unfold InFormat
  refine ⟨by decide +kernel, ⟨⟨?_, ?_⟩, ?_, ?_⟩, ?_⟩ <;> norm_num

theorem witness_ConversionIsPure :
    isConversion (.dacV2code 3 0) = true ∧ isConversion (.tcCode2t 0 0 0 0 0) = true ∧ start.profile = st2.profile ∧
      start.cal = st2.cal := ⟨rfl, rfl, rfl, rfl⟩

/-- Something that races a CAL_SET: an entry of the ADC is replaced, and a CAL_APPLY of channel 9 is evaluated meanwhile. -/
def racing (ch : Byte) : State :=
  { start with
    port := [.present (encode refProfiles (.calSet .adc ch 0x01000000 0)), .concurrent 0xD8000900 [0x01400000]] }

theorem witness_ConversionsRunConcurrently :
    (decodeCommand 0xD8000900 [0x01400000] = .ok (.calApply .adc 9 0x01400000) ∧
      isConversion (.calApply .adc 9 0x01400000) = true ∧
      ({ dacWaits with port := [.concurrent 0xD8000900 [0x01400000]] } : State).port =
        .concurrent 0xD8000900 [0x01400000] :: []) ∧
      -- no CAL_SET before it, and one of another entry
      dacWaits.calRace = none ∧
      ({ start with calRace := some { module := .adc, channel := 1, before := none } } : State).calRace =
        some { module := .adc, channel := 1, before := none } ∧
      entryRead (.calApply .adc 9 0x01400000) ≠ some (.adc, 1) ∧
      -- one of another entry is taken; one of its own is, which held a pair
      (isFree (racing 1) .adc = true ∧ (racing 1).port =
        .present (encode (racing 1).profile (.calSet .adc 1 0x01000000 0)) :: .concurrent 0xD8000900 [0x01400000] :: []) ∧
      (isFree (racing 9) .adc = true ∧ (racing 9).port =
        .present (encode (racing 9).profile (.calSet .adc 9 0x01000000 0)) :: .concurrent 0xD8000900 [0x01400000] :: []) ∧
      entryRead (.calApply .adc 9 0x01400000) = some (.adc, (9 : Byte).toNat) ∧
      calWf (racing 9).profile (racing 9).cal = true ∧ (9 : Byte).toNat < channelCount (racing 9).profile .adc ∧
      (calGet (racing 9).cal .adc (9 : Byte).toNat).isSome = true ∧
      -- the other three that read an entry, and an entry that holds none
      decodeCommand 0xC2000000 [] = .ok (.calGet .dac 0) ∧ entryRead (.calGet .dac 0) = some (.dac, 0) ∧
      decodeCommand 0xE2000000 [6] = .ok (.dacV2code 0 6) ∧ entryRead (.dacV2code 0 6) = some (.dac, 0) ∧
      decodeCommand 0xEA000000 [7] = .ok (.dacCode2v 0 7) ∧ entryRead (.dacCode2v 0 7) = some (.dac, 0) ∧
      calGet start.cal .dac 0 = none := by
  refine ⟨⟨rfl, rfl, rfl⟩, rfl, rfl, by decide, ⟨by decide +kernel, rfl⟩, ⟨by decide +kernel, rfl⟩, rfl, by decide +kernel,
    by decide +kernel, by decide +kernel, rfl, rfl, rfl, rfl, rfl, rfl, by decide +kernel⟩

theorem witness_RoundingIsNearest : RoundsTo (5 / 2) 3 ∧ RoundsTo (-5 / 2) (-3) ∧ RoundsTo (7 / 3) 2 := by
  unfold RoundsTo
  norm_num [abs_of_pos, abs_of_neg]

theorem witness_HandSentFrameCompletes :
    (isWire .wRdata2 = true ∧ Instr.wRdata2.wellFormed start.profile = true ∧
      encode start.profile .wRdata2 = .frame .adc [0x14, 0, 0, 0] ∧ wireLead .wRdata2 ≠ none) ∧
      (isWire (.wTcRead 0x0F [0]) = true ∧ (Instr.wTcRead 0x0F [0]).wellFormed start.profile = true ∧
        encode start.profile (.wTcRead 0x0F [0]) = .frame .tc [0x0F, 0]) ∧
      (isWire (.wDacFrame 15 15 0xFFFF) = true ∧ (Instr.wDacFrame 15 15 0xFFFF).wellFormed start.profile = true ∧
        encode start.profile (.wDacFrame 15 15 0xFFFF) = .frame .dac [0xFF, 0xFF, 0xFF] ∧
        wireLead (.wDacFrame 15 15 0xFFFF) = none) ∧
      replyAt (answering start [.answered [1, 2, 3, 4]]) 0 = .answered [1, 2, 3, 4] ∧
      ([0x14, 0, 0, 0] : Frame).length ≤ ([1, 2, 3, 4] : Frame).length ∧
      ([1, 2, 3] : Frame).length < ([0x14, 0, 0, 0] : Frame).length ∧
      isWire .wReset = true ∧ Instr.wReset.wellFormed start.profile = true ∧
      encode start.profile .wReset = .frame .adc [0x06] ∧ replyAt (answering start [.failed]) 0 = .failed := by
  decide +kernel

/-- A sequence asked for, and its controller's turns after it. -/
def wholly (s : State) (q : Sequence) (n : Nat) (replies : List Reply) : State :=
  { s with port := .sequence q :: List.replicate n (.proceed (seqChip q)), replies := replies }

/-- An outcome in which the sequence of an instance has a next step. -/
def about (c : Chip) (n : SeqStep) (entries : List Byte) (out : List Word) (o : Host.Outcome State Fault Refusal) : Bool :=
  nextWith (fun t => (ioOf t c).running == some { unit := 1, next := n, entries := entries, out := out }) o

theorem about_of {c : Chip} {n : SeqStep} {entries : List Byte} {out : List Word}
    {o : Host.Outcome State Fault Refusal} (h : about c n entries out o = true) :
    ∃ t, o = .next t ∧ (ioOf t c).running = some { unit := 1, next := n, entries := entries, out := out } := by
  obtain ⟨t, h1, h2⟩ := next_of h
  exact ⟨t, h1, eq_of_beq h2⟩

/-- An ADC_ASM that answers, a SET_CONFIG whose transfer fails, and one that waits for its transfer: the three
ends of a step. -/
theorem witness_SequenceStepsAreOperations :
    (Waiting start [] ∧ (inSequence start .adc (.assemble [0x40, 0, 0]) [1] []).port = [] ++ .proceed .adc :: [] ∧
      isBusy (inSequence start .adc (.assemble [0x40, 0, 0]) [1] []) .adc = false ∧
      (ioOf (inSequence start .adc (.assemble [0x40, 0, 0]) [1] []) .adc).running =
        some { unit := 1, next := .assemble [0x40, 0, 0], entries := [1], out := [] }) ∧
      (∃ t, exec (.adcAsm 0x40 0 0) (atWork start .adc []) = .next t ∧
        (!isBusy t .adc && (ioOf t .adc).result == some (okAnswer [0x00400000])) = true) ∧
      (∃ t, exec (.setConfig .adc [ask 4 2]) (atWork (answering start [.failed]) .adc []) = .next t ∧
        (!isBusy t .adc && (ioOf t .adc).result == some (faultAnswer { fault := .transportFault, info := 5 })) = true) ∧
      (∃ t, exec (.setConfig .adc [ask 4 2]) (atWork (answering start [.never]) .adc []) = .next t ∧
        isBusy t .adc = true) ∧
      settingOf start = some 1 ∧ (1 : Nat) < 2 ^ 9 := by
  refine ⟨⟨waiting_nil _, rfl, rfl, rfl⟩, next_of (by decide +kernel), next_of (by decide +kernel),
    next_of (by decide +kernel), by decide +kernel, by decide⟩

/-- The TC's command between two turns of the ADC's controller; a turn; a sequence begun. -/
theorem witness_InstancesInterleave :
    (inSequence start .adc (.complete .adc) [1] []).inv = true ∧
      Waiting (inSequence start .adc (.complete .adc) [1] []) [.present (.command 0x60000000 [0, 0, 0])] ∧
      Ready (inSequence start .adc (.complete .adc) [1] []) (.present (.command 0xAC000000 [])) .tc ∧
      Ready (inSequence start .adc (.complete .adc) [1] []) (.proceed .adc) .adc ∧
      Ready start (.sequence (.resetChip .dac)) .dac ∧
      (∃ t, step { inSequence start .adc (.complete .adc) [1] [] with
        port := [.present (.command 0x60000000 [0, 0, 0])] ++ .present (.command 0xAC000000 []) :: [] } = .next t) ∧
      Chip.adc ≠ .tc := by
  refine ⟨by decide +kernel, ?_, .inl ⟨rfl, .inl ⟨_, rfl, rfl⟩⟩, .inr ⟨rfl, rfl⟩, .inl ⟨rfl, .inr (.inl ⟨_, rfl, rfl⟩)⟩,
    next_any (by decide +kernel), by decide⟩
  intro e he
  exact .inl ⟨_, List.mem_singleton.mp he, rfl⟩

theorem witness_WriteVoltageChannelResult :
    isFree start .dac = true ∧
      (wholly start (.writeVoltageChannel 3 0x05000000) 3 []).port =
        .sequence (.writeVoltageChannel 3 0x05000000) :: (List.replicate 3 (.proceed .dac) ++ []) ∧
      (dacV2code (5 : Byte).toNat 0x01000000 start).toOption = none ∧
      (dacV2code (3 : Byte).toNat 0x05000000 start).toOption = some 0xFFFF ∧
      replyAt (answering start [.answered []]) 0 = .answered [] ∧ replyAt (answering start [.failed]) 0 = .failed := by
  decide +kernel

theorem witness_ResetChipResult :
    isFree start .adc = true ∧
      (wholly start (.resetChip .adc) 3 []).port = .sequence (.resetChip .adc) :: (List.replicate 3 (.proceed .adc) ++ []) ∧
      (profOf start .tc).opReset = none ∧ (profOf start .adc).opReset = some 0x06 ∧
      replyAt (answering start [.failed]) 0 = .failed ∧ replyAt (answering start [.answered [0]]) 0 = .answered [0] := by
  decide +kernel

/-- A batch over channel 1 and pair 9: two rounds, codes 0x400000 and 0. -/
def batchStart : State :=
  wholly start (.readSamplesBatch 4 [1] [9] none) 14
    (zeros 2 ++ [.answered [0], .answered [0, 0x40, 0, 0]] ++ zeros 3)

theorem witness_BatchKeepsOrder :
    (batchStart.inv = true ∧ isFree batchStart .adc = true ∧
      batchStart.port = .sequence (.readSamplesBatch 4 [1] [9] none) :: List.replicate 14 (.proceed .adc)) ∧
      -- before any frame: channel 12 is not legal, channel 0 is and has no entry; every rate up to 15 is legal
      ((∀ f, fieldSpec refAdc 2 = some f → (12 : Byte) ∉ f.legal) ∧
        (∃ f, fieldSpec refAdc 2 = some f ∧ (0 : Byte) ∈ f.legal ∧ LookupRaises start .adc 0 .calibKeyMissingError) ∧
        (∀ id ∈ ([1, 9] : List Byte), (∃ f, fieldSpec refAdc 2 = some f ∧ id ∈ f.legal) ∧
          id.toNat < channelCount start.profile .adc ∧ (calGet start.cal .adc id.toNat).isSome = true) ∧
        (∃ f, fieldSpec refAdc 1 = some f ∧ (∀ b ∈ f.legal, b.toNat ≠ (16 : BitVec 24).toNat) ∧
          ∃ b ∈ f.legal, b.toNat = (4 : BitVec 24).toNat)) ∧
      (∃ t, steps (14 + 1) batchStart = .next t ∧ (((ioOf t .adc).running == none) &&
        (ioOf t .adc).returned == some (okAnswer [0x013FD000, 0x00400000])) = true) ∧
      ([1] ++ [9] : List Byte)[1]? = some 9 ∧ ([1] ++ [9] : List Byte).getLast? = some 9 := by
  refine ⟨⟨by decide +kernel, rfl, rfl⟩, ⟨?_, ⟨_, rfl, by decide +kernel, .inr (.inr ?_)⟩, ?_, ⟨_, rfl, ?_, ?_⟩⟩,
    next_of (by decide +kernel), rfl, rfl⟩
  · intro f hf
    cases hf
    decide +kernel
  · decide +kernel
  · intro id hid
    simp only [List.mem_cons, List.not_mem_nil, or_false] at hid
    rcases hid with rfl | rfl
    · exact ⟨⟨_, rfl, by decide +kernel⟩, by decide +kernel⟩
    · exact ⟨⟨_, rfl, by decide +kernel⟩, by decide +kernel⟩
  · decide +kernel
  · decide +kernel

/-- Configured for pulse mode. -/
def pulseStart : State := adcIn [(0, 1), (1, 4), (2, 2)] .configuring false

/-- Converting channel 9 in continuous mode. -/
def contStart : State := adcIn [(0, 0), (1, 4), (2, 9)] .converting false

/-- The transport's answers of a pulse conversion that reads the code 0x400000. -/
def pulseReplies : List Reply := zeros 2 ++ [.answered [0, 0x40, 0, 0]]

theorem volts_of {s : State} {ch b0 b1 b2 g : Byte} {setting : Nat} {x v : Word} (hg : mirrorGet s .adc 4 = some g)
    (hs : s.profile.adc.gainValue.lookup g = some setting)
    (hx : (adcCode2v s.profile.adc setting
      (BitVec.ofNat 32 (65536 * b0.toNat + 256 * b1.toNat + b2.toNat))).toOption = some x)
    (hv : (calApply .adc ch.toNat x s).toOption = some v) : Volts s ch [b0, b1, b2] (.ok v) :=
  ⟨b0, b1, b2, g, setting, rfl, hg, hs, by rw [ok_of hx]; exact (ok_of hv).symm⟩

theorem volts_error_of {s : State} {ch b0 b1 b2 g : Byte} {setting : Nat} {e : Raised} (hg : mirrorGet s .adc 4 = some g)
    (hs : s.profile.adc.gainValue.lookup g = some setting)
    (hx : ((adcCode2v s.profile.adc setting
      (BitVec.ofNat 32 (65536 * b0.toNat + 256 * b1.toNat + b2.toNat))).bind fun x => calApply .adc ch.toNat x s) =
        .error e) : Volts s ch [b0, b1, b2] (.error e) :=
  ⟨b0, b1, b2, g, setting, rfl, hg, hs, hx.symm⟩

theorem witness_VoltageSequences :
    (contStart.inv = true ∧ pulseStart.inv = true ∧ start.inv = true ∧ isFree contStart .adc = true ∧
      isFree pulseStart .adc = true ∧ isFree start .adc = true) ∧
      -- continuous: no conversion runs; another channel is selected; the channel is, and has an entry
      (mirrorGet start .adc 0 = some refAdc.continuous ∧ start.adcConv.mode ≠ .converting) ∧
      (mirrorGet contStart .adc 0 = some refAdc.continuous ∧ contStart.adcConv.mode = .converting ∧
        mirrorGet contStart .adc 2 = some 9 ∧ mirrorGet contStart .adc 2 ≠ some 1 ∧
        (9 : Byte).toNat < channelCount contStart.profile .adc ∧
        (calGet contStart.cal .adc (9 : Byte).toNat).isSome = true) ∧
      (∃ t, steps 2 (wholly contStart (.readVoltage 9 none) 1 [.answered [0, 0x40, 0, 0]]) = .next t ∧
        (ioOf t .adc).running = some { unit := 1, next := .assemble [0x40, 0, 0], entries := [9], out := [] }) ∧
      (∃ t, steps 2 (wholly contStart (.singleSample (some 1)) 1 [.answered [0, 0x40, 0, 0]]) = .next t ∧
        (ioOf t .adc).running = some { unit := 1, next := .assemble [0x40, 0, 0], entries := [9], out := [] }) ∧
      -- pulse: a lookup fault, and the read
      (mirrorGet pulseStart .adc 0 ≠ some refAdc.continuous ∧ LookupRaises pulseStart .adc 12 .invalidDifferentialPairError ∧
        (calGet pulseStart.cal .adc (1 : Byte).toNat).isSome = true ∧ mirrorGet pulseStart .adc 2 = some 2) ∧
      (∃ t, steps 5 (wholly pulseStart (.readVoltage 1 none) 4 pulseReplies) = .next t ∧
        (ioOf t .adc).running = some { unit := 1, next := .assemble [0x40, 0, 0], entries := [1], out := [] }) ∧
      -- the three code bytes: a voltage, and a fault
      ((∃ v, Volts contStart 9 [0x40, 0, 0] (.ok v)) ∧ (∃ e, Volts start 2 [0x40, 0, 0] (.error e)) ∧
        (inSequence start .adc (.assemble [0x40, 0, 0]) [2] []).port = [.proceed .adc]) := by
  refine ⟨by decide +kernel, by decide +kernel, by decide +kernel, about_of (by decide +kernel),
    about_of (by decide +kernel), ⟨by decide +kernel, by unfold LookupRaises; decide +kernel, by decide +kernel,
      by decide +kernel⟩, about_of (by decide +kernel), ⟨⟨0x00E00000, ?_⟩, ⟨raised .calibKeyMissingError 2, ?_⟩, rfl⟩⟩
  · exact volts_of (g := 0) (setting := 1) (x := 0x01400000) (by decide +kernel) (by decide +kernel) (by decide +kernel)
      (by decide +kernel)
  · refine volts_error_of (g := 0) (setting := 1) (by decide +kernel) (by decide +kernel) ?_
    have h : adcCode2v start.profile.adc 1 (BitVec.ofNat 32 (65536 * (0x40 : Byte).toNat + 256 * (0 : Byte).toNat + (0 : Byte).toNat)) =
        .ok 0x01400000 := ok_of (by decide +kernel)
    rw [h]
    rfl

/-- The TC configured for pulse mode. -/
def tempStart : State :=
  { commitFields .tc [(1, 0), (2, 3)] start with tcConv := { mode := .configuring, pulseDone := false } }

/-- The TC converting in continuous mode. -/
def tempRuns : State := { commitFields .tc [(0, 1)] start with tcConv := { mode := .converting, pulseDone := false } }

theorem witness_TemperatureSequence :
    (isFree tempStart .tc = true ∧ mirrorGet tempStart .tc 0 ≠ some refTc.continuous ∧ isFree tempRuns .tc = true ∧
      mirrorGet tempRuns .tc 0 = some refTc.continuous) ∧
      (∃ t, steps 2 (wholly tempRuns (.readTemperatures none) 1 [.answered [0, 0x88, 0, 0xC0, 0, 0]]) = .next t ∧
        (ioOf t .tc).running = some { unit := 1, next := .toTemperatures [0x88, 0, 0xC0, 0, 0], entries := [], out := [] }) ∧
      (∃ t, steps 5 (wholly tempStart (.readTemperatures none) 4 (zeros 1 ++ [.answered [0, 0x88, 0, 0xC0, 0, 0]])) =
          .next t ∧
        (ioOf t .tc).running = some { unit := 1, next := .toTemperatures [0x88, 0, 0xC0, 0, 0], entries := [], out := [] }) ∧
      (inSequence start .tc (.toTemperatures [0x88, 0, 0xC0, 0, 0]) [] []).port = .proceed .tc :: [] ∧
      exec (.tcCode2t 0x88 0 0xC0 0 0) start =
        .next (answer start [0xFFFFE200, 0xFFFE0000, 0xFF880000, 0xFC000000]) := by
  refine ⟨by decide +kernel, about_of (by decide +kernel), about_of (by decide +kernel), rfl, ?_⟩
  exact congrArg (fun x => pureOutcome x _) (oks_of (by decide +kernel))

end Sys2Proof.Tests
end

section
/-! Rule R12, rounding: `rnd` gives the nearest integer, ties going away from zero, and only that one. -/

namespace Sys2Proof.Machine
open Sys2Proof.Config

/-- Rounding is symmetric about zero. -/
theorem roundsTo_neg {x : ℚ} {k : Int} (h : RoundsTo x k) : RoundsTo (-x) (-k) := by
  obtain ⟨hnear, htie⟩ := h
  have hdist : |-x - ((-k : Int) : ℚ)| = |x - k| := by
    rw [← abs_neg (x - k)]
    congr 1
    push_cast
    ring
  exact ⟨hdist ▸ hnear, fun h => by simpa using htie (hdist ▸ h)⟩

/-- At zero and above, the floor of `x + 1/2` is the nearest integer, and a tie goes up. -/
theorem roundsTo_floor_of_nonneg {x : ℚ} (h : 0 ≤ x) : RoundsTo x (x + 1 / 2).floor := by
  have hle : ((x + 1 / 2).floor : ℚ) ≤ x + 1 / 2 := Int.floor_le _
  have hlt : x + 1 / 2 < ((x + 1 / 2).floor : ℚ) + 1 := Int.lt_floor_add_one _
  refine ⟨abs_le.mpr ⟨by linarith, by linarith⟩, fun htie => ?_⟩
  rcases (abs_eq (by norm_num)).mp htie with hup | hdown
  · linarith
  · rw [abs_of_nonneg h]
    exact lt_of_lt_of_le (by linarith) (le_abs_self _)

/-- Below zero `rnd` is the mirror image of `rnd` above it. -/
theorem rnd_of_neg {x : ℚ} (h : x < 0) : rnd x = -rnd (-x) := by
  simp [rnd, not_le.mpr h, h.le]

theorem roundsTo_rnd (x : ℚ) : RoundsTo x (rnd x) := by
  rcases le_or_gt 0 x with h | h
  · simpa [rnd, h] using roundsTo_floor_of_nonneg h
  · have hneg : RoundsTo (-x) (rnd (-x)) := by
      simpa [rnd, h.le] using roundsTo_floor_of_nonneg (neg_nonneg.mpr h.le)
    simpa [rnd_of_neg h] using roundsTo_neg hneg

/-- Of two different integers within a half of `x` the lower is a half below it and the upper a half above. -/
theorem midpoint_of_two_nearest {x : ℚ} {k m : Int} (hk : |x - k| ≤ 1 / 2) (hm : |x - m| ≤ 1 / 2) (h : k < m) :
    m = k + 1 ∧ x = k + 1 / 2 := by
  obtain ⟨_, hk'⟩ := abs_le.mp hk
  obtain ⟨hm', _⟩ := abs_le.mp hm
  have h1 : (k : ℚ) + 1 ≤ m := by exact_mod_cast h
  have h2 : (m : ℚ) ≤ k + 1 := by linarith
  exact ⟨le_antisymm (by exact_mod_cast h2) h, by linarith⟩

/-- The two neighbours of a midpoint are not both away from zero: no integer is rounded to below another. -/
theorem not_roundsTo_lt {x : ℚ} {k m : Int} (hk : RoundsTo x k) (hm : RoundsTo x m) : ¬ k < m := by
  intro h
  obtain ⟨rfl, rfl⟩ := midpoint_of_two_nearest hk.1 hm.1 h
  have low : |(k : ℚ) + 1 / 2| < |(k : ℚ)| := hk.2 (by norm_num [abs_of_pos])
  have high : |(k : ℚ) + 1 / 2| < |((k + 1 : Int) : ℚ)| := hm.2 (by push_cast; norm_num [abs_of_neg])
  push_cast at high
  rcases le_or_gt 0 k with h0 | h0
  · have hk0 : (0 : ℚ) ≤ k := by exact_mod_cast h0
    rw [abs_of_nonneg hk0, abs_of_nonneg (by linarith)] at low
    linarith
  · have hk0 : (k : ℚ) + 1 ≤ 0 := by exact_mod_cast h0
    rw [abs_of_nonpos hk0, abs_of_nonpos (by linarith)] at high
    linarith

theorem roundsTo_unique {x : ℚ} {k m : Int} (hk : RoundsTo x k) (hm : RoundsTo x m) : k = m :=
  le_antisymm (not_lt.mp (not_roundsTo_lt hm hk)) (not_lt.mp (not_roundsTo_lt hk hm))

/-- Settles O52: `rnd` rounds as rule R12 says, and two integers that `x` rounds to are one. -/
theorem roundingIsNearest : Obligations.RoundingIsNearest :=
  fun x => ⟨roundsTo_rnd x, fun _ h => roundsTo_unique h (roundsTo_rnd x)⟩

end Sys2Proof.Machine
end

section
/-! What an operation does to the ports towards the transport and to who is busy, proved by one induction over what
operations are made of. -/

namespace Sys2Proof.Machine
open Sys2Proof.Config

/-! ### Every operation is made of a few updates -/

/-- A preorder on states that holds across each update an operation makes besides its transfers: a chip's mirror and
flags, a conversion state, the calibration table, the result port. -/
structure AcrossUpdates (R : State → State → Prop) : Prop where
  refl : ∀ s, R s s
  trans : ∀ {s t u}, R s t → R t u → R s u
  cfg : ∀ s c x, R s (withCfg s c x)
  conv : ∀ s k x, R s (withConv s k x)
  cal : ∀ s cal race, R s { s with cal := cal, calRace := race }
  result : ∀ s r, R s (withResult s r)

/-- A relation that holds across every transfer, however it goes. -/
def AcrossTransfers (R : State → State → Prop) : Prop :=
  ∀ c f info s, R s (endState (transfer c f info s))

section
variable {R : State → State → Prop} (hR : AcrossUpdates R) (hT : AcrossTransfers R)
include hR

theorem across_andThen {α β : Type} {x : OpEnd α} {f : α → State → OpEnd β} {s : State} (hx : R s (endState x))
    (hf : ∀ a v, R v (endState (f a v))) : R s (endState (andThen x f)) := by
  rcases andThen_end x f with h | ⟨a, v, rfl, h⟩ <;> rw [h]
  · exact hx
  · exact hR.trans hx (hf a v)

theorem across_lift {α : Type} (x : Except Raised α) (s : State) : R s (endState (lift x s)) := by
  cases x <;> exact hR.refl s

theorem across_cfgCommit (c : Chip) (req : List Pair) (s : State) : R s (endState (cfgCommit c req s)) := by
  unfold cfgCommit
  split
  · exact hR.refl s
  · exact hR.cfg ..

theorem across_cfgLoad (c : Chip) (regs : List RegByte) (s : State) : R s (endState (cfgLoad c regs s)) := by
  unfold cfgLoad
  split
  · exact hR.refl s
  · split
    · exact hR.refl s
    · exact hR.cfg ..

theorem across_setCal (m : Chip) (ch : Nat) (x : CalPair) (s : State) : R s (endState (setCal m ch x s)) := by
  unfold setCal
  split
  · exact hR.refl s
  · exact hR.cal ..

theorem across_convDone (c : ConvChip) (s : State) : R s (convDone c s) := by
  unfold convDone
  split
  · exact hR.conv ..
  · exact hR.refl s

theorem across_enterConfiguring (c : Chip) (s : State) : R s (enterConfiguring c s) := by
  unfold enterConfiguring
  split
  · exact hR.conv ..
  · exact hR.refl s

theorem across_mirrorReset (c : Chip) (s : State) : R s (mirrorReset c s) := by
  unfold mirrorReset
  split
  · exact hR.trans (hR.cfg ..) (hR.conv ..)
  · exact hR.cfg ..

theorem across_settle (x : Except Raised (List Word)) (s : State) : R s (settle x s) := by
  obtain ⟨r, h⟩ := settle_result x s
  exact h ▸ hR.result s r

/-- An operation's outcome is a next state, across from its first one as its end is. -/
theorem across_outcome {α : Type} (fmt : α → List Word) {x : OpEnd α} {s : State} (hx : R s (endState x)) :
    ∃ t, outcome fmt x = .next t ∧ R s t := by
  cases x with
  | done a v => exact ⟨_, rfl, hR.trans hx (hR.result v _)⟩
  | raised e v => exact ⟨_, rfl, hR.trans hx (hR.result v _)⟩
  | hung v => exact ⟨_, rfl, hx⟩

include hT

theorem across_writeRegisters (c : Chip) (ws : List RegWrite) (s : State) : R s (endState (writeRegisters c ws s)) := by
  induction ws generalizing s with
  | nil => exact hR.refl s
  | cons w rest ih =>
    rw [writeRegisters]
    split
    · exact hR.refl s
    · rename_i f _
      have h := hT c f w.reg.toNat s
      cases ht : transfer c f w.reg.toNat s with
      | done r v => rw [ht] at h; exact hR.trans h (hR.trans (hR.cfg ..) (ih _))
      | raised e v => rw [ht] at h; exact hR.trans h (hR.cfg ..)
      | hung v => rw [ht] at h; exact h

theorem across_setConfig (c : Chip) (req : List Pair) (s : State) : R s (endState (setConfig c req s)) := by
  unfold setConfig
  split
  · exact hR.refl s
  · split
    · exact hR.refl s
    · split
      · exact hR.refl s
      · exact across_andThen hR
          (hR.trans (across_enterConfiguring hR c s) (across_writeRegisters hR hT ..)) fun _ v => hR.cfg v ..

theorem across_cfgReassert (c : Chip) (s : State) : R s (endState (cfgReassert c s)) := by
  unfold cfgReassert
  split
  · exact hR.refl s
  · exact across_andThen hR (across_writeRegisters hR hT ..) fun _ v => hR.cfg v ..

theorem across_startConv (c : ConvChip) (u : BitVec 9) (s : State) : R s (endState (startConv c u s)) := by
  unfold startConv
  split
  · exact hR.refl s
  · split
    · exact hR.refl s
    · split
      · exact hR.refl s
      · exact across_andThen hR (hT ..) fun _ v => hR.conv v ..

theorem across_stopConv (c : ConvChip) (u : BitVec 9) (s : State) : R s (endState (stopConv c u s)) := by
  unfold stopConv
  split
  · exact hR.refl s
  · split
    · exact hR.refl s
    · exact across_andThen hR (hT ..) fun _ v => hR.conv v ..

theorem across_readCode (c : ConvChip) (u : BitVec 9) (s : State) : R s (endState (readCode c u s)) := by
  unfold readCode
  split
  · exact hR.refl s
  · exact across_andThen hR (hT ..) fun _ v => across_lift hR _ v

theorem across_readCont (c : ConvChip) (u : BitVec 9) (s : State) : R s (endState (readCont c u s)) := by
  unfold readCont
  split
  · exact across_readCode hR hT c u s
  · exact hR.refl s

theorem across_readPulse (c : ConvChip) (u : BitVec 9) (s : State) : R s (endState (readPulse c u s)) := by
  unfold readPulse
  split
  · exact across_andThen hR (across_readCode hR hT c u s) fun _ v => hR.conv v ..
  · exact hR.refl s

theorem across_sendByHand (c : Chip) (frame : Except Raised Frame) (parse : Frame → Except Raised (List Word))
    (s : State) : R s (endState (sendByHand c frame parse s)) := by
  cases frame with
  | error e => exact hR.refl s
  | ok f => exact across_andThen hR (hT ..) fun _ v => across_lift hR _ v

end

/-- A hand-sent frame is a transfer. -/
theorem transfers_of_isWire {i : Instr} (h : isWire i = true) : transfers i = true := by
  cases i <;> first
    | rfl
    | exact absurd h Bool.false_ne_true

/-- Every instruction answers a next state, and what holds across the updates it makes holds across it; across a transfer
it need hold only where the instruction makes one. -/
theorem across_exec {R : State → State → Prop} (hR : AcrossUpdates R) (i : Instr)
    (hT : transfers i = true → AcrossTransfers R) (s : State) : ∃ t, exec i s = .next t ∧ R s t := by
  by_cases hp : isCodec i = true ∨ isConversion i = true ∨ isReserved i = true
  · obtain ⟨x, hx⟩ := exec_pure hp s
    exact ⟨_, hx, across_settle hR x s⟩
  by_cases hw : isWire i = true
  · obtain ⟨c, frame, parse, hx⟩ := exec_wire hw s
    rw [hx]
    exact across_outcome hR id (across_sendByHand hR (hT (transfers_of_isWire hw)) c frame parse s)
  cases i
  case cfgDiff => exact across_outcome hR _ (across_lift hR ..)
  case cfgCommit => exact across_outcome hR _ (across_cfgCommit hR ..)
  case setConfig => exact across_outcome hR _ (across_setConfig hR (hT rfl) ..)
  case startConv => exact across_outcome hR _ (across_startConv hR (hT rfl) ..)
  case stopConv => exact across_outcome hR _ (across_stopConv hR (hT rfl) ..)
  case convDone c => exact ⟨_, rfl, hR.trans (across_convDone hR c s) (hR.result ..)⟩
  case readCont => exact across_outcome hR _ (across_readCont hR (hT rfl) ..)
  case readPulse => exact across_outcome hR _ (across_readPulse hR (hT rfl) ..)
  case mirrorReset c => exact ⟨_, rfl, hR.trans (across_mirrorReset hR c s) (hR.result ..)⟩
  case cfgLoad => exact across_outcome hR _ (across_cfgLoad hR ..)
  case cfgReassert => exact across_outcome hR _ (across_cfgReassert hR (hT rfl) ..)
  case calSet => exact across_outcome hR _ (across_setCal hR ..)
  all_goals first
    | exact absurd rfl hw
    | exact absurd (.inl rfl) hp
    | exact absurd (.inr (.inl rfl)) hp
    | exact absurd (.inr (.inr rfl)) hp

/-! ### What went out, and who waits -/

/-- From `s` to `t` these frames went out: the trace port took some of them, each counts one transfer and uses up one of
the transport's answers, what is presented stays, and no chip became busy or free unless a transfer to come
never returns. -/
structure Emitted (s : State) (frames : List (Chip × Frame)) (t : State) : Prop where
  tx : t.tx = s.tx ++ frames
  trace : ∃ copies, t.trace = s.trace ++ copies ∧ copies.Sublist frames
  transfers : t.transfers = s.transfers + frames.length
  replies : t.replies = s.replies.drop frames.length
  port : t.port = s.port
  busy : (∀ j, replyAt s j ≠ .never) → ∀ c, isBusy t c = isBusy s c

/-- Where the ports are the same and so is who is busy, nothing went out. -/
theorem Emitted.of_same {s t : State} (hp : samePorts s t) (hb : ∀ c, isBusy t c = isBusy s c) : Emitted s [] t := by
  obtain ⟨port, replies, transfers, tx, trace⟩ := hp
  exact ⟨by simp [tx], ⟨[], by simp [trace], .slnil⟩, by simp [transfers], by simp [replies], port, fun _ => hb⟩

/-- What went out in two stretches, one after the other. -/
theorem Emitted.trans {s t u : State} {fs gs : List (Chip × Frame)} (h : Emitted s fs t) (k : Emitted t gs u) :
    Emitted s (fs ++ gs) u where
  tx := by simp [k.tx, h.tx]
  trace := by
    obtain ⟨cs, hcs, hsub⟩ := h.trace
    obtain ⟨ds, hds, ksub⟩ := k.trace
    exact ⟨cs ++ ds, by simp [hds, hcs], hsub.append ksub⟩
  transfers := by simp [k.transfers, h.transfers, Nat.add_assoc]
  replies := by simp [k.replies, h.replies, List.drop_drop]
  port := k.port.trans h.port
  busy := fun hn c => by
    have hb := h.busy hn
    have later : ∀ j, replyAt t j ≠ .never := fun j => replyAt_congr hb h.replies h.transfers j ▸ hn _
    rw [k.busy later, hb]

theorem Emitted.sent (s : State) {c : Chip} {fs : List Frame} {cs : List (Chip × Frame)} (h : copiesOf c fs cs) :
    Emitted s (fs.map fun f => (c, f)) (sent s c fs cs) :=
  ⟨rfl, ⟨cs, rfl, h⟩, by simp, by simp, rfl, fun _ _ => isBusy_sent ..⟩

/-- Waiting for a transfer that never returns: the frame is out all the same. -/
theorem Emitted.markBusy {s t : State} {fs : List (Chip × Frame)} (h : Emitted s fs t) (hn : replyAt s 0 = .never)
    (c : Chip) : Emitted s fs (markBusy t c) :=
  ⟨h.tx, h.trace, h.transfers, h.replies, h.port, fun hr => absurd hn (hr 0)⟩

/-- A transfer emits its one frame, however it goes. -/
theorem transfer_emitted (c : Chip) (f : Frame) (info : Nat) (s : State) :
    Emitted s [(c, f)] (endState (transfer c f info s)) := by
  rcases transfer_cases c f info s with ⟨r, cs, hc, _, h⟩ | ⟨cs, hc, h⟩ | ⟨cs, hc, hn, h⟩ <;> rw [h]
  · exact .sent s hc
  · exact .sent s hc
  · exact (Emitted.sent s hc).markBusy hn c

/-- Some frames went out, and none unless `allowed`. -/
def EmitsOnlyIf (allowed : Prop) (s t : State) : Prop := ∃ frames, Emitted s frames t ∧ (frames ≠ [] → allowed)

theorem EmitsOnlyIf.of_same {allowed : Prop} {s t : State} (hp : samePorts s t) (hb : ∀ c, isBusy t c = isBusy s c) :
    EmitsOnlyIf allowed s t := ⟨[], .of_same hp hb, fun h => absurd rfl h⟩

theorem EmitsOnlyIf.trans {allowed : Prop} {s t u : State} (h : EmitsOnlyIf allowed s t) (k : EmitsOnlyIf allowed t u) :
    EmitsOnlyIf allowed s u := by
  obtain ⟨fs, hf, ha⟩ := h
  obtain ⟨gs, kf, ka⟩ := k
  refine ⟨fs ++ gs, hf.trans kf, fun hne => ?_⟩
  by_cases hfs : fs = []
  · exact ka (by simpa [hfs] using hne)
  · exact ha hfs

/-- No update but a transfer touches the ports towards the transport, or makes a chip busy. -/
theorem emitsOnlyIf_acrossUpdates (allowed : Prop) : AcrossUpdates (EmitsOnlyIf allowed) where
  refl _ := .of_same ⟨rfl, rfl, rfl, rfl, rfl⟩ fun _ => rfl
  trans := .trans
  cfg s c x := .of_same ⟨by simp, by simp, by simp, by simp, by simp⟩ fun d => isBusy_withCfg s c x d
  conv s k x := .of_same ⟨by simp, by simp, by simp, by simp, by simp⟩ fun d => isBusy_withConv s k x d
  cal s _ _ := .of_same ⟨rfl, rfl, rfl, rfl, rfl⟩ fun d => by cases d <;> rfl
  result s r := .of_same ⟨rfl, rfl, rfl, rfl, rfl⟩ fun d => isBusy_withResult s r d

/-- Every instruction answers a next state, and emits frames only if it is one that transfers. -/
theorem exec_emitsOnlyIf (i : Instr) (s : State) :
    ∃ t, exec i s = .next t ∧ EmitsOnlyIf (transfers i = true) s t :=
  across_exec (emitsOnlyIf_acrossUpdates _) i (fun ht c f info s => ⟨_, transfer_emitted c f info s, fun _ => ht⟩) s

/-- The same of a next state that is given. -/
theorem exec_next_emits {i : Instr} {s t : State} (h : exec i s = .next t) :
    ∃ frames, Emitted s frames t ∧ (frames ≠ [] → transfers i = true) := by
  obtain ⟨u, hu, he⟩ := exec_emitsOnlyIf i s
  obtain rfl : u = t := by simpa [hu] using h
  exact he

/-- Settles O39: what an instruction emits, read off the ports. -/
theorem portsOnlyGrow : Obligations.PortsOnlyGrow := by
  intro i s t h
  obtain ⟨frames, he, honly⟩ := exec_next_emits h
  obtain ⟨copies, htrace, hsub⟩ := he.trace
  exact ⟨frames, copies, he.tx, htrace, hsub, he.transfers, he.replies, he.port, honly⟩

end Sys2Proof.Machine
end

section
/-! Nothing stops the machine, and a transfer that never returns keeps its chip busy and the bus held (rules R71, R78, R270,
R292 and R298). -/

namespace Sys2Proof.Machine
open Sys2Proof.Config

/-! ### Every step answers a next state -/

theorem exec_next (i : Instr) (s : State) : ∃ t, exec i s = .next t := by
  obtain ⟨t, h, _⟩ := exec_emitsOnlyIf i s
  exact ⟨t, h⟩

theorem outcome_is_next {α : Type} (fmt : α → List Word) (x : OpEnd α) : ∃ t, outcome fmt x = .next t := by
  cases x <;> exact ⟨_, rfl⟩

theorem runItem_next (item : PortItem) (s : State) : ∃ t, runItem item s = .next t := by
  unfold runItem
  split
  · exact exec_next ..
  · cases item with
    | command w ws => exact ⟨_, rfl⟩
    | frame c f => exact outcome_is_next ..

theorem runRacing_is_next (i : Instr) (s : State) : ∃ t, runRacing i s = .next t := by
  obtain ⟨t, h⟩ := exec_next i { s with cal := racedCal s }
  exact ⟨_, by rw [runRacing, h]⟩

/-- A controller's step is an operation, a pure function or a frame of its own, each of which answers. -/
theorem performStep_next (c : Chip) (r : SeqRun) (s : State) : ∃ t, performStep c r s = .next t := by
  unfold performStep
  cases r.next
  case toVolts => exact ⟨_, rfl⟩
  case sendUpdate => exact outcome_is_next ..
  case buildReset => exact ⟨_, rfl⟩
  case sendReset => exact outcome_is_next ..
  all_goals exact exec_next ..

theorem proceed_next (c : Chip) (s : State) : ∃ t, proceed c s = .next t := by
  cases h : (ioOf s c).running with
  | none => exact ⟨_, proceed_none h⟩
  | some r =>
    obtain ⟨t, ht⟩ := performStep_next c r s
    exact ⟨_, proceed_some h ht⟩

theorem runEvent_next (e : Event) (s : State) : ∃ t, runEvent e s = .next t := by
  cases e with
  | present item => exact runItem_next ..
  | concurrent w ws =>
    simp only [runEvent]
    split
    · exact runRacing_is_next ..
    · exact runItem_next ..
  | construct c store => exact ⟨_, rfl⟩
  | sequence q => exact ⟨_, rfl⟩
  | proceed c => exact proceed_next ..
  | restart store => exact ⟨_, rfl⟩

theorem step_next (s : State) : ∃ t, step s = .next t := by
  unfold step
  split
  · exact ⟨_, rfl⟩
  · exact runEvent_next ..

/-! ### A START_CONV that waits for its transfer -/

/-- A unit's table entry is found where the statements say it is defined. -/
theorem unitEntry_eq {α : Type} {nunits u : Nat} (h1 : 1 ≤ u) (h2 : u ≤ nunits) (table : List α) :
    unitEntry nunits table u = table[u - 1]? := if_pos ⟨h1, h2⟩

/-- The frame of the statements is the one START_CONV builds. -/
theorem startFrame_of_unitFrame {p : ChipProfile} {m : List (Byte × Byte)} {c : ConvChip} {u : Nat} {f : Frame}
    (h : UnitFrame p m c p.opStart 0 p.startFrame u f) : startFrame p m c u = .ok f := by
  obtain ⟨h1, h2, h⟩ := h
  cases c with
  | adc =>
    obtain ⟨b, hb, rfl⟩ := h
    simp [startFrame, unitFrame, unitEntry_eq h1 h2, hb]
  | tc =>
    obtain ⟨t, ht, rfl⟩ := h
    simp [startFrame, templateFrame, unitEntry_eq h1 h2, ht]

/-- A START_CONV whose transfer never returns has its frame out and waits. -/
theorem startConv_never {c : ConvChip} {u : BitVec 9} {s : State} {f : Frame} (hn : replyAt s 0 = .never)
    (hset : firstUnset s c = none) (hmode : (convOf s c).mode = .configuring)
    (hf : startFrame (profOf s c.toChip) (cfgOf s c.toChip).mirror c u.toNat = .ok f) :
    ∃ copies, copiesOf c.toChip [f] copies ∧
      startConv c u s = .hung (markBusy (sent s c.toChip [f] copies) c.toChip) := by
  obtain ⟨copies, hc, ht⟩ := transfer_never hn c.toChip f 0
  exact ⟨copies, hc, by simp [startConv, hset, hmode, hf, ht]⟩

/-- Settles O38: totality, who makes a chip busy, START_CONV's wait, and the held bus. -/
theorem hungTransferHoldsItsInstance : Obligations.HungTransferHoldsItsInstance := by
  refine ⟨exec_next, step_next, fun i s t h hn => ?_, fun c u s f hn hset hmode hf => ?_, fun s c hb => replyAt_busy hb⟩
  · obtain ⟨frames, he, _⟩ := exec_next_emits h
    exact he.busy hn
  · obtain ⟨copies, hc, hs⟩ := startConv_never hn (firstUnset_none.mpr hset) hmode (startFrame_of_unitFrame hf)
    refine ⟨markBusy (sent s c.toChip [f] copies) c.toChip, copies, ?_, hc, ?_, ?_, ?_, fun d => ?_⟩
    · rw [exec, execStartConv, hs, outcome_hung]
    · simp [isBusy_markBusy]
    · exact sameCore_sent s c.toChip [f] copies
    · exact ⟨rfl, rfl, rfl, rfl, rfl⟩
    · simp [result_markBusy]

end Sys2Proof.Machine
end

section
/-! The 18 hand-sent rows: each sends the very bytes it is presented as, and reads its response by its row (rules R15,
R97, R319 and R322; log entry 7). -/

namespace Sys2Proof.Machine
open Sys2Proof.Config

/-! ### What a row reads of its response -/

/-- `parse` reads a response as the row of `i` with a frame of `n` bytes does: the words where the response reaches, else
`ShortReadError`. -/
def ReadsAsRow (i : Instr) (n : Nat) (parse : Frame → Except Raised (List Word)) : Prop :=
  ∀ r : Frame, (wireLead i = none ∨ n ≤ r.length → parse r = .ok (wireWords i n r)) ∧
    (wireLead i ≠ none → r.length < n → parse r = .error (raised .shortReadError r.length))

/-- A row that brings nothing back. -/
theorem readsAsRow_nothing {i : Instr} {n : Nat} (h : wireLead i = none) : ReadsAsRow i n parseNothing :=
  fun _ => ⟨fun _ => by simp [parseNothing, wireWords, h], fun hn => absurd h hn⟩

/-- A register read: the registers stand after the header. -/
theorem readsAsRow_registers {i : Instr} {c : ConvChip} {count n : Nat} (h : wireLead i = some (lead c))
    (hrun : fitsRun count = true) (hn : n = lead c + count) : ReadsAsRow i n (parseRegisters c count) := by
  obtain ⟨h1, h2⟩ : 1 ≤ count ∧ count ≤ countMax := by simpa [fitsRun] using hrun
  have hc : ¬ (count < 1 ∨ countMax < count) := by omega
  subst hn
  refine fun r => ⟨fun hr => ?_, fun _ hr => ?_⟩
  · have hl : ¬ r.length < lead c + count := by simpa [h] using hr
    simp only [parseRegisters, parseRead, if_neg hc, if_neg hl, frameWords_ok, wireWords, h, Nat.add_sub_cancel_left]
  · simp only [parseRegisters, parseRead, if_neg hc, if_pos hr, frameWords_error]

/-- A read-data frame: the code bytes stand after the command. -/
theorem readsAsRow_code {i : Instr} (h : wireLead i = some (readLead .adc)) :
    ReadsAsRow i (readLead .adc + codeBytes .adc) parseCode := by
  refine fun r => ⟨fun hr => ?_, fun _ hr => ?_⟩
  · have hl : ¬ r.length < readLead .adc + codeBytes .adc := by simpa [h] using hr
    simp [parseCode, hl, wireWords, h]
  · simp [parseCode, hr]

/-! ### What a row sends -/

/-- A command the profile has is sent as the encoder presents it. -/
theorem unitFrame_eq_frameOr {p : ChipProfile} {table : List Byte} {u : Nat} (extra : Nat)
    (h : (unitEntry p.nunits table u).isSome = true) :
    unitFrame p table u extra = .ok (frameOr (unitFrame p table u extra)) := by
  obtain ⟨b, hb⟩ := Option.isSome_iff_exists.mp h
  simp [unitFrame, hb, frameOr]

theorem commandFrame_eq_frameOr {op : Option Byte} (h : op.isSome = true) :
    commandFrame op = .ok (frameOr (commandFrame op)) := by
  obtain ⟨b, rfl⟩ := Option.isSome_iff_exists.mp h
  rfl

theorem frameOr_unitFrame_length {p : ChipProfile} {table : List Byte} {u : Nat} (extra : Nat)
    (h : (unitEntry p.nunits table u).isSome = true) : (frameOr (unitFrame p table u extra)).length = 1 + extra := by
  obtain ⟨b, hb⟩ := Option.isSome_iff_exists.mp h
  simp [unitFrame, hb, frameOr, Nat.add_comm]

/-- The row of `i` hands the frame `f` to the chip `c` and reads its response by its row. -/
def SendsRow (i : Instr) (c : Chip) (f : Frame) (s : State) : Prop :=
  ∃ parse, exec i s = wireOutcome (sendByHand c (.ok f) parse s) ∧ ReadsAsRow i f.length parse

/-- A row that brings nothing back sends its frame. -/
theorem sendsRow_nothing {i : Instr} {c : Chip} {f : Frame} {frame : Except Raised Frame} {s : State}
    (he : exec i s = wireOutcome (sendByHand c frame parseNothing s)) (hf : frame = .ok f) (hl : wireLead i = none) :
    SendsRow i c f s :=
  ⟨_, hf ▸ he, readsAsRow_nothing hl⟩

/-- A read-data row sends its frame. -/
theorem sendsRow_rdata {i : Instr} {u : Nat} {s : State} (he : exec i s = sendRdata u s)
    (hu : (unitEntry s.profile.adc.nunits s.profile.adc.opRdata u).isSome = true) (hl : wireLead i = some 1) :
    SendsRow i .adc (frameOr (unitFrame s.profile.adc s.profile.adc.opRdata u (codeBytes .adc))) s := by
  refine ⟨parseCode, ?_, ?_⟩
  · rw [← unitFrame_eq_frameOr _ hu]
    exact he
  · rw [frameOr_unitFrame_length _ hu]
    exact readsAsRow_code hl

/-- Every well-formed row sends the very bytes it is presented as. -/
theorem wire_sendsRow {i : Instr} {c : Chip} {f : Frame} {s : State} (hw : isWire i = true)
    (hok : i.wellFormed s.profile = true) (he : encode s.profile i = .frame c f) : SendsRow i c f s := by
  cases i
  all_goals first
    | exact absurd hw Bool.false_ne_true
    | (simp only [encode, PortItem.frame.injEq] at he
       obtain ⟨rfl, rfl⟩ := he
       simp only [Instr.wellFormed, Bool.and_eq_true] at hok)
  case wRreg a dummies =>
    exact ⟨_, rfl, readsAsRow_registers rfl hok.1.1 (by simp [rwFrame, lead]; omega)⟩
  case wRregRefAdc a cnt =>
    have hrun : fitsRun (cnt.toNat + 1) = true := by
      have := cnt.isLt
      simp [fitsRun, countMax]
      omega
    exact ⟨_, rfl, readsAsRow_registers rfl hrun (by simp [rwFrame, lead, dummiesFor]; omega)⟩
  case wTcRead a dummies => exact ⟨_, rfl, readsAsRow_registers rfl hok.1 (by simp [lead]; omega)⟩
  case wRdata1 => exact sendsRow_rdata rfl hok rfl
  case wRdata2 => exact sendsRow_rdata rfl hok rfl
  case wReset => exact sendsRow_nothing rfl (commandFrame_eq_frameOr hok) rfl
  case wNop => exact sendsRow_nothing rfl (commandFrame_eq_frameOr hok) rfl
  all_goals first
    | exact sendsRow_nothing rfl rfl rfl
    | exact sendsRow_nothing rfl (unitFrame_eq_frameOr 0 hok) rfl

/-! ### How it ends -/

/-- A frame sent by hand that the transport answers: it is out, and the response is read. -/
theorem sendByHand_answered {s : State} {r : Frame} (hr : replyAt s 0 = .answered r) (c : Chip) (f : Frame)
    (parse : Frame → Except Raised (List Word)) :
    ∃ copies, copiesOf c [f] copies ∧
      sendByHand c (.ok f) parse s = lift (parse r) (sent s c [f] copies) := by
  obtain ⟨copies, hc, ht⟩ := transfer_answered hr c f 0
  exact ⟨copies, hc, by simp [sendByHand, ht]⟩

/-- A frame sent by hand whose transfer fails: it is out, and nothing else changes. -/
theorem sendByHand_failed {s : State} (hr : replyAt s 0 = .failed) (c : Chip) (f : Frame)
    (parse : Frame → Except Raised (List Word)) :
    ∃ copies, copiesOf c [f] copies ∧
      sendByHand c (.ok f) parse s = .raised (raised .transportFault 0) (sent s c [f] copies) := by
  obtain ⟨copies, hc, ht⟩ := transfer_failed hr c f 0
  exact ⟨copies, hc, by simp [sendByHand, ht]⟩

/-- Settles O53: the row's send, answered, too short, or failed. -/
theorem handSentFrameCompletes : Obligations.HandSentFrameCompletes := by
  intro i c f s hw hok he
  obtain ⟨parse, hx, hparse⟩ := wire_sendsRow hw hok he
  refine ⟨fun r hr => ?_, fun hr => ?_⟩
  · obtain ⟨copies, hc, hs⟩ := sendByHand_answered hr c f parse
    obtain ⟨hlong, hshort⟩ := hparse r
    refine ⟨copies, hc, fun hl => ?_, fun hl hlt => ?_⟩
    · rw [hx, hs, hlong hl]
      rfl
    · rw [hx, hs, hshort hl hlt]
      rfl
  · obtain ⟨copies, hc, hs⟩ := sendByHand_failed hr c f parse
    exact ⟨copies, hc, by rw [hx, hs]; rfl⟩

end Sys2Proof.Machine
end

section
/-! The invariant of the model: what a part of the state must meet, one rule for each update of the state, and the reset
state (rules R38, R178 and R256). -/

namespace Sys2Proof.Machine
open Sys2Proof.Config

/-! ### The parts of the invariant -/

/-- The two "cannot occur" cells of rule R178, as implications. -/
theorem convWf_iff {p : ChipProfile} {x : CfgInstance} {k : ConvState} : convWf p x k = true ↔
    (k.pulseDone = true → k.mode = .idle) ∧
      (k.mode = .converting → ∀ f ∈ p.required, isSet x.setMask f = true) := by
  rw [convWf, Bool.and_eq_true]
  refine and_congr ?_ ?_
  · cases k.pulseDone <;> simp
  · by_cases h : k.mode = .converting <;> simp [h]

/-- A conversion state other than Converting asks nothing of `SetMask`. -/
theorem convWf_of_not_converting {p : ChipProfile} {x : CfgInstance} {k : ConvState}
    (hp : k.pulseDone = true → k.mode = .idle) (hm : k.mode ≠ .converting) : convWf p x k = true :=
  convWf_iff.mpr ⟨hp, fun h => absurd h hm⟩

/-- Setting more fields keeps what Converting asks of `SetMask`. -/
theorem convWf_mono {p : ChipProfile} {x y : CfgInstance} {k : ConvState} (h : convWf p x k = true)
    (hset : ∀ f, isSet x.setMask f = true → isSet y.setMask f = true) : convWf p y k = true := by
  obtain ⟨hpulse, hconv⟩ := convWf_iff.mp h
  exact convWf_iff.mpr ⟨hpulse, fun hm f hf => hset f (hconv hm f hf)⟩

theorem isLegal_iff {p : ChipProfile} {e : Byte × Byte} :
    isLegal p e = true ↔ ∃ f, fieldSpec p e.1 = some f ∧ e.2 ∈ f.legal := by
  unfold isLegal
  cases fieldSpec p e.1 <;> simp

/-- What a chip holds after reset is well formed. -/
theorem cfgWf_resetCfg {p : ChipProfile} (h : fieldsOk p = true) : cfgWf p (resetCfg p) = true := by
  obtain ⟨hnodup, hok, _⟩ := fieldsOk_parts h
  refine cfgWf_iff.mpr ⟨by simp [resetCfg], by simp [resetCfg], fun e he => ?_⟩
  obtain ⟨f, hf, rfl⟩ := List.mem_map.mp he
  obtain ⟨_, _, hdflt, _⟩ := fieldOk_parts (hok f hf)
  exact ⟨f, fieldSpec_mem hnodup hf, hdflt⟩

theorem convWf_resetConv (p : ChipProfile) (x : CfgInstance) : convWf p x resetConv = true :=
  convWf_of_not_converting nofun nofun

/-- Marking fields keeps the mask's keys. -/
@[simp] theorem markSet_keys (mask : List (Byte × Bool)) (fs : List Byte) :
    (markSet mask fs).map (·.1) = mask.map (·.1) := bankSetAll_keys ..

/-- Marking fields clears none. -/
theorem isSet_markSet {mask : List (Byte × Bool)} {f : Byte} (h : isSet mask f = true) (fs : List Byte) :
    isSet (markSet mask fs) f = true := by
  have hget : mask.lookup f = some true := by simpa [isSet, bankGet] using h
  rw [markSet_eq, isSet, bankGet, lookup_map_fst mask (fun g b => b || fs.contains g), hget]
  simp

/-- A chip's fields with legal values committed and some marked. -/
theorem cfgWf_commit {p : ChipProfile} {x : CfgInstance} (h : cfgWf p x = true) {vs : List (Byte × Byte)}
    (hvs : ∀ e ∈ vs, isLegal p e = true) (fs : List Byte) (stale : Bool) :
    cfgWf p { mirror := bankSetAll x.mirror vs, setMask := markSet x.setMask fs, stale := stale } = true := by
  obtain ⟨hmirror, hmask, hlegal⟩ := cfgWf_iff.mp h
  refine cfgWf_iff.mpr ⟨by simpa using hmirror, by simpa using hmask, fun e he => ?_⟩
  rcases mem_bankSetAll _ _ _ he with hold | hnew
  · exact hlegal e hold
  · exact isLegal_iff.mp (hvs e hnew)

/-- The values of a good request are legal. -/
theorem isLegal_valuesOf {p : ChipProfile} {req : List Pair} (h : RequestOk p req) :
    ∀ e ∈ valuesOf req, isLegal p e = true := by
  intro e he
  obtain ⟨q, hq, rfl⟩ := List.mem_map.mp he
  obtain ⟨spec, b, hspec, hb⟩ := (pairOk_iff p q).mp (h.2 q hq)
  obtain ⟨hmem, _, rfl⟩ := legalValue_some hb
  exact isLegal_iff.mpr ⟨spec, hspec, hmem⟩

/-! ### One rule for each update -/

/-- A state with the core of a good one, and the same sequences in progress, is good. -/
theorem inv_of_sameCore {s t : State} (h : s.inv = true) (hc : sameCore s t)
    (hr : ∀ c, (ioOf t c).running = (ioOf s c).running) : t.inv = true := by
  obtain ⟨hp, hcal, hcfg, hconv⟩ := hc.parts
  rw [inv_iff] at h ⊢
  simpa only [profOf, hp, hcal, hcfg, hconv, ioWf, hr] using h

/-- A good state with the table and the ports replaced by good ones is good. -/
theorem inv_of_cal_io {s t : State} (h : s.inv = true) (hp : t.profile = s.profile)
    (hcfg : ∀ c, cfgOf t c = cfgOf s c) (hconv : ∀ k, convOf t k = convOf s k) (hcal : calWf s.profile t.cal = true)
    (hio : ∀ c, ioWf c (ioOf t c) = true) : t.inv = true := by
  rw [inv_iff] at h ⊢
  obtain ⟨hprof, hc, _, hk, _⟩ := h
  simp only [profOf, hp, hcfg, hconv]
  exact ⟨hprof, hc, hcal, hk, hio⟩

/-- A good state with the mirror, the flags and the conversion state of one chip replaced by good ones is good. -/
theorem inv_of_instance {s t : State} {c : Chip} (h : s.inv = true) (hp : t.profile = s.profile) (hcal : t.cal = s.cal)
    (hio : ∀ d, ioOf t d = ioOf s d) (hcfg : ∀ d, d ≠ c → cfgOf t d = cfgOf s d)
    (hconv : ∀ k : ConvChip, k.toChip ≠ c → convOf t k = convOf s k) (hc : cfgWf (profOf s c) (cfgOf t c) = true)
    (hk : ∀ k : ConvChip, k.toChip = c → convWf (profOf s c) (cfgOf t c) (convOf t k) = true) : t.inv = true := by
  rw [inv_iff]
  simp only [profOf, hp, hcal, hio]
  refine ⟨inv_profile h, fun d => ?_, inv_cal h, fun k => ?_, inv_io h⟩
  · by_cases hd : d = c
    · exact hd ▸ hc
    · exact hcfg d hd ▸ inv_cfg h d
  · by_cases hd : k.toChip = c
    · exact hd ▸ hk k hd
    · rw [hcfg _ hd, hconv k hd]
      exact inv_conv h k

theorem inv_withCfg {s : State} (h : s.inv = true) {c : Chip} {x : CfgInstance} (hx : cfgWf (profOf s c) x = true)
    (hset : ∀ f, isSet (cfgOf s c).setMask f = true → isSet x.setMask f = true) : (withCfg s c x).inv = true := by
  refine inv_of_instance h (by simp) (by simp) (by simp) (fun d => cfgOf_withCfg_ne s x) (by simp) (by simpa using hx)
    fun k hk => ?_
  subst hk
  rw [cfgOf_withCfg_same, convOf_withCfg]
  exact convWf_mono (inv_conv h k) hset

theorem inv_withConv {s : State} (h : s.inv = true) {k : ConvChip} {y : ConvState}
    (hy : convWf (profOf s k.toChip) (cfgOf s k.toChip) y = true) : (withConv s k y).inv = true := by
  refine inv_of_instance (c := k.toChip) h (by simp) (by simp) (by simp) (by simp)
    (fun j hj => convOf_withConv_ne s y fun e => hj (e ▸ rfl)) (by simpa using inv_cfg h _) fun j hj => ?_
  obtain rfl : j = k := by cases j <;> cases k <;> first | rfl | cases hj
  simpa using hy

theorem inv_withIo {s : State} (h : s.inv = true) {c : Chip} {x : InstanceIo} (hx : ioWf c x = true) :
    (withIo s c x).inv = true := by
  refine inv_of_cal_io h rfl (by simp) (by simp) (inv_cal h) fun d => ?_
  by_cases hd : d = c
  · subst hd
    simpa using hx
  · simpa [ioOf_withIo_ne s x hd] using inv_io h d

theorem inv_withResult {s : State} (h : s.inv = true) (r : Answer) : (withResult s r).inv = true :=
  inv_of_sameCore h ⟨rfl, rfl, rfl, rfl, rfl, rfl, rfl⟩ (by simp)

theorem inv_sent {s : State} (h : s.inv = true) (c : Chip) (fs : List Frame) (cs : List (Chip × Frame)) :
    (sent s c fs cs).inv = true :=
  inv_of_sameCore h (sameCore_sent ..) (by simp)

theorem inv_markBusy {s : State} (h : s.inv = true) (c : Chip) : (markBusy s c).inv = true :=
  inv_of_sameCore h (sameCore_markBusy ..) (by simp)

theorem inv_of_sent {s t : State} {c : Chip} (h : s.inv = true) (ht : Sent s c t) : t.inv = true := by
  obtain ⟨fs, cs, rfl | ⟨rfl, _⟩⟩ := ht
  · exact inv_sent h c fs cs
  · exact inv_markBusy (inv_sent h c fs cs) c

/-! ### Reset -/

theorem inv_resetWith {p : Profiles} (h : profilesOk p = true) (store : CalTable) :
    (State.resetWith p store).inv = true := by
  refine inv_iff.mpr ⟨h, fun c => ?_, calWf_loadCal p store, fun k => ?_, fun c => ?_⟩
  · cases c <;> exact cfgWf_resetCfg (profilesOk_fields h _)
  · cases k <;> exact convWf_resetConv ..
  · cases c <;> rfl

theorem refProfiles_ok : profilesOk refProfiles = true := by decide

/-- Settles O9: the reference set is one well-formed profile set of many. -/
theorem resetMeetsInvariant : Obligations.ResetMeetsInvariant :=
  ⟨inv_resetWith refProfiles_ok _, fun _ store h => inv_resetWith h store⟩

end Sys2Proof.Machine
end

section
/-! Every step keeps the invariant: one lemma for each operation, by what it can do, then for the controllers, the
construction of a chip and the end of the process (rules R171 to R187, R212, R250 to R258, R298 and R311). -/

namespace Sys2Proof.Machine
open Sys2Proof.Config

/-- A transfer changes the ports only, however it goes. -/
theorem transfer_sent (c : Chip) (f : Frame) (info : Nat) (s : State) : Sent s c (endState (transfer c f info s)) := by
  rcases transfer_cases c f info s with ⟨r, cs, _, _, hx⟩ | ⟨cs, _, hx⟩ | ⟨cs, _, hn, hx⟩ <;> rw [hx]
  · exact ⟨_, _, .inl rfl⟩
  · exact ⟨_, _, .inl rfl⟩
  · exact ⟨_, _, .inr ⟨rfl, hn⟩⟩

/-! ### Configuration -/

theorem inv_enterConfiguring {s : State} (h : s.inv = true) (c : Chip) : (enterConfiguring c s).inv = true := by
  unfold enterConfiguring
  split
  · exact inv_withConv h (convWf_of_not_converting nofun nofun)
  · exact h

theorem inv_commitFields {s : State} (h : s.inv = true) {c : Chip} {vs : List (Byte × Byte)}
    (hvs : ∀ e ∈ vs, isLegal (profOf s c) e = true) : (commitFields c vs s).inv = true :=
  inv_withCfg h (cfgWf_commit (inv_cfg h c) hvs _ _) fun _ hf => isSet_markSet hf _

theorem inv_markFields {s : State} (h : s.inv = true) (c : Chip) (fs : List Byte) : (markFields c fs s).inv = true :=
  inv_withCfg h (cfgWf_commit (vs := []) (inv_cfg h c) (by simp) fs _) fun _ hf => isSet_markSet hf _

theorem inv_withStale {s : State} (h : s.inv = true) (c : Chip) (b : Bool) : (withStale s c b).inv = true :=
  inv_withCfg h (cfgWf_commit (vs := []) (inv_cfg h c) (by simp) [] b) fun _ hf => hf

theorem inv_cfgCommit {s : State} (h : s.inv = true) (c : Chip) (req : List Pair) :
    (endState (cfgCommit c req s)).inv = true := by
  unfold cfgCommit
  split
  · exact h
  · rename_i vs hv
    obtain ⟨hok, rfl⟩ := validate_inv hv
    exact inv_commitFields h (isLegal_valuesOf hok)

theorem inv_cfgLoad {s : State} (h : s.inv = true) (c : Chip) (regs : List RegByte) :
    (endState (cfgLoad c regs s)).inv = true := by
  unfold cfgLoad
  split
  · exact h
  · split
    · exact h
    · rename_i hnone
      have hlegal : ∀ e ∈ unpackAll (profOf s c) regs, isLegal (profOf s c) e = true := by
        simpa using hnone
      exact inv_withCfg h (cfgWf_commit (inv_cfg h c) hlegal [] false) fun _ hf => hf

/-- Some of the writes of a configuration are done: what they committed was requested. -/
theorem inv_afterWrites {s : State} (h : s.inv = true) {c : Chip} {req : List Pair} (hreq : RequestOk (profOf s c) req)
    (regs : List Byte) (frames : List Frame) (copies : List (Chip × Frame)) :
    (afterWrites s c req regs frames copies).inv = true := by
  refine inv_commitFields (inv_enterConfiguring (inv_sent h c frames copies) c) ?_
  have hok : RequestOk (profOf s c) ((changed s c req).filter fun q =>
      regs.any fun r => regOf (profOf s c) q.field == some r) :=
    ⟨hreq.changed.1.sublist (List.filter_sublist.map _), fun q hq => hreq.changed.2 q (List.mem_of_mem_filter hq)⟩
  simpa using isLegal_valuesOf hok

theorem inv_setConfig {s : State} (h : s.inv = true) (c : Chip) (req : List Pair) :
    (endState (setConfig c req s)).inv = true := by
  rcases setConfig_cases (c := c) (req := req) (inv_profile h) with ⟨e, _, hx⟩ | ⟨hreq, ⟨_, hx⟩ | ⟨_, _, hx⟩ |
    ⟨_, _, ⟨copies, _, hx⟩ | ⟨before, r, after, copies, _, _, hx | ⟨hx, _⟩⟩⟩⟩ <;> rw [hx]
  · exact h
  · exact h
  · exact h
  · refine inv_markFields (inv_commitFields (inv_enterConfiguring (inv_sent h ..) c) ?_) c _
    simpa using isLegal_valuesOf (hreq.changed (s := s) (c := c))
  · exact inv_withStale (inv_afterWrites h hreq ..) c true
  · exact inv_markBusy (inv_afterWrites h hreq ..) c

theorem inv_cfgReassert {s : State} (h : s.inv = true) (c : Chip) : (endState (cfgReassert c s)).inv = true := by
  rcases cfgReassert_cases (c := c) (inv_profile h) with ⟨_, hx⟩ |
    ⟨_, ⟨copies, _, hx⟩ | ⟨before, r, after, copies, _, _, hx | ⟨hx, _⟩⟩⟩ <;> rw [hx]
  · exact h
  · exact inv_withStale (inv_sent h ..) c false
  · exact inv_withStale (inv_sent h ..) c true
  · exact inv_markBusy (inv_sent h ..) c

theorem inv_mirrorReset {s : State} (h : s.inv = true) (c : Chip) : (mirrorReset c s).inv = true := by
  have hcfg : ∀ d, cfgOf (mirrorReset c s) d = if d = c then resetCfg (profOf s c) else cfgOf s d := by
    intro d
    cases c <;> cases d <;> rfl
  refine inv_of_instance (c := c) h (by cases c <;> rfl) (by cases c <;> rfl) (fun d => by cases c <;> cases d <;> rfl)
    (fun d hd => by rw [hcfg, if_neg hd]) (fun k hk => by rw [mirrorReset_convOf, if_neg hk]) ?_ fun k hk => ?_
  · rw [hcfg, if_pos rfl]
    exact cfgWf_resetCfg (profilesOk_fields (inv_profile h) c)
  · rw [mirrorReset_convOf, if_pos hk]
    exact convWf_resetConv ..

/-! ### Conversion states -/

/-- Leaving Converting, or starting over, asks nothing of `SetMask`. -/
theorem inv_idle {s : State} (h : s.inv = true) (k : ConvChip) (pulseDone : Bool) :
    (withConv s k { mode := .idle, pulseDone := pulseDone }).inv = true :=
  inv_withConv h (convWf_of_not_converting (fun _ => rfl) nofun)

/-- START_CONV converts only with every required field set (rule R179). -/
theorem inv_startConv {s : State} (h : s.inv = true) (c : ConvChip) (u : BitVec 9) :
    (endState (startConv c u s)).inv = true := by
  rcases startConv_cases c u s with ⟨e, hx, _⟩ |
    ⟨hset, _, f, _, ⟨copies, _, hx⟩ | ⟨copies, _, hx⟩ | ⟨copies, _, _, hx⟩⟩ <;> rw [hx]
  · exact h
  · refine inv_withConv (inv_sent h ..) (convWf_iff.mpr ⟨nofun, fun _ => ?_⟩)
    simpa using firstUnset_none.mp hset
  · exact inv_sent h ..
  · exact inv_markBusy (inv_sent h ..) _

theorem inv_stopConv {s : State} (h : s.inv = true) (c : ConvChip) (u : BitVec 9) :
    (endState (stopConv c u s)).inv = true := by
  rcases stopConv_cases c u s with ⟨e, hx, _⟩ |
    ⟨_, f, _, ⟨copies, _, hx⟩ | ⟨copies, _, hx⟩ | ⟨copies, _, _, hx⟩⟩ <;> rw [hx]
  · exact h
  · exact inv_idle (inv_sent h ..) c false
  · exact inv_sent h ..
  · exact inv_markBusy (inv_sent h ..) _

theorem inv_convDone {s : State} (h : s.inv = true) (c : ConvChip) : (convDone c s).inv = true := by
  unfold convDone
  split
  · exact inv_idle h c true
  · exact h

theorem inv_readPulse {s : State} (h : s.inv = true) (c : ConvChip) (u : BitVec 9) :
    (endState (readPulse c u s)).inv = true := by
  rcases readPulse_end c u s with hs | ⟨fs, cs, hx⟩
  · exact inv_of_sent h hs
  · rw [hx]
    obtain ⟨_, hset⟩ := convWf_iff.mp (inv_conv h c)
    refine inv_withConv (inv_sent h ..) (convWf_iff.mpr ⟨nofun, fun hm => ?_⟩)
    simpa using hset hm

/-! ### The calibration table -/

theorem inv_setCal {s : State} (h : s.inv = true) (m : Chip) (ch : Nat) (x : CalPair) :
    (endState (setCal m ch x s)).inv = true := by
  unfold setCal
  split
  · exact h
  · exact inv_of_cal_io h rfl (fun c => by cases c <;> rfl) (fun k => by cases k <;> rfl)
      (calWf_calSet (inv_cal h) m ch x) fun c => by cases c <;> exact inv_io h _

/-! ### Whole instructions -/

/-- An operation's answer changes nothing the invariant speaks of. -/
theorem inv_outcome {α : Type} {fmt : α → List Word} {x : OpEnd α} {t : State} (hx : (endState x).inv = true)
    (h : outcome fmt x = .next t) : t.inv = true := by
  rcases outcome_inv h with rfl | ⟨r, rfl⟩
  · exact hx
  · exact inv_withResult hx r

/-- A pure operation ends where it began. -/
theorem endState_lift {α : Type} (x : Except Raised α) (s : State) : endState (lift x s) = s := by
  cases x <;> rfl

theorem inv_exec {i : Instr} {s t : State} (hs : s.inv = true) (h : exec i s = .next t) : t.inv = true := by
  by_cases hp : isCodec i = true ∨ isConversion i = true ∨ isReserved i = true
  · obtain ⟨r, rfl⟩ := exec_pure_end hp h
    exact inv_withResult hs r
  by_cases hw : isWire i = true
  · obtain ⟨c, frame, parse, he⟩ := exec_wire hw s
    exact inv_outcome (inv_of_sent hs (sendByHand_end c frame parse s)) (he ▸ h)
  cases i
  case cfgDiff => exact inv_outcome (by rwa [endState_lift]) h
  case cfgCommit => exact inv_outcome (inv_cfgCommit hs ..) h
  case setConfig => exact inv_outcome (inv_setConfig hs ..) h
  case startConv => exact inv_outcome (inv_startConv hs ..) h
  case stopConv => exact inv_outcome (inv_stopConv hs ..) h
  case convDone c => cases h; exact inv_withResult (inv_convDone hs c) _
  case readCont c u => exact inv_outcome (inv_of_sent hs (readCont_end c u s)) h
  case readPulse => exact inv_outcome (inv_readPulse hs ..) h
  case mirrorReset c => cases h; exact inv_withResult (inv_mirrorReset hs c) _
  case cfgLoad => exact inv_outcome (inv_cfgLoad hs ..) h
  case cfgReassert => exact inv_outcome (inv_cfgReassert hs _) h
  case calSet => exact inv_outcome (inv_setCal hs ..) h
  all_goals first
    | exact absurd rfl hw
    | exact absurd (.inl rfl) hp
    | exact absurd (.inr (.inl rfl)) hp
    | exact absurd (.inr (.inr rfl)) hp

/-! ### The controllers -/

/-- What comes next stays on the controller's own chip. -/
def Onward.stays (c : Chip) : Onward → Prop
  | .goOn r => stepOn c r.next = true
  | .returns _ => True

theorem inv_goOnward {s : State} (h : s.inv = true) {c : Chip} {o : Onward} (ho : o.stays c) :
    (goOnward c o s).inv = true := by
  cases o with
  | goOn r => exact inv_withIo h ho
  | returns ws => exact inv_withIo h rfl

theorem inv_breakOff {s : State} (h : s.inv = true) (c : Chip) : (breakOff c s).inv = true := inv_withIo h rfl

/-- A step of a chip is followed by one of the same chip (rules R250 to R258). -/
theorem follow_stays {c : Chip} {r : SeqRun} (h : stepOn c r.next = true) (ws : List Word) :
    (follow r ws).stays c := by
  have hread : ∀ k : ConvChip, decide (k.toChip = c) = true → stepOn c (afterRead k (wordsBytes ws)) = true := by
    intro k hk
    cases k <;> simpa [afterRead, stepOn, ConvChip.toChip, eq_comm] using hk
  unfold follow
  cases hn : r.next <;> rw [hn] at h
  case readPulse k => exact hread k h
  case readCont k => exact hread k h
  case calibrate v =>
    simp only [afterVoltage]
    split
    · trivial
    · simpa [Onward.stays, stepOn, ConvChip.toChip, eq_comm] using h
  all_goals first
    | exact h
    | trivial

/-- A sequence begins with a step of its chip, or returns at once. -/
theorem openSequence_stays {q : Sequence} {s : State} {o : Onward} (h : openSequence q s = .ok o) :
    o.stays (seqChip q) := by
  have hvolt : ∀ {req ch u}, openVoltage req ch u s = .ok o → o.stays .adc := by
    intro req ch u hv
    unfold openVoltage at hv
    repeat' split at hv
    all_goals cases hv
    all_goals rfl
  cases q with
  | readVoltage ch u => exact hvolt h
  | singleSample u => exact hvolt h
  | readSamplesBatch dr channels pairs u =>
    simp only [openSequence, openBatch] at h
    repeat' split at h
    all_goals cases h
    · trivial
    · rfl
  | writeVoltageChannel ch v => cases h; rfl
  | readTemperatures u =>
    cases h
    show stepOn .tc (if inContinuous s .tc then _ else _) = true
    split <;> rfl
  | resetChip c => cases h; rfl

theorem inv_beginSequence {s : State} (h : s.inv = true) (q : Sequence) : (beginSequence q s).inv = true := by
  unfold beginSequence
  split
  · rename_i o ho
    exact inv_goOnward h (openSequence_stays ho)
  · exact inv_breakOff (inv_withResult h _) _

theorem inv_carryOn {s : State} (h : s.inv = true) {c : Chip} {r : SeqRun} (hr : stepOn c r.next = true) :
    (carryOn c r s).inv = true := by
  unfold carryOn
  split
  · exact h
  · split
    · exact inv_breakOff h c
    · exact inv_goOnward h (follow_stays hr _)

theorem inv_settle {s : State} (h : s.inv = true) (x : Except Raised (List Word)) : (settle x s).inv = true := by
  obtain ⟨r, hr⟩ := settle_result x s
  exact hr ▸ inv_withResult h r

/-- The reset frame of rule R258 sends one frame, and may set `Stale`. -/
theorem inv_sendReset {s : State} (h : s.inv = true) (c : Chip) (f : Frame) :
    (endState (sendReset c f s)).inv = true := by
  have hsent := inv_of_sent h (transfer_sent c f 0 s)
  unfold sendReset
  split <;> rename_i hx <;> rw [hx] at hsent
  · exact hsent
  · exact inv_withStale hsent c true
  · exact hsent

theorem inv_performStep {s t : State} (hs : s.inv = true) {c : Chip} {r : SeqRun} (h : performStep c r s = .next t) :
    t.inv = true := by
  unfold performStep at h
  split at h
  case h_7 => cases h; exact inv_settle hs _
  case h_12 f _ => exact inv_outcome (inv_of_sent hs (sendByHand_end c (.ok f) parseNothing s)) h
  case h_13 => cases h; exact inv_settle hs _
  case h_14 => exact inv_outcome (inv_sendReset hs ..) h
  all_goals exact inv_exec hs h

theorem inv_proceed {s t : State} (hs : s.inv = true) {c : Chip} (h : proceed c s = .next t) : t.inv = true := by
  cases hr : (ioOf s c).running with
  | none =>
    rw [proceed_none hr] at h
    cases h
    exact hs
  | some r =>
    obtain ⟨v, hv⟩ := performStep_next c r s
    rw [proceed_some hr hv] at h
    cases h
    have hon : stepOn c r.next = true := by simpa [ioWf, hr] using inv_io hs c
    exact inv_carryOn (inv_performStep hs hv) hon

/-! ### Events -/

theorem inv_runItem {s t : State} (hs : s.inv = true) {item : PortItem} (h : runItem item s = .next t) :
    t.inv = true := by
  unfold runItem at h
  split at h
  · exact inv_exec hs h
  · rename_i e _
    cases item with
    | command w ws => cases h; exact inv_withResult hs _
    | frame c f => exact inv_outcome (inv_of_sent hs (sendByHand_end c (.ok f) (parseRejected e) s)) h

/-- A racing conversion reads another table, and the table itself stays. -/
theorem inv_runRacing {i : Instr} (hi : isConversion i = true) {s t : State} (hs : s.inv = true)
    (h : runRacing i s = .next t) : t.inv = true := by
  obtain ⟨x, _, hx⟩ := runRacing_next hi (s := s) (t := { s with cal := racedCal s }) rfl fun _ _ _ => rfl
  rw [hx] at h
  cases h
  exact inv_settle hs x

theorem isConversion_conversionOf {w : Word} {ws : List Word} {i : Instr} (h : conversionOf w ws = some i) :
    isConversion i = true := by
  unfold conversionOf at h
  split at h
  · split at h
    · cases h; assumption
    · cases h
  · cases h

theorem calWf_withCells {p : Profiles} {t : CalTable} (h : calWf p t = true) (c : Chip)
    (store : List (Option CalPair)) :
    calWf p (withCells t c (loadCells (channelCount p c) store)) = true := by
  cases c <;> simp_all [calWf, withCells, loadCells]

theorem inv_construct {s : State} (h : s.inv = true) (c : Chip) (store : List (Option CalPair)) :
    (construct c store s).inv = true := by
  have hio : (withIo (mirrorReset c s) c resetIo).inv = true := inv_withIo (inv_mirrorReset h c) rfl
  exact inv_of_cal_io hio rfl (fun d => by cases d <;> rfl) (fun k => by cases k <;> rfl)
    (calWf_withCells (inv_cal hio) c store) fun d => by cases d <;> exact inv_io hio _

theorem inv_runEvent {e : Event} {s t : State} (hs : s.inv = true) (h : runEvent e s = .next t) : t.inv = true := by
  have hat : ∀ c, (takenBy c s).inv = true := fun _ => hs
  cases e with
  | present item => exact inv_runItem (hat _) h
  | concurrent w ws =>
    simp only [runEvent] at h
    split at h
    · rename_i hi
      exact inv_runRacing (s := { s with turn := itemChip (.command w ws) }) (isConversion_conversionOf hi) hs h
    · exact inv_runItem (hat _) h
  | construct c store => cases h; exact inv_construct (hat c) c store
  | sequence q => cases h; exact inv_beginSequence (hat _) q
  | proceed c => exact inv_proceed (hat c) h
  | restart store => cases h; exact inv_resetWith (inv_profile hs) store

/-- Settles O10: whatever event is taken, what it runs keeps the invariant. -/
theorem stepKeepsInvariant : Obligations.StepKeepsInvariant := by
  intro s t hs h
  unfold step at h
  split at h
  · cases h
    exact hs
  · rename_i e rest _
    exact inv_runEvent (s := { s with port := rest }) hs h

end Sys2Proof.Machine
end

section
/-! Who writes what: an instruction changes its own chip only, and of that chip what it is listed as a writer of
(rules R20 to R33, R75, R180 and R297). -/

namespace Sys2Proof.Machine
open Sys2Proof.Config

/-- From `s` to `t` nothing changed but what `i` is listed as a writer of on the chip it is presented to, whether that
chip is busy, and the result port of the chip at work. -/
structure WrittenBy (i : Instr) (s t : State) : Prop where
  profile : t.profile = s.profile
  turn : t.turn = s.turn
  result : ∀ c, c ≠ s.turn → (ioOf t c).result = (ioOf s c).result
  busy : ∀ c, c ≠ instanceOf i → isBusy t c = isBusy s c
  cells : ∀ c, c ≠ instanceOf i → calCells t.cal c = calCells s.cal c
  cfg : ∀ c, c ≠ instanceOf i → cfgOf t c = cfgOf s c
  conv : ∀ k : ConvChip, k.toChip ≠ instanceOf i → convOf t k = convOf s k
  cal : writesCal i = true ∨ t.cal = s.cal
  mirror : writesMirror (instanceOf i) i = true ∨ (cfgOf t (instanceOf i)).mirror = (cfgOf s (instanceOf i)).mirror
  setMask : writesSetMask (instanceOf i) i = true ∨ (cfgOf t (instanceOf i)).setMask = (cfgOf s (instanceOf i)).setMask
  stale : writesStale (instanceOf i) i = true ∨ (cfgOf t (instanceOf i)).stale = (cfgOf s (instanceOf i)).stale
  mode : ∀ k, writesMode k i = true ∨ (convOf t k).mode = (convOf s k).mode
  pulseDone : ∀ k, writesPulseDone k i = true ∨ (convOf t k).pulseDone = (convOf s k).pulseDone

namespace WrittenBy
variable {i : Instr} {s t : State}

theorem refl (i : Instr) (s : State) : WrittenBy i s s :=
  ⟨rfl, rfl, fun _ _ => rfl, fun _ _ => rfl, fun _ _ => rfl, fun _ _ => rfl, fun _ _ => rfl, .inr rfl, .inr rfl,
    .inr rfl, .inr rfl, fun _ => .inr rfl, fun _ => .inr rfl⟩

/-- The same core, with no other chip's ports written. -/
theorem core {u : State} (h : WrittenBy i s t) (hc : sameCore t u) (hturn : u.turn = t.turn)
    (hresult : ∀ c, c ≠ t.turn → (ioOf u c).result = (ioOf t c).result)
    (hbusy : ∀ c, c ≠ instanceOf i → isBusy u c = isBusy t c) : WrittenBy i s u := by
  obtain ⟨hp, hcal, hcfg, hconv⟩ := hc.parts
  constructor
  case profile => exact hp.trans h.profile
  case turn => exact hturn.trans h.turn
  case result => exact fun c hne => (hresult c (h.turn ▸ hne)).trans (h.result c hne)
  case busy => exact fun c hne => (hbusy c hne).trans (h.busy c hne)
  all_goals simp only [hcal, hcfg, hconv]
  exacts [h.cells, h.cfg, h.conv, h.cal, h.mirror, h.setMask, h.stale, h.mode, h.pulseDone]

/-- An operation's answer. -/
theorem shows {u : State} (h : WrittenBy i s t) (hu : Shows t u) : WrittenBy i s u := by
  obtain ⟨hc, _, hturn, hbusy, hresult⟩ := hu.parts
  exact h.core hc hturn hresult fun c _ => hbusy c

/-- Frames of the instruction's own chip. -/
theorem sent {c : Chip} {u : State} (h : WrittenBy i s t) (hi : c = instanceOf i) (hu : Sent t c u) :
    WrittenBy i s u := by
  refine h.core hu.core ?_ (fun d _ => ?_) fun d hd => ?_ <;> obtain ⟨fs, cs, rfl | ⟨rfl, _⟩⟩ := hu
  · rfl
  · rfl
  · simp
  · simp [result_markBusy]
  · simp
  · simp [isBusy_markBusy, hi, hd]

/-- A write to the mirror and the flags of the instruction's own chip. -/
theorem withCfg {c : Chip} {x : CfgInstance} (h : WrittenBy i s t) (hi : c = instanceOf i)
    (hmirror : writesMirror c i = true ∨ x.mirror = (cfgOf t c).mirror)
    (hmask : writesSetMask c i = true ∨ x.setMask = (cfgOf t c).setMask)
    (hstale : writesStale c i = true ∨ x.stale = (cfgOf t c).stale) : WrittenBy i s (withCfg t c x) := by
  subst hi
  constructor
  case cfg => exact fun d hd => (cfgOf_withCfg_ne t x hd).trans (h.cfg d hd)
  all_goals simp only [withCfg_profile, withCfg_turn, ioOf_withCfg, isBusy_withCfg, withCfg_cal, convOf_withCfg,
    cfgOf_withCfg_same]
  case mirror => exact hmirror.elim .inl fun e => e ▸ h.mirror
  case setMask => exact hmask.elim .inl fun e => e ▸ h.setMask
  case stale => exact hstale.elim .inl fun e => e ▸ h.stale
  exacts [h.profile, h.turn, h.result, h.busy, h.cells, h.conv, h.cal, h.mode, h.pulseDone]

/-- A write to the conversion state of the instruction's own chip. -/
theorem withConv {k : ConvChip} {y : ConvState} (h : WrittenBy i s t) (hi : k.toChip = instanceOf i)
    (hmode : writesMode k i = true ∨ y.mode = (convOf t k).mode)
    (hpulse : writesPulseDone k i = true ∨ y.pulseDone = (convOf t k).pulseDone) : WrittenBy i s (withConv t k y) := by
  have hne : ∀ j : ConvChip, j.toChip ≠ instanceOf i → j ≠ k := fun j hj e => hj (e ▸ hi)
  constructor
  case conv => exact fun j hj => (convOf_withConv_ne t y (hne j hj)).trans (h.conv j hj)
  case mode =>
    intro j
    rw [convOf_withConv]
    split
    · next e => exact e ▸ hmode.elim .inl fun e => e ▸ h.mode k
    · exact h.mode j
  case pulseDone =>
    intro j
    rw [convOf_withConv]
    split
    · next e => exact e ▸ hpulse.elim .inl fun e => e ▸ h.pulseDone k
    · exact h.pulseDone j
  all_goals simp only [withConv_profile, withConv_turn, ioOf_withConv, isBusy_withConv, withConv_cal, cfgOf_withConv]
  exacts [h.profile, h.turn, h.result, h.busy, h.cells, h.cfg, h.cal, h.mirror, h.setMask, h.stale]

end WrittenBy

/-! ### Each operation -/

theorem cfgCommit_writtenBy (c : Chip) (req : List Pair) (s : State) :
    WrittenBy (.cfgCommit c req) s (endState (cfgCommit c req s)) := by
  unfold cfgCommit
  split
  · exact .refl _ s
  · exact (WrittenBy.refl _ s).withCfg rfl (.inl (by simp [writesMirror])) (.inl (by simp [writesSetMask])) (.inr rfl)

theorem cfgLoad_writtenBy (c : Chip) (regs : List RegByte) (s : State) :
    WrittenBy (.cfgLoad c regs) s (endState (cfgLoad c regs s)) := by
  unfold cfgLoad
  split
  · exact .refl _ s
  · split
    · exact .refl _ s
    · exact (WrittenBy.refl _ s).withCfg rfl (.inl (by simp [writesMirror])) (.inr rfl) (.inl (by simp [writesStale]))

/-- SET_CONFIG is a writer of everything of its chip but the calibration entries. -/
theorem setConfig_writtenBy (c : Chip) (req : List Pair) (s : State) :
    WrittenBy (.setConfig c req) s (endState (setConfig c req s)) := by
  obtain ⟨hp, hcal, hturn, hconv, hother, hresult⟩ := setConfig_frame c req s
  have hk : ∀ k : ConvChip, k.toChip = c ∨ convOf (endState (setConfig c req s)) k = convOf s k :=
    fun k => (hconv k).elim .inr fun ⟨e, _⟩ => .inl e
  exact {
    profile := hp
    turn := hturn
    result := fun d _ => hresult d
    busy := fun d hd => (hother d hd).2
    cells := fun _ _ => by rw [hcal]
    cfg := fun d hd => (hother d hd).1
    conv := fun k hd => (hk k).resolve_left hd
    cal := .inr hcal
    mirror := .inl (by simp [writesMirror, instanceOf])
    setMask := .inl (by simp [writesSetMask, instanceOf])
    stale := .inl (by simp [writesStale, instanceOf])
    mode := fun k => (hk k).imp (fun e => by simp [writesMode, e]) fun e => by rw [e]
    pulseDone := fun k => (hk k).imp (fun e => by simp [writesPulseDone, e]) fun e => by rw [e] }

theorem cfgReassert_writtenBy (c : Chip) (s : State) : WrittenBy (.cfgReassert c) s (endState (cfgReassert c s)) := by
  obtain ⟨hp, hcal, hturn, hconv, hother, hresult, hmirror, hmask⟩ := cfgReassert_frame c s
  exact {
    profile := hp
    turn := hturn
    result := fun d _ => hresult d
    busy := fun d hd => (hother d hd).2
    cells := fun _ _ => by rw [hcal]
    cfg := fun d hd => (hother d hd).1
    conv := fun k _ => hconv k
    cal := .inr hcal
    mirror := .inr hmirror
    setMask := .inr hmask
    stale := .inl (by simp [writesStale, instanceOf])
    mode := fun k => .inr (by rw [hconv])
    pulseDone := fun k => .inr (by rw [hconv]) }

theorem mirrorReset_writtenBy (c : Chip) (s : State) : WrittenBy (.mirrorReset c) s (mirrorReset c s) := by
  have hcfg : WrittenBy (.mirrorReset c) s (withCfg s c (resetCfg (profOf s c))) :=
    (WrittenBy.refl _ s).withCfg rfl (.inl (by simp [writesMirror])) (.inl (by simp [writesSetMask]))
      (.inl (by simp [writesStale]))
  have hk : ∀ k : ConvChip, k.toChip = c → WrittenBy (.mirrorReset c) s
      (withConv (withCfg s c (resetCfg (profOf s c))) k resetConv) :=
    fun k e => hcfg.withConv e (.inl (by simp [writesMode, e])) (.inl (by simp [writesPulseDone, e]))
  cases c
  · exact hk .adc rfl
  · exact hcfg
  · exact hk .tc rfl

/-- A frame of a chip and then, where it is answered, a write to its conversion state. -/
theorem transferThenConv_writtenBy {i : Instr} {c : ConvChip} (hi : c.toChip = instanceOf i)
    (hmode : writesMode c i = true) (hpulse : writesPulseDone c i = true) (f : Frame) (y : ConvState) (s : State) :
    WrittenBy i s (endState (andThen (transfer c.toChip f 0 s) fun _ s' => OpEnd.done () (withConv s' c y))) := by
  have hsent := (WrittenBy.refl i s).sent hi (transfer_sent c.toChip f 0 s)
  rcases andThen_end (transfer c.toChip f 0 s) fun _ s' => OpEnd.done () (withConv s' c y) with hx | ⟨r, v, ht, hx⟩ <;>
    rw [hx]
  · exact hsent
  · rw [ht] at hsent
    exact hsent.withConv hi (.inl hmode) (.inl hpulse)

theorem startConv_writtenBy (c : ConvChip) (u : BitVec 9) (s : State) :
    WrittenBy (.startConv c u) s (endState (startConv c u s)) := by
  unfold startConv
  split
  · exact .refl _ s
  · split
    · exact .refl _ s
    · split
      · exact .refl _ s
      · exact transferThenConv_writtenBy rfl (by simp [writesMode]) (by simp [writesPulseDone]) ..

theorem stopConv_writtenBy (c : ConvChip) (u : BitVec 9) (s : State) :
    WrittenBy (.stopConv c u) s (endState (stopConv c u s)) := by
  unfold stopConv
  split
  · exact .refl _ s
  · split
    · exact .refl _ s
    · exact transferThenConv_writtenBy rfl (by simp [writesMode]) (by simp [writesPulseDone]) ..

theorem convDone_writtenBy (c : ConvChip) (s : State) : WrittenBy (.convDone c) s (convDone c s) := by
  unfold convDone
  split
  · exact (WrittenBy.refl _ s).withConv rfl (.inl (by simp [writesMode])) (.inl (by simp [writesPulseDone]))
  · exact .refl _ s

theorem readPulse_writtenBy (c : ConvChip) (u : BitVec 9) (s : State) :
    WrittenBy (.readPulse c u) s (endState (readPulse c u s)) := by
  rcases readPulse_end c u s with hs | ⟨fs, cs, hx⟩
  · exact (WrittenBy.refl _ s).sent rfl hs
  · rw [hx]
    exact ((WrittenBy.refl _ s).sent rfl ⟨_, _, .inl rfl⟩).withConv rfl (.inr (by simp))
      (.inl (by simp [writesPulseDone]))

theorem calCells_calPut_ne (t : CalTable) {m d : Chip} (ch : Nat) (x : Option CalPair) (h : d ≠ m) :
    calCells (calPut t m ch x) d = calCells t d := by
  rw [calPut, calCells_withCells, if_neg h]

theorem setCal_writtenBy (m : Chip) (ch : Byte) (gain offset : Word) (s : State) :
    WrittenBy (.calSet m ch gain offset) s (endState (setCal m ch.toNat { gain := gain, offset := offset } s)) := by
  unfold setCal
  split
  · exact .refl _ s
  · exact { WrittenBy.refl (.calSet m ch gain offset) s with
      cal := .inl rfl
      cells := fun d hd => calCells_calPut_ne s.cal _ _ hd }

/-! ### Every instruction -/

/-- The wire rows send their frame to the chip they are presented to. -/
theorem exec_wire_own {i : Instr} (h : isWire i = true) (s : State) : ∃ frame parse,
    exec i s = wireOutcome (sendByHand (instanceOf i) frame parse s) := by
  cases i <;> first
    | exact absurd h Bool.false_ne_true
    | exact ⟨_, _, rfl⟩

theorem exec_writtenBy {i : Instr} {s t : State} (h : exec i s = .next t) : WrittenBy i s t := by
  by_cases hp : isCodec i = true ∨ isConversion i = true ∨ isReserved i = true
  · obtain ⟨r, rfl⟩ := exec_pure_end hp h
    exact (WrittenBy.refl i s).shows (.inr ⟨r, rfl⟩)
  by_cases hw : isWire i = true
  · obtain ⟨frame, parse, he⟩ := exec_wire_own hw s
    exact ((WrittenBy.refl i s).sent rfl (sendByHand_end _ frame parse s)).shows (outcome_inv (he ▸ h))
  cases i
  case cfgDiff => exact (WrittenBy.refl _ s).shows (endState_lift _ s ▸ outcome_inv h)
  case cfgCommit => exact (cfgCommit_writtenBy ..).shows (outcome_inv h)
  case setConfig => exact (setConfig_writtenBy ..).shows (outcome_inv h)
  case startConv => exact (startConv_writtenBy ..).shows (outcome_inv h)
  case stopConv => exact (stopConv_writtenBy ..).shows (outcome_inv h)
  case convDone => cases h; exact (convDone_writtenBy ..).shows (.inr ⟨_, rfl⟩)
  case readCont c u => exact ((WrittenBy.refl (.readCont c u) s).sent rfl (readCont_end c u s)).shows (outcome_inv h)
  case readPulse => exact (readPulse_writtenBy ..).shows (outcome_inv h)
  case mirrorReset => cases h; exact (mirrorReset_writtenBy ..).shows (.inr ⟨_, rfl⟩)
  case cfgLoad => exact (cfgLoad_writtenBy ..).shows (outcome_inv h)
  case cfgReassert => exact (cfgReassert_writtenBy ..).shows (outcome_inv h)
  case calSet => exact (setCal_writtenBy ..).shows (outcome_inv h)
  all_goals first
    | exact absurd rfl hw
    | exact absurd (.inl rfl) hp
    | exact absurd (.inr (.inl rfl)) hp
    | exact absurd (.inr (.inr rfl)) hp

/-- What is unchanged on every chip but one, and there unless `w` allows it, changed only where `w` allows it. -/
theorem writer_of_ne {α : Type} {x y : Chip → α} {w : Chip → Bool} {c₀ : Chip} (hother : ∀ c, c ≠ c₀ → y c = x c)
    (hown : w c₀ = true ∨ y c₀ = x c₀) {c : Chip} (hne : y c ≠ x c) : w c = true := by
  by_cases hc : c = c₀
  · subst hc
    exact hown.resolve_right hne
  · exact absurd (hother c hc) hne

/-- Settles O35: what every instruction writes, and that it leaves the controllers alone. -/
theorem whoWritesWhat : Obligations.WhoWritesWhat := by
  intro i s t h
  have hw := exec_writtenBy h
  obtain ⟨_, _, hcontrollers⟩ := exec_controllers h
  refine ⟨hw.profile, hw.cal.resolve_right, fun c => ⟨?_, ?_, ?_⟩,
    fun k => ⟨(hw.mode k).resolve_right, (hw.pulseDone k).resolve_right⟩,
    fun c hc => ⟨hw.cfg c hc, hw.cells c hc, hw.busy c hc⟩, hw.conv, hw.turn, hw.result, hcontrollers⟩
  · exact writer_of_ne (w := (writesMirror · i)) (fun d hd => congrArg _ (hw.cfg d hd)) hw.mirror
  · exact writer_of_ne (w := (writesSetMask · i)) (fun d hd => congrArg _ (hw.cfg d hd)) hw.setMask
  · exact writer_of_ne (w := (writesStale · i)) (fun d hd => congrArg _ (hw.cfg d hd)) hw.stale

end Sys2Proof.Machine
end

section
/-! Which event a step takes, and what the construction of a chip and the end of the process leave (rules R28, R38, R75,
R297, R298 and R310 to R312). -/

namespace Sys2Proof.Machine
open Sys2Proof.Config

/-- With nothing that a chip could take a step changes nothing. -/
theorem step_waiting {s : State} (h : Waiting s s.port) : step s = .next s := by
  rw [step, takeNext_none (canTake_waiting h)]

/-- A step that takes the end of the process, with which all that waited is lost. -/
theorem step_restart {s : State} {waiting rest : List Event} {store : CalTable}
    (hp : s.port = waiting ++ .restart store :: rest) (hw : Waiting s waiting) :
    step s = .next (restart store { s with port := rest }) := by
  rw [step, hp, takeNext_append (canTake_waiting hw) rfl]
  rfl

/-- Settles O1: the event that is taken is the presented item, and an item that decodes is run as its instruction. -/
theorem stepRunsDecodedInstruction : Obligations.StepRunsDecodedInstruction := by
  intro s waiting hw
  refine ⟨fun item rest i hp hf hd => ?_, fun hp => step_waiting (hp ▸ hw)⟩
  rw [step_ready hp hw (.inl ⟨hf, .inl ⟨item, rfl, rfl⟩⟩), runEvent_present, runItem]
  simp [hd]

/-! ### What a construction leaves -/

/-- A cell loaded from the store. -/
theorem loadCells_get {count ch : Nat} (h : ch < count) (store : List (Option CalPair)) :
    ((loadCells count store)[ch]?).join = (store[ch]?).join := by
  simp [loadCells, h]

theorem calGet_loadCal {p : Profiles} {m : Chip} {ch : Nat} (h : validCh p m ch = true) (store : CalTable) :
    calGet (loadCal p store) m ch = ((calCells store m)[ch]?).join := by
  have hlt : ch < channelCount p m := of_decide_eq_true h
  cases m <;> exact loadCells_get hlt _

theorem calGet_withCells_same (t : CalTable) (c : Chip) (cells : List (Option CalPair)) (ch : Nat) :
    calGet (withCells t c cells) c ch = (cells[ch]?).join := by
  rw [calGet, calCells_withCells, if_pos rfl]

theorem cfgOf_resetWith (p : Profiles) (store : CalTable) (c : Chip) :
    cfgOf (State.resetWith p store) c = resetCfg (p.of c) := by
  cases c <;> rfl

theorem cfgOf_construct (c d : Chip) (store : List (Option CalPair)) (s : State) :
    cfgOf (construct c store s) d = if d = c then resetCfg (profOf s c) else cfgOf s d := by
  cases c <;> cases d <;> rfl

theorem convOf_construct (c : Chip) (store : List (Option CalPair)) (s : State) (k : ConvChip) :
    convOf (construct c store s) k = if k.toChip = c then resetConv else convOf s k := by
  cases c <;> cases k <;> rfl

theorem ioOf_construct (c d : Chip) (store : List (Option CalPair)) (s : State) :
    ioOf (construct c store s) d = if d = c then resetIo else ioOf s d := by
  cases c <;> cases d <;> rfl

theorem cal_construct (c : Chip) (store : List (Option CalPair)) (s : State) :
    (construct c store s).cal = withCells s.cal c (loadCells (channelCount s.profile c) store) := by
  cases c <;> rfl

theorem profile_construct (c : Chip) (store : List (Option CalPair)) (s : State) :
    (construct c store s).profile = s.profile := by
  cases c <;> rfl

/-- A construction emits nothing and takes nothing from the ports. -/
theorem samePorts_construct (c : Chip) (store : List (Option CalPair)) (s : State) :
    samePorts s (construct c store s) := by
  cases c <;> exact ⟨rfl, rfl, rfl, rfl, rfl⟩

/-- A construction leaves every other chip alone. -/
theorem sameInstance_construct {c d : Chip} (h : d ≠ c) (store : List (Option CalPair)) (s : State) :
    sameInstance s (construct c store s) d := by
  refine ⟨by rw [cfgOf_construct, if_neg h], ?_, by rw [ioOf_construct, if_neg h], fun k hk => ?_⟩
  · rw [cal_construct, calCells_withCells, if_neg h]
  · rw [convOf_construct, if_neg (hk ▸ h)]

/-- Settles O8: the reset state, the construction of one free chip, and the end of the process. -/
theorem resetValues : Obligations.ResetValues := by
  refine ⟨fun p store => ⟨fun c => ⟨cfgOf_resetWith p store c, by cases c <;> rfl⟩, fun k => by cases k <;> rfl,
    fun m ch h => calGet_loadCal h store, rfl, rfl⟩,
    fun c store rest s hp hf => ?_, fun waiting rest store s hp hw => ?_⟩
  · have hstep := step_ready (waiting := []) hp (waiting_nil s) (.inl ⟨hf, .inr (.inr ⟨store, rfl⟩)⟩)
    refine ⟨_, hstep, ?_, ?_, fun k hk => ?_, fun ch hch => ?_, fun d hd => sameInstance_construct hd store _,
      samePorts_construct c store _, profile_construct c store _⟩
    · rw [cfgOf_construct, if_pos rfl]
      rfl
    · rw [ioOf_construct, if_pos rfl]
      rfl
    · rw [convOf_construct, if_pos hk]
      rfl
    · rw [cal_construct, calGet_withCells_same]
      exact loadCells_get (of_decide_eq_true hch) store
  · exact ⟨_, step_restart hp hw, ⟨rfl, rfl, rfl, rfl, rfl, rfl, rfl⟩, fun c => by cases c <;> rfl,
      ⟨rfl, rfl, rfl, rfl, rfl⟩⟩

end Sys2Proof.Machine
end

section
/-! The instances interleave: an event taken for one of them leaves the other two alone, because what is presented
decodes to an instruction of the chip it is presented to (rules R20, R75, R100, R102, R256 and R297). -/

namespace Sys2Proof.Machine
open Sys2Proof.Config

/-! ### An instruction is of the chip whose port it was presented on -/

/-- Whatever the decoder answers satisfies this. -/
def DecodesTo (P : Instr → Prop) (x : Except DecodeError Instr) : Prop := ∀ i, x = .ok i → P i

namespace DecodesTo
variable {P : Instr → Prop}

theorem bind {α : Type} {x : Except DecodeError α} {f : α → Except DecodeError Instr}
    (h : ∀ a, x = .ok a → DecodesTo P (f a)) : DecodesTo P (x >>= f) := by
  intro i hi
  cases x with
  | ok a => exact h a rfl i hi
  | error e => cases hi

theorem ok {i : Instr} (h : P i) : DecodesTo P (.ok i) := by
  intro j hj
  cases hj
  exact h

theorem error {e : DecodeError} : DecodesTo P (.error e) := nofun

end DecodesTo

/-- The instruction is of the chip that the command word's chip selector names. -/
def OfSelector (w : Word) (i : Instr) : Prop := instanceOf i = chipNamed (chipField w)

theorem anyChip_ok {w : Word} {c : Chip} (h : anyChip w = .ok c) : c = chipNamed (chipField w) := by
  unfold anyChip at h
  unfold chipNamed
  repeat' split at h
  all_goals cases h
  all_goals simp [*]

theorem convChip_ok {w : Word} {c : ConvChip} (h : convChip w = .ok c) : c.toChip = chipNamed (chipField w) := by
  unfold convChip at h
  split at h <;> cases h
  all_goals exact anyChip_ok ‹_›

theorem onlyChip_ok {w : Word} {c : Chip} {u : Unit} (h : onlyChip c w = .ok u) : c = chipNamed (chipField w) := by
  unfold onlyChip at h
  split at h
  · split at h
    · rename_i ha hc
      exact hc ▸ anyChip_ok ha
    · cases h
  · cases h

section
variable {w : Word} {ws : List Word}

theorem decodeUnit_ofSelector {mk : ConvChip → BitVec 9 → Instr} (h : ∀ c u, instanceOf (mk c u) = c.toChip) :
    DecodesTo (OfSelector w) (decodeUnit mk w ws) :=
  .bind fun c hc => .bind fun _ _ => .bind fun _ _ => .ok ((h c _).trans (convChip_ok hc))

theorem decodeConv_ofSelector {mk : ConvChip → Instr} (h : ∀ c, instanceOf (mk c) = c.toChip) :
    DecodesTo (OfSelector w) (decodeConv mk w ws) :=
  .bind fun c hc => .bind fun _ _ => .bind fun _ _ => .ok ((h c).trans (convChip_ok hc))

theorem decodeAny_ofSelector {mk : Chip → Instr} (h : ∀ c, instanceOf (mk c) = c) :
    DecodesTo (OfSelector w) (decodeAny mk w ws) :=
  .bind fun c hc => .bind fun _ _ => .bind fun _ _ => .ok ((h c).trans (anyChip_ok hc))

theorem decodePairs_ofSelector {mk : Chip → List Pair → Instr} (h : ∀ c req, instanceOf (mk c req) = c) :
    DecodesTo (OfSelector w) (decodePairs mk w ws) :=
  .bind fun c hc => .bind fun _ _ => .bind fun _ _ => .ok ((h c _).trans (anyChip_ok hc))

theorem decodeChannel_ofSelector {c : Chip} {mk : Byte → Word → Instr} (h : ∀ ch v, instanceOf (mk ch v) = c) :
    DecodesTo (OfSelector w) (decodeChannel c mk w ws) :=
  .bind fun _ hc => .bind fun _ _ => .bind fun _ _ => .ok ((h _ _).trans (onlyChip_ok hc))

/-- The chip selector stands in the bits below the operation number. -/
theorem chipField_restField (w : Word) : (restField w).extractLsb' 25 2 = chipField w := by
  apply BitVec.eq_of_toNat_eq
  simp only [restField, chipField, BitVec.extractLsb'_toNat, Nat.shiftRight_eq_div_pow]
  omega

/-- A command is an instruction of the chip its chip selector names (rules R102 and R105). -/
theorem decodeCommand_ofSelector : DecodesTo (OfSelector w) (decodeCommand w ws) := by
  have hrest : chipNamed ((restField w).extractLsb' 25 2) = chipNamed (chipField w) := by rw [chipField_restField]
  unfold decodeCommand
  split
  -- the reserved operation numbers 0x00 and 0x1F
  case h_1 | h_32 => exact .ok hrest
  case h_4 | h_5 | h_8 | h_9 | h_17 | h_18 | h_20 | h_21 => exact decodeUnit_ofSelector fun _ _ => rfl
  case h_6 | h_7 | h_19 => exact decodeConv_ofSelector fun _ => rfl
  case h_22 | h_24 => exact decodeAny_ofSelector fun _ => rfl
  case h_14 | h_15 | h_16 => exact decodePairs_ofSelector fun _ _ => rfl
  case h_12 | h_29 | h_30 => exact decodeChannel_ofSelector fun _ _ => rfl
  -- the rows with a layout of their own, on a converting chip, on any chip, on one chip
  case h_2 | h_3 | h_10 => exact .bind fun c hc => .bind fun _ _ => .bind fun _ _ => .ok (convChip_ok hc)
  case h_25 | h_26 | h_28 => exact .bind fun c hc => .bind fun _ _ => .bind fun _ _ => .ok (anyChip_ok hc)
  case h_23 => exact .bind fun c hc => .bind fun _ _ => .bind fun _ _ => .bind fun _ _ => .ok (anyChip_ok hc)
  case h_11 | h_27 => exact .bind fun _ hc => .bind fun _ _ => .bind fun _ _ => .ok (onlyChip_ok hc)
  case h_13 | h_31 =>
    refine .bind fun _ hc => .bind fun _ _ => .bind fun _ _ => ?_
    split
    · exact .ok (onlyChip_ok hc)
    · exact .error

end

/-- The rows of the ADC's commands are the ADC's. -/
theorem decodeAdcCommand_adc (p : ChipProfile) (b0 : Byte) (rest : Frame) :
    DecodesTo (instanceOf · = .adc) (decodeAdcCommand p b0 rest) := by
  have hrows : ∀ r ∈ commandRows p, instanceOf r.2.2 = .adc := by simp [commandRows, instanceOf]
  unfold decodeAdcCommand
  split
  · rename_i b extra i hfind
    split
    · exact .ok (hrows _ (List.mem_of_find?_eq_some hfind))
    · exact .error
  · split
    · split <;> exact .error
    · exact .error

/-- A hand-sent frame is an instruction of the chip it is handed to (rules R99 and R100). -/
theorem decodeFrame_ofChip (p : Profiles) (c : Chip) (f : Frame) :
    DecodesTo (instanceOf · = c) (decodeFrame p c f) := by
  unfold decodeFrame
  split
  · exact .error
  · cases c with
    | adc =>
      simp only [decodeAdcFrame]
      repeat' split
      all_goals first
        | exact .error
        | exact .ok rfl
        | exact decodeAdcCommand_adc p.adc _ _
    | _ =>
      simp only [decodeDacFrame, decodeTcFrame]
      repeat' split
      all_goals first
        | exact .error
        | exact .ok rfl

theorem instanceOf_decodeItem {p : Profiles} {item : PortItem} {i : Instr} (h : decodeItem p item = .ok i) :
    instanceOf i = itemChip item := by
  cases item with
  | command w ws => exact decodeCommand_ofSelector i h
  | frame c f => exact decodeFrame_ofChip p c f i h

/-! ### What one chip runs leaves the others alone -/

/-- From `s` to `t` the instances other than `c` are the same, and so are the profile and what is still presented. -/
structure Alone (c : Chip) (s t : State) : Prop where
  port : t.port = s.port
  profile : t.profile = s.profile
  others : ∀ d, d ≠ c → sameInstance s t d

namespace Alone
variable {c : Chip} {s t u : State}

theorem refl (c : Chip) (s : State) : Alone c s s := ⟨rfl, rfl, fun _ _ => ⟨rfl, rfl, rfl, fun _ _ => rfl⟩⟩

theorem trans (h : Alone c s t) (k : Alone c t u) : Alone c s u where
  port := k.port.trans h.port
  profile := k.profile.trans h.profile
  others d hd := by
    obtain ⟨hcfg, hcal, hio, hconv⟩ := h.others d hd
    obtain ⟨kcfg, kcal, kio, kconv⟩ := k.others d hd
    exact ⟨kcfg.trans hcfg, kcal.trans hcal, kio.trans hio, fun j hj => (kconv j hj).trans (hconv j hj)⟩

/-- Only the ports of `c` changed. -/
theorem of_sameCore (hc : sameCore s t) (hport : t.port = s.port) (hio : ∀ d, d ≠ c → ioOf t d = ioOf s d) :
    Alone c s t := by
  obtain ⟨hp, hcal, hcfg, hconv⟩ := hc.parts
  exact ⟨hport, hp, fun d hd => ⟨hcfg d, by rw [hcal], hio d hd, fun k _ => hconv k⟩⟩

theorem withIo (c : Chip) (s : State) (x : InstanceIo) : Alone c s (withIo s c x) :=
  of_sameCore ⟨rfl, rfl, rfl, rfl, rfl, rfl, rfl⟩ rfl fun _ hd => ioOf_withIo_ne s x hd

theorem withResult (h : s.turn = c) (r : Answer) : Alone c s (withResult s r) := h ▸ withIo ..

theorem withCfg (c : Chip) (s : State) (x : CfgInstance) : Alone c s (withCfg s c x) :=
  ⟨by simp, by simp, fun d hd => ⟨cfgOf_withCfg_ne s x hd, by simp, by simp, fun k _ => by simp⟩⟩

theorem sent (h : Sent s c t) : Alone c s t := by
  refine of_sameCore h.core ?_ fun d hd => ?_ <;> obtain ⟨fs, cs, rfl | ⟨rfl, _⟩⟩ := h
  · rfl
  · rfl
  · simp
  · rw [markBusy, ioOf_withIo_ne _ _ hd, ioOf_sent]

/-- An operation's answer, on the port of the chip at work. -/
theorem shows (h : Alone c s t) (ht : t.turn = c) (hu : Shows t u) : Alone c s u := by
  rcases hu with rfl | ⟨r, rfl⟩
  · exact h
  · exact h.trans (withResult ht r)

end Alone

/-- The ports of a chip, field by field. -/
theorem instanceIo_eq {x y : InstanceIo} (hb : x.busy = y.busy) (hr : x.result = y.result)
    (hs : x.running = y.running) (hd : x.returned = y.returned) : x = y := by
  cases x
  cases y
  exact InstanceIo.mk.injEq .. ▸ ⟨hb, hr, hs, hd⟩

/-- An instruction of the chip at work. -/
theorem exec_alone {i : Instr} {s t : State} (hi : instanceOf i = s.turn) (h : exec i s = .next t) :
    Alone s.turn s t := by
  have hw := exec_writtenBy h
  obtain ⟨hport, _, hcontrollers⟩ := exec_controllers h
  refine ⟨hport, hw.profile, fun d hd => ?_⟩
  obtain ⟨hrunning, hreturned⟩ := hcontrollers d
  have hne : d ≠ instanceOf i := hi ▸ hd
  exact ⟨hw.cfg d hne, hw.cells d hne, instanceIo_eq (hw.busy d hne) (hw.result d hd) hrunning hreturned,
    fun k hk => hw.conv k (hk ▸ hne)⟩

theorem sendByHand_alone {s t : State} {frame : Except Raised Frame} {parse : Frame → Except Raised (List Word)}
    (h : wireOutcome (sendByHand s.turn frame parse s) = .next t) : Alone s.turn s t :=
  (Alone.sent (sendByHand_end ..)).shows (sendByHand_controllers s.turn frame parse s).2.1 (outcome_inv h)

theorem settle_alone (x : Except Raised (List Word)) (s : State) : Alone s.turn s (settle x s) := by
  obtain ⟨r, hr⟩ := settle_result x s
  exact hr ▸ .withResult rfl r

theorem runItem_alone {item : PortItem} {s t : State} (hc : itemChip item = s.turn) (h : runItem item s = .next t) :
    Alone s.turn s t := by
  unfold runItem at h
  split at h
  · rename_i i hd
    exact exec_alone ((instanceOf_decodeItem hd).trans hc) h
  · cases item with
    | command w ws => cases h; exact .withResult rfl _
    | frame c f =>
      obtain rfl : c = s.turn := hc
      exact sendByHand_alone h

/-! ### The controllers -/

theorem goOnward_alone (c : Chip) (o : Onward) (s : State) : Alone c s (goOnward c o s) := by
  cases o <;> exact .withIo ..

theorem carryOn_alone (c : Chip) (r : SeqRun) (s : State) : Alone c s (carryOn c r s) := by
  unfold carryOn
  split
  · exact .refl c s
  · split
    · exact .withIo ..
    · exact goOnward_alone ..

theorem beginSequence_alone {q : Sequence} {s : State} (hq : seqChip q = s.turn) :
    Alone s.turn s (beginSequence q s) := by
  unfold beginSequence
  rw [hq]
  split
  · exact goOnward_alone ..
  · exact (Alone.withResult rfl _).trans (.withIo ..)

theorem sendReset_alone (c : Chip) (f : Frame) (s : State) :
    Alone c s (endState (sendReset c f s)) ∧ (endState (sendReset c f s)).turn = s.turn := by
  have hs := Alone.sent (transfer_sent c f 0 s)
  have hturn := (transfer_controllers c f 0 s).2.1
  unfold sendReset
  split <;> rename_i hx <;> rw [hx] at hs hturn
  · exact ⟨hs, hturn⟩
  · exact ⟨hs.trans (.withCfg ..), (withCfg_turn ..).trans hturn⟩
  · exact ⟨hs, hturn⟩

/-- A step of a sequence on the chip at work. -/
theorem performStep_alone {r : SeqRun} {s t : State} (hr : stepOn s.turn r.next = true)
    (h : performStep s.turn r s = .next t) : Alone s.turn s t := by
  unfold performStep at h
  split at h <;> rename_i hn <;> rw [hn] at hr
  case h_7 => cases h; exact settle_alone ..
  case h_12 => exact sendByHand_alone h
  case h_13 => cases h; exact settle_alone ..
  case h_14 f =>
    obtain ⟨halone, hturn⟩ := sendReset_alone s.turn f s
    exact halone.shows hturn (outcome_inv h)
  case h_15 => exact exec_alone rfl h
  all_goals refine exec_alone ?_ h
  case h_1 | h_2 | h_3 | h_4 | h_5 => exact of_decide_eq_true hr
  all_goals exact (of_decide_eq_true hr).symm

theorem proceed_alone {s t : State} (hs : s.inv = true) (h : proceed s.turn s = .next t) : Alone s.turn s t := by
  cases hr : (ioOf s s.turn).running with
  | none =>
    rw [proceed_none hr] at h
    cases h
    exact .refl ..
  | some r =>
    obtain ⟨v, hv⟩ := performStep_next s.turn r s
    rw [proceed_some hr hv] at h
    cases h
    have hon : stepOn s.turn r.next = true := by simpa [ioWf, hr] using inv_io hs s.turn
    exact (performStep_alone hon hv).trans (carryOn_alone ..)

/-- What is taken for a chip leaves the others alone. -/
theorem runEvent_alone {s t : State} {e : Event} {c : Chip} (hs : s.inv = true) (rest : List Event) (he : Ready s e c)
    (h : runEvent e { s with port := rest } = .next t) : Alone c { s with port := rest } t := by
  have hat : Alone c { s with port := rest } (atWork s c rest) :=
    .of_sameCore ⟨rfl, rfl, rfl, rfl, rfl, rfl, rfl⟩ rfl fun d _ => by cases d <;> rfl
  refine hat.trans ?_
  rcases he with ⟨_, ⟨x, rfl, rfl⟩ | ⟨q, rfl, rfl⟩ | ⟨store, rfl⟩⟩ | ⟨rfl, _⟩
  · exact runItem_alone (s := atWork s _ rest) rfl h
  · cases h
    exact beginSequence_alone (s := atWork s _ rest) rfl
  · cases h
    obtain ⟨hport, _⟩ := samePorts_construct c store (atWork s c rest)
    exact ⟨hport, profile_construct .., fun d hd => sameInstance_construct hd store _⟩
  · exact proceed_alone (s := atWork s c rest) hs h

/-- Settles O55: the step takes the event, and what it runs leaves the other chips alone. -/
theorem instancesInterleave : Obligations.InstancesInterleave := by
  intro s t waiting rest e c hs hp hw he h
  rw [step_ready hp hw he] at h
  obtain ⟨hport, hprofile, hothers⟩ := runEvent_alone hs _ he h
  exact ⟨hport, hprofile, hothers⟩

end Sys2Proof.Machine
end

section
/-! A conversion runs concurrently with anything, and may race a CAL_SET of the entry it reads (rules R76, R210 and R226; log
entry 18). A step that evaluates a conversion is that conversion over any table that holds, at the entry it reads, what the
race leaves there. -/

namespace Sys2Proof.Machine
open Sys2Proof.Config

/-! ### A CAL_SET as it is presented -/

section
variable (op : BitVec 5) (chip : BitVec 2) (n : BitVec 9) (a aux : Byte)

@[simp] theorem opField_commandWord : opField (commandWord op chip n a aux) = op := by
  apply BitVec.eq_of_toNat_eq
  simp only [opField, BitVec.extractLsb'_toNat, Nat.shiftRight_eq_div_pow, commandWord_toNat]
  omega

@[simp] theorem chipField_commandWord : chipField (commandWord op chip n a aux) = chip := by
  apply BitVec.eq_of_toNat_eq
  simp only [chipField, BitVec.extractLsb'_toNat, Nat.shiftRight_eq_div_pow, commandWord_toNat]
  omega

@[simp] theorem nField_commandWord : nField (commandWord op chip n a aux) = n := by
  apply BitVec.eq_of_toNat_eq
  simp only [nField, BitVec.extractLsb'_toNat, Nat.shiftRight_eq_div_pow, commandWord_toNat]
  omega

@[simp] theorem aField_commandWord : aField (commandWord op chip n a aux) = a := by
  apply BitVec.eq_of_toNat_eq
  simp only [aField, BitVec.extractLsb'_toNat, Nat.shiftRight_eq_div_pow, commandWord_toNat]
  omega

@[simp] theorem auxField_commandWord : auxField (commandWord op chip n a aux) = aux := by
  apply BitVec.eq_of_toNat_eq
  simp only [auxField, BitVec.extractLsb'_toNat, Nat.shiftRight_eq_div_pow, commandWord_toNat]
  omega

end

@[simp] theorem anyChip_commandWord (op : BitVec 5) (c : Chip) (n : BitVec 9) (a aux : Byte) :
    anyChip (commandWord op (chipCode c) n a aux) = .ok c := by
  cases c <;> simp [anyChip, chipCode]

theorem decodeItem_encode_calSet (p : Profiles) (m : Chip) (ch : Byte) (gain offset : Word) :
    decodeItem p (encode p (.calSet m ch gain offset)) = .ok (.calSet m ch gain offset) := by
  simp [encode, encodeCommand, decodeItem, decodeCommand, zeroFields, payload2]
  rfl

section
variable {m : Chip} {ch : Byte} {gain offset : Word} {s : State} {rest : List Event}

/-- A CAL_SET of a valid entry replaces it, and keeps what the entry held for a conversion that races (rule R212). -/
theorem exec_calSet_valid (h : ch.toNat < channelCount s.profile m) :
    exec (.calSet m ch gain offset) s = .next (answer
      { s with
        cal := calSet s.cal m ch.toNat { gain := gain, offset := offset }
        calRace := some { module := m, channel := ch.toNat, before := calGet s.cal m ch.toNat } } []) := by
  simp [exec, execCalSet, setCal, validCh, h]

theorem exec_calSet_invalid (h : ¬ ch.toNat < channelCount s.profile m) :
    exec (.calSet m ch gain offset) s = .next (deliver (badChannel m ch.toNat) s) := by
  simp [exec, execCalSet, setCal, validCh, h]

theorem step_calSet (hfree : isFree s m = true)
    (hp : s.port = .present (encode s.profile (.calSet m ch gain offset)) :: rest) :
    step s = exec (.calSet m ch gain offset) (atWork s m rest) := by
  have hd := decodeItem_encode_calSet s.profile m ch gain offset
  have hchip : m = itemChip (encode s.profile (.calSet m ch gain offset)) := instanceOf_decodeItem hd
  rw [step_ready (waiting := []) hp nofun (.inl ⟨hfree, .inl ⟨_, rfl, hchip.symm⟩⟩), List.nil_append,
    runEvent_present, ← hchip, runItem, atWork_profile, hd]

theorem step_calSet_valid (hfree : isFree s m = true)
    (hp : s.port = .present (encode s.profile (.calSet m ch gain offset)) :: rest)
    (h : ch.toNat < channelCount s.profile m) :
    ∃ t, step s = .next t ∧ t.port = rest ∧ t.cal = calSet s.cal m ch.toNat { gain := gain, offset := offset } ∧
      t.calRace = some { module := m, channel := ch.toNat, before := calGet s.cal m ch.toNat } :=
  ⟨_, (step_calSet hfree hp).trans (exec_calSet_valid h), rfl, rfl, rfl⟩

/-- Whatever a CAL_SET answers, only its own entry is left to be raced for. -/
theorem step_calSet_calRace (hfree : isFree s m = true)
    (hp : s.port = .present (encode s.profile (.calSet m ch gain offset)) :: rest) :
    ∃ t, step s = .next t ∧ t.port = rest ∧ ∀ r, t.calRace = some r → (r.module, r.channel) = (m, ch.toNat) := by
  by_cases h : ch.toNat < channelCount s.profile m
  · obtain ⟨t, ht, hport, _, hrace⟩ := step_calSet_valid hfree hp h
    refine ⟨t, ht, hport, fun r hr => ?_⟩
    cases hrace.symm.trans hr
    rfl
  · exact ⟨_, (step_calSet hfree hp).trans (exec_calSet_invalid h), rfl, nofun⟩

end

/-! ### What a race leaves to be read -/

/-- The free value picks the old pair, the new pair or a mixture. -/
theorem raceReads_racedPair (old : Option CalPair) (new : CalPair) (choice : Bool × Bool) :
    raceReads old new (racedPair old new choice) := by
  obtain ⟨newGain, newOffset⟩ := choice
  cases old with
  | none => cases newGain <;> simp [raceReads, racedPair]
  | some o => cases newGain <;> cases newOffset <;> simp [raceReads, racedPair]

theorem racedCal_of_race {s : State} {m : Chip} {n : Nat} {before : Option CalPair} {new : CalPair}
    (hr : s.calRace = some { module := m, channel := n, before := before }) (hn : calGet s.cal m n = some new) :
    racedCal s = calPut s.cal m n (racedPair before new (raceChoice s.races)) := by
  simp only [racedCal, hr, hn]

theorem instanceOf_of_entryRead {i : Instr} {m : Chip} {n : Nat} (h : entryRead i = some (m, n)) : instanceOf i = m := by
  cases i <;> cases h <;> rfl

/-! ### A conversion that is evaluated concurrently -/

theorem sameCore_settle (x : Except Raised (List Word)) (s : State) : sameCore s (settle x s) := by
  obtain ⟨r, h⟩ := settle_result x s
  rw [h]
  exact ⟨rfl, rfl, rfl, rfl, rfl, rfl, rfl⟩

/-- An answer is shown the same, whatever state it is answered in. -/
theorem shown_settle (x : Except Raised (List Word)) (s t : State) : shown (settle x s) = shown (settle x t) := by
  cases x with
  | ok ws => exact (shown_answer s ws).trans (shown_answer t ws).symm
  | error e => exact (shown_deliver e s).trans (shown_deliver e t).symm

section
variable {w : Word} {ws : List Word} {i : Instr} {rest : List Event} {s : State}

theorem conversionOf_of_decode (hd : decodeCommand w ws = .ok i) (hi : isConversion i = true) :
    conversionOf w ws = some i := by
  simp [conversionOf, hd, hi]

/-- A conversion is taken whether or not its chip is busy. -/
theorem step_concurrent (hd : decodeCommand w ws = .ok i) (hi : isConversion i = true)
    (hp : s.port = .concurrent w ws :: rest) :
    step s = runRacing i { s with port := rest, turn := instanceOf i } := by
  have hc := conversionOf_of_decode hd hi
  have hchip : instanceOf i = itemChip (.command w ws) := decodeCommand_ofSelector i hd
  have htake : takeNext s s.port = some (.concurrent w ws, rest) := by
    rw [hp]
    exact takeNext_append (before := []) nofun (by simp [canTake, hc])
  simp only [step, htake, runEvent, hc, hchip]

/-- The step answers what the conversion answers over any table that agrees, at the entry it reads, with the raced one. -/
theorem step_concurrent_over (hd : decodeCommand w ws = .ok i) (hi : isConversion i = true)
    (hp : s.port = .concurrent w ws :: rest) {cal : CalTable}
    (hc : ∀ m n, entryRead i = some (m, n) → calGet cal m n = calGet (racedCal s) m n) :
    ∃ x, exec i (atWork { s with cal := cal } (instanceOf i) rest) =
        .next (settle x (atWork { s with cal := cal } (instanceOf i) rest)) ∧
      step s = .next { settle x (atWork s (instanceOf i) rest) with calRace := s.calRace, races := s.races + 1 } := by
  obtain ⟨x, hexec, hrun⟩ := runRacing_next hi (s := { s with port := rest, turn := instanceOf i })
    (t := atWork { s with cal := cal } (instanceOf i) rest) rfl hc
  refine ⟨x, hexec, ?_⟩
  rw [step_concurrent hd hi hp, hrun]
  cases x <;> rfl

/-- The same, in the terms of the statement: no state of the SCCE changes, and the same answer is shown. -/
theorem step_concurrent_shows (hd : decodeCommand w ws = .ok i) (hi : isConversion i = true)
    (hp : s.port = .concurrent w ws :: rest) {cal : CalTable}
    (hc : ∀ m n, entryRead i = some (m, n) → calGet cal m n = calGet (racedCal s) m n) :
    ∃ u x, step s = .next u ∧ sameCore s u ∧
      exec i (atWork { s with cal := cal } (instanceOf i) rest) = .next x ∧ shown u = shown x := by
  obtain ⟨x, hexec, hstep⟩ := step_concurrent_over hd hi hp hc
  exact ⟨_, _, hstep, sameCore_settle x (atWork s (instanceOf i) rest), hexec,
    shown_settle x (atWork s (instanceOf i) rest) _⟩

/-- Without a race for its entry the conversion reads the table itself. -/
theorem calGet_racedCal_of_no_race (h : ∀ r, s.calRace = some r → entryRead i ≠ some (r.module, r.channel)) :
    ∀ m n, entryRead i = some (m, n) → calGet s.cal m n = calGet (racedCal s) m n :=
  fun _ _ he => (racedCal_other fun r hr heq => h r hr (heq ▸ he)).symm

end

/-- Settles O51: the step is the conversion over the raced table, which is the table itself but for the entry of a CAL_SET
that has just run, and holds there what the race may leave. -/
theorem conversionsRunConcurrently : Obligations.ConversionsRunConcurrently := by
  intro w ws i rest s hd hi
  refine ⟨fun hp hrace => ?_, fun m ch gain offset hfree hp => ⟨fun hother => ?_, fun hentry hwf hch => ?_⟩⟩
  · -- no race for its entry
    obtain ⟨x, hexec, hstep⟩ := step_concurrent_over hd hi hp (calGet_racedCal_of_no_race hrace)
    exact ⟨_, hexec, hstep, sameCore_settle x (atWork s (instanceOf i) rest)⟩
  · -- a CAL_SET of another entry
    obtain ⟨t, ht, hport, hrace⟩ := step_calSet_calRace hfree hp
    obtain ⟨u, x, hu, hcore, hx, hshown⟩ := step_concurrent_shows hd hi hport
      (calGet_racedCal_of_no_race fun r hr he => hother (he.trans (congrArg some (hrace r hr))))
    exact ⟨t, u, x, ht, hu, hcore, hx, hshown⟩
  · -- a CAL_SET of the entry it reads
    obtain ⟨t, ht, hport, hcal, hrace⟩ := step_calSet_valid hfree hp hch
    have hnew : calGet t.cal m ch.toNat = some { gain := gain, offset := offset } := by
      rw [hcal]
      exact calGet_calSet_same hwf hch _
    have hraced := racedCal_of_race hrace hnew
    obtain ⟨u, x, hu, hcore, hx, hshown⟩ := step_concurrent_shows hd hi hport
      fun m' n _ => congrArg (calGet · m' n) hraced.symm
    rw [instanceOf_of_entryRead hentry] at hx
    exact ⟨t, u, x, _, ht, hu, hcore, hnew, raceReads_racedPair .., hx, hshown⟩

end Sys2Proof.Machine
end

section
/-! The commands: every field and every payload word is read as it is written, so the decoder of commands undoes the
encoder and the encoder the decoder (rules R102 to R106). -/

namespace Sys2Proof.Machine
open Sys2Proof.Config

/-! ### The fields of a command word -/

section
variable (w : Word)

theorem opField_toNat : (opField w).toNat = w.toNat / 2 ^ 27 := by
  simp only [opField, BitVec.extractLsb'_toNat, Nat.shiftRight_eq_div_pow]
  omega

theorem chipField_toNat : (chipField w).toNat = w.toNat / 2 ^ 25 % 4 := by
  simp only [chipField, BitVec.extractLsb'_toNat, Nat.shiftRight_eq_div_pow]

theorem nField_toNat : (nField w).toNat = w.toNat / 2 ^ 16 % 2 ^ 9 := by
  simp only [nField, BitVec.extractLsb'_toNat, Nat.shiftRight_eq_div_pow]

theorem aField_toNat : (aField w).toNat = w.toNat / 2 ^ 8 % 2 ^ 8 := by
  simp only [aField, BitVec.extractLsb'_toNat, Nat.shiftRight_eq_div_pow]

theorem auxField_toNat : (auxField w).toNat = w.toNat % 2 ^ 8 := by
  simp only [auxField, BitVec.extractLsb'_toNat, Nat.shiftRight_zero]

theorem restField_toNat : (restField w).toNat = w.toNat % 2 ^ 27 := by
  simp only [restField, BitVec.extractLsb'_toNat, Nat.shiftRight_zero]

/-- No bit of a command word is outside its five fields. -/
theorem commandWord_fields : commandWord (opField w) (chipField w) (nField w) (aField w) (auxField w) = w := by
  apply BitVec.eq_of_toNat_eq
  rw [commandWord_toNat, opField_toNat, chipField_toNat, nField_toNat, aField_toNat, auxField_toNat]
  omega

/-- A reserved command's word: the operation number above everything else. -/
theorem append_toNat (op : BitVec 5) (rest : BitVec 27) :
    (op ++ rest : Word).toNat = 2 ^ 27 * op.toNat + rest.toNat := by
  rw [BitVec.toNat_append, ← Nat.shiftLeft_add_eq_or_of_lt rest.isLt, Nat.shiftLeft_eq, Nat.mul_comm]

theorem append_restField {w : Word} {op : BitVec 5} (h : opField w = op) : op ++ restField w = w := by
  subst h
  apply BitVec.eq_of_toNat_eq
  rw [append_toNat, opField_toNat, restField_toNat]
  omega

@[simp] theorem opField_append (op : BitVec 5) (rest : BitVec 27) : opField (op ++ rest) = op := by
  apply BitVec.eq_of_toNat_eq
  rw [opField_toNat, append_toNat]
  omega

@[simp] theorem restField_append (op : BitVec 5) (rest : BitVec 27) : restField (op ++ rest) = rest := by
  apply BitVec.eq_of_toNat_eq
  rw [restField_toNat, append_toNat]
  omega

end

/-- A command whose word has these fields is presented so. -/
theorem encodeCommand_of_fields {w : Word} {op : BitVec 5} {c : Chip} {n : BitVec 9} {a aux : Byte} (ws : List Word)
    (hop : opField w = op) (hc : chipField w = chipCode c) (hn : nField w = n) (ha : aField w = a)
    (hx : auxField w = aux) : encodeCommand op c n a aux ws = .command w ws := by
  rw [encodeCommand, ← hop, ← hc, ← hn, ← ha, ← hx, commandWord_fields]

/-! ### The checks on a command word -/

theorem bind_eq_ok {ε α β : Type} {x : Except ε α} {f : α → Except ε β} {b : β} :
    x >>= f = .ok b ↔ ∃ a, x = .ok a ∧ f a = .ok b := by
  cases x with
  | error e => exact ⟨nofun, nofun⟩
  | ok a => exact ⟨fun h => ⟨a, rfl, h⟩, fun ⟨_, ha, h⟩ => by cases ha; exact h⟩

theorem pure_eq_ok {ε α : Type} {a b : α} : (pure a : Except ε α) = .ok b ↔ a = b := Except.ok.injEq a b ▸ Iff.rfl

theorem anyChip_eq_ok {w : Word} {c : Chip} : anyChip w = .ok c ↔ chipField w = chipCode c := by
  unfold anyChip
  generalize chipField w = k
  cases c <;> revert k <;> decide

theorem convChip_eq_ok {w : Word} {c : ConvChip} : convChip w = .ok c ↔ chipField w = chipCode c.toChip := by
  rw [← anyChip_eq_ok, convChip]
  cases anyChip w with
  | error e => exact ⟨nofun, nofun⟩
  | ok k => cases k <;> cases c <;> simp [ConvChip.toChip]

theorem onlyChip_eq_ok {w : Word} {c : Chip} {u : Unit} : onlyChip c w = .ok u ↔ chipField w = chipCode c := by
  rw [← anyChip_eq_ok, onlyChip]
  cases anyChip w with
  | error e => exact ⟨nofun, nofun⟩
  | ok k => by_cases h : k = c <;> simp [h]

theorem zeroFields_eq_ok {b : Bool} {u : Unit} : zeroFields b = .ok u ↔ b = true := by
  cases b <;> simp [zeroFields]

section
variable {k m n : Nat} {x : BitVec k} {y : BitVec m} {z : BitVec n} {u : Unit}

theorem zero_of_zeroFields (h : zeroFields (x == 0) = .ok u) : x = 0 := eq_of_beq (zeroFields_eq_ok.mp h)

theorem zero_of_zeroFields₂ (h : zeroFields (x == 0 && y == 0) = .ok u) : x = 0 ∧ y = 0 := by
  simpa only [zeroFields_eq_ok, Bool.and_eq_true, beq_iff_eq] using h

theorem zero_of_zeroFields₃ (h : zeroFields (x == 0 && y == 0 && z == 0) = .ok u) : x = 0 ∧ y = 0 ∧ z = 0 := by
  simpa only [zeroFields_eq_ok, Bool.and_eq_true, beq_iff_eq, and_assoc] using h

end

/-! ### Payload words (rule R103) -/

theorem wordByte_eq_ok {w : Word} {b : Byte} : wordByte w = .ok b ↔ w = byteWord b := by
  have hhigh : w.extractLsb' 8 24 = 0 ↔ w.toNat < 2 ^ 8 := by
    rw [← BitVec.toNat_inj, BitVec.extractLsb'_toNat, Nat.shiftRight_eq_div_pow]
    have := w.isLt
    simp
    omega
  unfold wordByte
  split
  · rename_i h
    rw [hhigh] at h
    rw [Except.ok.injEq, ← BitVec.toNat_inj, ← BitVec.toNat_inj, byteWord, BitVec.toNat_setWidth, BitVec.toNat_setWidth]
    have := b.isLt
    omega
  · rename_i h
    refine ⟨nofun, fun he => absurd (hhigh.mpr ?_) h⟩
    rw [he, byteWord, BitVec.toNat_setWidth]
    have := b.isLt
    omega

theorem regWord_toNat (r : RegByte) : (regWord r).toNat = 2 ^ 8 * r.reg.toNat + r.byte.toNat := by
  have h1 := r.reg.isLt
  have h2 := r.byte.isLt
  rw [regWord, BitVec.toNat_setWidth, BitVec.toNat_append, ← Nat.shiftLeft_add_eq_or_of_lt h2, Nat.shiftLeft_eq]
  omega

theorem wordReg_eq_ok {w : Word} {r : RegByte} : wordReg w = .ok r ↔ w = regWord r := by
  have hhigh : w.extractLsb' 16 16 = 0 ↔ w.toNat < 2 ^ 16 := by
    rw [← BitVec.toNat_inj, BitVec.extractLsb'_toNat, Nat.shiftRight_eq_div_pow]
    have := w.isLt
    simp
    omega
  have h1 := r.reg.isLt
  have h2 := r.byte.isLt
  unfold wordReg
  split
  · rename_i h
    rw [hhigh] at h
    obtain ⟨reg, byte⟩ := r
    simp only [Except.ok.injEq, RegByte.mk.injEq, ← BitVec.toNat_inj, regWord_toNat, BitVec.extractLsb'_toNat,
      Nat.shiftRight_eq_div_pow] at h1 h2 ⊢
    omega
  · rename_i h
    refine ⟨nofun, fun he => absurd (hhigh.mpr ?_) h⟩
    rw [he, regWord_toNat]
    omega

theorem pairWord_toNat (f : Byte) (v : BitVec 24) : (pairWord f v).toNat = 2 ^ 24 * f.toNat + v.toNat := by
  rw [pairWord, BitVec.toNat_append, ← Nat.shiftLeft_add_eq_or_of_lt v.isLt, Nat.shiftLeft_eq, Nat.mul_comm]

theorem wordPair_pairWord (q : Pair) : wordPair (pairWord q.field q.value) = q := by
  have h1 := q.field.isLt
  have h2 := q.value.isLt
  obtain ⟨f, v⟩ := q
  simp only [wordPair, Pair.mk.injEq, ← BitVec.toNat_inj, BitVec.extractLsb'_toNat, pairWord_toNat,
    Nat.shiftRight_eq_div_pow] at h1 h2 ⊢
  omega

theorem pairWord_wordPair (w : Word) : pairWord (wordPair w).field (wordPair w).value = w := by
  have := w.isLt
  apply BitVec.eq_of_toNat_eq
  simp only [pairWord_toNat, wordPair, BitVec.extractLsb'_toNat, Nat.shiftRight_eq_div_pow]
  omega

theorem map_wordPair_pairWords (req : List Pair) : (pairWords req).map wordPair = req := by
  simp [pairWords, Function.comp_def, wordPair_pairWord]

theorem pairWords_map_wordPair (ws : List Word) : pairWords (ws.map wordPair) = ws := by
  simp [pairWords, Function.comp_def, pairWord_wordPair]

theorem wordBytes_eq_ok {ws : List Word} {bs : Frame} : wordBytes ws = .ok bs ↔ ws = bs.map byteWord := by
  induction ws generalizing bs with
  | nil => cases bs <;> simp [wordBytes]
  | cons w rest ih =>
    simp only [wordBytes, bind_eq_ok, pure_eq_ok, wordByte_eq_ok, ih]
    cases bs with
    | nil => simp
    | cons b bs => simp

theorem wordRegs_eq_ok {ws : List Word} {rs : List RegByte} : wordRegs ws = .ok rs ↔ ws = rs.map regWord := by
  induction ws generalizing rs with
  | nil => cases rs <;> simp [wordRegs]
  | cons w rest ih =>
    simp only [wordRegs, bind_eq_ok, pure_eq_ok, wordReg_eq_ok, ih]
    cases rs with
    | nil => simp
    | cons r rs => simp

theorem payload0_eq_ok {ws : List Word} {u : Unit} : payload0 ws = .ok u ↔ ws = [] := by
  cases ws <;> simp [payload0]

theorem payload1_eq_ok {ws : List Word} {v : Word} : payload1 ws = .ok v ↔ ws = [v] := by
  rcases ws with _ | ⟨_, _ | _⟩ <;> simp [payload1]

theorem payload2_eq_ok {ws : List Word} {v : Word × Word} : payload2 ws = .ok v ↔ ws = [v.1, v.2] := by
  rcases ws with _ | ⟨_, _ | ⟨_, _ | _⟩⟩ <;> simp [payload2, Prod.ext_iff]

theorem payloadN_eq_ok {n : Nat} {ws vs : List Word} : payloadN n ws = .ok vs ↔ ws = vs ∧ ws.length = n := by
  by_cases h : ws.length = n <;> simp [payloadN, h]

/-- A byte list says its own length, which a word must be able to. -/
theorem payloadBytes_eq_ok {ws : List Word} {bs : Frame} :
    payloadBytes ws = .ok bs ↔ bs.length < 2 ^ 32 ∧ ws = byteListWords bs := by
  cases ws with
  | nil => simp [payloadBytes, byteListWords]
  | cons l rest =>
    have hl : rest = bs.map byteWord →
        (rest.length = l.toNat ↔ bs.length < 2 ^ 32 ∧ l = BitVec.ofNat 32 bs.length) := by
      rintro rfl
      have := l.isLt
      rw [List.length_map, ← BitVec.toNat_inj, BitVec.toNat_ofNat]
      omega
    simp only [payloadBytes, byteListWords, List.cons.injEq]
    split
    · rename_i h
      rw [wordBytes_eq_ok]
      exact ⟨fun e => ⟨((hl e).mp h).1, ((hl e).mp h).2, e⟩, fun e => e.2.2⟩
    · rename_i h
      exact ⟨nofun, fun e => absurd ((hl e.2.2).mpr ⟨e.1, e.2.1⟩) h⟩

/-! ### The shapes of rule R105's rows -/

section
variable {w : Word} {ws : List Word} {i : Instr}

theorem decodeUnit_eq_ok {mk : ConvChip → BitVec 9 → Instr} : decodeUnit mk w ws = .ok i ↔
    ∃ c : ConvChip, chipField w = chipCode c.toChip ∧ (aField w = 0 ∧ auxField w = 0) ∧ ws = [] ∧
      mk c (nField w) = i := by
  simp only [decodeUnit, bind_eq_ok, pure_eq_ok, convChip_eq_ok, zeroFields_eq_ok, payload0_eq_ok, exists_const,
    Bool.and_eq_true, beq_iff_eq, and_assoc]

theorem decodeConv_eq_ok {mk : ConvChip → Instr} : decodeConv mk w ws = .ok i ↔
    ∃ c : ConvChip, chipField w = chipCode c.toChip ∧ (nField w = 0 ∧ aField w = 0 ∧ auxField w = 0) ∧ ws = [] ∧
      mk c = i := by
  simp only [decodeConv, bind_eq_ok, pure_eq_ok, convChip_eq_ok, zeroFields_eq_ok, payload0_eq_ok, exists_const,
    Bool.and_eq_true, beq_iff_eq, and_assoc]

theorem decodeAny_eq_ok {mk : Chip → Instr} : decodeAny mk w ws = .ok i ↔
    ∃ c, chipField w = chipCode c ∧ (nField w = 0 ∧ aField w = 0 ∧ auxField w = 0) ∧ ws = [] ∧ mk c = i := by
  simp only [decodeAny, bind_eq_ok, pure_eq_ok, anyChip_eq_ok, zeroFields_eq_ok, payload0_eq_ok, exists_const,
    Bool.and_eq_true, beq_iff_eq, and_assoc]

theorem decodePairs_eq_ok {mk : Chip → List Pair → Instr} : decodePairs mk w ws = .ok i ↔
    ∃ c, chipField w = chipCode c ∧ (aField w = 0 ∧ auxField w = 0) ∧ ws.length = (nField w).toNat ∧
      mk c (ws.map wordPair) = i := by
  simp only [decodePairs, bind_eq_ok, pure_eq_ok, anyChip_eq_ok, zeroFields_eq_ok, payloadN_eq_ok, exists_const,
    exists_eq_left', Bool.and_eq_true, beq_iff_eq, and_assoc]

theorem decodeChannel_eq_ok {c : Chip} {mk : Byte → Word → Instr} : decodeChannel c mk w ws = .ok i ↔
    chipField w = chipCode c ∧ (nField w = 0 ∧ auxField w = 0) ∧ ∃ v, ws = [v] ∧ mk (aField w) v = i := by
  simp only [decodeChannel, bind_eq_ok, pure_eq_ok, onlyChip_eq_ok, zeroFields_eq_ok, payload1_eq_ok, exists_const,
    Bool.and_eq_true, beq_iff_eq, and_assoc]

end

/-! ### What is encoded as a command decodes to it -/

section
variable (op : BitVec 5) (n : BitVec 9) (a aux : Byte)

@[simp] theorem convChip_commandWord (c : ConvChip) : convChip (commandWord op (chipCode c.toChip) n a aux) = .ok c :=
  convChip_eq_ok.mpr (chipField_commandWord ..)

@[simp] theorem onlyChip_commandWord (c : Chip) : onlyChip c (commandWord op (chipCode c) n a aux) = .ok () :=
  onlyChip_eq_ok.mpr (chipField_commandWord ..)

theorem decodeUnit_commandWord (mk : ConvChip → BitVec 9 → Instr) (c : ConvChip) :
    decodeUnit mk (commandWord op (chipCode c.toChip) n 0 0) [] = .ok (mk c n) :=
  decodeUnit_eq_ok.mpr ⟨c, by simp⟩

theorem decodeConv_commandWord (mk : ConvChip → Instr) (c : ConvChip) :
    decodeConv mk (commandWord op (chipCode c.toChip) 0 0 0) [] = .ok (mk c) :=
  decodeConv_eq_ok.mpr ⟨c, by simp⟩

theorem decodeAny_commandWord (mk : Chip → Instr) (c : Chip) :
    decodeAny mk (commandWord op (chipCode c) 0 0 0) [] = .ok (mk c) :=
  decodeAny_eq_ok.mpr ⟨c, by simp⟩

theorem decodeChannel_commandWord (mk : Byte → Word → Instr) (c : Chip) (v : Word) :
    decodeChannel c mk (commandWord op (chipCode c) 0 a 0) [v] = .ok (mk a v) :=
  decodeChannel_eq_ok.mpr (by simp)

theorem fitsCount_toNat {len : Nat} (h : fitsCount len = true) : (BitVec.ofNat 9 len).toNat = len := by
  have : len < 512 := of_decide_eq_true h
  rw [BitVec.toNat_ofNat]
  omega

theorem decodePairs_commandWord (mk : Chip → List Pair → Instr) (c : Chip) {req : List Pair}
    (h : fitsCount req.length = true) :
    decodePairs mk (commandWord op (chipCode c) (BitVec.ofNat 9 req.length) 0 0) (pairWords req) = .ok (mk c req) :=
  decodePairs_eq_ok.mpr ⟨c, by simp, by simp, by
    rw [nField_commandWord, fitsCount_toNat h, pairWords, List.length_map], by rw [map_wordPair_pairWords]⟩

end

/-- Every well-formed command is what its encoding decodes to. -/
theorem decodeItem_encode_command {p : Profiles} {i : Instr} (hw : ¬ isWire i = true) (hok : i.wellFormed p = true) :
    decodeItem p (encode p i) = .ok i := by
  cases i
  all_goals try exact absurd rfl hw
  all_goals simp only [encode, encodeCommand, decodeItem, decodeCommand, opField_commandWord, opField_append]
  case buildStart | buildStop | buildSelfcal | buildRdata | startConv | stopConv | readCont | readPulse =>
    exact decodeUnit_commandWord ..
  case buildReset | buildNop | convDone => exact decodeConv_commandWord ..
  case mirrorReset | cfgReassert => exact decodeAny_commandWord ..
  case dacWrupd | dacV2code | dacCode2v => exact decodeChannel_commandWord ..
  case cfgDiff | cfgCommit | setConfig => exact decodePairs_commandWord _ _ _ hok
  case buildRead => simp [zeroFields, payload0]; rfl
  case buildWrite c a vs => simp [zeroFields, payloadN, fitsCount_toNat hok]; rfl
  case parseRead c n raw => simp [zeroFields, payloadBytes_eq_ok.mpr ⟨of_decide_eq_true hok, rfl⟩]; rfl
  case dacFrame => simp [zeroFields, payload1]; rfl
  case adcAsm b0 b1 b2 =>
    have hb : wordBytes [byteWord b0, byteWord b1, byteWord b2] = .ok [b0, b1, b2] := wordBytes_eq_ok.mpr rfl
    simp [zeroFields, hb]; rfl
  case cfgLoad c regs =>
    have hr : wordRegs (regs.map regWord) = .ok regs := wordRegs_eq_ok.mpr rfl
    simp [zeroFields, payloadN, fitsCount_toNat hok]
    exact congrArg (Instr.cfgLoad c <$> ·) hr
  case calGet => simp [zeroFields, payload0]; rfl
  case calSet => simp [zeroFields, payload2]; rfl
  case adcCode2v => simp [zeroFields, payload1]; rfl
  case calApply => simp [zeroFields, payload1]; rfl
  case tcCode2t b0 b1 b2 b3 b4 =>
    have hb : wordBytes [byteWord b0, byteWord b1, byteWord b2, byteWord b3, byteWord b4] = .ok [b0, b1, b2, b3, b4] :=
      wordBytes_eq_ok.mpr rfl
    simp [zeroFields, hb]; rfl
  case reservedOp00 | reservedOp1f => rw [restField_append]; rfl

/-! ### What a command decodes to encodes back to it -/

/-- As many payload words as the field `n` says are so many as it can say. -/
theorem nField_of_length {w : Word} {ws : List Word} (h : ws.length = (nField w).toNat) :
    nField w = BitVec.ofNat 9 ws.length ∧ fitsCount ws.length = true := by
  rw [h, BitVec.ofNat_toNat, BitVec.setWidth_eq]
  exact ⟨rfl, decide_eq_true (nField w).isLt⟩

/-- The command is the encoding of this well-formed instruction, which is no hand-sent frame. -/
structure MeansCommand (p : Profiles) (w : Word) (ws : List Word) (i : Instr) : Prop where
  encodes : encode p i = .command w ws
  wellFormed : i.wellFormed p = true
  notWire : isWire i = false

section
variable {p : Profiles} {w : Word} {ws : List Word} {op : BitVec 5} (hop : opField w = op)
include hop

theorem decodeUnit_means {mk : ConvChip → BitVec 9 → Instr}
    (he : ∀ c u, encode p (mk c u) = encodeCommand op c.toChip u 0 0 []) (hok : ∀ c u, (mk c u).wellFormed p = true)
    (hw : ∀ c u, isWire (mk c u) = false) : DecodesTo (MeansCommand p w ws) (decodeUnit mk w ws) := by
  intro i hi
  obtain ⟨c, hc, ⟨ha, hx⟩, rfl, rfl⟩ := decodeUnit_eq_ok.mp hi
  exact ⟨(he ..).trans (encodeCommand_of_fields [] hop hc rfl ha hx), hok .., hw ..⟩

theorem decodeConv_means {mk : ConvChip → Instr} (he : ∀ c, encode p (mk c) = encodeCommand op c.toChip 0 0 0 [])
    (hok : ∀ c, (mk c).wellFormed p = true) (hw : ∀ c, isWire (mk c) = false) :
    DecodesTo (MeansCommand p w ws) (decodeConv mk w ws) := by
  intro i hi
  obtain ⟨c, hc, ⟨hn, ha, hx⟩, rfl, rfl⟩ := decodeConv_eq_ok.mp hi
  exact ⟨(he ..).trans (encodeCommand_of_fields [] hop hc hn ha hx), hok .., hw ..⟩

theorem decodeAny_means {mk : Chip → Instr} (he : ∀ c, encode p (mk c) = encodeCommand op c 0 0 0 [])
    (hok : ∀ c, (mk c).wellFormed p = true) (hw : ∀ c, isWire (mk c) = false) :
    DecodesTo (MeansCommand p w ws) (decodeAny mk w ws) := by
  intro i hi
  obtain ⟨c, hc, ⟨hn, ha, hx⟩, rfl, rfl⟩ := decodeAny_eq_ok.mp hi
  exact ⟨(he ..).trans (encodeCommand_of_fields [] hop hc hn ha hx), hok .., hw ..⟩

theorem decodePairs_means {mk : Chip → List Pair → Instr}
    (he : ∀ c req, encode p (mk c req) = encodeCommand op c (BitVec.ofNat 9 req.length) 0 0 (pairWords req))
    (hok : ∀ c req, (mk c req).wellFormed p = fitsCount req.length) (hw : ∀ c req, isWire (mk c req) = false) :
    DecodesTo (MeansCommand p w ws) (decodePairs mk w ws) := by
  intro i hi
  obtain ⟨c, hc, ⟨ha, hx⟩, hl, rfl⟩ := decodePairs_eq_ok.mp hi
  refine ⟨?_, ?_, hw ..⟩
  · rw [he, pairWords_map_wordPair, List.length_map]
    exact encodeCommand_of_fields ws hop hc (nField_of_length hl).1 ha hx
  · rw [hok, List.length_map]
    exact (nField_of_length hl).2

theorem decodeChannel_means {c : Chip} {mk : Byte → Word → Instr}
    (he : ∀ ch v, encode p (mk ch v) = encodeCommand op c 0 ch 0 [v]) (hok : ∀ ch v, (mk ch v).wellFormed p = true)
    (hw : ∀ ch v, isWire (mk ch v) = false) : DecodesTo (MeansCommand p w ws) (decodeChannel c mk w ws) := by
  intro i hi
  obtain ⟨hc, ⟨hn, hx⟩, v, rfl, rfl⟩ := decodeChannel_eq_ok.mp hi
  exact ⟨(he ..).trans (encodeCommand_of_fields [v] hop hc hn rfl hx), hok .., hw ..⟩

end

theorem opField_of_toNat {w : Word} {k : Nat} (h : (opField w).toNat = k) : opField w = BitVec.ofNat 5 k := by
  rw [← h, BitVec.ofNat_toNat, BitVec.setWidth_eq]

/-- No bit of a command is dropped: whatever a command decodes to encodes back to it, and is well formed. -/
theorem decodeCommand_means (p : Profiles) (w : Word) (ws : List Word) :
    DecodesTo (MeansCommand p w ws) (decodeCommand w ws) := by
  unfold decodeCommand
  split
  case h_32 =>
    have hop : opField w = 0x1F := by
      have := (opField w).isLt
      apply BitVec.eq_of_toNat_eq
      simp only [imp_false, BitVec.reduceToNat] at *
      omega
    exact .ok ⟨congrArg (PortItem.command · ws) (append_restField hop), rfl, rfl⟩
  all_goals
    rename_i hop
    replace hop := opField_of_toNat hop
  case h_4 | h_5 | h_8 | h_9 | h_17 | h_18 | h_20 | h_21 =>
    exact decodeUnit_means hop (fun _ _ => rfl) (fun _ _ => rfl) fun _ _ => rfl
  case h_6 | h_7 | h_19 => exact decodeConv_means hop (fun _ => rfl) (fun _ => rfl) fun _ => rfl
  case h_22 | h_24 => exact decodeAny_means hop (fun _ => rfl) (fun _ => rfl) fun _ => rfl
  case h_14 | h_15 | h_16 => exact decodePairs_means hop (fun _ _ => rfl) (fun _ _ => rfl) fun _ _ => rfl
  case h_12 | h_29 | h_30 => exact decodeChannel_means hop (fun _ _ => rfl) (fun _ _ => rfl) fun _ _ => rfl
  case h_1 => exact .ok ⟨congrArg (PortItem.command · ws) (append_restField hop), rfl, rfl⟩
  case h_2 => -- BUILD_READ
    refine .bind fun c hc => .bind fun _ hz => .bind fun _ hp => .ok ?_
    obtain rfl := payload0_eq_ok.mp hp
    exact ⟨encodeCommand_of_fields _ hop (convChip_eq_ok.mp hc) rfl rfl (zero_of_zeroFields hz), rfl, rfl⟩
  case h_3 => -- BUILD_WRITE
    refine .bind fun c hc => .bind fun _ hz => .bind fun vs hp => .ok ?_
    obtain ⟨rfl, hl⟩ := payloadN_eq_ok.mp hp
    obtain ⟨hn, hfits⟩ := nField_of_length hl
    exact ⟨encodeCommand_of_fields _ hop (convChip_eq_ok.mp hc) hn rfl (zero_of_zeroFields hz), hfits, rfl⟩
  case h_10 => -- PARSE_READ
    refine .bind fun c hc => .bind fun _ hz => .bind fun bs hp => .ok ?_
    obtain ⟨hlen, rfl⟩ := payloadBytes_eq_ok.mp hp
    obtain ⟨ha, hx⟩ := zero_of_zeroFields₂ hz
    exact ⟨encodeCommand_of_fields _ hop (convChip_eq_ok.mp hc) rfl ha hx, decide_eq_true hlen, rfl⟩
  case h_11 => -- DAC_FRAME
    refine .bind fun _ hc => .bind fun _ hz => .bind fun v hp => .ok ?_
    obtain rfl := payload1_eq_ok.mp hp
    exact ⟨encodeCommand_of_fields _ hop (onlyChip_eq_ok.mp hc) (zero_of_zeroFields hz) rfl rfl, rfl, rfl⟩
  case h_13 | h_31 => -- ADC_ASM, TC_CODE2T
    refine .bind fun _ hc => .bind fun _ hz => .bind fun bs hp => ?_
    obtain rfl := wordBytes_eq_ok.mp hp
    obtain ⟨hn, ha, hx⟩ := zero_of_zeroFields₃ hz
    split
    · exact .ok ⟨encodeCommand_of_fields _ hop (onlyChip_eq_ok.mp hc) hn ha hx, rfl, rfl⟩
    · exact .error
  case h_23 => -- CFG_LOAD
    refine .bind fun c hc => .bind fun _ hz => .bind fun vs hp => .bind fun rs hr => .ok ?_
    obtain ⟨rfl, hl⟩ := payloadN_eq_ok.mp hp
    obtain rfl := wordRegs_eq_ok.mp hr
    obtain ⟨hn, hfits⟩ := nField_of_length hl
    obtain ⟨ha, hx⟩ := zero_of_zeroFields₂ hz
    rw [List.length_map] at hn hfits
    exact ⟨encodeCommand_of_fields _ hop (anyChip_eq_ok.mp hc) hn ha hx, hfits, rfl⟩
  case h_25 => -- CAL_GET
    refine .bind fun c hc => .bind fun _ hz => .bind fun _ hp => .ok ?_
    obtain rfl := payload0_eq_ok.mp hp
    obtain ⟨hn, hx⟩ := zero_of_zeroFields₂ hz
    exact ⟨encodeCommand_of_fields _ hop (anyChip_eq_ok.mp hc) hn rfl hx, rfl, rfl⟩
  case h_26 => -- CAL_SET
    refine .bind fun c hc => .bind fun _ hz => .bind fun v hp => .ok ?_
    obtain rfl := payload2_eq_ok.mp hp
    obtain ⟨hn, hx⟩ := zero_of_zeroFields₂ hz
    exact ⟨encodeCommand_of_fields _ hop (anyChip_eq_ok.mp hc) hn rfl hx, rfl, rfl⟩
  case h_27 => -- ADC_CODE2V
    refine .bind fun _ hc => .bind fun _ hz => .bind fun v hp => .ok ?_
    obtain rfl := payload1_eq_ok.mp hp
    obtain ⟨ha, hx⟩ := zero_of_zeroFields₂ hz
    exact ⟨encodeCommand_of_fields _ hop (onlyChip_eq_ok.mp hc) rfl ha hx, rfl, rfl⟩
  case h_28 => -- CAL_APPLY
    refine .bind fun c hc => .bind fun _ hz => .bind fun v hp => .ok ?_
    obtain rfl := payload1_eq_ok.mp hp
    obtain ⟨hn, hx⟩ := zero_of_zeroFields₂ hz
    exact ⟨encodeCommand_of_fields _ hop (anyChip_eq_ok.mp hc) hn rfl hx, rfl, rfl⟩

end Sys2Proof.Machine
end

section
/-! The hand-sent frames: what a row encodes to decodes to that row, because no two commands share a constant and none
looks like a register frame (rules R91 to R100). -/

namespace Sys2Proof.Machine
open Sys2Proof.Config

/-! ### Opcode and address in one byte (rule R100) -/

section
variable {n : Nat} {b op a m : BitVec n}

theorem or_and_mask (hop : op &&& m = op) (ha : a &&& m = 0#n) : (op ||| a) &&& m = op := by
  rw [BitVec.and_or_distrib_right, hop, ha, BitVec.or_zero]

theorem and_not_mask_of_zero (ha : a &&& m = 0#n) : a &&& ~~~m = a := by
  calc a &&& ~~~m = (a &&& m) ||| (a &&& ~~~m) := by rw [ha, BitVec.zero_or]
    _ = a := by rw [← BitVec.and_or_distrib_left, BitVec.or_not_self, BitVec.and_allOnes]

theorem or_and_not_mask (hop : op &&& m = op) (ha : a &&& m = 0#n) : (op ||| a) &&& ~~~m = a := by
  have hop' : op &&& ~~~m = 0#n := by
    rw [← hop, BitVec.and_assoc, BitVec.and_not_self]
    exact BitVec.and_zero
  rw [BitVec.and_or_distrib_right, hop', and_not_mask_of_zero ha, BitVec.zero_or]

theorem and_not_mask_and_mask : b &&& ~~~m &&& m = 0#n := by
  rw [BitVec.and_assoc, BitVec.and_comm (~~~m), BitVec.and_not_self]
  exact BitVec.and_zero

/-- Nothing of byte 0 is outside its opcode bits and its address bits. -/
theorem or_of_mask (h : b &&& m = op) : op ||| (b &&& ~~~m) = b := by
  rw [← h, ← BitVec.and_or_distrib_left, BitVec.or_not_self, BitVec.and_allOnes]

end

/-- Byte 0 of a `REF.ADC` row has the row's opcode and the address. -/
theorem refByte0_read (a : BitVec 5) : refByte0 1 a = 0x20 ||| a.setWidth 8 := by
  revert a
  decide

theorem refByte0_write (a : BitVec 5) : refByte0 2 a = 0x40 ||| a.setWidth 8 := by
  revert a
  decide

theorem setWidth_and_refMask (a : BitVec 5) : a.setWidth 8 &&& 0xE0 = (0 : Byte) := by
  revert a
  decide

theorem setWidth_address (a : BitVec 5) : (a.setWidth 8).setWidth 5 = a := by
  revert a
  decide

/-- An address of a `REF.ADC` row fits its five bits. -/
theorem setWidth_of_refAddr {a : Byte} (h : refAddr a.toNat = true) : (a.setWidth 5).setWidth 8 = a := by
  have : a.toNat ≤ 0x1A := of_decide_eq_true h
  apply BitVec.eq_of_toNat_eq
  rw [BitVec.toNat_setWidth, BitVec.toNat_setWidth]
  omega

/-! ### Register frames (rules R91 to R93 and R99) -/

theorem fitsRun_iff {n : Nat} : fitsRun n = true ↔ 1 ≤ n ∧ n ≤ 256 := decide_eq_true_iff

/-- The count byte says how many bytes follow it. -/
theorem countedBytes_eq_ok {rest bytes : Frame} : countedBytes rest = .ok bytes ↔
    fitsRun bytes.length = true ∧ rest = BitVec.ofNat 8 (bytes.length - 1) :: bytes := by
  cases rest with
  | nil => simp [countedBytes]
  | cons cnt rest =>
    have hcnt : rest.length = cnt.toNat + 1 ↔
        fitsRun rest.length = true ∧ cnt = BitVec.ofNat 8 (rest.length - 1) := by
      have := cnt.isLt
      rw [fitsRun_iff, ← BitVec.toNat_inj, BitVec.toNat_ofNat]
      omega
    simp only [countedBytes]
    split
    · rename_i h
      rw [Except.ok.injEq, List.cons.injEq]
      exact ⟨fun e => e ▸ ⟨(hcnt.mp h).1, (hcnt.mp h).2, rfl⟩, fun e => e.2.2⟩
    · rename_i h
      refine ⟨nofun, fun ⟨hfit, e⟩ => absurd (hcnt.mpr ?_) h⟩
      obtain ⟨hc, rfl⟩ := List.cons.inj e
      exact ⟨hfit, hc⟩

theorem allDummy_dummiesFor (cnt : Byte) : allDummy (dummiesFor cnt) = true := by
  simp [allDummy, dummiesFor]

/-- Dummy bytes are told by how many they are. -/
theorem dummiesFor_of_allDummy {bytes : Frame} (hd : allDummy bytes = true) (hrun : fitsRun bytes.length = true) :
    dummiesFor (BitVec.ofNat 8 (bytes.length - 1)) = bytes := by
  obtain ⟨h1, h2⟩ := fitsRun_iff.mp hrun
  have hn : (BitVec.ofNat 8 (bytes.length - 1)).toNat + 1 = bytes.length := by
    rw [BitVec.toNat_ofNat]
    omega
  rw [dummiesFor, hn]
  exact (List.eq_replicate_of_mem (by simpa [allDummy] using hd)).symm

/-- What the decode of rule R100 asks of the opcodes and the command constants. -/
structure AdcDecodes (p : ChipProfile) : Prop where
  read : p.opRreg &&& p.opMask = p.opRreg
  write : p.opWreg &&& p.opMask = p.opWreg
  differ : p.opRreg ≠ p.opWreg
  notRead : ∀ b ∈ commandBytes p, b &&& p.opMask ≠ p.opRreg
  notWrite : ∀ b ∈ commandBytes p, b &&& p.opMask ≠ p.opWreg
  nodup : (commandBytes p).Nodup

theorem decodeOk_iff {p : ChipProfile} : decodeOk p = true ↔ AdcDecodes p := by
  simp only [decodeOk, Bool.and_eq_true, beq_iff_eq, bne_iff_ne, List.all_eq_true, decide_eq_true_eq]
  exact ⟨fun ⟨⟨⟨⟨hr, hw⟩, hne⟩, hb⟩, hn⟩ => ⟨hr, hw, hne, fun b m => (hb b m).1, fun b m => (hb b m).2, hn⟩,
    fun h => ⟨⟨⟨⟨h.read, h.write⟩, h.differ⟩, fun b m => ⟨h.notRead b m, h.notWrite b m⟩⟩, h.nodup⟩⟩

section
variable {p : Profiles} {a : Byte} {bytes : Frame}

/-- A register-read frame of the ADC. -/
theorem decodeFrame_read (h : AdcDecodes p.adc) (ha : a &&& p.adc.opMask = 0) (hrun : fitsRun bytes.length = true) :
    decodeFrame p .adc (rwFrame (p.adc.opRreg ||| a) bytes) =
      if refRead p && refAddr a.toNat && allDummy bytes then
        .ok (.wRregRefAdc (a.setWidth 5) (BitVec.ofNat 8 (bytes.length - 1)))
      else .ok (.wRreg a bytes) := by
  have hc := countedBytes_eq_ok.mpr ⟨hrun, rfl⟩
  simp only [decodeFrame, rwFrame, decodeAdcFrame, or_and_mask h.read ha, or_and_not_mask h.read ha, if_pos, hc]

/-- A register-write frame of the ADC. -/
theorem decodeFrame_write (h : AdcDecodes p.adc) (ha : a &&& p.adc.opMask = 0) (hrun : fitsRun bytes.length = true) :
    decodeFrame p .adc (rwFrame (p.adc.opWreg ||| a) bytes) =
      if refWrite p && refAddr a.toNat then .ok (.wWregRefAdc (a.setWidth 5) bytes) else .ok (.wWreg a bytes) := by
  have hc := countedBytes_eq_ok.mpr ⟨hrun, rfl⟩
  simp only [decodeFrame, rwFrame, decodeAdcFrame, or_and_mask h.write ha, or_and_not_mask h.write ha,
    if_neg h.differ.symm, if_pos, hc]

theorem decodeFrame_readRef (h : AdcDecodes p.adc) {a : BitVec 5} (cnt : Byte)
    (href : refRead p = true) (ha : refAddr a.toNat = true) :
    decodeFrame p .adc (rwFrame (refByte0 1 a) (dummiesFor cnt)) = .ok (.wRregRefAdc a cnt) := by
  obtain ⟨hop, hmask⟩ : p.adc.opRreg = 0x20 ∧ p.adc.opMask = 0xE0 := by simpa [refRead] using href
  have hlen : (dummiesFor cnt).length = cnt.toNat + 1 := List.length_replicate
  have hrun : fitsRun (dummiesFor cnt).length = true := by
    have := cnt.isLt
    rw [hlen, fitsRun_iff]
    omega
  have ha' : refAddr (a.setWidth 8).toNat = true := by rwa [BitVec.toNat_setWidth_of_le (by omega)]
  rw [refByte0_read, ← hop, decodeFrame_read h (hmask ▸ setWidth_and_refMask a) hrun, href, ha', allDummy_dummiesFor,
    hlen, setWidth_address]
  simp

theorem decodeFrame_writeRef (h : AdcDecodes p.adc) {a : BitVec 5} (hrun : fitsRun bytes.length = true)
    (href : refWrite p = true) (ha : refAddr a.toNat = true) :
    decodeFrame p .adc (rwFrame (refByte0 2 a) bytes) = .ok (.wWregRefAdc a bytes) := by
  obtain ⟨hop, hmask⟩ : p.adc.opWreg = 0x40 ∧ p.adc.opMask = 0xE0 := by simpa [refWrite] using href
  have ha' : refAddr (a.setWidth 8).toNat = true := by rwa [BitVec.toNat_setWidth_of_le (by omega)]
  rw [refByte0_write, ← hop, decodeFrame_write h (hmask ▸ setWidth_and_refMask a) hrun, href, ha', setWidth_address]
  rfl

end

/-! ### The DAC's frames (rule R96) -/

theorem dacWord_toNat (op ch : BitVec 4) (d : BitVec 16) :
    (op ++ ch ++ d).toNat = 2 ^ 20 * op.toNat + 2 ^ 16 * ch.toNat + d.toNat := by
  rw [BitVec.toNat_append, BitVec.toNat_append, ← Nat.shiftLeft_add_eq_or_of_lt ch.isLt,
    ← Nat.shiftLeft_add_eq_or_of_lt d.isLt, Nat.shiftLeft_eq, Nat.shiftLeft_eq]
  omega

theorem append_bytes_toNat (b1 b2 : Byte) : (b1 ++ b2).toNat = 2 ^ 8 * b1.toNat + b2.toNat := by
  rw [BitVec.toNat_append, ← Nat.shiftLeft_add_eq_or_of_lt b2.isLt, Nat.shiftLeft_eq, Nat.mul_comm]

/-- A DAC frame's three bytes hold its three fields. -/
theorem decodeFrame_dacFields (p : Profiles) (op ch : BitVec 4) (d : BitVec 16) :
    decodeFrame p .dac (dacFields op ch d) = if op = 3 then .ok (.wDacWrupd ch d) else .ok (.wDacFrame op ch d) := by
  have hw := dacWord_toNat op ch d
  have h1 := op.isLt
  have h2 := ch.isLt
  have h3 := d.isLt
  have hop : ((op ++ ch ++ d).extractLsb' 16 8).extractLsb' 4 4 = op := by
    apply BitVec.eq_of_toNat_eq
    simp only [BitVec.extractLsb'_toNat, Nat.shiftRight_eq_div_pow, hw]
    omega
  have hch : ((op ++ ch ++ d).extractLsb' 16 8).extractLsb' 0 4 = ch := by
    apply BitVec.eq_of_toNat_eq
    simp only [BitVec.extractLsb'_toNat, Nat.shiftRight_eq_div_pow, hw]
    omega
  have hd : (op ++ ch ++ d).extractLsb' 8 8 ++ (op ++ ch ++ d).extractLsb' 0 8 = d := by
    apply BitVec.eq_of_toNat_eq
    simp only [append_bytes_toNat, BitVec.extractLsb'_toNat, Nat.shiftRight_eq_div_pow, hw]
    omega
  simp only [decodeFrame, dacFields, frameBytes24, decodeDacFrame]
  rw [hop, hch, hd]

/-- The three bytes of a DAC frame are its opcode, its channel and its data. -/
theorem dacFields_of_bytes (b0 b1 b2 : Byte) :
    dacFields (b0.extractLsb' 4 4) (b0.extractLsb' 0 4) (b1 ++ b2) = [b0, b1, b2] := by
  have h0 := b0.isLt
  have h1 := b1.isLt
  have h2 := b2.isLt
  simp only [dacFields, frameBytes24, List.cons.injEq, and_true, ← BitVec.toNat_inj, BitVec.extractLsb'_toNat,
    Nat.shiftRight_eq_div_pow, dacWord_toNat, append_bytes_toNat]
  omega

/-! ### The commands' constants (rules R94, R95 and R100) -/

/-- The constants of the rows of units 1 and 2 and of the commands a profile has once. -/
def rowConstants (p : ChipProfile) : List Byte := (commandRows p).filterMap (·.1)

/-- The constants of the units above 2. -/
def furtherRowConstants (p : ChipProfile) : List Byte := (furtherRows p).map (·.1)

theorem filterMap_cons_toList {α β : Type} (f : α → Option β) (a : α) (l : List α) :
    (a :: l).filterMap f = (f a).toList ++ l.filterMap f := by
  cases h : f a <;> simp [h]

/-- A table's constants of the units that the profile has: those of units 1 and 2, then those above. -/
theorem count_unitEntries (n : Nat) (table : List Byte) (x : Byte) :
    (unitEntry n table 1).toList.count x + (unitEntry n table 2).toList.count x = ((table.take n).take 2).count x := by
  rcases n with _ | _ | n <;> rcases table with _ | ⟨b, _ | ⟨b', rest⟩⟩ <;> simp [unitEntry, List.count_cons]
  omega

theorem furtherConstants_fst (p : ChipProfile) (table : List Byte) :
    (furtherConstants p table).map (·.1) = (table.take p.nunits).drop 2 := by
  rw [furtherConstants, List.map_drop, List.zipIdx_map_fst]

/-- No constant is taken by more rows than the profile has commands with it. -/
theorem count_constants_le (p : ChipProfile) (x : Byte) :
    (rowConstants p).count x + (furtherRowConstants p).count x ≤ (commandBytes p).count x := by
  have htable (table : List Byte) : (unitEntry p.nunits table 1).toList.count x +
      (unitEntry p.nunits table 2).toList.count x + ((furtherConstants p table).map (·.1)).count x ≤ table.count x := by
    rw [count_unitEntries, furtherConstants_fst, ← List.count_append, List.take_append_drop]
    exact (List.take_sublist ..).count_le x
  have hstart := htable p.opStart
  have hstop := htable p.opStop
  have hrdata := htable p.opRdata
  have hselfcal := htable p.opSelfcal
  simp only [rowConstants, commandRows, filterMap_cons_toList, List.filterMap_nil, furtherRowConstants, furtherRows,
    List.map_append, List.map_map, Function.comp_def, commandBytes, List.count_append, List.count_nil] at *
  omega

theorem mem_commandBytes_of_row {p : ChipProfile} {b : Byte} (h : b ∈ rowConstants p ∨ b ∈ furtherRowConstants p) :
    b ∈ commandBytes p := by
  have hle := count_constants_le p b
  rw [← List.count_pos_iff] at h ⊢
  rw [← List.count_pos_iff] at h
  omega

/-- With distinct constants no two rows share one. -/
theorem rowConstants_nodup {p : ChipProfile} (h : (commandBytes p).Nodup) :
    (rowConstants p).Nodup ∧ (furtherRowConstants p).Nodup ∧ ∀ b ∈ furtherRowConstants p, b ∉ rowConstants p := by
  simp only [List.nodup_iff_count_le_one, ← List.count_pos_iff] at *
  refine ⟨fun x => ?_, fun x => ?_, fun x hx => ?_⟩ <;>
    · have hle := count_constants_le p x
      have hone := h x
      omega

theorem eq_of_nodup_filterMap {α β : Type} {key : α → Option β} {l : List α} (h : (l.filterMap key).Nodup) {x y : α}
    (hx : x ∈ l) (hy : y ∈ l) {b : β} (hxb : key x = some b) (hyb : key y = some b) : x = y := by
  induction l with
  | nil => cases hx
  | cons z l ih =>
    rw [filterMap_cons_toList, List.nodup_append] at h
    obtain ⟨_, hrest, hapart⟩ := h
    have hlater {v : α} (hv : v ∈ l) (hvb : key v = some b) : key z ≠ some b := fun hz =>
      hapart b (by simp [hz]) b (List.mem_filterMap.mpr ⟨v, hv, hvb⟩) rfl
    rcases List.mem_cons.mp hx with rfl | hx' <;> rcases List.mem_cons.mp hy with rfl | hy'
    · rfl
    · exact absurd hxb (hlater hy' hyb)
    · exact absurd hyb (hlater hx' hxb)
    · exact ih hrest hx' hy'

theorem find?_eq_some_of_unique {α : Type} {q : α → Bool} {l : List α} {x : α} (hx : x ∈ l) (hq : q x = true)
    (hunique : ∀ y ∈ l, q y = true → y = x) : l.find? q = some x := by
  cases hf : l.find? q with
  | none => exact absurd hq (List.find?_eq_none.mp hf x hx)
  | some y => rw [hunique y (List.mem_of_find?_eq_some hf) (List.find?_some hf)]

section
variable {p : ChipProfile} {b : Byte} {extra : Nat}

/-- A command's constant finds its row. -/
theorem find?_commandRows {i : Instr} (hn : (commandBytes p).Nodup) (hr : (some b, extra, i) ∈ commandRows p) :
    (commandRows p).find? (fun r => r.1 == some b) = some (some b, extra, i) :=
  find?_eq_some_of_unique hr (beq_self_eq_true _) fun _ hy hq =>
    eq_of_nodup_filterMap (rowConstants_nodup hn).1 hy hr (eq_of_beq hq) rfl

/-- What is no register frame is read as a command. -/
theorem decodeAdcFrame_command {p : Profiles} (h : AdcDecodes p.adc) (hb : b ∈ commandBytes p.adc) (rest : Frame) :
    decodeFrame p .adc (b :: rest) = decodeAdcCommand p.adc b rest := by
  simp only [decodeFrame, decodeAdcFrame, if_neg (h.notRead b hb), if_neg (h.notWrite b hb)]

theorem mem_rowConstants {i : Instr} (hr : (some b, extra, i) ∈ commandRows p) : b ∈ rowConstants p :=
  List.mem_filterMap.mpr ⟨_, hr, rfl⟩

theorem decodeFrame_commandRow {p : Profiles} {i : Instr} (h : AdcDecodes p.adc)
    (hr : (some b, extra, i) ∈ commandRows p.adc) :
    decodeFrame p .adc (b :: List.replicate extra dummy) = .ok i := by
  rw [decodeAdcFrame_command h (mem_commandBytes_of_row (.inl (mem_rowConstants hr))), decodeAdcCommand,
    find?_commandRows h.nodup hr]
  exact if_pos rfl

end

/-! ### What is encoded as a frame decodes to it -/

/-- The frame is what this well-formed hand-sent row is sent as. -/
structure MeansFrame (p : Profiles) (c : Chip) (f : Frame) (i : Instr) : Prop where
  encodes : encode p i = .frame c f
  wellFormed : i.wellFormed p = true
  wire : isWire i = true

/-- A command row is the frame of its constant and its dummy bytes. -/
theorem commandRow_means {p : Profiles} {b : Byte} {extra : Nat} {i : Instr}
    (hr : (some b, extra, i) ∈ commandRows p.adc) : MeansFrame p .adc (b :: List.replicate extra dummy) i := by
  simp only [commandRows, List.mem_cons, List.not_mem_nil, or_false, Prod.mk.injEq] at hr
  rcases hr with ⟨hb, rfl, rfl⟩ | ⟨hb, rfl, rfl⟩ | ⟨hb, rfl, rfl⟩ | ⟨hb, rfl, rfl⟩ | ⟨hb, rfl, rfl⟩ | ⟨hb, rfl, rfl⟩ |
      ⟨hb, rfl, rfl⟩ | ⟨hb, rfl, rfl⟩ | ⟨hb, rfl, rfl⟩ | ⟨hb, rfl, rfl⟩ <;>
    exact ⟨by simp [encode, commandFrame, unitFrame, frameOr, ← hb], by simp [Instr.wellFormed, ← hb], rfl⟩

theorem decodeItem_encode_commandRow {p : Profiles} {i : Instr} {op : Option Byte} (h : AdcDecodes p.adc)
    (hok : op.isSome = true) (hrow : ∃ extra, (op, extra, i) ∈ commandRows p.adc) :
    decodeItem p (encode p i) = .ok i := by
  obtain ⟨extra, hrow⟩ := hrow
  obtain ⟨b, rfl⟩ := Option.isSome_iff_exists.mp hok
  rw [(commandRow_means hrow).encodes]
  exact decodeFrame_commandRow h hrow

/-- In a well-formed profile no address is both a read and a write address of the TC. -/
theorem tc_notRead_of_write {p : Profiles} (hp : profilesOk p = true) {a : Byte} (ha : p.tc.validWr.contains a = true) :
    p.tc.validRd.contains a = false := by
  have htc : tcFramesOk p.tc = true := by
    simp only [profilesOk, Bool.and_eq_true] at hp
    tauto
  simp only [tcFramesOk, Bool.and_eq_true, List.all_eq_true, Bool.not_eq_true'] at htc
  obtain ⟨⟨_, hapart⟩, _⟩ := htc
  rw [Bool.eq_false_iff]
  intro hr
  exact absurd ha (by simp only [hapart a (List.contains_iff_mem.mp hr), Bool.false_eq_true, not_false_eq_true])

/-- Every well-formed hand-sent row is what its frame decodes to. -/
theorem decodeItem_encode_wire {p : Profiles} {i : Instr} (hp : profilesOk p = true) (h : AdcDecodes p.adc)
    (hw : isWire i = true) (hok : i.wellFormed p = true) : decodeItem p (encode p i) = .ok i := by
  cases i
  all_goals try exact absurd hw Bool.false_ne_true
  all_goals simp only [Instr.wellFormed, Bool.and_eq_true] at hok
  case wRreg a dummies =>
    obtain ⟨⟨hrun, ha⟩, hother⟩ := hok
    rw [Bool.not_eq_true', ← Bool.not_eq_true] at hother
    exact (decodeFrame_read h (eq_of_beq ha) hrun).trans (if_neg hother)
  case wRregRefAdc a cnt => exact decodeFrame_readRef h cnt hok.1 hok.2
  case wWreg a values =>
    obtain ⟨⟨hrun, ha⟩, hother⟩ := hok
    rw [Bool.not_eq_true', ← Bool.not_eq_true] at hother
    exact (decodeFrame_write h (eq_of_beq ha) hrun).trans (if_neg hother)
  case wWregRefAdc a values =>
    obtain ⟨⟨hrun, href⟩, ha⟩ := hok
    exact decodeFrame_writeRef h hrun href ha
  case wTcRead a dummies =>
    obtain ⟨hrun, ha⟩ := hok
    simp only [encode, decodeItem, decodeFrame, decodeTcFrame, ha, hrun, if_true]
  case wTcWrite a values =>
    obtain ⟨hrun, ha⟩ := hok
    simp only [encode, decodeItem, decodeFrame, decodeTcFrame, ha, hrun, tc_notRead_of_write hp ha, if_true,
      Bool.false_eq_true, if_false]
  case wDacFrame op ch d => exact (decodeFrame_dacFields p op ch d).trans (if_neg (by simpa using hok))
  case wDacWrupd ch d => exact decodeFrame_dacFields p 3 ch d
  all_goals exact decodeItem_encode_commandRow h hok (by simp [commandRows])

/-- Settles O4: a command's words are read field by field, a hand-sent frame by the opcode bits of its first byte or by
the one row that has its constant. -/
theorem decodeOfEncode : Obligations.DecodeOfEncode := by
  intro p i hp hadc hok
  by_cases hw : isWire i = true
  · exact decodeItem_encode_wire hp (decodeOk_iff.mp hadc) hw hok
  · exact decodeItem_encode_command hw hok

end Sys2Proof.Machine
end

section
/-! What is presented has one meaning (rules R91 to R106): what decodes is well formed, encodes back to what was
presented and is of the chip it stands before. -/

namespace Sys2Proof.Machine
open Sys2Proof.Config

/-! ### What a hand-sent frame decodes to is sent as that frame -/

theorem refAddr_setWidth {a : Byte} (h : refAddr a.toNat = true) : refAddr (a.setWidth 5).toNat = true := by
  have ha : a.toNat ≤ 0x1A := of_decide_eq_true h
  have hsame : (a.setWidth 5).toNat = a.toNat := by
    rw [BitVec.toNat_setWidth]
    omega
  rwa [hsame]

/-- The address bits of byte 0 are outside the opcode bits. -/
theorem address_beq_zero (b m : Byte) : (b &&& ~~~m &&& m == 0) = true := beq_iff_eq.mpr and_not_mask_and_mask

section
variable {p : Profiles} {b0 : Byte} {rest bytes : Frame}

/-- A register-read frame of the ADC is sent as it was presented, as either of its two rows. -/
theorem readRows_mean (hb : b0 &&& p.adc.opMask = p.adc.opRreg) (hc : countedBytes rest = .ok bytes) :
    DecodesTo (MeansFrame p .adc (b0 :: rest))
      (if refRead p && refAddr (b0 &&& ~~~p.adc.opMask).toNat && allDummy bytes then
        .ok (.wRregRefAdc ((b0 &&& ~~~p.adc.opMask).setWidth 5) (BitVec.ofNat 8 (bytes.length - 1)))
      else .ok (.wRreg (b0 &&& ~~~p.adc.opMask) bytes)) := by
  obtain ⟨hrun, rfl⟩ := countedBytes_eq_ok.mp hc
  split <;> rename_i href
  · simp only [Bool.and_eq_true] at href
    obtain ⟨⟨hread, haddr⟩, hdummy⟩ := href
    have hop : p.adc.opRreg = 0x20 := by
      simp only [refRead, Bool.and_eq_true] at hread
      exact eq_of_beq hread.1
    refine .ok ⟨?_, ?_, rfl⟩
    · rw [encode, refByte0_read, setWidth_of_refAddr haddr, ← hop, or_of_mask hb, dummiesFor_of_allDummy hdummy hrun]
      rfl
    · rw [Instr.wellFormed, hread, refAddr_setWidth haddr]
      rfl
  · refine .ok ⟨by rw [encode, or_of_mask hb]; rfl, ?_, rfl⟩
    rw [Instr.wellFormed, hrun, address_beq_zero, Bool.eq_false_iff.mpr href]
    rfl

/-- The same of a register-write frame. -/
theorem writeRows_mean (hb : b0 &&& p.adc.opMask = p.adc.opWreg) (hc : countedBytes rest = .ok bytes) :
    DecodesTo (MeansFrame p .adc (b0 :: rest))
      (if refWrite p && refAddr (b0 &&& ~~~p.adc.opMask).toNat then
        .ok (.wWregRefAdc ((b0 &&& ~~~p.adc.opMask).setWidth 5) bytes)
      else .ok (.wWreg (b0 &&& ~~~p.adc.opMask) bytes)) := by
  obtain ⟨hrun, rfl⟩ := countedBytes_eq_ok.mp hc
  split <;> rename_i href
  · simp only [Bool.and_eq_true] at href
    obtain ⟨hwrite, haddr⟩ := href
    have hop : p.adc.opWreg = 0x40 := by
      simp only [refWrite, Bool.and_eq_true] at hwrite
      exact eq_of_beq hwrite.1
    refine .ok ⟨?_, ?_, rfl⟩
    · rw [encode, refByte0_write, setWidth_of_refAddr haddr, ← hop, or_of_mask hb]
      rfl
    · rw [Instr.wellFormed, hrun, hwrite, refAddr_setWidth haddr]
      rfl
  · refine .ok ⟨by rw [encode, or_of_mask hb]; rfl, ?_, rfl⟩
    rw [Instr.wellFormed, hrun, address_beq_zero, Bool.eq_false_iff.mpr href]
    rfl

theorem decodeAdcCommand_means : DecodesTo (MeansFrame p .adc (b0 :: rest)) (decodeAdcCommand p.adc b0 rest) := by
  unfold decodeAdcCommand
  split
  · rename_i op extra i hfind
    have hkey : (op == some b0) = true := by simpa only using List.find?_some hfind
    obtain rfl := eq_of_beq hkey
    split
    · rename_i hrest
      exact .ok (hrest ▸ commandRow_means (List.mem_of_find?_eq_some hfind))
    · exact .error
  · split
    · split <;> exact .error
    · exact .error

theorem decodeAdcFrame_means : DecodesTo (MeansFrame p .adc (b0 :: rest)) (decodeAdcFrame p b0 rest) := by
  unfold decodeAdcFrame
  split
  · rename_i hb
    cases hc : countedBytes rest with
    | error e => exact .error
    | ok bytes => exact readRows_mean hb hc
  · split
    · rename_i hb
      cases hc : countedBytes rest with
      | error e => exact .error
      | ok bytes => exact writeRows_mean hb hc
    · exact decodeAdcCommand_means

theorem decodeTcFrame_means : DecodesTo (MeansFrame p .tc (b0 :: rest)) (decodeTcFrame p.tc b0 rest) := by
  unfold decodeTcFrame
  repeat' split
  case isTrue.isTrue hb hrun => exact .ok ⟨rfl, by rw [Instr.wellFormed, hrun, hb]; rfl, rfl⟩
  case isFalse.isTrue.isTrue hb hrun => exact .ok ⟨rfl, by rw [Instr.wellFormed, hrun, hb]; rfl, rfl⟩
  all_goals exact .error

theorem decodeDacFrame_means : DecodesTo (MeansFrame p .dac (b0 :: rest)) (decodeDacFrame b0 rest) := by
  unfold decodeDacFrame
  split
  · rename_i b1 b2
    have hbytes := dacFields_of_bytes b0 b1 b2
    dsimp only
    split <;> rename_i hop
    · rw [hop] at hbytes
      exact .ok ⟨congrArg (PortItem.frame .dac) hbytes, rfl, rfl⟩
    · exact .ok ⟨congrArg (PortItem.frame .dac) hbytes, bne_iff_ne.mpr hop, rfl⟩
  · exact .error

end

theorem decodeFrame_means (p : Profiles) (c : Chip) (f : Frame) :
    DecodesTo (MeansFrame p c f) (decodeFrame p c f) := by
  cases f with
  | nil => exact .error
  | cons b0 rest =>
    cases c with
    | adc => exact decodeAdcFrame_means
    | dac => exact decodeDacFrame_means
    | tc => exact decodeTcFrame_means

/-- Settles O5: a command's words and a frame's bytes are those of what they decode to. -/
theorem encodeOfDecoded : Obligations.EncodeOfDecoded := by
  intro p item i hd
  have hchip := instanceOf_decodeItem hd
  cases item with
  | command w ws =>
    obtain ⟨hencodes, hok, hwire⟩ := decodeCommand_means p w ws i hd
    exact ⟨hencodes, hok, hchip, by simp [hwire]⟩
  | frame c f =>
    obtain ⟨hencodes, hok, hwire⟩ := decodeFrame_means p c f i hd
    exact ⟨hencodes, hok, hchip, fun _ => ⟨c, f, rfl⟩, fun _ => hwire⟩

end Sys2Proof.Machine
end

section
/-! A command decodes to an operation when the table of rule R105 allows it, and only then; every other raises
`IllegalCommand` (rule R106). -/

namespace Sys2Proof.Machine
open Sys2Proof.Config

/-! ### Which checks succeed -/

section
variable {ε α β : Type}

theorem isOk_iff {x : Except ε α} : x.isOk = true ↔ ∃ a, x = .ok a := by
  cases x with
  | error e => exact ⟨nofun, nofun⟩
  | ok a => exact ⟨fun _ => ⟨a, rfl⟩, fun _ => rfl⟩

theorem isOk_pure (a : α) : (pure a : Except ε α).isOk = true := rfl

/-- A check and what comes after it, where that does not depend on what the check read. -/
theorem isOk_bind {x : Except ε α} {f : α → Except ε β} {v : Bool} (h : ∀ a, x = .ok a → (f a).isOk = v) :
    (x >>= f).isOk = (x.isOk && v) := by
  cases x with
  | error e => rfl
  | ok a => exact h a rfl

/-- Three checks, each of them made whatever the ones before it read, and an instruction made of what they read. -/
theorem isOk_threeChecks {γ δ : Type} {x : Except ε α} {y : Except ε β} {z : Except ε γ} {f : α → γ → δ} :
    (x >>= fun a => y >>= fun _ => z >>= fun c => pure (f a c)).isOk = (x.isOk && (y.isOk && z.isOk)) := by
  rw [isOk_bind fun _ _ => isOk_bind fun _ _ => isOk_bind fun _ _ => isOk_pure _, Bool.and_true]

end

@[simp] theorem isOk_anyChip (w : Word) : (anyChip w).isOk = [0, 1, 2].contains (chipField w).toNat := by
  unfold anyChip
  generalize chipField w = k
  revert k
  decide

@[simp] theorem isOk_convChip (w : Word) : (convChip w).isOk = [0, 2].contains (chipField w).toNat := by
  unfold convChip anyChip
  generalize chipField w = k
  revert k
  decide

@[simp] theorem isOk_onlyChip (c : Chip) (w : Word) :
    (onlyChip c w).isOk = [(chipCode c).toNat].contains (chipField w).toNat := by
  unfold onlyChip anyChip
  generalize chipField w = k
  cases c <;> revert k <;> decide

@[simp] theorem isOk_zeroFields (b : Bool) : (zeroFields b).isOk = b := by
  cases b <;> rfl

@[simp] theorem isOk_payload0 (ws : List Word) : (payload0 ws).isOk = (ws.length == 0) := by
  cases ws <;> rfl

@[simp] theorem isOk_payload1 (ws : List Word) : (payload1 ws).isOk = (ws.length == 1) := by
  rcases ws with _ | ⟨_, _ | _⟩ <;> rfl

@[simp] theorem isOk_payload2 (ws : List Word) : (payload2 ws).isOk = (ws.length == 2) := by
  rcases ws with _ | ⟨_, _ | ⟨_, _ | _⟩⟩ <;> rfl

@[simp] theorem isOk_payloadN (n : Nat) (ws : List Word) : (payloadN n ws).isOk = (ws.length == n) := by
  unfold payloadN
  split <;> rename_i h
  · exact (beq_iff_eq.mpr h).symm
  · exact (beq_eq_false_iff_ne.mpr h).symm

/-- A byte-word is one whose number is below 256. -/
theorem isOk_wordByte (w : Word) : (wordByte w).isOk = decide (w.toNat < 2 ^ 8) := by
  rw [Bool.eq_iff_iff, isOk_iff, decide_eq_true_iff]
  simp only [wordByte_eq_ok]
  refine ⟨fun ⟨b, hb⟩ => ?_, fun h => ⟨w.setWidth 8, ?_⟩⟩
  · rw [hb, byteWord, BitVec.toNat_setWidth_of_le (by omega)]
    exact b.isLt
  · apply BitVec.eq_of_toNat_eq
    rw [byteWord, BitVec.toNat_setWidth, BitVec.toNat_setWidth]
    omega

/-- A reg-word is one whose number is below 65536. -/
theorem isOk_wordReg (w : Word) : (wordReg w).isOk = decide (w.toNat < 2 ^ 16) := by
  rw [Bool.eq_iff_iff, isOk_iff, decide_eq_true_iff]
  simp only [wordReg_eq_ok, ← BitVec.toNat_inj, regWord_toNat]
  refine ⟨fun ⟨r, hr⟩ => ?_, fun h => ⟨⟨BitVec.ofNat 8 (w.toNat / 2 ^ 8), BitVec.ofNat 8 w.toNat⟩, ?_⟩⟩
  · have := r.reg.isLt
    have := r.byte.isLt
    omega
  · simp only [BitVec.toNat_ofNat]
    omega

@[simp] theorem isOk_wordBytes (ws : List Word) : (wordBytes ws).isOk = ws.all fun w => decide (w.toNat < 2 ^ 8) := by
  induction ws with
  | nil => rfl
  | cons w rest ih =>
    rw [wordBytes, isOk_bind fun _ _ => isOk_bind fun _ _ => isOk_pure _, isOk_wordByte, ih, Bool.and_true,
      List.all_cons]

theorem length_of_wordBytes {ws : List Word} {bs : Frame} (h : wordBytes ws = .ok bs) : bs.length = ws.length := by
  rw [wordBytes_eq_ok.mp h, List.length_map]

theorem isOk_wordRegs (ws : List Word) : (wordRegs ws).isOk = ws.all fun w => decide (w.toNat < 2 ^ 16) := by
  induction ws with
  | nil => rfl
  | cons w rest ih =>
    rw [wordRegs, isOk_bind fun _ _ => isOk_bind fun _ _ => isOk_pure _, isOk_wordReg, ih, Bool.and_true,
      List.all_cons]

theorem isOk_payloadBytes (n : Nat) (ws : List Word) : (payloadBytes ws).isOk = payloadMatches .byteList n ws := by
  cases ws with
  | nil => rfl
  | cons l rest =>
    simp only [payloadBytes, payloadMatches]
    split <;> rename_i h
    · rw [isOk_wordBytes, beq_iff_eq.mpr h, Bool.true_and]
    · rw [beq_eq_false_iff_ne.mpr h, Bool.false_and]
      rfl

/-! ### The rows of the table -/

/-- Whether a row of rule R105's table allows a command, in terms of the command word's fields. -/
def rowAllows (r : CommandRow) (w : Word) (ws : List Word) : Bool :=
  r.chips.contains (chipField w).toNat && (r.usesN || nField w == 0) && (r.usesA || aField w == 0) &&
    (r.usesAux || auxField w == 0) && payloadMatches r.payload (nField w).toNat ws

theorem toNat_beq_zero {n : Nat} (x : BitVec n) : (x.toNat == 0) = (x == 0) := by
  rw [Bool.eq_iff_iff, beq_iff_eq, beq_iff_eq, ← BitVec.toNat_inj]
  simp

theorem commandOk_eq (w : Word) (ws : List Word) :
    commandOk w ws = (commandRow (opField w).toNat).any (rowAllows · w ws) := by
  unfold commandOk rowAllows
  rw [← opField_toNat, ← chipField_toNat, ← nField_toNat, ← aField_toNat, ← auxField_toNat]
  simp only [toNat_beq_zero]
  cases commandRow (opField w).toNat <;> rfl

section
variable {w : Word} {ws : List Word}

theorem isOk_decodeUnit (mk : ConvChip → BitVec 9 → Instr) : (decodeUnit mk w ws).isOk = rowAllows unitRow w ws := by
  rw [decodeUnit, isOk_threeChecks, isOk_convChip, isOk_zeroFields, isOk_payload0]
  simp [rowAllows, unitRow, payloadMatches, Bool.and_assoc]

theorem isOk_decodeConv (mk : ConvChip → Instr) :
    (decodeConv mk w ws).isOk = rowAllows (plainRow [0, 2] (.words 0)) w ws := by
  rw [decodeConv, isOk_threeChecks, isOk_convChip, isOk_zeroFields, isOk_payload0]
  simp [rowAllows, plainRow, payloadMatches, Bool.and_assoc]

theorem isOk_decodeAny (mk : Chip → Instr) :
    (decodeAny mk w ws).isOk = rowAllows (plainRow [0, 1, 2] (.words 0)) w ws := by
  rw [decodeAny, isOk_threeChecks, isOk_anyChip, isOk_zeroFields, isOk_payload0]
  simp [rowAllows, plainRow, payloadMatches, Bool.and_assoc]

theorem isOk_decodePairs (mk : Chip → List Pair → Instr) :
    (decodePairs mk w ws).isOk = rowAllows (countedRow .counted) w ws := by
  rw [decodePairs, isOk_threeChecks, isOk_anyChip, isOk_zeroFields, isOk_payloadN]
  simp [rowAllows, countedRow, payloadMatches, Bool.and_assoc]

theorem isOk_decodeChannel (c : Chip) (mk : Byte → Word → Instr) :
    (decodeChannel c mk w ws).isOk = rowAllows (channelRow [(chipCode c).toNat] (.words 1)) w ws := by
  rw [decodeChannel, isOk_threeChecks, isOk_onlyChip, isOk_zeroFields, isOk_payload1]
  simp [rowAllows, channelRow, payloadMatches, Bool.and_assoc]

/-- A command of a row of the table decodes if the row allows it, and only then. -/
theorem isOk_decodeCommand {r : CommandRow} (h : commandRow (opField w).toNat = some r) :
    (decodeCommand w ws).isOk = rowAllows r w ws := by
  unfold decodeCommand
  split
  all_goals
    rename_i hop
    try rw [hop] at h
  case h_1 => cases h
  case h_4 | h_5 | h_8 | h_9 | h_17 | h_18 | h_20 | h_21 => cases h; exact isOk_decodeUnit _
  case h_6 | h_7 | h_19 => cases h; exact isOk_decodeConv _
  case h_22 | h_24 => cases h; exact isOk_decodeAny _
  case h_14 | h_15 | h_16 => cases h; exact isOk_decodePairs _
  case h_12 | h_29 | h_30 => cases h; exact isOk_decodeChannel _ _
  -- BUILD_READ, BUILD_WRITE, DAC_FRAME, CAL_GET, ADC_CODE2V, CAL_APPLY
  case h_2 | h_3 | h_11 | h_25 | h_27 | h_28 =>
    cases h
    rw [isOk_threeChecks]
    simp [rowAllows, unitRow, plainRow, channelRow, payloadMatches, chipCode, Bool.and_assoc]
  case h_10 => -- PARSE_READ
    cases h
    rw [isOk_threeChecks, isOk_payloadBytes (nField w).toNat]
    simp [rowAllows, unitRow, Bool.and_assoc]
  case h_13 => -- ADC_ASM
    cases h
    rw [isOk_bind fun _ _ => isOk_bind fun _ _ => isOk_bind (v := ws.length == 3) fun bs hbs => ?_]
    · simp [rowAllows, plainRow, payloadMatches, chipCode, Bool.and_assoc, Bool.and_comm, Bool.and_left_comm]
    · rw [← length_of_wordBytes hbs]
      rcases bs with _ | ⟨_, _ | ⟨_, _ | ⟨_, _ | _⟩⟩⟩ <;> rfl
  case h_23 => -- CFG_LOAD
    cases h
    rw [isOk_bind fun _ _ => isOk_bind fun _ _ =>
      isOk_bind (v := ws.all fun w => decide (w.toNat < 2 ^ 16)) fun vs hvs => ?_]
    · simp [rowAllows, countedRow, payloadMatches, Bool.and_assoc]
    · obtain ⟨rfl, _⟩ := payloadN_eq_ok.mp hvs
      rw [isOk_bind fun _ _ => isOk_pure _, isOk_wordRegs, Bool.and_true]
  case h_26 => -- CAL_SET
    cases h
    rw [isOk_bind fun _ _ => isOk_bind fun _ _ => isOk_bind (v := true) fun _ _ => rfl]
    simp [rowAllows, channelRow, payloadMatches, Bool.and_assoc]
  case h_31 => -- TC_CODE2T
    cases h
    rw [isOk_bind fun _ _ => isOk_bind fun _ _ => isOk_bind (v := ws.length == 5) fun bs hbs => ?_]
    · simp [rowAllows, plainRow, payloadMatches, chipCode, Bool.and_assoc, Bool.and_comm, Bool.and_left_comm]
    · rw [← length_of_wordBytes hbs]
      rcases bs with _ | ⟨_, _ | ⟨_, _ | ⟨_, _ | ⟨_, _ | ⟨_, _ | _⟩⟩⟩⟩⟩ <;> rfl
  case h_32 =>
    have hlast : (opField w).toNat = 0x1F := by
      have := (opField w).isLt
      simp only [imp_false] at *
      omega
    rw [hlast] at h
    cases h

end

/-- An operation number without a row is reserved, and any command with it decodes to a reserved row. -/
theorem decodeCommand_reserved {w : Word} (h : commandRow (opField w).toNat = none) (ws : List Word) :
    ∃ i, decodeCommand w ws = .ok i ∧ isReserved i = true := by
  have hop : (opField w).toNat = 0 ∨ (opField w).toNat = 0x1F := by
    have := (opField w).isLt
    simp only [commandRow, ite_eq_left_iff, List.getElem?_eq_none_iff] at h
    have hrows : commandRowList.length = 30 := rfl
    omega
  unfold decodeCommand
  rcases hop with hop | hop <;> rw [hop] <;> exact ⟨_, rfl, rfl⟩

/-- The table has no row for what a reserved row is presented as. -/
theorem MeansCommand.noRow_of_isReserved {p : Profiles} {w : Word} {ws : List Word} {i : Instr}
    (h : MeansCommand p w ws i) (hi : isReserved i = true) : commandRow (opField w).toNat = none := by
  have hencodes := h.encodes
  cases i
  case reservedOp00 | reservedOp1f =>
    obtain ⟨rfl, rfl⟩ := PortItem.command.inj hencodes
    rw [opField_append]
    rfl
  all_goals cases hi

/-- A command that a row of the table allows is decoded into an operation, neither a reserved row nor a frame. -/
theorem decodeCommand_of_commandOk {w : Word} {ws : List Word} (h : commandOk w ws = true) :
    ∃ i, decodeCommand w ws = .ok i ∧ isReserved i = false ∧ isWire i = false := by
  rw [commandOk_eq] at h
  cases hr : commandRow (opField w).toNat with
  | none => rw [hr] at h; cases h
  | some r =>
    rw [hr, Option.any_some, ← isOk_decodeCommand hr] at h
    obtain ⟨i, hd⟩ := isOk_iff.mp h
    have hmeans := decodeCommand_means refProfiles w ws i hd
    refine ⟨i, hd, Bool.eq_false_iff.mpr fun hi => ?_, hmeans.notWire⟩
    cases hr.symm.trans (hmeans.noRow_of_isReserved hi)

/-- What no row of the table allows is refused, or is a reserved row. -/
theorem decodeCommand_of_not_commandOk {w : Word} {ws : List Word} (h : commandOk w ws = false) :
    (∃ e, decodeCommand w ws = .error e) ∨ ∃ i, decodeCommand w ws = .ok i ∧ isReserved i = true := by
  rw [commandOk_eq] at h
  cases hr : commandRow (opField w).toNat with
  | none => exact .inr (decodeCommand_reserved hr ws)
  | some r =>
    rw [hr, Option.any_some, ← isOk_decodeCommand hr] at h
    cases hd : decodeCommand w ws with
    | error e => exact .inl ⟨e, rfl⟩
    | ok i => rw [hd] at h; cases h

/-! ### Reserved and malformed commands -/

theorem exec_reserved {i : Instr} (h : isReserved i = true) (s : State) :
    exec i s = .next (deliver illegalCommand s) := by
  cases i
  case reservedOp00 | reservedOp1f => rfl
  all_goals cases h

/-- Settles O40: both reserved rows answer the one fault. -/
theorem reservedRaisesIllegalCommand : Obligations.ReservedRaisesIllegalCommand :=
  fun _ _ s => ⟨exec_reserved rfl s, exec_reserved rfl s⟩

/-- What is presented to a free chip with nothing before it is taken and run. -/
theorem step_present {s : State} {item : PortItem} {rest : List Event} (hfree : isFree s (itemChip item) = true)
    (hp : s.port = .present item :: rest) : step s = runItem item (atWork s (itemChip item) rest) :=
  step_ready (waiting := []) hp nofun (.inl ⟨hfree, .inl ⟨item, rfl, rfl⟩⟩)

theorem runItem_ok {item : PortItem} {s : State} {i : Instr} (h : decodeItem s.profile item = .ok i) :
    runItem item s = exec i s := by
  simp only [runItem, h]

theorem runItem_error {item : PortItem} {s : State} {e : DecodeError} (h : decodeItem s.profile item = .error e) :
    runItem item s = rejectItem item e s := by
  simp only [runItem, h]

/-- A reserved or malformed command raises `IllegalCommand`, whichever of the two it is. -/
theorem runItem_of_not_commandOk {w : Word} {ws : List Word} (h : commandOk w ws = false) (s : State) :
    runItem (.command w ws) s = .next (deliver illegalCommand s) := by
  rcases decodeCommand_of_not_commandOk h with ⟨e, hd⟩ | ⟨i, hd, hi⟩
  · rw [runItem_error (item := .command w ws) hd]
    rfl
  · rw [runItem_ok (item := .command w ws) hd, exec_reserved hi]

/-- Settles O2: the rows of the table as data allow just what the decoder's checks let pass. -/
theorem commandsFollowTheTable : Obligations.CommandsFollowTheTable := by
  intro s w ws rest hp c
  refine ⟨fun k hk => ?_, fun hfree => ⟨fun h => ?_, fun h => ?_⟩⟩
  · have hselector : chipField w = chipCode k := BitVec.eq_of_toNat_eq ((chipField_toNat w).trans hk)
    exact (anyChip_ok (anyChip_eq_ok.mpr hselector)).symm
  · rw [step_present hfree hp]
    exact runItem_of_not_commandOk h _
  · obtain ⟨i, hd, hreserved, hwire⟩ := decodeCommand_of_commandOk h
    exact ⟨i, hd, hreserved, hwire, (step_present hfree hp).trans (runItem_ok hd)⟩

end Sys2Proof.Machine
end

section
/-! A hand-sent frame without a row of its own: what rules R99 and R100 do not decode is sent without a meaning, and a
command of a unit above 2 is that command (rules R94, R95, R99 to R101; log entries 7, 12 and 14). -/

namespace Sys2Proof.Machine
open Sys2Proof.Config

/-! ### The constants of the units above 2 -/

theorem mem_furtherConstants {p : ChipProfile} {table : List Byte} {b : Byte} {u : Nat} :
    (b, u) ∈ furtherConstants p table ↔ 3 ≤ u ∧ u ≤ p.nunits ∧ table[u - 1]? = some b := by
  simp only [furtherConstants, List.mem_iff_getElem?, List.getElem?_drop, List.getElem?_zipIdx, List.getElem?_take]
  constructor
  · rintro ⟨j, hj⟩
    split at hj
    · obtain ⟨x, hx, he⟩ := Option.map_eq_some_iff.mp hj
      obtain ⟨rfl, rfl⟩ := Prod.mk.inj he
      refine ⟨by omega, by omega, ?_⟩
      rwa [show 1 + (2 + j) - 1 = 2 + j by omega]
    · cases hj
  · rintro ⟨h3, hu, hb⟩
    refine ⟨u - 3, ?_⟩
    rw [show 2 + (u - 3) = u - 1 by omega, if_pos (by omega), hb, Option.map_some, show 1 + (u - 1) = u by omega]

/-- The row of a command of a unit above 2 is found by its constant, because no other row has it. -/
theorem decodeFrame_furtherRow {p : Profiles} {b : Byte} {extra u : Nat} {k : UnitCommand} (h : AdcDecodes p.adc)
    (hr : (b, extra, k, u) ∈ furtherRows p.adc) :
    decodeFrame p .adc (b :: List.replicate extra dummy) = .error (.furtherUnit k u) := by
  obtain ⟨_, hnodup, hapart⟩ := rowConstants_nodup h.nodup
  have hb : b ∈ furtherRowConstants p.adc := List.mem_map.mpr ⟨_, hr, rfl⟩
  have hnone : (commandRows p.adc).find? (fun r => r.1 == some b) = none := by
    rw [List.find?_eq_none]
    exact fun r hm he => hapart b hb (List.mem_filterMap.mpr ⟨r, hm, eq_of_beq he⟩)
  have hfind : (furtherRows p.adc).find? (fun r => r.1 == b) = some (b, extra, k, u) :=
    find?_eq_some_of_unique hr (beq_self_eq_true _) fun _ hy hq =>
      List.inj_on_of_nodup_map hnodup hy hr (eq_of_beq hq)
  rw [decodeAdcFrame_command h (mem_commandBytes_of_row (.inr hb)), decodeAdcCommand]
  simp only [hnone, hfind, if_true]

/-! ### Frames without a meaning -/

/-- Why a frame has no meaning to the SCCE (rule R101). -/
def NoMeaning (e : DecodeError) : Prop := e = .unknownFrame ∨ e = .badFrame

theorem parseRejected_noMeaning {e : DecodeError} (h : NoMeaning e) : parseRejected e = parseNothing := by
  rcases h with rfl | rfl <;> rfl

/-- With distinct constants, a constant of a read-data command is of no other command. -/
theorem rdata_apart {p : ChipProfile} (h : (commandBytes p).Nodup) {b : Byte} (hb : b ∈ p.opRdata) :
    b ∉ p.opReset.toList ++ p.opNop.toList ++ p.opStart ++ p.opStop ++ p.opSelfcal := by
  have hone := List.nodup_iff_count_le_one.mp h b
  have hrdata := List.count_pos_iff.mpr hb
  simp only [commandBytes, List.count_append] at hone
  rw [← List.count_pos_iff]
  simp only [List.count_append]
  omega

theorem mem_of_unitEntry {α : Type} {n u : Nat} {table : List α} {b : α} (h : unitEntry n table u = some b) :
    b ∈ table := by
  unfold unitEntry at h
  split at h
  · exact List.mem_of_getElem? h
  · cases h

/-- How many dummy bytes stand after a command's constant: three after a read-data command's, none after another's (rules
R94 and R95). -/
def dummiesAfter (p : ChipProfile) (b : Byte) : Nat := if b ∈ p.opRdata then codeBytes .adc else 0

theorem dummiesAfter_rdata {p : ChipProfile} {b : Byte} (h : b ∈ p.opRdata) : dummiesAfter p b = codeBytes .adc :=
  if_pos h

theorem dummiesAfter_other {p : ChipProfile} {b : Byte} (h : (commandBytes p).Nodup)
    (hb : b ∈ p.opReset.toList ++ p.opNop.toList ++ p.opStart ++ p.opStop ++ p.opSelfcal) : dummiesAfter p b = 0 :=
  if_neg fun hr => rdata_apart h hr hb

section
variable {p : ChipProfile} {b : Byte} {extra : Nat} (h : (commandBytes p).Nodup)
include h

theorem commandRow_dummies {i : Instr} (hr : (some b, extra, i) ∈ commandRows p) : extra = dummiesAfter p b := by
  simp only [commandRows, List.mem_cons, List.not_mem_nil, or_false, Prod.mk.injEq] at hr
  rcases hr with ⟨hb, rfl, -⟩ | ⟨hb, rfl, -⟩ | ⟨hb, rfl, -⟩ | ⟨hb, rfl, -⟩ | ⟨hb, rfl, -⟩ | ⟨hb, rfl, -⟩ |
      ⟨hb, rfl, -⟩ | ⟨hb, rfl, -⟩ | ⟨hb, rfl, -⟩ | ⟨hb, rfl, -⟩
  case inr.inr.inr.inr.inr.inr.inl | inr.inr.inr.inr.inr.inr.inr.inl =>
    exact (dummiesAfter_rdata (mem_of_unitEntry hb.symm)).symm
  case inl | inr.inl => exact (dummiesAfter_other h (by simp [← hb])).symm
  all_goals
    have hm := mem_of_unitEntry hb.symm
    exact (dummiesAfter_other h (by simp [hm])).symm

theorem furtherRow_dummies {k : UnitCommand} {u : Nat} (hr : (b, extra, k, u) ∈ furtherRows p) :
    extra = dummiesAfter p b := by
  have hmem {table : List Byte} {v : Nat} (hv : (b, v) ∈ furtherConstants p table) : b ∈ table :=
    List.mem_of_getElem? (mem_furtherConstants.mp hv).2.2
  simp only [furtherRows, List.mem_append, List.mem_map, Prod.mk.injEq, Prod.exists] at hr
  rcases hr with ((⟨c, v, hv, rfl, rfl, -⟩ | ⟨c, v, hv, rfl, rfl, -⟩) | ⟨c, v, hv, rfl, rfl, -⟩) |
    ⟨c, v, hv, rfl, rfl, -⟩
  case inl.inr => exact (dummiesAfter_rdata (hmem hv)).symm
  all_goals
    have hm := hmem hv
    exact (dummiesAfter_other h (by simp [hm])).symm

end

/-- A command frame with other bytes after its constant than its dummy bytes has no meaning. -/
theorem decodeAdcCommand_noMeaning {p : ChipProfile} (h : (commandBytes p).Nodup) {b : Byte} {rest : Frame}
    (hrest : b ∈ commandBytes p → rest ≠ List.replicate (dummiesAfter p b) dummy) :
    ∃ e, decodeAdcCommand p b rest = .error e ∧ NoMeaning e := by
  unfold decodeAdcCommand
  split
  · rename_i op extra i hfind
    have hkey : (op == some b) = true := by simpa only using List.find?_some hfind
    obtain rfl := eq_of_beq hkey
    have hrow := List.mem_of_find?_eq_some hfind
    rw [commandRow_dummies h hrow, if_neg (hrest (mem_commandBytes_of_row (.inl (mem_rowConstants hrow))))]
    exact ⟨_, rfl, .inr rfl⟩
  · split
    · rename_i c extra k u hfind
      have hkey : (c == b) = true := by simpa only using List.find?_some hfind
      obtain rfl := eq_of_beq hkey
      have hrow := List.mem_of_find?_eq_some hfind
      have hb : c ∈ furtherRowConstants p := List.mem_map.mpr ⟨_, hrow, rfl⟩
      rw [furtherRow_dummies h hrow, if_neg (hrest (mem_commandBytes_of_row (.inr hb)))]
      exact ⟨_, rfl, .inr rfl⟩
    · exact ⟨_, rfl, .inl rfl⟩

theorem countedBytes_noMeaning {rest : Frame}
    (h : ∀ (cnt : Byte) (bytes : Frame), rest = cnt :: bytes → bytes.length ≠ cnt.toNat + 1) :
    countedBytes rest = .error .badFrame := by
  unfold countedBytes
  split
  · rfl
  · rename_i cnt bytes
    exact if_neg (h cnt bytes rfl)

theorem decodeAdcFrame_noRow {p : Profiles} {b : Byte} {rest : Frame} (h : AdcDecodes p.adc)
    (hn : NoRow p .adc (b :: rest)) : ∃ e, decodeAdcFrame p b rest = .error e ∧ NoMeaning e := by
  simp only [NoRow] at hn
  by_cases hreg : b &&& p.adc.opMask = p.adc.opRreg ∨ b &&& p.adc.opMask = p.adc.opWreg
  · rw [if_pos hreg] at hn
    refine ⟨.badFrame, ?_, .inr rfl⟩
    simp only [decodeAdcFrame, countedBytes_noMeaning hn]
    by_cases hr : b &&& p.adc.opMask = p.adc.opRreg
    · rw [if_pos hr]
    · rw [if_neg hr, if_pos (hreg.resolve_left hr)]
  · rw [if_neg hreg] at hn
    obtain ⟨hr, hw⟩ := not_or.mp hreg
    simp only [decodeAdcFrame, if_neg hr, if_neg hw]
    refine decodeAdcCommand_noMeaning h.nodup fun hb => ?_
    unfold dummiesAfter
    by_cases hrdata : b ∈ p.adc.opRdata
    · rw [if_pos hrdata] at hn ⊢
      exact hn
    · rw [if_neg hrdata] at hn ⊢
      exact hn hb

theorem decodeTcFrame_noRow {p : Profiles} {b : Byte} {rest : Frame} (hn : NoRow p .tc (b :: rest)) :
    ∃ e, decodeTcFrame p.tc b rest = .error e ∧ NoMeaning e := by
  unfold decodeTcFrame
  rcases hn with ⟨hr, hw⟩ | hlen
  · rw [if_neg (by simpa using hr), if_neg (by simpa using hw)]
    exact ⟨_, rfl, .inl rfl⟩
  · have hrun : ¬ fitsRun rest.length = true := by
      rw [fitsRun_iff, ← List.length_eq_zero_iff] at *
      omega
    simp only [if_neg hrun]
    split
    · exact ⟨_, rfl, .inr rfl⟩
    · split
      · exact ⟨_, rfl, .inr rfl⟩
      · exact ⟨_, rfl, .inl rfl⟩

theorem decodeDacFrame_noRow {p : Profiles} {b : Byte} {rest : Frame} (hn : NoRow p .dac (b :: rest)) :
    ∃ e, decodeDacFrame b rest = .error e ∧ NoMeaning e := by
  unfold decodeDacFrame
  split
  · exact absurd rfl hn
  · exact ⟨_, rfl, .inr rfl⟩

/-- What the statements call no row is what the decoder gives no meaning. -/
theorem decodeFrame_noRow {p : Profiles} {c : Chip} {f : Frame} (h : AdcDecodes p.adc) (hn : NoRow p c f) :
    ∃ e, decodeFrame p c f = .error e ∧ NoMeaning e := by
  cases f with
  | nil => exact ⟨_, rfl, .inr rfl⟩
  | cons b rest =>
    cases c with
    | adc => exact decodeAdcFrame_noRow h hn
    | dac => exact decodeDacFrame_noRow hn
    | tc => exact decodeTcFrame_noRow hn

/-! ### How a frame that is no row is sent -/

section
variable {s : State} {c : Chip} {f : Frame} {rest : List Event} {e : DecodeError} (hfree : isFree s c = true)
  (hp : s.port = .present (.frame c f) :: rest) (hd : decodeFrame s.profile c f = .error e)
include hfree hp hd

theorem step_rejectedFrame :
    step s = wireOutcome (sendByHand c (.ok f) (parseRejected e) (atWork s c rest)) := by
  rw [step_present hfree hp]
  exact runItem_error (item := .frame c f) hd

/-- An answered one: the very bytes went out, and the response is read as its kind of frame says. -/
theorem step_rejectedFrame_answered {r : Frame} (hr : replyAt s 0 = .answered r) : ∃ copies, copiesOf c [f] copies ∧
    step s = wireOutcome (lift (parseRejected e r) (sent (atWork s c rest) c [f] copies)) := by
  obtain ⟨copies, hc, hs⟩ := sendByHand_answered (s := atWork s c rest) hr c f (parseRejected e)
  exact ⟨copies, hc, by rw [step_rejectedFrame hfree hp hd, hs]⟩

/-- One that is read for nothing is answered with no words. -/
theorem step_rejectedFrame_nothing (he : parseRejected e = parseNothing) {r : Frame} (hr : replyAt s 0 = .answered r) :
    ∃ copies, copiesOf c [f] copies ∧ step s = .next (answer (sent (atWork s c rest) c [f] copies) []) := by
  obtain ⟨copies, hc, hs⟩ := step_rejectedFrame_answered hfree hp hd hr
  exact ⟨copies, hc, by rw [hs, he]; rfl⟩

theorem step_rejectedFrame_failed (hr : replyAt s 0 = .failed) : ∃ copies, copiesOf c [f] copies ∧
    step s = .next (deliver { fault := .transportFault, info := 0 } (sent (atWork s c rest) c [f] copies)) := by
  obtain ⟨copies, hc, hs⟩ := sendByHand_failed (s := atWork s c rest) hr c f (parseRejected e)
  exact ⟨copies, hc, by rw [step_rejectedFrame hfree hp hd, hs]; rfl⟩

end

/-- The code bytes of a read-data response, or that it is too short (rule R95). -/
theorem parseCode_eq (r : Frame) : parseCode r =
    if r.length < 4 then .error (raised .shortReadError r.length) else .ok (byteListWords ((r.drop 1).take 3)) := rfl

section
variable {p : Profiles} {b : Byte} {u : Nat} (h : AdcDecodes p.adc) (hu : 3 ≤ u) (hn : u ≤ p.adc.nunits)
include h hu hn

/-- A command of a unit above 2 is that command, one that brings nothing back. -/
theorem decodeFrame_furtherCommand
    (hb : p.adc.opStart[u - 1]? = some b ∨ p.adc.opStop[u - 1]? = some b ∨ p.adc.opSelfcal[u - 1]? = some b) :
    ∃ e, decodeFrame p .adc [b] = .error e ∧ parseRejected e = parseNothing := by
  have hmem {table : List Byte} (ht : table[u - 1]? = some b) : (b, u) ∈ furtherConstants p.adc table :=
    mem_furtherConstants.mpr ⟨hu, hn, ht⟩
  rcases hb with hb | hb | hb
  · exact ⟨_, decodeFrame_furtherRow (extra := 0) (k := .start) (u := u) h (by simp [furtherRows, hmem hb]), rfl⟩
  · exact ⟨_, decodeFrame_furtherRow (extra := 0) (k := .stop) (u := u) h (by simp [furtherRows, hmem hb]), rfl⟩
  · exact ⟨_, decodeFrame_furtherRow (extra := 0) (k := .selfcal) (u := u) h (by simp [furtherRows, hmem hb]), rfl⟩

/-- A read-data frame of a unit above 2 is read for its code bytes. -/
theorem decodeFrame_furtherReadData (hb : p.adc.opRdata[u - 1]? = some b) :
    decodeFrame p .adc [b, 0x00, 0x00, 0x00] = .error (.furtherUnit .rdata u) := by
  have hmem := mem_furtherConstants.mpr ⟨hu, hn, hb⟩
  exact decodeFrame_furtherRow (extra := codeBytes .adc) h (by simp [furtherRows, hmem])

end

/-- Settles O6: such a frame is a rejected one, whose response is read for nothing, or for the code bytes of a read-data
frame. -/
theorem framesWithoutRowAreSent : Obligations.FramesWithoutRowAreSent := by
  intro s c f rest hok hfree hp p out
  have hadc := decodeOk_iff.mp hok
  refine ⟨fun hnone => ?_, ?_⟩
  · obtain ⟨e, hd, he⟩ := decodeFrame_noRow hadc hnone
    exact ⟨fun r hr => step_rejectedFrame_nothing hfree hp hd (parseRejected_noMeaning he) hr,
      step_rejectedFrame_failed hfree hp hd⟩
  · rintro u b rfl hu hn command readData
    refine ⟨fun r hr => ⟨?_, ?_⟩, ?_⟩
    · rintro ⟨rfl, hb⟩
      obtain ⟨e, hd, he⟩ := decodeFrame_furtherCommand hadc hu hn hb
      exact step_rejectedFrame_nothing hfree hp hd he hr
    · rintro ⟨rfl, hb⟩
      obtain ⟨copies, hc, hs⟩ :=
        step_rejectedFrame_answered hfree hp (decodeFrame_furtherReadData hadc hu hn hb) hr
      refine ⟨copies, hc, ?_⟩
      rw [hs, parseRejected, parseCode_eq]
      split <;> rfl
    · rintro hr (⟨rfl, hb⟩ | ⟨rfl, hb⟩)
      · obtain ⟨e, hd, _⟩ := decodeFrame_furtherCommand hadc hu hn hb
        exact step_rejectedFrame_failed hfree hp hd hr
      · exact step_rejectedFrame_failed hfree hp (decodeFrame_furtherReadData hadc hu hn hb) hr

end Sys2Proof.Machine
end

section
/-! SET_CONFIG when every transfer is answered (rules R103, R105 and R177). -/

namespace Sys2Proof.Machine
open Sys2Proof.Config

/-- A SET_CONFIG that is not refused: the changed registers are written in turn, then the request's fields marked. -/
theorem setConfig_eq {s : State} {c : Chip} {req : List Pair} (h : RequestOk (profOf s c) req)
    (hc : rtdConflict (profOf s c) (cfgOf s c).mirror (valuesOf req) = false) (hk : isConverting s c = false) :
    setConfig c req s =
      andThen (writeRegisters c ((changedRegs s c req).map (oneWrite s c req)) (enterConfiguring c s))
        fun _ t => .done (valuesOf (changed s c req)) (markFields c (req.map (·.field)) t) := by
  unfold setConfig
  rw [validate_ok h]
  simp only [hc, hk, diffWrites_eq h, Bool.false_eq_true, if_false]
  rw [diffOf_valuesOf h, valuesOf_keys]

theorem setConfig_buildable {s : State} {c : Chip} {req : List Pair} (hp : profilesOk s.profile = true) :
    Buildable (enterConfiguring c s) c ((changedRegs s c req).map (oneWrite s c req)) := by
  refine buildable (by simpa using hp) fun w hw => ?_
  obtain ⟨r, hr, rfl⟩ := List.mem_map.mp hw
  simpa [oneWrite] using changedRegs_field hr

/-- The frames of those writes are those of the new configuration. -/
theorem setConfig_frames {s : State} {c : Chip} {req : List Pair} (hi : s.inv = true) (h : RequestOk (profOf s c) req) :
    writeFrames (enterConfiguring c s) c ((changedRegs s c req).map (oneWrite s c req)) =
      (changedRegs s c req).map fun r =>
        oneRegister (profOf s c) c r (pack (profOf s c) r (overlay (cfgOf s c).mirror req)) := by
  simp [writeFrames, oneWrite, overlay_changed (mirror_nodup hi c) h]

/-- Committing the diff and marking the request's fields is writing the chip's configuration once. -/
theorem configured_eq {s t : State} {c : Chip} {req : List Pair} (hi : s.inv = true) (h : RequestOk (profOf s c) req)
    (ht : cfgOf t c = cfgOf s c) :
    markFields c (req.map (·.field)) (commitFields c (valuesOf (changed s c req)) (enterConfiguring c t)) =
      enterConfiguring c (withCfg t c
        { mirror := overlay (cfgOf s c).mirror req
          setMask := marked (cfgOf s c).setMask req
          stale := (cfgOf s c).stale }) := by
  rw [commitFields, bankSetAll_valuesOf (h.changed (s := s) (c := c)).1]
  simp only [markFields, enterConfiguring_cfgOf, ht, cfgOf_withCfg_same, withCfg_withCfg,
    overlay_changed (mirror_nodup hi c) h, marked_changed, enterConfiguring_withCfg]

/-- SET_CONFIG with every transfer answered. -/
theorem setConfig_answered {s : State} {c : Chip} {req : List Pair} {rs : List Frame} (hi : s.inv = true)
    (h : RequestOk (profOf s c) req) (hc : rtdConflict (profOf s c) (cfgOf s c).mirror (valuesOf req) = false)
    (hk : isConverting s c = false) (hg : TransportGives s (rs.map .answered))
    (hl : rs.length = (changedRegs s c req).length) :
    let frames := (changedRegs s c req).map fun r =>
      oneRegister (profOf s c) c r (pack (profOf s c) r (overlay (cfgOf s c).mirror req))
    ∃ copies, copiesOf c frames copies ∧ setConfig c req s = .done (valuesOf (changed s c req))
      (enterConfiguring c (withCfg (sent s c frames copies) c
        { mirror := overlay (cfgOf s c).mirror req
          setMask := marked (cfgOf s c).setMask req
          stale := (cfgOf s c).stale })) := by
  have hg' : TransportGives (enterConfiguring c s) (rs.map .answered ++ []) := by
    simpa [TransportGives] using hg
  obtain ⟨copies, hcopies, hw, _⟩ := writeRegisters_answered (us := [])
    (setConfig_buildable (c := c) (req := req) (inv_profile hi)) hg' (by simpa using hl)
  rw [setConfig_frames hi h] at hcopies hw
  refine ⟨copies, hcopies, ?_⟩
  rw [List.append_nil, writeRegisters, commit_all h, enterConfiguring_sent] at hw
  rw [setConfig_eq h hc hk, hw, andThen_done, configured_eq hi h (by simp)]

/-- Settles O24: the fields of its command word, and the run in which every register write is answered. -/
theorem setConfigSucceeds : Obligations.SetConfigSucceeds := by
  refine ⟨fun c req hlen => ?_, fun c req s rs hi h hc hk hg hl => ?_⟩
  · have hpresented := presentedAs (i := .setConfig c req) (op := 0x0F) fun _ => rfl
    rwa [fitsCount_toNat (decide_eq_true hlen)] at hpresented
  · obtain ⟨copies, hcopies, hs⟩ := setConfig_answered hi h hc hk hg hl
    refine ⟨copies, hcopies, ?_⟩
    rw [exec, execSetConfig, hs, outcome_done, fieldWords_valuesOf h.changed.2]

end Sys2Proof.Machine
end

section
/-! The result port's status word (rules R104 and R271), and words and frames written out from the spec. -/

namespace Sys2Proof.Machine
open Sys2Proof.Config

/-- The three fields of a status word, as a number (rule R104). -/
theorem statusWord_toNat (code info : Byte) {count : Nat} (h : count < 2 ^ 16) :
    (statusWord code info count).toNat = 2 ^ 16 * count + 2 ^ 8 * info.toNat + code.toNat := by
  have hi := info.isLt
  have hc := code.isLt
  rw [statusWord, BitVec.toNat_append, BitVec.toNat_append, ← Nat.shiftLeft_add_eq_or_of_lt hi,
    ← Nat.shiftLeft_add_eq_or_of_lt hc, Nat.shiftLeft_eq, Nat.shiftLeft_eq, BitVec.toNat_ofNat, Nat.mod_eq_of_lt h]
  omega

/-- Each field is read back from its bits. -/
theorem statusWord_fields (code info : Byte) {count : Nat} (h : count < 2 ^ 16) :
    (statusWord code info count).toNat % 2 ^ 8 = code.toNat ∧
      (statusWord code info count).toNat / 2 ^ 8 % 2 ^ 8 = info.toNat ∧
      (statusWord code info count).toNat / 2 ^ 16 = count := by
  have hi := info.isLt
  have hc := code.isLt
  rw [statusWord_toNat code info h]
  omega

/-- Settles O7: an answer and a fault show one status word, whose fields are read back. -/
theorem resultPortLayout : Obligations.ResultPortLayout := by
  refine ⟨fun s ws h => ⟨_, shown_answer s ws, statusWord_fields 0 0 h⟩, fun s f b => ⟨_, shown_deliver _ s, ?_⟩, rfl⟩
  exact statusWord_fields (faultCode f) b (by decide)

/-- Settles O3: each word and frame is run through the decoder. -/
theorem decodeSanityWords : Obligations.DecodeSanityWords :=
  ⟨rfl, rfl, rfl, rfl, rfl, rfl, rfl, rfl⟩

end Sys2Proof.Machine
end

section
/-! The codec: every operation is a pure function of its operands and the profile, and changes the result port only (rule
R142). -/

namespace Sys2Proof.Machine
open Sys2Proof.Config

/-! ### Purity -/

/-- A pure result leaves the same answer in every state. -/
theorem pureOutcome_answers (x : Except Raised (List Word)) :
    ∃ r, ∀ s, pureOutcome x s = .next (withResult s r) := by
  cases x with
  | ok ws => exact ⟨_, fun _ => rfl⟩
  | error e => exact ⟨_, fun _ => rfl⟩

theorem profOf_congr {s s' : State} (h : s.profile = s'.profile) (c : Chip) : profOf s c = profOf s' c :=
  congrArg (·.of c) h

/-- Under one profile a codec operation has one result, whatever else the states hold. -/
theorem exec_codec_congr {i : Instr} (h : isCodec i = true) {s s' : State} (hp : s.profile = s'.profile) :
    ∃ x, exec i s = pureOutcome x s ∧ exec i s' = pureOutcome x s' := by
  cases i
  case parseRead | dacFrame | dacWrupd | adcAsm => exact ⟨_, rfl, rfl⟩
  case buildRead | buildWrite | buildStart | buildStop | buildReset | buildNop | buildSelfcal | buildRdata =>
    exact ⟨_, rfl, by rw [profOf_congr hp]; rfl⟩
  all_goals exact absurd h Bool.false_ne_true

/-- Settles O17: the operation's one result leaves one answer. -/
theorem codecIsPure : Obligations.CodecIsPure := by
  intro i hi s s' hp
  obtain ⟨x, hs, hs'⟩ := exec_codec_congr hi hp
  obtain ⟨r, hr⟩ := pureOutcome_answers x
  exact ⟨r, hs.trans (hr s), hs'.trans (hr s')⟩

/-! ### The outcome of a builder -/

/-- What is answered where a frame is built. -/
theorem pureOutcome_frame {x : Except Raised Frame} {f : Frame} (h : x = .ok f) (s : State) :
    pureOutcome (frameWords x) s = .next (answer s (byteListWords f)) := by rw [h]; rfl

/-- What is delivered where none is. -/
theorem pureOutcome_noFrame {x : Except Raised Frame} {e : Raised} (h : x = .error e) (s : State) :
    pureOutcome (frameWords x) s = .next (deliver e s) := by rw [h]; rfl

/-- A frame that was answered was built. -/
theorem frame_of_pureOutcome {x : Except Raised Frame} {s : State} {f : Frame}
    (h : pureOutcome (frameWords x) s = .next (answer s (byteListWords f))) : x = .ok f := by
  rcases pureOutcome_next h with ⟨ws, hx, hs⟩ | ⟨e, _, hs⟩
  · have hw := answer_words_inj hs
    cases x with
    | error e => cases hx
    | ok g =>
      obtain rfl : byteListWords g = ws := by simpa using hx
      exact congrArg Except.ok (map_byteWord_inj (List.cons.inj hw).2).symm
  · have hshown := congrArg shown hs
    simp [byteListWords] at hshown

end Sys2Proof.Machine
end

section
/-! The register frames: BUILD_READ and BUILD_WRITE answer their frame or the first fault of their checks, and PARSE_READ
reads back what BUILD_READ asks for (rules R130, R131, R137 and R143). -/

namespace Sys2Proof.Machine
open Sys2Proof.Config

/-! ### BUILD_READ -/

theorem readFrame_error {p : ChipProfile} {c : ConvChip} {a : Byte} {n : Nat} {e : Raised}
    (h : checkRun p.validRd a n = .error e) : readFrame p c a n = .error e := by
  rw [readFrame, h]

theorem readFrame_ok {p : ChipProfile} {c : ConvChip} {a : Byte} {n : Nat} (h : checkRun p.validRd a n = .ok ()) :
    readFrame p c a n = .ok (headerBytes c (p.opRreg ||| a) n ++ List.replicate n 0x00) := by
  rw [readFrame, h, ← header_eq]; rfl

theorem headerBytes_length (c : ConvChip) (b : Byte) (n : Nat) : (headerBytes c b n).length = lead c := by
  cases c <;> rfl

/-- A read frame is built for 1 to 256 registers, and is as long as the header and their bytes. -/
theorem readFrame_inv {p : ChipProfile} {c : ConvChip} {a : Byte} {n : Nat} {f : Frame}
    (h : readFrame p c a n = .ok f) : 1 ≤ n ∧ n ≤ 256 ∧ f.length = lead c + n := by
  cases hr : checkRun p.validRd a n with
  | error e => rw [readFrame_error hr] at h; cases h
  | ok _ =>
    obtain ⟨h1, h2, _⟩ := checkRun_inv hr
    rw [readFrame_ok hr] at h
    cases h
    exact ⟨h1, h2, by rw [List.length_append, headerBytes_length, List.length_replicate]⟩

/-- Settles O11: the checks of the run decide, in their order. -/
theorem buildReadResult : Obligations.BuildReadResult := by
  intro c n a s
  have ends {e} (h : checkRun (profOf s c.toChip).validRd a n.toNat = .error e) :
      exec (.buildRead c n a) s = .next (deliver e s) := pureOutcome_noFrame (readFrame_error h) s
  refine ⟨presentedAs (op := 0x01) (aux := 0) fun _ => rfl, fun h => ends (checkRun_start h), fun h hn => ?_,
    fun k h1 h2 h3 h4 h5 => ends (checkRun_later h1 h2 h3 h4 h5), fun h1 h2 h => ?_⟩
  · rw [ends (checkRun_count h hn), BitVec.ofNat_toNat]
  · exact pureOutcome_frame (readFrame_ok (checkRun_ok h1 h2 h)) s

/-! ### BUILD_WRITE -/

theorem writeFrameOf_badRun {p : ChipProfile} {c : ConvChip} {a : Byte} {values : List Word} {e : Raised}
    (h : checkRun p.validWr a values.length = .error e) : writeFrameOf p c a values = .error e := by
  rw [writeFrameOf, h]

theorem writeFrameOf_badValue {p : ChipProfile} {c : ConvChip} {a : Byte} {values : List Word} {e : Raised}
    (h : checkRun p.validWr a values.length = .ok ()) (hv : valueBytes 0 values = .error e) :
    writeFrameOf p c a values = .error e := by
  simp only [writeFrameOf, h, hv]

theorem writeFrameOf_ok {p : ChipProfile} {c : ConvChip} {a : Byte} {values : List Word} {bytes : Frame}
    (h : checkRun p.validWr a values.length = .ok ()) (hv : valueBytes 0 values = .ok bytes) :
    writeFrameOf p c a values = .ok (headerBytes c (p.opWreg ||| a) values.length ++ bytes) := by
  simp only [writeFrameOf, h, hv, header_eq]

/-- The whole number of a value-word is outside a byte's range exactly when the word is (rule R131). -/
theorem valueInteger_range {v : Word} (h : v.toNat % 256 = 0) :
    (valueInteger v < 0 ∨ 255 < valueInteger v) ↔ (v.toInt < 0 ∨ 255 * 256 < v.toInt) := by
  have := v.toInt_eq_toNat_cond
  unfold valueInteger
  omega

theorem valueBytes_notInteger {v : Word} (h : v.toNat % 256 ≠ 0) (i : Nat) (more : List Word) :
    valueBytes i (v :: more) = .error (raised .nonIntegerValue i) := by
  have hv : valueIsInteger v = false := by simpa [← valueIsInteger_iff] using h
  rw [valueBytes, if_pos hv]

theorem valueBytes_outOfRange {v : Word} (h : v.toNat % 256 = 0) (hr : v.toInt < 0 ∨ 255 * 256 < v.toInt) (i : Nat)
    (more : List Word) : valueBytes i (v :: more) = .error (raised .valueOutOfRange i) := by
  have hv : valueIsInteger v = true := (valueIsInteger_iff v).mpr h
  rw [valueBytes, if_neg (by simp [hv]), if_pos ((valueInteger_range h).mpr hr)]

/-- The first value that is no byte decides. -/
theorem valueBytes_firstFault {bytes : Frame} {rest : List Word} {e : Raised}
    (h : valueBytes bytes.length rest = .error e) : valueBytes 0 (bytes.map valueWord ++ rest) = .error e := by
  rw [valueBytes_prefix, Nat.zero_add, h]

theorem valueBytes_map_valueWord (bytes : Frame) : valueBytes 0 (bytes.map valueWord) = .ok bytes := by
  simpa [valueBytes] using valueBytes_prefix bytes [] 0

/-- Settles O12: the checks of the run decide, then the first value that is no byte. -/
theorem buildWriteResult : Obligations.BuildWriteResult := by
  intro c a values s
  have ends {e} (h : writeFrameOf (profOf s c.toChip) c a values = .error e) :
      exec (.buildWrite c a values) s = .next (deliver e s) := pureOutcome_noFrame h s
  refine ⟨fun hlen => ?_, fun h => ends (writeFrameOf_badRun (checkRun_start h)),
    fun h hn => ends (writeFrameOf_badRun (checkRun_count h hn)),
    fun k h1 h2 h3 h4 h5 => ends (writeFrameOf_badRun (checkRun_later h1 h2 h3 h4 h5)), fun h1 h2 h => ?_⟩
  · have hpresented := presentedAs (i := .buildWrite c a values) (op := 0x02) fun _ => rfl
    rwa [fitsCount_toNat (decide_eq_true hlen)] at hpresented
  · have hrun := checkRun_ok h1 h2 h
    refine ⟨fun bytes v more hv hne => ?_, fun bytes v more hv hint hr => ?_, fun bytes hv => ?_⟩
    · exact ends (writeFrameOf_badValue hrun (hv ▸ valueBytes_firstFault (valueBytes_notInteger hne _ _)))
    · exact ends (writeFrameOf_badValue hrun (hv ▸ valueBytes_firstFault (valueBytes_outOfRange hint hr _ _)))
    · exact pureOutcome_frame (writeFrameOf_ok hrun (hv ▸ valueBytes_map_valueWord bytes)) s

/-! ### PARSE_READ -/

theorem parseRead_badCount {c : ConvChip} {raw : Frame} {n : Nat} (h : n < 1 ∨ 256 < n) :
    parseRead c raw n = .error (raised .invalidCount n) := if_pos h

section
variable {c : ConvChip} {raw : Frame} {n : Nat} (h1 : 1 ≤ n) (h2 : n ≤ 256)
include h1 h2

theorem parseRead_short (h : raw.length < lead c + n) :
    parseRead c raw n = .error (raised .shortReadError raw.length) := by
  rw [parseRead, if_neg (by unfold countMax; omega), if_pos h]

theorem parseRead_ok (h : lead c + n ≤ raw.length) : parseRead c raw n = .ok ((raw.drop (lead c)).take n) := by
  rw [parseRead, if_neg (by unfold countMax; omega), if_neg (Nat.not_lt.mpr h)]

end

/-- Exactly `n` values stand after the lead bytes of a response that is long enough. -/
theorem values_length {raw : Frame} {strip n : Nat} (h : strip + n ≤ raw.length) :
    ((raw.drop strip).take n).length = n := by
  rw [List.length_take, List.length_drop]
  omega

/-- PARSE_READ answers `n` values where the response is long enough. -/
theorem exec_parseRead_ok {c : ConvChip} {n : BitVec 9} {raw : Frame} (h1 : 1 ≤ n.toNat) (h2 : n.toNat ≤ 256)
    (h : lead c + n.toNat ≤ raw.length) (s : State) :
    exec (.parseRead c n raw) s = .next (answer s (byteListWords ((raw.drop (lead c)).take n.toNat))) ∧
      ((raw.drop (lead c)).take n.toNat).length = n.toNat :=
  ⟨pureOutcome_frame (parseRead_ok h1 h2 h) s, values_length h⟩

/-- Settles O13: the count, then the length; and a frame that BUILD_READ answers is as long as the lead bytes and the
values asked for. -/
theorem parseReadResult : Obligations.ParseReadResult := by
  refine ⟨fun c n raw s => ?_, fun c n a f r s hf hlen => ?_⟩
  · refine ⟨presentedAs (op := 0x09) (a := 0) (aux := 0) fun _ => rfl, fun h => ?_, fun h1 h2 h => ?_,
      fun h1 h2 h => exec_parseRead_ok h1 h2 h s⟩
    · rw [← BitVec.ofNat_toNat]
      exact pureOutcome_noFrame (parseRead_badCount h) s
    · exact pureOutcome_noFrame (parseRead_short h1 h2 h) s
  · obtain ⟨h1, h2, hfl⟩ := readFrame_inv (frame_of_pureOutcome hf)
    rw [hfl, Nat.add_sub_cancel]
    exact exec_parseRead_ok h1 h2 (by rw [hlen, hfl]) s

end Sys2Proof.Machine
end

section
/-! The command frames, the DAC frames and the ADC's code (rules R132 to R136 and R138 to R141). -/

namespace Sys2Proof.Machine
open Sys2Proof.Config

/-! ### Commands -/

theorem unitEntry_none {α : Type} {nunits u : Nat} {table : List α} (h : u = 0 ∨ nunits < u ∨ table[u - 1]? = none) :
    unitEntry nunits table u = none := by
  rw [unitEntry, ite_eq_right_iff]
  rintro ⟨h1, h2⟩
  exact (h.resolve_left (by omega)).resolve_left (by omega)

/-- An operation that answers a unit's command frame is a builder of that command. -/
theorem unitBuilder {op : BitVec 5} {make : ConvChip → BitVec 9 → Instr} {table : ChipProfile → List Byte}
    {dummies : ConvChip → Nat}
    (hencode : ∀ p c u, encode p (make c u) = encodeCommand op c.toChip u 0 0 [])
    (hexec : ∀ c u s, exec (make c u) s =
      pureOutcome (frameWords (unitFrame (profOf s c.toChip) (table (profOf s c.toChip)) u.toNat (dummies c))) s) :
    UnitBuilder op.toNat make table dummies := by
  refine fun c u s => ⟨presentedAs (a := 0) (aux := 0) fun p => hencode p c u, fun b h1 h2 hb => ?_, fun h => ?_⟩
  · rw [hexec, unitFrame, unitEntry_eq h1 h2, hb]
    rfl
  · have hu : u = 0 ↔ u.toNat = 0 := BitVec.toNat_eq
    rw [hexec, unitFrame, unitEntry_none (by rwa [← hu]), ← BitVec.ofNat_toNat]
    rfl

/-- An operation that answers a command the profile has once is a builder of it. -/
theorem commandBuilder {number : BitVec 5} {make : ConvChip → Instr} {op : ChipProfile → Option Byte}
    (hencode : ∀ p c, encode p (make c) = encodeCommand number c.toChip 0 0 0 [])
    (hexec : ∀ c s, exec (make c) s = pureOutcome (frameWords (commandFrame (op (profOf s c.toChip)))) s) :
    CommandBuilder number.toNat make op := by
  refine fun c s => ⟨presentedAs (n := 0) (a := 0) (aux := 0) fun p => hencode p c, fun b hb => ?_, fun h => ?_⟩
  · rw [hexec, hb]
    rfl
  · rw [hexec, h]
    rfl

/-- Settles O14: each of the six looks its command up in its own table. -/
theorem commandBuilders : Obligations.CommandBuilders := by
  refine ⟨unitBuilder (op := 0x03) ?_ ?_, unitBuilder (op := 0x04) ?_ ?_, commandBuilder (number := 0x05) ?_ ?_,
    commandBuilder (number := 0x06) ?_ ?_, unitBuilder (op := 0x07) ?_ ?_, unitBuilder (op := 0x08) ?_ ?_⟩
  all_goals intros; rfl

/-! ### DAC frames -/

theorem dacFrame_badChannel {ch : Byte} (h : 7 < ch.toNat) (op : Byte) (d : Word) :
    dacFrame op ch d = .error { fault := .invalidAddress, info := ch } := by
  rw [dacFrame, if_pos h, raised, BitVec.ofNat_toNat, BitVec.setWidth_eq]

theorem dacFrame_badOpcode {op ch : Byte} (hc : ch.toNat ≤ 7) (h : 15 < op.toNat) (d : Word) :
    dacFrame op ch d = .error { fault := .valueOutOfRange, info := 0 } := by
  rw [dacFrame, if_neg (Nat.not_lt.mpr hc), if_pos h]
  rfl

theorem dacFrame_badData {op ch : Byte} {d : Word} (hc : ch.toNat ≤ 7) (ho : op.toNat ≤ 15) (h : 65535 < d.toNat) :
    dacFrame op ch d = .error { fault := .valueOutOfRange, info := 1 } := by
  rw [dacFrame, if_neg (Nat.not_lt.mpr hc), if_neg (Nat.not_lt.mpr ho), if_pos h]
  rfl

/-- Settles O15: the first field that does not fit, or the three bytes; DAC_WRUPD is DAC_FRAME with opcode 3. -/
theorem dacFrameResult : Obligations.DacFrameResult := by
  intro op ch d s
  refine ⟨presentedAs (op := 0x0A) (n := 0) fun _ => rfl, presentedAs (op := 0x0B) (n := 0) (aux := 0) fun _ => rfl,
    fun h => ?_, fun hc h => ?_, fun hc ho h => ?_, fun hc ho hd => ?_, rfl, fun hc hd => ?_⟩
  · exact pureOutcome_noFrame (dacFrame_badChannel h op d) s
  · exact pureOutcome_noFrame (dacFrame_badOpcode hc h d) s
  · exact pureOutcome_noFrame (dacFrame_badData hc ho h) s
  · exact pureOutcome_frame (dacFrame_bytes op ch d hc ho hd) s
  · exact pureOutcome_frame (dacFrame_bytes 3 ch d hc (by decide) hd) s

/-! ### ADC_ASM -/

/-- A word's signed reading is the two's-complement reading of its bits (rule R11). -/
theorem toInt_eq_twosComplement {n : Nat} (v : BitVec (n + 1)) : v.toInt = twosComplement (n + 1) v.toNat := by
  have hsign : 2 * v.toNat < 2 ^ (n + 1) ↔ v.toNat < 2 ^ n := by omega
  simp [BitVec.toInt_eq_toNat_cond, twosComplement, hsign]

theorem code24_toNat (b0 b1 b2 : Byte) :
    (code24 b0 b1 b2).toNat = 65536 * b0.toNat + 256 * b1.toNat + b2.toNat := by
  rw [code24, BitVec.toNat_append, BitVec.toNat_append, ← Nat.shiftLeft_add_eq_or_of_lt b1.isLt,
    ← Nat.shiftLeft_add_eq_or_of_lt b2.isLt, Nat.shiftLeft_eq, Nat.shiftLeft_eq]
  omega

/-- Settles O16: sign extension keeps the code's signed value. -/
theorem adcAsmResult : Obligations.AdcAsmResult := by
  refine fun b0 b1 b2 s => ⟨presentedAs (op := 0x0C) (n := 0) (a := 0) (aux := 0) fun _ => rfl, _, rfl, ?_⟩
  calc (asmWord b0 b1 b2).toInt
      = (code24 b0 b1 b2).toInt := BitVec.toInt_signExtend_of_le (by decide)
    _ = twosComplement 24 (code24 b0 b1 b2).toNat := toInt_eq_twosComplement _
    _ = _ := by rw [code24_toNat]

end Sys2Proof.Machine
end

section
/-! Requests: CFG_DIFF, CFG_COMMIT and the refusals of SET_CONFIG, and the laws of the diff (rules R171 to R175 and
R177). -/

namespace Sys2Proof.Machine
open Sys2Proof.Config

/-! ### How a request is presented and validated -/

/-- A command with counted payload words is presented with their count (rules R102 and R103). -/
theorem presentedAs_counted {i : Instr} {op : BitVec 5} {c : Chip} {len : Nat} {ws : List Word} (hlen : len < 512)
    (h : ∀ p, encode p i = encodeCommand op c (BitVec.ofNat 9 len) 0 0 ws) :
    PresentedAs i op.toNat c len 0 0 ws := by
  have hpresented := presentedAs h
  rwa [fitsCount_toNat (decide_eq_true hlen)] at hpresented

section
variable {c : Chip} {req : List Pair} {s : State}

/-- The three operations that take a request refuse what validation refuses, and change nothing. -/
theorem exec_refused {e : Raised} (h : validate (profOf s c) req = .error e) :
    exec (.cfgDiff c req) s = .next (deliver e s) ∧ exec (.cfgCommit c req) s = .next (deliver e s) ∧
      exec (.setConfig c req) s = .next (deliver e s) := by
  refine ⟨?_, ?_, ?_⟩
  · rw [exec, execCfgDiff, cfgDiff, h, lift_error, outcome_raised]
  · rw [exec, execCfgCommit, cfgCommit, h, outcome_raised]
  · rw [exec, execSetConfig, setConfig, h, outcome_raised]

theorem exec_cfgDiff (h : RequestOk (profOf s c) req) :
    exec (.cfgDiff c req) s = .next (answer s (pairWords (changed s c req))) := by
  rw [exec, execCfgDiff, cfgDiff, validate_ok h, lift_ok, outcome_done, diffOf_valuesOf h,
    fieldWords_valuesOf h.changed.2, pairWords]

theorem exec_cfgCommit (h : RequestOk (profOf s c) req) :
    exec (.cfgCommit c req) s = .next (answer (commitFields c (valuesOf req) s) []) := by
  rw [exec, execCfgCommit, cfgCommit, validate_ok h, outcome_done, noWords_eq]

/-- Committing a request's values writes the mirror and SetMask of its chip once. -/
theorem commitFields_valuesOf (h : RequestOk (profOf s c) req) :
    commitFields c (valuesOf req) s = withCfg s c
      { mirror := overlay (cfgOf s c).mirror req
        setMask := marked (cfgOf s c).setMask req
        stale := (cfgOf s c).stale } := by
  rw [commitFields, bankSetAll_valuesOf h.1, valuesOf_keys, markSet_fields]

end

/-- Settles O18: the three operations validate before all else. -/
theorem badRequestIsRefused : Obligations.BadRequestIsRefused :=
  fun _ _ _ _ _ hgood hq => exec_refused (validate_bad hgood hq)

/-- Settles O19: the first bad pair, or the pairs that changed. -/
theorem cfgDiffResult : Obligations.CfgDiffResult := by
  refine fun c req s => ⟨fun hlen => presentedAs_counted (op := 0x0D) hlen fun _ => rfl, ?_, exec_cfgDiff⟩
  rintro good q more rfl hgood hq
  obtain ⟨hdiff, _⟩ := exec_refused (validate_bad hgood hq)
  exact hdiff

/-- Settles O20: the first bad pair, or the request laid over the mirror. -/
theorem cfgCommitResult : Obligations.CfgCommitResult := by
  refine fun c req s => ⟨fun hlen => presentedAs_counted (op := 0x0E) hlen fun _ => rfl, ?_, fun h => ?_⟩
  · rintro good q more rfl hgood hq
    obtain ⟨_, hcommit, _⟩ := exec_refused (validate_bad hgood hq)
    exact hcommit
  · rw [exec_cfgCommit h, commitFields_valuesOf h]

/-! ### The laws of the diff (rule R173) -/

/-- The mirror holds what every pair of the request asks for. -/
def Holds (s : State) (c : Chip) (req : List Pair) : Prop :=
  ∀ q ∈ req, (mirrorGet s c q.field).map BitVec.toNat = some q.value.toNat

theorem changed_eq_nil_iff {s : State} {c : Chip} {req : List Pair} : changed s c req = [] ↔ Holds s c req := by
  simp [changed, Holds, List.filter_eq_nil_iff]

/-- The diff is empty exactly for values that the mirror holds. -/
theorem cfgDiff_empty_iff {s : State} {c : Chip} {req : List Pair} (h : RequestOk (profOf s c) req) :
    exec (.cfgDiff c req) s = .next (answer s []) ↔ Holds s c req := by
  rw [exec_cfgDiff h, ← changed_eq_nil_iff]
  constructor
  · intro he
    have hwords := answer_words_inj (Host.Outcome.next.inj he)
    simpa [pairWords] using hwords
  · intro he
    rw [he, pairWords, List.map_nil]

/-- A request laid over a mirror that has its fields is held there. -/
theorem holds_of_overlay {s t : State} {c : Chip} {req : List Pair} (hi : s.inv = true)
    (h : RequestOk (profOf s c) req) (ht : (cfgOf t c).mirror = overlay (cfgOf s c).mirror req) : Holds t c req := by
  intro q hq
  obtain ⟨spec, hspec, b, _, hb⟩ := h.2 q hq
  obtain ⟨old, hold⟩ := Option.isSome_iff_exists.mp (mirrorGet_isSome hi (c := c) (f := q.field) (by simp [hspec]))
  have hasked : asked req q.field = some (q.value.setWidth 8) := by
    rw [← lookup_valuesOf, lookup_eq_some_iff (by rw [valuesOf_keys]; exact h.1)]
    exact List.mem_map.mpr ⟨q, hq, rfl⟩
  have hget : mirrorGet t c q.field = some (q.value.setWidth 8) := by
    rw [mirrorGet, ht, bankGet, overlay, lookup_map_fst _ fun f v => (asked req f).getD v]
    change (mirrorGet s c q.field).map _ = _
    rw [hold, hasked]
    rfl
  have := b.isLt
  rw [hget, Option.map_some, BitVec.toNat_setWidth, Nat.mod_eq_of_lt (by omega)]

/-- A state whose mirror holds the request has an empty diff. -/
theorem cfgDiff_empty_of_overlay {s t : State} {c : Chip} {req : List Pair} (hi : s.inv = true)
    (h : RequestOk (profOf s c) req) (hp : profOf t c = profOf s c)
    (ht : (cfgOf t c).mirror = overlay (cfgOf s c).mirror req) :
    exec (.cfgDiff c req) t = .next (answer t []) :=
  (cfgDiff_empty_iff (hp ▸ h)).mpr (holds_of_overlay hi h ht)

/-- A SET_CONFIG that ended and shows no fault has laid the request over the mirror. -/
theorem setConfig_overlay {s t : State} {c : Chip} {req : List Pair} (hi : s.inv = true)
    (ht : exec (.setConfig c req) s = .next t) (hbusy : isBusy t c = false) (hcode : shownCode t = some 0) :
    (cfgOf t c).mirror = overlay (cfgOf s c).mirror req := by
  have hfault : ∀ e u, setConfig c req s ≠ .raised e u := by
    intro e u hx
    rw [exec, execSetConfig, hx, outcome_raised] at ht
    rw [← Host.Outcome.next.inj ht, shownCode_deliver] at hcode
    cases hf : e.fault <;> rw [hf] at hcode <;> cases hcode
  rw [exec, execSetConfig] at ht
  rcases setConfig_cases (c := c) (req := req) (inv_profile hi) with ⟨e, _, hx⟩ | ⟨hreq, ⟨_, hx⟩ | ⟨_, _, hx⟩ |
    ⟨_, _, ⟨copies, _, hx⟩ | ⟨before, r, after, copies, _, _, hx | ⟨hx, _⟩⟩⟩⟩
  case inr.inr.inr.inl =>
    rw [hx, configured_eq hi hreq (by simp), outcome_done] at ht
    rw [← Host.Outcome.next.inj ht]
    simp
  case inr.inr.inr.inr.inr =>
    rw [hx, outcome_hung] at ht
    rw [← Host.Outcome.next.inj ht] at hbusy
    simp [isBusy_markBusy] at hbusy
  all_goals exact absurd hx (hfault _ _)

/-- Settles O21: the diff reads the mirror only, and the two writers lay the request over it. -/
theorem diffLaws : Obligations.DiffLaws := by
  intro c req s hi h
  refine ⟨cfgDiff_empty_iff h, fun t ht => ?_, fun t ht hbusy hcode => ?_, fun t ht => ?_⟩
  · rw [exec_cfgCommit h, commitFields_valuesOf h] at ht
    obtain rfl := Host.Outcome.next.inj ht
    exact cfgDiff_empty_of_overlay hi h (by simp) (by simp)
  · exact cfgDiff_empty_of_overlay hi h (congrArg (·.of c) (exec_writtenBy ht).profile)
      (setConfig_overlay hi ht hbusy hcode)
  · rw [exec_cfgDiff h] at ht
    obtain rfl := Host.Outcome.next.inj ht
    obtain ⟨hcore, hports, _⟩ := Shows.parts (.inr ⟨_, rfl⟩ : Shows s (answer s (pairWords (changed s c req))))
    exact ⟨hcore, hports⟩

/-! ### SET_CONFIG's refusals of a valid request -/

theorem effective_valuesOf (mirror : List (Byte × Byte)) (req : List Pair) (f : Byte) :
    effective mirror (valuesOf req) f = (asked req f).or (bankGet mirror f) := by
  rw [effective, bankGet, lookup_valuesOf]
  cases asked req f <;> rfl

/-- The conflict of rule R175, in the statements' words. -/
theorem rtdConflict_iff (p : ChipProfile) (mirror : List (Byte × Byte)) (req : List Pair) :
    rtdConflict p mirror (valuesOf req) = true ↔
      (fieldSpec p 7).isSome ∧ (fieldSpec p 2).isSome ∧ (asked req 7).or (bankGet mirror 7) = some p.rtdOn ∧
        ∃ ch ∈ p.rtdReserved, (asked req 2).or (bankGet mirror 2) = some ch := by
  simp only [rtdConflict, effective_valuesOf, fRtdMode, fActiveChannel, Bool.and_eq_true, beq_iff_eq, and_assoc]
  cases (asked req 2).or (bankGet mirror 2) <;> simp

/-- Settles O23: the conflict is looked for before the mode. -/
theorem setConfigRefused : Obligations.SetConfigRefused := by
  intro c req s h
  have hiff := rtdConflict_iff (profOf s c) (cfgOf s c).mirror req
  refine ⟨fun hc => ?_, fun hc k hk hm => ?_⟩
  · rw [exec, execSetConfig, setConfig, validate_ok h]
    simp only [hiff.mpr hc, if_true, outcome_raised]
    rfl
  · have hnone : rtdConflict (profOf s c) (cfgOf s c).mirror (valuesOf req) = false := by
      rw [← Bool.not_eq_true, hiff]
      exact hc
    rw [exec, execSetConfig, setConfig, validate_ok h]
    simp only [hnone, (isConverting_iff s c).mpr ⟨k, hk, hm⟩, Bool.false_eq_true, if_false, if_true, outcome_raised]
    rfl

end Sys2Proof.Machine
end

section
/-! Registers as packed fields: a field's bits in a packed byte are its value's, because no other field and no constant
bit reaches them (rules R9 and R176). -/

namespace Sys2Proof.Machine
open Sys2Proof.Config

/-- Bit `i` of bits `hi` down to `lo` of a byte is its bit `lo + i`, inside the range. -/
theorem byteBits_getLsbD {hi lo : Nat} (h : hi ≤ 7) (b : Byte) (i : Nat) :
    (byteBits b hi lo).getLsbD i = (decide (i < hi + 1 - lo) && b.getLsbD (lo + i)) := by
  simp only [byteBits, BitVec.getLsbD_ofNat, Nat.testBit_mod_two_pow, Nat.testBit_div_two_pow, BitVec.testBit_toNat]
  by_cases hin : i < hi + 1 - lo
  · simp [hin, show i < 8 by omega, Nat.add_comm]
  · simp [hin]

/-- A bit of a packed byte is a constant bit of the register or a bit of a field's value. -/
theorem pack_getLsbD (p : ChipProfile) (r : Byte) (vals : List (Byte × Byte)) (j : Nat) :
    (pack p r vals).getLsbD j = ((reservedOf p r).getLsbD j ||
      (fieldsOf p r).any fun g => ((bankGet vals g.id).getD 0 <<< g.lo).getLsbD j) := by
  unfold pack
  generalize fieldsOf p r = fs
  generalize reservedOf p r = init
  induction fs generalizing init with
  | nil => simp
  | cons g rest ih => rw [List.foldl_cons, ih, List.any_cons, BitVec.getLsbD_or, Bool.or_assoc]

/-- A value narrower than its field has no bit above its width. -/
theorem narrow_getLsbD {v : Byte} {hi lo i : Nat} (hv : v.toNat < 2 ^ (hi + 1 - lo)) (h : hi + 1 - lo ≤ i) :
    v.getLsbD i = false := by
  rw [← BitVec.testBit_toNat]
  exact Nat.testBit_lt_two_pow (hv.trans_le (Nat.pow_le_pow_right (by decide) h))

/-- Shifted into its field, it has no bit outside the field's range. -/
theorem shifted_getLsbD_outside {v : Byte} {hi lo j : Nat} (hv : v.toNat < 2 ^ (hi + 1 - lo)) (hle : lo ≤ hi)
    (hj : j < lo ∨ hi < j) : (v <<< lo).getLsbD j = false := by
  rw [BitVec.getLsbD_shiftLeft]
  rcases hj with hj | hj
  · simp [hj]
  · rw [narrow_getLsbD hv (by omega), Bool.and_false]

/-- No other field of a register has bits in a field's range. -/
theorem fields_apart {p : ChipProfile} (hp : fieldsOk p = true) {f g : FieldSpec} (hf : f ∈ p.fields)
    (hg : g ∈ p.fields) (hne : f ≠ g) (hreg : f.reg = g.reg) : f.hi < g.lo ∨ g.hi < f.lo := by
  obtain ⟨_, _, hpair⟩ := fieldsOk_parts hp
  have hsymm : Std.Symm fun f g : FieldSpec => apart f g = true := by
    refine ⟨fun a b h => ?_⟩
    simp only [apart, Bool.or_eq_true, bne_iff_ne, decide_eq_true_eq] at h ⊢
    rcases h with (h | h) | h
    exacts [.inl (.inl h.symm), .inr h, .inl (.inr h)]
  have happart := hpair.forall hf hg hne
  simpa [apart, hreg] using happart

/-- A field of a register: it is one of the profile's, inside the byte, and no constant bit is in its range. -/
theorem fieldsOf_parts {p : ChipProfile} {r : Byte} (hp : fieldsOk p = true) {f : FieldSpec} (hf : f ∈ fieldsOf p r) :
    f ∈ p.fields ∧ f.reg = r ∧ f.lo ≤ f.hi ∧ f.hi ≤ 7 ∧ byteBits (reservedOf p r) f.hi f.lo = 0 := by
  obtain ⟨hmem, hreg⟩ : f ∈ p.fields ∧ f.reg = r := by simpa [fieldsOf] using hf
  obtain ⟨_, hfields, _⟩ := fieldsOk_parts hp
  obtain ⟨hle, hhi, _, _, _, _, hreserved⟩ := fieldOk_parts (hfields f hmem)
  exact ⟨hmem, hreg, hle, hhi, hreg ▸ hreserved⟩

section
variable {p : ChipProfile} {r : Byte} {vals : List (Byte × Byte)} (hp : fieldsOk p = true)
  (hvals : ∀ f ∈ fieldsOf p r, ∃ v, bankGet vals f.id = some v ∧ v.toNat < 2 ^ (f.hi + 1 - f.lo))
  {f : FieldSpec} (hf : f ∈ fieldsOf p r)
include hvals hf

/-- The value a field is packed with fits it. -/
theorem packed_fits : ((bankGet vals f.id).getD 0).toNat < 2 ^ (f.hi + 1 - f.lo) := by
  obtain ⟨v, hv, hlt⟩ := hvals f hf
  rwa [hv]

include hp

/-- In a field's range a packed byte has the bits of that field's value: the constant bits and the other fields' values
are outside. -/
theorem pack_getLsbD_field {i : Nat} (hi : i < f.hi + 1 - f.lo) :
    (pack p r vals).getLsbD (f.lo + i) = ((bankGet vals f.id).getD 0).getLsbD i := by
  obtain ⟨hfm, hfr, _, hhi, hreserved⟩ := fieldsOf_parts hp hf
  have hconstant : (reservedOf p r).getLsbD (f.lo + i) = false := by
    have h := congrArg (·.getLsbD i) hreserved
    simpa [byteBits_getLsbD hhi, hi] using h
  have hown : (fieldsOf p r).any (fun g => ((bankGet vals g.id).getD 0 <<< g.lo).getLsbD (f.lo + i)) =
      ((bankGet vals f.id).getD 0 <<< f.lo).getLsbD (f.lo + i) := by
    rw [Bool.eq_iff_iff, List.any_eq_true]
    refine ⟨fun ⟨g, hg, hbit⟩ => ?_, fun hbit => ⟨f, hf, hbit⟩⟩
    by_cases hne : f = g
    · rwa [← hne] at hbit
    · obtain ⟨hgm, hgr, hgle, _⟩ := fieldsOf_parts hp hg
      have hapart := fields_apart hp hfm hgm hne (hfr.trans hgr.symm)
      rw [shifted_getLsbD_outside (packed_fits hvals hg) hgle (by omega)] at hbit
      cases hbit
  rw [pack_getLsbD, hconstant, hown, BitVec.getLsbD_shiftLeft]
  simp [show f.lo + i < 8 by omega]

/-- The bits of one field of a packed register are its value. -/
theorem byteBits_pack : byteBits (pack p r vals) f.hi f.lo = (bankGet vals f.id).getD 0 := by
  obtain ⟨_, _, _, hhi, _⟩ := fieldsOf_parts hp hf
  apply BitVec.eq_of_getLsbD_eq
  intro i _
  rw [byteBits_getLsbD hhi]
  by_cases hi : i < f.hi + 1 - f.lo
  · rw [decide_eq_true hi, Bool.true_and, pack_getLsbD_field hp hvals hf hi]
  · rw [decide_eq_false hi, Bool.false_and, narrow_getLsbD (packed_fits hvals hf) (Nat.le_of_not_lt hi)]

end

/-- Settles O22: field by field. -/
theorem unpackOfPack : Obligations.UnpackOfPack := by
  intro p r vals hp hvals
  exact List.map_congr_left fun f hf => by rw [byteBits_pack hp hvals hf]

end Sys2Proof.Machine
end

section
/-! SET_CONFIG whose transfer fails at a register, and CFG_REASSERT (rules R177, R186 and R187). -/

namespace Sys2Proof.Machine
open Sys2Proof.Config

/-- The loop over a register list when the writes before `r` are answered and that of `r` fails. -/
theorem writeRegisters_answered_failed {c : Chip} {write : Byte → RegWrite} {before after : List Byte} {r : Byte}
    {s : State} {rs : List Frame} (hb : Buildable s c ((before ++ r :: after).map write))
    (hr : TransportGives s (rs.map .answered ++ [.failed])) (hl : rs.length = before.length) :
    let frames := writeFrames s c ((before ++ [r]).map write)
    ∃ copies, copiesOf c frames copies ∧
      writeRegisters c ((before ++ r :: after).map write) s =
        .raised { fault := .transportFault, info := (write r).reg }
          (withStale (commitFields c (committed (before.map write)) (sent s c frames copies)) c true) := by
  have hwrites : (before ++ r :: after).map write = before.map write ++ write r :: after.map write := by simp
  rw [hwrites] at hb ⊢
  obtain ⟨cs, hcs, hfirst, hgives⟩ := writeRegisters_answered (us := write r :: after.map write)
    (fun x hx => hb x (List.mem_append_left _ hx)) hr (by simpa using hl)
  have hlast : Buildable (commitFields c (committed (before.map write))
      (sent s c (writeFrames s c (before.map write)) cs)) c [write r] := by
    intro x hx
    obtain rfl := List.mem_singleton.mp hx
    simpa using hb (write r) (by simp)
  obtain ⟨ds, hds, hfailed⟩ := writeRegisters_failed (us := after.map write) hlast (hgives 0 _ rfl)
  have hframes : writeFrames s c ((before ++ [r]).map write) =
      writeFrames s c (before.map write) ++ writeFrames s c [write r] := by
    simp [writeFrames]
  rw [writeFrames_later] at hds hfailed
  refine ⟨cs ++ ds, hframes ▸ copiesOf_append hcs hds, ?_⟩
  rw [hfirst, hfailed, hframes, ← commitFields_sent, sent_sent]

/-! ### SET_CONFIG -/

/-- A chip in configuration whose `Stale` is set, written once. -/
theorem staleConfigured_eq {s t : State} {c : Chip} {done : List Pair} (hn : (done.map (·.field)).Nodup)
    (ht : cfgOf t c = cfgOf s c) :
    withStale (commitFields c (valuesOf done) (enterConfiguring c t)) c true =
      enterConfiguring c (withCfg t c
        { mirror := overlay (cfgOf s c).mirror done
          setMask := marked (cfgOf s c).setMask done
          stale := true }) := by
  rw [commitFields, bankSetAll_valuesOf hn, valuesOf_keys, markSet_fields]
  simp only [withStale, enterConfiguring_cfgOf, ht, cfgOf_withCfg_same, withCfg_withCfg, enterConfiguring_withCfg]

/-- The frames of some registers of a configuration, in the statements' words. -/
theorem writeFrames_oneWrite {s : State} {c : Chip} {req : List Pair} (hi : s.inv = true)
    (h : RequestOk (profOf s c) req) (regs : List Byte) :
    writeFrames (enterConfiguring c s) c (regs.map (oneWrite s c req)) =
      regs.map fun r => oneRegister (profOf s c) c r (pack (profOf s c) r (overlay (cfgOf s c).mirror req)) := by
  simp [writeFrames, oneWrite, overlay_changed (mirror_nodup hi c) h]

/-- Settles O25: the loop stops at the failed register, with the changed pairs of the registers before it committed. -/
theorem setConfigTransferFails : Obligations.SetConfigTransferFails := by
  intro c req s before r after rs hi h hc hk hregs hg hl
  have hg' : TransportGives (enterConfiguring c s) (rs.map .answered ++ [.failed]) := by
    simpa [TransportGives] using hg
  have hb := setConfig_buildable (c := c) (req := req) (inv_profile hi)
  rw [hregs] at hb
  have hnodup : before.Nodup := (hregs ▸ changedRegs_nodup s c req).of_append_left
  obtain ⟨copies, hcopies, hrun⟩ := writeRegisters_answered_failed hb hg' hl
  rw [writeFrames_oneWrite hi h] at hcopies hrun
  rw [commit_some h hnodup, enterConfiguring_sent,
    staleConfigured_eq (s := s) (h.changed.1.sublist (List.filter_sublist.map _)) (by simp)] at hrun
  refine ⟨copies, hcopies, ?_⟩
  rw [exec, execSetConfig, setConfig_eq h hc hk, hregs, hrun, andThen_raised, outcome_raised]
  rfl

/-! ### CFG_REASSERT -/

/-- The write of one register with what the mirror holds. -/
def assertWrite (s : State) (c : Chip) (r : Byte) : RegWrite :=
  { reg := r, byte := pack (profOf s c) r (cfgOf s c).mirror, commit := [] }

theorem writeFrames_assertWrite (s : State) (c : Chip) (regs : List Byte) :
    writeFrames s c (regs.map (assertWrite s c)) = assertFrames s c regs := by
  simp [writeFrames, assertWrite, assertFrames]

theorem committed_assertWrite (s : State) (c : Chip) (regs : List Byte) :
    committed (regs.map (assertWrite s c)) = [] := committed_allWrites ..

theorem assertWrite_buildable {s : State} {c : Chip} (hp : profilesOk s.profile = true) :
    Buildable s c ((fieldRegs (profOf s c)).map (assertWrite s c)) := by
  refine buildable hp fun w hw => ?_
  obtain ⟨r, hr, rfl⟩ := List.mem_map.mp hw
  exact fieldRegs_field hr

/-- A CFG_REASSERT that is not refused: every register that holds a field is written, then `Stale` cleared. -/
theorem cfgReassert_eq {s : State} {c : Chip} (hk : isConverting s c = false) :
    cfgReassert c s = andThen (writeRegisters c ((fieldRegs (profOf s c)).map (assertWrite s c)) s)
      fun _ t => .done () (withStale t c false) := by
  simp only [cfgReassert, hk, Bool.false_eq_true, if_false]
  rfl

theorem cfgReassert_answered {s : State} {c : Chip} {rs : List Frame} (hp : profilesOk s.profile = true)
    (hk : isConverting s c = false) (hg : TransportGives s (rs.map .answered))
    (hl : rs.length = (fieldRegs (profOf s c)).length) :
    ∃ copies, copiesOf c (assertFrames s c (fieldRegs (profOf s c))) copies ∧
      cfgReassert c s =
        .done () (withStale (sent s c (assertFrames s c (fieldRegs (profOf s c))) copies) c false) := by
  obtain ⟨copies, hcopies, hrun, _⟩ := writeRegisters_answered (us := []) (more := [])
    (assertWrite_buildable (c := c) hp) (by simpa using hg) (by simpa using hl)
  rw [List.append_nil, writeFrames_assertWrite, committed_assertWrite, commitFields_nil, writeRegisters] at hrun
  exact ⟨copies, writeFrames_assertWrite s c _ ▸ hcopies, by rw [cfgReassert_eq hk, hrun, andThen_done]⟩

theorem cfgReassert_failed {s : State} {c : Chip} {before after : List Byte} {r : Byte} {rs : List Frame}
    (hp : profilesOk s.profile = true) (hk : isConverting s c = false)
    (hregs : fieldRegs (profOf s c) = before ++ r :: after)
    (hg : TransportGives s (rs.map .answered ++ [.failed])) (hl : rs.length = before.length) :
    ∃ copies, copiesOf c (assertFrames s c (before ++ [r])) copies ∧
      cfgReassert c s = .raised { fault := .transportFault, info := r }
        (withStale (sent s c (assertFrames s c (before ++ [r])) copies) c true) := by
  have hb := assertWrite_buildable (c := c) hp
  rw [hregs] at hb
  obtain ⟨copies, hcopies, hrun⟩ := writeRegisters_answered_failed hb hg hl
  rw [writeFrames_assertWrite] at hcopies hrun
  rw [committed_assertWrite, commitFields_nil] at hrun
  refine ⟨copies, hcopies, ?_⟩
  rw [cfgReassert_eq hk, hregs, hrun, andThen_raised]
  rfl

/-- Settles O26: the mode, then the register-write loop over the registers that hold a field. -/
theorem cfgReassertResult : Obligations.CfgReassertResult := by
  refine fun c s hp => ⟨presentedAs (op := 0x17) (n := 0) (a := 0) (aux := 0) fun _ => rfl, fun hk => ?_,
    fun rs hk hg hl => ?_, fun before r after rs hk hregs hg hl => ?_⟩
  · rw [exec, execCfgReassert, cfgReassert, if_pos hk]
    rfl
  · obtain ⟨copies, hcopies, hx⟩ := cfgReassert_answered hp hk hg hl
    exact ⟨copies, hcopies, by rw [exec, execCfgReassert, hx]; rfl⟩
  · obtain ⟨copies, hcopies, hx⟩ := cfgReassert_failed hp hk hregs hg hl
    exact ⟨copies, hcopies, by rw [exec, execCfgReassert, hx]; rfl⟩

end Sys2Proof.Machine
end

section
/-! CFG_LOAD and MIRROR_RESET: the whole mirror from a register list, or from the profile's defaults (rules R184 and
R185). -/

namespace Sys2Proof.Machine
open Sys2Proof.Config

/-! ### What a register list stands for -/

/-- The register list is exactly the registers that hold a field, once each. -/
def Covers (p : ChipProfile) (regs : List RegByte) : Prop :=
  (regs.map (·.reg)).Nodup ∧ ∀ r, r ∈ regs.map (·.reg) ↔ r ∈ p.fields.map (·.reg)

/-- The value a register list gives a field: its bits of its register's byte. -/
def loadedValue (regs : List RegByte) (f : FieldSpec) : Option Byte :=
  (regs.find? fun x => x.reg == f.reg).map fun x => byteBits x.byte f.hi f.lo

/-- A register byte gives each of its register's fields a legal value. -/
def LegalByte (p : ChipProfile) (x : RegByte) : Prop :=
  ∀ f ∈ p.fields, f.reg = x.reg → byteBits x.byte f.hi f.lo ∈ f.legal

theorem mem_unpack {p : ChipProfile} {r b : Byte} {e : Byte × Byte} :
    e ∈ unpack p r b ↔ ∃ f ∈ p.fields, f.reg = r ∧ (f.id, byteBits b f.hi f.lo) = e := by
  simp [unpack, fieldsOf, and_assoc]

theorem mem_unpackAll {p : ChipProfile} {regs : List RegByte} {e : Byte × Byte} :
    e ∈ unpackAll p regs ↔ ∃ x ∈ regs, ∃ f ∈ p.fields, f.reg = x.reg ∧ (f.id, byteBits x.byte f.hi f.lo) = e := by
  simp only [unpackAll, List.mem_flatMap, mem_unpack]

/-- With distinct registers, the register found is the one that is there. -/
theorem find_reg {regs : List RegByte} (hn : (regs.map (·.reg)).Nodup) {x : RegByte} (hx : x ∈ regs) :
    regs.find? (fun y => y.reg == x.reg) = some x := by
  induction regs with
  | nil => cases hx
  | cons y rest ih =>
    simp only [List.map_cons, List.nodup_cons] at hn
    rcases List.mem_cons.mp hx with rfl | hr
    · simp
    · have hne : (y.reg == x.reg) = false := by
        simpa using fun e : y.reg = x.reg => hn.1 (List.mem_map.mpr ⟨x, hr, e.symm⟩)
      rw [List.find?_cons, hne]
      exact ih hn.2 hr

theorem loadedValue_of_mem {regs : List RegByte} (hn : (regs.map (·.reg)).Nodup) {x : RegByte} (hx : x ∈ regs)
    {f : FieldSpec} (hreg : f.reg = x.reg) : loadedValue regs f = some (byteBits x.byte f.hi f.lo) := by
  rw [loadedValue, hreg, find_reg hn hx, Option.map_some]

section
variable {p : ChipProfile} (hp : fieldsOk p = true)
include hp

theorem isLegal_field {f : FieldSpec} (hf : f ∈ p.fields) (b : Byte) : isLegal p (f.id, b) = true ↔ b ∈ f.legal := by
  rw [isLegal_iff, fieldSpec_mem (fieldsOk_parts hp).1 hf]
  simp

/-- No illegal value comes out of legal register bytes. -/
theorem find_illegal_none {regs : List RegByte} (h : ∀ x ∈ regs, LegalByte p x) :
    (unpackAll p regs).find? (fun e => !isLegal p e) = none := by
  rw [List.find?_eq_none]
  intro e he
  obtain ⟨x, hx, f, hf, hreg, rfl⟩ := mem_unpackAll.mp he
  simp [(isLegal_field hp hf _).mpr (h x hx f hf hreg)]

/-- The first illegal value of a register list is one of the first register with an illegal value. -/
theorem find_illegal_first {good more : List RegByte} {x : RegByte} (hgood : ∀ y ∈ good, LegalByte p y)
    (hbad : ∃ f ∈ p.fields, f.reg = x.reg ∧ byteBits x.byte f.hi f.lo ∉ f.legal) :
    ∃ f ∈ p.fields, f.reg = x.reg ∧ byteBits x.byte f.hi f.lo ∉ f.legal ∧
      (unpackAll p (good ++ x :: more)).find? (fun e => !isLegal p e) = some (f.id, byteBits x.byte f.hi f.lo) := by
  obtain ⟨g, hg, hgreg, hgbad⟩ := hbad
  have hsome : ((unpack p x.reg x.byte).find? fun e => !isLegal p e).isSome = true := by
    rw [List.find?_isSome]
    refine ⟨_, mem_unpack.mpr ⟨g, hg, hgreg, rfl⟩, ?_⟩
    rw [Bool.not_eq_true', ← Bool.not_eq_true, isLegal_field hp hg]
    exact hgbad
  obtain ⟨e, he⟩ := Option.isSome_iff_exists.mp hsome
  obtain ⟨f, hf, hreg, rfl⟩ := mem_unpack.mp (List.mem_of_find?_eq_some he)
  refine ⟨f, hf, hreg, fun hl => ?_, ?_⟩
  · have hillegal := List.find?_some he
    simp [(isLegal_field hp hf _).mpr hl] at hillegal
  · have hsplit : unpackAll p (good ++ x :: more) =
        unpackAll p good ++ (unpack p x.reg x.byte ++ unpackAll p more) := by
      simp [unpackAll]
    rw [hsplit, List.find?_append, find_illegal_none hp hgood, List.find?_append, he]
    rfl

/-- A list of distinct registers gives each field at most one value. -/
theorem unpackAll_nodup {regs : List RegByte} (hn : (regs.map (·.reg)).Nodup) :
    ((unpackAll p regs).map (·.1)).Nodup := by
  obtain ⟨hid, _⟩ := fieldsOk_parts hp
  rw [unpackAll, List.map_flatMap, List.nodup_flatMap]
  refine ⟨fun x _ => ?_, ?_⟩
  · rw [unpack, List.map_map]
    exact hid.sublist (List.filter_sublist.map _)
  · rw [List.nodup_iff_pairwise_ne, List.pairwise_map] at hn
    refine hn.imp fun {x y} hne k hx hy => ?_
    obtain ⟨e, he, rfl⟩ := List.mem_map.mp hx
    obtain ⟨e', he', hk⟩ := List.mem_map.mp hy
    obtain ⟨f, hf, hfx, rfl⟩ := mem_unpack.mp he
    obtain ⟨g, hg, hgy, rfl⟩ := mem_unpack.mp he'
    have hsame : f = g := List.inj_on_of_nodup_map hid hf hg hk.symm
    exact hne (by rw [← hfx, ← hgy, hsame])

/-- A list that covers the registers gives every field its value. -/
theorem lookup_unpackAll {regs : List RegByte} (hc : Covers p regs) {f : FieldSpec} (hf : f ∈ p.fields) :
    ∃ v, loadedValue regs f = some v ∧ (unpackAll p regs).lookup f.id = some v := by
  obtain ⟨x, hx, hreg⟩ := List.mem_map.mp ((hc.2 f.reg).mpr (List.mem_map.mpr ⟨f, hf, rfl⟩))
  refine ⟨byteBits x.byte f.hi f.lo, loadedValue_of_mem hc.1 hx hreg.symm, ?_⟩
  rw [lookup_eq_some_iff (unpackAll_nodup hp hc.1)]
  exact mem_unpackAll.mpr ⟨x, hx, f, hf, hreg.symm, rfl⟩

/-- Loading a covering list replaces the whole mirror. -/
theorem bankSetAll_unpackAll {regs : List RegByte} (hc : Covers p regs) {mirror : List (Byte × Byte)}
    (hm : mirror.map (·.1) = p.fields.map (·.id)) :
    bankSetAll mirror (unpackAll p regs) = p.fields.map fun f => (f.id, (loadedValue regs f).getD 0) := by
  have hkeys : ∀ e ∈ mirror, ((unpackAll p regs).lookup e.1).getD e.2 = ((unpackAll p regs).lookup e.1).getD 0 := by
    intro e he
    obtain ⟨f, hf, hid⟩ := List.mem_map.mp (hm ▸ List.mem_map.mpr ⟨e, he, rfl⟩ : e.1 ∈ p.fields.map (·.id))
    obtain ⟨v, _, hv⟩ := lookup_unpackAll hp hc hf
    rw [← hid, hv]
    rfl
  calc bankSetAll mirror (unpackAll p regs)
      = mirror.map fun e => (e.1, ((unpackAll p regs).lookup e.1).getD e.2) :=
        bankSetAll_eq _ (unpackAll_nodup hp hc.1) mirror
    _ = mirror.map fun e => (e.1, ((unpackAll p regs).lookup e.1).getD 0) :=
        List.map_congr_left fun e he => by rw [hkeys e he]
    _ = (mirror.map (·.1)).map fun k => (k, ((unpackAll p regs).lookup k).getD 0) := by rw [List.map_map]; rfl
    _ = p.fields.map fun f => (f.id, ((unpackAll p regs).lookup f.id).getD 0) := by rw [hm, List.map_map]; rfl
    _ = p.fields.map fun f => (f.id, (loadedValue regs f).getD 0) := by
        refine List.map_congr_left fun f hf => ?_
        obtain ⟨v, hv, hl⟩ := lookup_unpackAll hp hc hf
        rw [hv, hl]

end

/-! ### CFG_LOAD -/

/-- The check CFG_LOAD makes of its register list. -/
theorem covers_iff {p : ChipProfile} {regs : List RegByte} :
    Covers p regs ↔ ¬ (ascending (regs.map (·.reg)) ≠ fieldRegs p ∨ ¬ (regs.map (·.reg)).Nodup) := by
  rw [not_or, not_not, not_not, fieldRegs, ascending_eq_iff, Covers, and_comm]

theorem cfgLoad_notCovering {c : Chip} {regs : List RegByte} {s : State} (h : ¬ Covers (profOf s c) regs) :
    cfgLoad c regs s = .raised (raised .invalidConfigValue 0xFF) s := by
  rw [covers_iff, not_not] at h
  rw [cfgLoad, if_pos h]

theorem cfgLoad_illegal {c : Chip} {regs : List RegByte} {s : State} {f v : Byte} (h : Covers (profOf s c) regs)
    (hv : (unpackAll (profOf s c) regs).find? (fun e => !isLegal (profOf s c) e) = some (f, v)) :
    cfgLoad c regs s = .raised { fault := .invalidConfigValue, info := f } s := by
  rw [cfgLoad, if_neg (covers_iff.mp h), hv]
  simp [raised]

theorem cfgLoad_ok {c : Chip} {regs : List RegByte} {s : State} (hi : s.inv = true) (h : Covers (profOf s c) regs)
    (hl : ∀ x ∈ regs, LegalByte (profOf s c) x) :
    cfgLoad c regs s = .done () (withCfg s c
      { mirror := (profOf s c).fields.map fun f => (f.id, (loadedValue regs f).getD 0)
        setMask := (cfgOf s c).setMask
        stale := false }) := by
  have hp : fieldsOk (profOf s c) = true := profilesOk_fields (inv_profile hi) c
  rw [cfgLoad, if_neg (covers_iff.mp h), find_illegal_none hp hl,
    ← bankSetAll_unpackAll hp h (cfgWf_iff.mp (inv_cfg hi c)).1]

/-- Settles O28: the registers, then the first illegal value, then the load. -/
theorem cfgLoadResult : Obligations.CfgLoadResult := by
  intro c regs s hi
  have hp : fieldsOk (profOf s c) = true := profilesOk_fields (inv_profile hi) c
  refine ⟨fun hlen => presentedAs_counted (op := 0x16) hlen fun _ => rfl, fun h => ?_,
    fun good x more hc hregs hgood hbad => ?_, fun hc hlegal => ?_⟩
  · rw [exec, execCfgLoad, cfgLoad_notCovering h]
    rfl
  · obtain ⟨f, hf, hreg, hillegal, hfind⟩ := find_illegal_first (more := more) hp hgood hbad
    refine ⟨f, hf, hreg, hillegal, ?_⟩
    rw [exec, execCfgLoad, cfgLoad_illegal hc (hregs ▸ hfind), outcome_raised]
  · have hl : ∀ x ∈ regs, LegalByte (profOf s c) x := fun x hx f hf hreg =>
      hlegal f hf _ (loadedValue_of_mem hc.1 hx hreg)
    rw [exec, execCfgLoad, cfgLoad_ok hi hc hl, outcome_done]
    rfl

/-! ### MIRROR_RESET -/

theorem mirrorReset_cfgOf (c d : Chip) (s : State) :
    cfgOf (mirrorReset c s) d = if d = c then resetCfg (profOf s c) else cfgOf s d := by
  cases c <;> cases d <;> rfl

/-- What is neither configuration nor conversion state stays. -/
theorem mirrorReset_frame (c : Chip) (s : State) :
    let t := mirrorReset c s
    t.cal = s.cal ∧ t.profile = s.profile ∧ samePorts s t ∧ (∀ d, ioOf t d = ioOf s d) ∧ t.turn = s.turn ∧
      t.calRace = s.calRace ∧ t.races = s.races := by
  cases c <;> exact ⟨rfl, rfl, ⟨rfl, rfl, rfl, rfl, rfl⟩, fun d => by cases d <;> rfl, rfl, rfl, rfl⟩

/-- Settles O27: the chip's reset values, and the frame. -/
theorem mirrorResetResult : Obligations.MirrorResetResult := by
  refine fun c s => ⟨presentedAs (op := 0x15) (n := 0) (a := 0) (aux := 0) fun _ => rfl, mirrorReset c s, rfl, ?_,
    fun k hk => ?_, fun d hd => ?_, fun k hk => ?_, mirrorReset_frame c s⟩
  · rw [mirrorReset_cfgOf, if_pos rfl, resetCfg]
  · rw [mirrorReset_convOf, if_pos hk, resetConv]
  · rw [mirrorReset_cfgOf, if_neg hd]
  · rw [mirrorReset_convOf, if_neg hk]

end Sys2Proof.Machine
end

section
/-! The conversion operations: the frame of a unit, its transfer, and what each operation makes of it (rules R178 to
R183). -/

namespace Sys2Proof.Machine
open Sys2Proof.Config

/-! ### The frame of a unit -/

/-- The state machine's frame of a unit: the ADC's command with its dummy bytes, the TC's template over the mirror. -/
def stateFrame (p : ChipProfile) (m : List (Byte × Byte)) (c : ConvChip) (commands : List Byte) (dummies : Nat)
    (templates : List (List FrameByte)) (u : Nat) : Except Raised Frame :=
  match c with
  | .adc => unitFrame p commands u dummies
  | .tc => templateFrame p m templates u

section
variable {p : ChipProfile} {m : List (Byte × Byte)}

theorem startFrame_eq (c : ConvChip) (u : Nat) :
    startFrame p m c u = stateFrame p m c p.opStart 0 p.startFrame u := by cases c <;> rfl

theorem stopFrame_eq (c : ConvChip) (u : Nat) :
    stopFrame p m c u = stateFrame p m c p.opStop 0 p.stopFrame u := by cases c <;> rfl

theorem readDataFrame_eq (c : ConvChip) (u : Nat) :
    readDataFrame p m c u = stateFrame p m c p.opRdata 3 p.readFrame u := by cases c <;> rfl

variable {c : ConvChip} {commands : List Byte} {dummies u : Nat} {templates : List (List FrameByte)}

theorem stateFrame_ok {f : Frame} (h : UnitFrame p m c commands dummies templates u f) :
    stateFrame p m c commands dummies templates u = .ok f := by
  obtain ⟨h1, h2, h⟩ := h
  cases c with
  | adc =>
    obtain ⟨b, hb, rfl⟩ := h
    rw [stateFrame, unitFrame, unitEntry_eq h1 h2, hb]
    rfl
  | tc =>
    obtain ⟨t, ht, rfl⟩ := h
    rw [stateFrame, templateFrame, unitEntry_eq h1 h2, ht]

theorem stateFrame_noUnit (h : NoUnit p c commands templates u) :
    stateFrame p m c commands dummies templates u = .error (raised .invalidUnit u) := by
  have hnone : ∀ {α : Type} (table : List α), u < 1 ∨ p.nunits < u ∨ table[u - 1]? = none →
      unitEntry p.nunits table u = none := fun _ h => unitEntry_none (h.imp_left Nat.lt_one_iff.mp)
  cases c with
  | adc => rw [stateFrame, unitFrame, hnone _ h]
  | tc => rw [stateFrame, templateFrame, hnone _ h]

/-- The ADC's frame of a unit is the one the unit's builder answers. -/
theorem unitBuilder_answers {op : Nat} {make : ConvChip → BitVec 9 → Instr} {table : ChipProfile → List Byte}
    {dummies : ConvChip → Nat} (hb : UnitBuilder op make table dummies) {u : BitVec 9} {s : State} {f : Frame}
    {m : List (Byte × Byte)} {templates : List (List FrameByte)}
    (h : UnitFrame (profOf s .adc) m .adc (table (profOf s .adc)) (dummies .adc) templates u.toNat f) :
    exec (make .adc u) s = .next (answer s (byteListWords f)) := by
  obtain ⟨h1, h2, b, hget, rfl⟩ := h
  obtain ⟨_, hok, _⟩ := hb .adc u s
  exact hok b h1 h2 hget

end

/-- An operation with a unit id is presented with it (rules R102 and R105). -/
theorem presentedAs_unit {i : Instr} {op : BitVec 5} {c : ConvChip} {u : BitVec 9}
    (h : ∀ p, encode p i = encodeCommand op c.toChip u 0 0 []) : PresentedAs i op.toNat c.toChip u.toNat 0 0 [] :=
  presentedAs (a := 0) (aux := 0) h

/-! ### A frame's transfer and what follows it -/

/-- Builds a frame, transfers it, and goes on with the response. -/
def sendThen {α : Type} (c : Chip) (frame : Except Raised Frame) (g : Frame → State → OpEnd α) (s : State) : OpEnd α :=
  andThen (lift frame s) fun f t => andThen (transfer c f 0 t) g

section
variable {α : Type} {c : Chip} {frame : Except Raised Frame} {g : Frame → State → OpEnd α} {s : State} {f : Frame}

theorem sendThen_noFrame {e : Raised} (h : frame = .error e) : sendThen c frame g s = .raised e s := by
  rw [sendThen, h, lift_error, andThen_raised]

theorem sendThen_failed (h : frame = .ok f) (hr : replyAt s 0 = .failed) : ∃ copies, copiesOf c [f] copies ∧
    sendThen c frame g s = .raised { fault := .transportFault, info := 0 } (sent s c [f] copies) := by
  obtain ⟨copies, hc, ht⟩ := transfer_failed hr c f 0
  exact ⟨copies, hc, by rw [sendThen, h, lift_ok, andThen_done, ht, andThen_raised]; rfl⟩

theorem sendThen_answered {r : Frame} (h : frame = .ok f) (hr : replyAt s 0 = .answered r) :
    ∃ copies, copiesOf c [f] copies ∧ sendThen c frame g s = g r (sent s c [f] copies) := by
  obtain ⟨copies, hc, ht⟩ := transfer_answered hr c f 0
  exact ⟨copies, hc, by rw [sendThen, h, lift_ok, andThen_done, ht, andThen_done]⟩

end

/-- How an instruction ends that sends the frame of its unit: without such a frame, with a failed transfer, or as what
follows the response does. -/
structure EndsByFrame {α : Type} (i : Instr) (s : State) (c : ConvChip) (commands : List Byte)
    (templates : List (List FrameByte)) (u : BitVec 9) (frame : Frame → Prop) (fmt : α → List Word)
    (g : Frame → State → OpEnd α) : Prop where
  noUnit : NoUnit (profOf s c.toChip) c commands templates u.toNat →
    exec i s = .next (deliver { fault := .invalidUnit, info := u.setWidth 8 } s)
  failed : ∀ f, frame f → replyAt s 0 = .failed → ∃ copies, copiesOf c.toChip [f] copies ∧
    exec i s = .next (deliver { fault := .transportFault, info := 0 } (sent s c.toChip [f] copies))
  answered : ∀ f r, frame f → replyAt s 0 = .answered r → ∃ copies, copiesOf c.toChip [f] copies ∧
    exec i s = outcome fmt (g r (sent s c.toChip [f] copies))

theorem endsByFrame {α : Type} {i : Instr} {s : State} {c : ConvChip} {m : List (Byte × Byte)}
    {commands : List Byte} {dummies : Nat} {templates : List (List FrameByte)} {u : BitVec 9} {fmt : α → List Word}
    {g : Frame → State → OpEnd α}
    (h : exec i s = outcome fmt
      (sendThen c.toChip (stateFrame (profOf s c.toChip) m c commands dummies templates u.toNat) g s)) :
    EndsByFrame i s c commands templates u
      (UnitFrame (profOf s c.toChip) m c commands dummies templates u.toNat) fmt g where
  noUnit hn := by
    rw [h, sendThen_noFrame (stateFrame_noUnit hn), outcome_raised, raised, BitVec.ofNat_toNat]
  failed f hf hr := by
    obtain ⟨copies, hc, hs⟩ := sendThen_failed (g := g) (stateFrame_ok hf) hr
    exact ⟨copies, hc, by rw [h, hs, outcome_raised]⟩
  answered f r hf hr := by
    obtain ⟨copies, hc, hs⟩ := sendThen_answered (g := g) (stateFrame_ok hf) hr
    exact ⟨copies, hc, by rw [h, hs]⟩

/-! ### START_CONV and STOP_CONV -/

section
variable {c : ConvChip} {u : BitVec 9} {s : State}

theorem startConv_unset {f : Byte} (h : firstUnset s c = some f) :
    startConv c u s = .raised { fault := .incompleteConfigError, info := f } s := by
  rw [startConv, h]
  simp [raised]

theorem startConv_illegal (h : firstUnset s c = none) (hm : (convOf s c).mode ≠ .configuring) :
    startConv c u s = .raised (illegalTransition (convOf s c).mode) s := by
  rw [startConv, h]
  exact if_pos hm

/-- With the required fields set, a START_CONV in Configuring sends its frame and converts. -/
theorem startConv_sends (h : firstUnset s c = none) (hm : (convOf s c).mode = .configuring) :
    startConv c u s = sendThen c.toChip
      (stateFrame (profOf s c.toChip) (cfgOf s c.toChip).mirror c (profOf s c.toChip).opStart 0
        (profOf s c.toChip).startFrame u.toNat)
      (fun _ t => .done () (withConv t c { mode := .converting, pulseDone := false })) s := by
  rw [startConv, h, ← startFrame_eq]
  refine (if_neg (not_not.mpr hm)).trans ?_
  cases startFrame (profOf s c.toChip) (cfgOf s c.toChip).mirror c u.toNat <;> rfl

theorem stopConv_illegal (hm : (convOf s c).mode ≠ .converting) :
    stopConv c u s = .raised (illegalTransition (convOf s c).mode) s := if_pos hm

/-- A STOP_CONV in Converting sends its frame and is idle. -/
theorem stopConv_sends (hm : (convOf s c).mode = .converting) :
    stopConv c u s = sendThen c.toChip
      (stateFrame (profOf s c.toChip) (cfgOf s c.toChip).mirror c (profOf s c.toChip).opStop 0
        (profOf s c.toChip).stopFrame u.toNat)
      (fun _ t => .done () (withConv t c { mode := .idle, pulseDone := false })) s := by
  rw [stopConv, ← stopFrame_eq]
  refine (if_neg (not_not.mpr hm)).trans ?_
  cases stopFrame (profOf s c.toChip) (cfgOf s c.toChip).mirror c u.toNat <;> rfl

end

/-- Settles O29: the fields, the mode, the unit, the transfer. -/
theorem startConvResult : Obligations.StartConvResult := by
  intro c u s
  obtain ⟨hbuild, _⟩ := commandBuilders
  refine ⟨presentedAs_unit (op := 0x10) fun _ => rfl, fun f hf hu hmin => ?_,
    fun hset => ⟨fun hm => ?_, fun hm => ?_, fun hm => ?_⟩, ?_⟩
  · rw [exec, execStartConv, startConv_unset (firstUnset_some hf hu hmin), outcome_raised]
  · rw [exec, execStartConv, startConv_illegal (firstUnset_none.mpr hset) (by simp [hm]), hm]
    rfl
  · rw [exec, execStartConv, startConv_illegal (firstUnset_none.mpr hset) (by simp [hm]), hm]
    rfl
  · have hends := endsByFrame (i := .startConv c u)
      (congrArg (outcome noWords) (startConv_sends (firstUnset_none.mpr hset) hm))
    exact ⟨hends.noUnit, hends.failed, hends.answered⟩
  · rintro f rfl hf
    exact unitBuilder_answers hbuild hf

/-- Settles O30: the mode, the unit, the transfer. -/
theorem stopConvResult : Obligations.StopConvResult := by
  intro c u s
  obtain ⟨_, hbuild, _⟩ := commandBuilders
  refine ⟨presentedAs_unit (op := 0x11) fun _ => rfl, fun hm => ?_, fun hm => ?_, fun hm => ?_, ?_⟩
  · rw [exec, execStopConv, stopConv_illegal (by simp [hm]), hm]
    rfl
  · rw [exec, execStopConv, stopConv_illegal (by simp [hm]), hm]
    rfl
  · have hends := endsByFrame (i := .stopConv c u) (congrArg (outcome noWords) (stopConv_sends hm))
    exact ⟨hends.noUnit, hends.failed, hends.answered⟩
  · rintro f rfl hf
    exact unitBuilder_answers hbuild hf

/-! ### CONV_DONE -/

/-- Settles O31: the one case in which CONV_DONE does anything. -/
theorem convDoneResult : Obligations.ConvDoneResult := by
  intro c s
  have hpulse : inPulse s c = true ↔ mirrorGet s c.toChip 0 = some (profOf s c.toChip).pulse := beq_iff_eq
  refine ⟨presentedAs (op := 0x12) (n := 0) (a := 0) (aux := 0) fun _ => rfl, fun hm hp => ?_, fun h => ?_⟩
  · rw [exec, execConvDone, convDone, if_pos ⟨hm, hpulse.mpr hp⟩]
  · rw [exec, execConvDone, convDone, if_neg]
    rintro ⟨hm, hp⟩
    exact h.elim (· hm) (· (hpulse.mp hp))

/-! ### READ_CONT and READ_PULSE -/

/-- The read frame's transfer, its code bytes, and what follows them. -/
theorem readCode_sends {α : Type} (c : ConvChip) (u : BitVec 9) (s : State) (k : Frame → State → OpEnd α) :
    andThen (readCode c u s) k = sendThen c.toChip
      (stateFrame (profOf s c.toChip) (cfgOf s c.toChip).mirror c (profOf s c.toChip).opRdata 3
        (profOf s c.toChip).readFrame u.toNat)
      (fun r t => andThen (lift (keepCode c r) t) k) s := by
  rw [readCode, ← readDataFrame_eq]
  cases readDataFrame (profOf s c.toChip) (cfgOf s c.toChip).mirror c u.toNat with
  | error e => rfl
  | ok f =>
    simp only [sendThen, lift_ok, andThen_done]
    cases transfer c.toChip f 0 s <;> rfl

/-- The code bytes stand after one lead byte, where the response is long enough. -/
theorem outcome_keepCode (c : ConvChip) (r : Frame) (t : State) (k : Frame → State → OpEnd Frame) :
    outcome byteListWords (andThen (lift (keepCode c r) t) k) =
      if r.length < 1 + readLen c then
        .next (deliver { fault := .shortReadError, info := BitVec.ofNat 8 r.length } t)
      else outcome byteListWords (k ((r.drop 1).take (readLen c)) t) := by
  have hlead : readLead c = 1 := by cases c <;> rfl
  rw [keepCode, hlead]
  split <;> rfl

section
variable {c : ConvChip} {u : BitVec 9} {s : State}

/-- The mirror's continuous mode while converting: what READ_CONT needs (rule R182). -/
def Running (s : State) (c : ConvChip) : Prop :=
  (convOf s c).mode = .converting ∧ mirrorGet s c.toChip 0 = some (profOf s c.toChip).continuous

theorem running_iff : Running s c ↔ (convOf s c).mode = .converting ∧ inContinuous s c = true :=
  and_congr_right fun _ => beq_iff_eq.symm

theorem readCont_refused (h : ¬ Running s c) : readCont c u s = .raised (raised .continuousModeError 0) s :=
  if_neg (running_iff.not.mp h)

theorem readCont_running (h : Running s c) : readCont c u s = andThen (readCode c u s) .done := by
  rw [readCont, if_pos (running_iff.mp h)]
  cases readCode c u s <;> rfl

end

/-- Settles O32: the mode, the unit, the transfer, the length. -/
theorem readContResult : Obligations.ReadContResult := by
  intro c u s
  obtain ⟨_, _, _, _, _, hbuild⟩ := commandBuilders
  have hends (h : Running s c) := endsByFrame (i := .readCont c u)
    (congrArg (outcome byteListWords) ((readCont_running h).trans (readCode_sends c u s .done)))
  refine ⟨presentedAs_unit (op := 0x13) fun _ => rfl, fun h => ?_, fun h => (hends h).noUnit,
    fun f h => (hends h).failed f, fun f r h hf hr => ?_, ?_⟩
  · rw [exec, execReadCont, readCont_refused h]
    rfl
  · obtain ⟨copies, hc, hx⟩ := (hends h).answered f r hf hr
    refine ⟨copies, hc, ?_⟩
    rw [hx, outcome_keepCode]
    rfl
  · rintro f rfl hf
    exact unitBuilder_answers hbuild hf

/-- Settles O33: the mode and PulseDone, the unit, the transfer, the length. -/
theorem readPulseResult : Obligations.ReadPulseResult := by
  intro c u s p x frame keep ready
  have hends (h : ready) := endsByFrame (i := .readPulse c u) (congrArg (outcome byteListWords)
    ((if_pos h : readPulse c u s = _).trans (readCode_sends c u s _)))
  refine ⟨presentedAs_unit (op := 0x14) fun _ => rfl, fun h => ?_, fun h => (hends h).noUnit,
    fun f h => (hends h).failed f, fun f r h hf hr => ?_⟩
  · rw [exec, execReadPulse, readPulse, if_neg h]
    rfl
  · obtain ⟨copies, hc, hx⟩ := (hends h).answered f r hf hr
    refine ⟨copies, hc, ?_⟩
    have hm : (convOf (sent s c.toChip [f] copies) c).mode = .idle := by rw [convOf_sent, h.1]
    rw [hx, outcome_keepCode]
    simp only [hm]
    rfl

/-! ### The transition table (rule R178) -/

/-- What CONV_DONE may do to a mode. -/
theorem convDone_mode {c : ConvChip} {s : State} (h : (convOf s c).mode ≠ (convOf (convDone c s) c).mode) :
    (convOf s c).mode = .converting ∧ (convOf (convDone c s) c).mode = .idle ∧
      mirrorGet s c.toChip 0 = some (profOf s c.toChip).pulse := by
  unfold convDone at h ⊢
  split at h
  · rename_i hd
    rw [if_pos hd, convOf_withConv_same]
    exact ⟨hd.1, rfl, beq_iff_eq.mp hd.2⟩
  · exact absurd rfl h

theorem startConv_mode {c : ConvChip} {u : BitVec 9} {s : State}
    (h : (convOf s c).mode ≠ (convOf (endState (startConv c u s)) c).mode) :
    (convOf s c).mode = .configuring ∧ (convOf (endState (startConv c u s)) c).mode = .converting := by
  rcases startConv_cases c u s with ⟨e, hx, _⟩ |
    ⟨_, hm, f, _, ⟨copies, _, hx⟩ | ⟨copies, _, hx⟩ | ⟨copies, _, _, hx⟩⟩ <;> rw [hx] at h ⊢
  · exact absurd rfl h
  · exact ⟨hm, by simp [endState]⟩
  · exact absurd (by simp [endState]) h
  · exact absurd (by simp [endState]) h

theorem stopConv_mode {c : ConvChip} {u : BitVec 9} {s : State}
    (h : (convOf s c).mode ≠ (convOf (endState (stopConv c u s)) c).mode) :
    (convOf s c).mode = .converting ∧ (convOf (endState (stopConv c u s)) c).mode = .idle := by
  rcases stopConv_cases c u s with ⟨e, hx, _⟩ |
    ⟨hm, f, _, ⟨copies, _, hx⟩ | ⟨copies, _, hx⟩ | ⟨copies, _, _, hx⟩⟩ <;> rw [hx] at h ⊢
  · exact absurd rfl h
  · exact ⟨hm, by simp [endState]⟩
  · exact absurd (by simp [endState]) h
  · exact absurd (by simp [endState]) h

theorem setConfig_mode {c : Chip} {k : ConvChip} {req : List Pair} {s : State}
    (h : (convOf s k).mode ≠ (convOf (endState (setConfig c req s)) k).mode) :
    (convOf s k).mode = .idle ∧ (convOf (endState (setConfig c req s)) k).mode = .configuring := by
  obtain ⟨_, _, _, hconv, _⟩ := setConfig_frame c req s
  rcases hconv k with hsame | ⟨_, hm, hnew⟩
  · exact absurd (by rw [hsame]) h
  · rw [hnew] at h ⊢
    refine ⟨?_, rfl⟩
    cases hmode : (convOf s k).mode <;> simp_all

/-- An operation's answer leaves the modes as the operation's end has them. -/
theorem mode_of_outcome {α : Type} {fmt : α → List Word} {x : OpEnd α} {t : State} (h : outcome fmt x = .next t)
    (c : ConvChip) : convOf t c = convOf (endState x) c := by
  obtain ⟨hcore, _⟩ := (outcome_inv h).parts
  obtain ⟨_, _, _, hconv⟩ := hcore.parts
  exact hconv c

/-- Settles O34: only the writers of `Mode` can change it, and each does what the table says. -/
theorem modeTransitions : Obligations.ModeTransitions := by
  intro i s t c h hne
  have hw : writesMode c i = true := ((exec_writtenBy h).mode c).resolve_right (Ne.symm hne)
  cases i
  case setConfig k req =>
    obtain rfl : k = c.toChip := of_decide_eq_true hw
    rw [mode_of_outcome h] at hne ⊢
    obtain ⟨hs, ht⟩ := setConfig_mode hne
    exact .inl ⟨hs, ht, req, rfl⟩
  case startConv k u =>
    obtain rfl : k = c := of_decide_eq_true hw
    rw [mode_of_outcome h] at hne ⊢
    obtain ⟨hs, ht⟩ := startConv_mode hne
    exact .inr (.inl ⟨hs, ht, u, rfl⟩)
  case stopConv k u =>
    obtain rfl : k = c := of_decide_eq_true hw
    rw [mode_of_outcome h] at hne ⊢
    obtain ⟨hs, ht⟩ := stopConv_mode hne
    exact .inr (.inr (.inr ⟨hs, ht, .inl ⟨u, rfl⟩⟩))
  case convDone k =>
    obtain rfl : k = c := of_decide_eq_true hw
    obtain rfl := Host.Outcome.next.inj h
    rw [convOf_answer] at hne ⊢
    obtain ⟨hs, ht, hp⟩ := convDone_mode hne
    exact .inr (.inr (.inr ⟨hs, ht, .inr (.inr ⟨rfl, hp⟩)⟩))
  case mirrorReset k =>
    obtain rfl : k = c.toChip := of_decide_eq_true hw
    obtain rfl := Host.Outcome.next.inj h
    rw [convOf_answer, mirrorReset_convOf, if_pos rfl, resetConv] at hne ⊢
    cases hm : (convOf s c).mode with
    | idle => exact absurd hm hne
    | configuring => exact .inr (.inr (.inl ⟨rfl, rfl, rfl⟩))
    | converting => exact .inr (.inr (.inr ⟨rfl, rfl, .inr (.inl rfl)⟩))
  all_goals exact absurd hw Bool.false_ne_true

end Sys2Proof.Machine
end

section
/-! Faults are precise (rules R270 and R288): every instruction is an operation whose fault leaves the core
state alone, but for a failed register write. -/

namespace Sys2Proof.Machine
open Sys2Proof.Config

/-! ### How an operation can end -/

/-- An operation of the chip `c` whose fault leaves a state as `P` says; waiting for its transfer, its chip is busy. -/
def FaultsBy {α : Type} (c : Chip) (P : Raised → State → Prop) : OpEnd α → Prop
  | .done _ _ => True
  | .raised e t => P e t
  | .hung t => isBusy t c = true

/-- An answer that shows a fault is that of a fault the operation raised. -/
theorem FaultsBy.of_outcome {α : Type} {c : Chip} {P : Raised → State → Prop} {x : OpEnd α} {fmt : α → List Word}
    {t : State} {k : Byte} (hx : FaultsBy c P x) (h : outcome fmt x = .next t) (hbusy : isBusy t c = false)
    (hk : shownCode t = some k) (hne : k ≠ 0x00) : ∃ e u, P e u ∧ t = deliver e u ∧ k = faultCode e.fault := by
  rcases outcome_next h with ⟨a, u, rfl, rfl⟩ | ⟨e, u, rfl, rfl⟩ | rfl
  · rw [shownCode_answer] at hk
    exact absurd (Option.some.inj hk).symm hne
  · rw [shownCode_deliver] at hk
    exact ⟨e, u, hx, rfl, (Option.some.inj hk).symm⟩
  · exact absurd (hbusy.symm.trans hx) Bool.false_ne_true

/-- What FaultsArePrecise says of the state `t` in which the instruction `i` raised a fault. -/
def FaultLeaves (i : Instr) (s : State) (e : Raised) (t : State) : Prop :=
  sameCore s t ∨ e.fault = .transportFault ∧ ∃ c : Chip, (cfgOf t c).stale = true ∧ t.cal = s.cal ∧
    t.profile = s.profile ∧ (∀ d, d ≠ c → cfgOf t d = cfgOf s d) ∧
    ((i = .cfgReassert c ∧ (cfgOf t c).mirror = (cfgOf s c).mirror ∧ (cfgOf t c).setMask = (cfgOf s c).setMask ∧
        ∀ q : ConvChip, convOf t q = convOf s q) ∨
      ((∃ req, i = .setConfig c req) ∧ ∀ q : ConvChip,
        convOf t q = if q.toChip = c then { mode := .configuring, pulseDone := false } else convOf s q))

/-! ### Each operation -/

section
variable {i : Instr} {s : State}

theorem faultsBy_lift {α : Type} (c : Chip) (x : Except Raised α) : FaultsBy c (FaultLeaves i s) (lift x s) := by
  cases x with
  | ok a => trivial
  | error e => exact .inl (sameCore_refl s)

theorem isBusy_markBusy_same (t : State) (c : Chip) : isBusy (markBusy t c) c = true := by
  simp [isBusy_markBusy]

theorem sendByHand_faultsBy (c : Chip) (frame : Except Raised Frame) (parse : Frame → Except Raised (List Word)) :
    FaultsBy c (FaultLeaves i s) (sendByHand c frame parse s) := by
  rcases sendByHand_cases c frame parse s with ⟨e, _, hx⟩ | ⟨f, _, ⟨r, ws, cs, _, _, _, hx⟩ | ⟨r, e, cs, _, _, hx⟩ |
    ⟨cs, _, hx⟩ | ⟨cs, _, _, hx⟩⟩ <;> rw [hx]
  · exact .inl (sameCore_refl s)
  · trivial
  · exact .inl (sameCore_sent ..)
  · exact .inl (sameCore_sent ..)
  · exact isBusy_markBusy_same _ c

theorem readCode_faultsBy (c : ConvChip) (u : BitVec 9) :
    FaultsBy c.toChip (FaultLeaves i s) (readCode c u s) := by
  rcases readCode_cases c u s with hx | ⟨f, _, ⟨r, cs, _, _, _, hx⟩ | ⟨r, cs, _, _, hx⟩ | ⟨cs, _, hx⟩ |
    ⟨cs, _, _, hx⟩⟩ <;> rw [hx]
  · exact .inl (sameCore_refl s)
  · trivial
  · exact .inl (sameCore_sent ..)
  · exact .inl (sameCore_sent ..)
  · exact isBusy_markBusy_same _ _

/-- What follows an operation and raises nothing itself. -/
theorem faultsBy_andThen_done {α β : Type} {c : Chip} {P : Raised → State → Prop} {x : OpEnd α}
    (hx : FaultsBy c P x) (g : α → State → β) (k : α → State → State) :
    FaultsBy c P (andThen x fun a t => .done (g a t) (k a t)) := by
  cases x with
  | done a t => trivial
  | raised e t => exact hx
  | hung t => exact hx

theorem readCont_faultsBy (c : ConvChip) (u : BitVec 9) :
    FaultsBy c.toChip (FaultLeaves i s) (readCont c u s) := by
  unfold readCont
  split
  · exact readCode_faultsBy c u
  · exact .inl (sameCore_refl s)

theorem readPulse_faultsBy (c : ConvChip) (u : BitVec 9) :
    FaultsBy c.toChip (FaultLeaves i s) (readPulse c u s) := by
  unfold readPulse
  split
  · exact faultsBy_andThen_done (readCode_faultsBy c u) ..
  · exact .inl (sameCore_refl s)

theorem startConv_faultsBy (c : ConvChip) (u : BitVec 9) :
    FaultsBy c.toChip (FaultLeaves i s) (startConv c u s) := by
  rcases startConv_cases c u s with ⟨e, hx, _⟩ |
    ⟨_, _, f, _, ⟨cs, _, hx⟩ | ⟨cs, _, hx⟩ | ⟨cs, _, _, hx⟩⟩ <;> rw [hx]
  · exact .inl (sameCore_refl s)
  · trivial
  · exact .inl (sameCore_sent ..)
  · exact isBusy_markBusy_same _ _

theorem stopConv_faultsBy (c : ConvChip) (u : BitVec 9) :
    FaultsBy c.toChip (FaultLeaves i s) (stopConv c u s) := by
  rcases stopConv_cases c u s with ⟨e, hx, _⟩ |
    ⟨_, f, _, ⟨cs, _, hx⟩ | ⟨cs, _, hx⟩ | ⟨cs, _, _, hx⟩⟩ <;> rw [hx]
  · exact .inl (sameCore_refl s)
  · trivial
  · exact .inl (sameCore_sent ..)
  · exact isBusy_markBusy_same _ _

theorem cfgCommit_faultsBy (c : Chip) (req : List Pair) : FaultsBy c (FaultLeaves i s) (cfgCommit c req s) := by
  unfold cfgCommit
  split
  · exact .inl (sameCore_refl s)
  · trivial

theorem cfgLoad_faultsBy (c : Chip) (regs : List RegByte) : FaultsBy c (FaultLeaves i s) (cfgLoad c regs s) := by
  unfold cfgLoad
  split
  · exact .inl (sameCore_refl s)
  · split
    · exact .inl (sameCore_refl s)
    · trivial

theorem setCal_faultsBy (m : Chip) (ch : Nat) (x : CalPair) : FaultsBy m (FaultLeaves i s) (setCal m ch x s) := by
  unfold setCal
  split
  · exact .inl (sameCore_refl s)
  · trivial

/-! ### The two operations that write registers -/

theorem setConfig_hung {c : Chip} {req : List Pair} {t : State} (hp : profilesOk s.profile = true)
    (h : setConfig c req s = .hung t) : isBusy t c = true := by
  rcases setConfig_cases (c := c) (req := req) hp with ⟨e, _, hx⟩ | ⟨_, ⟨_, hx⟩ | ⟨_, _, hx⟩ |
    ⟨_, _, ⟨cs, _, hx⟩ | ⟨before, r, after, cs, _, _, hx | ⟨hx, _⟩⟩⟩⟩ <;> rw [hx] at h <;> cases h
  exact isBusy_markBusy_same _ c

theorem cfgReassert_hung {c : Chip} {t : State} (hp : profilesOk s.profile = true)
    (h : cfgReassert c s = .hung t) : isBusy t c = true := by
  rcases cfgReassert_cases (c := c) hp with ⟨_, hx⟩ | ⟨_, ⟨cs, _, hx⟩ | ⟨before, r, after, cs, _, _, hx | ⟨hx, _⟩⟩⟩ <;>
    rw [hx] at h <;> cases h
  exact isBusy_markBusy_same _ c

theorem setConfig_faultsBy (c : Chip) (req : List Pair) (hp : profilesOk s.profile = true) :
    FaultsBy c (FaultLeaves (.setConfig c req) s) (setConfig c req s) := by
  obtain ⟨hprofile, hcal, _, _, hother, _⟩ := setConfig_frame c req s
  cases hx : setConfig c req s with
  | done a t => trivial
  | hung t => exact setConfig_hung hp hx
  | raised e t =>
    rw [hx] at hprofile hcal hother
    rcases setConfig_end hp hx with ⟨rfl, _⟩ | ⟨hfault, _, hstale, _, hconv⟩
    · exact .inl (sameCore_refl t)
    · exact .inr ⟨hfault, c, hstale, hcal, hprofile, fun d hd => (hother d hd).1,
        .inr ⟨⟨req, rfl⟩, fun q => by rw [hconv, enterConfiguring_convOf]⟩⟩

theorem cfgReassert_faultsBy (c : Chip) (hp : profilesOk s.profile = true) :
    FaultsBy c (FaultLeaves (.cfgReassert c) s) (cfgReassert c s) := by
  obtain ⟨hprofile, hcal, _, hconv, hother, _, hmirror, hmask⟩ := cfgReassert_frame c s
  cases hx : cfgReassert c s with
  | done a t => trivial
  | hung t => exact cfgReassert_hung hp hx
  | raised e t =>
    rw [hx] at hprofile hcal hconv hother hmirror hmask
    rcases cfgReassert_end hp hx with ⟨rfl, _⟩ | ⟨hfault, _, hstale⟩
    · exact .inl (sameCore_refl t)
    · exact .inr ⟨hfault, c, hstale, hcal, hprofile, fun d hd => (hother d hd).1, .inl ⟨rfl, hmirror, hmask, hconv⟩⟩

/-! ### Every instruction -/

theorem settle_outcome (x : Except Raised (List Word)) : .next (settle x s) = outcome id (lift x s) := by
  cases x <;> rfl

/-- Every instruction is an operation on the chip it is presented to, and its fault is precise. -/
theorem exec_faultsBy (i : Instr) (hp : profilesOk s.profile = true) : ∃ (α : Type) (fmt : α → List Word) (x : OpEnd α),
    exec i s = outcome fmt x ∧ FaultsBy (instanceOf i) (FaultLeaves i s) x := by
  by_cases hpure : isCodec i = true ∨ isConversion i = true ∨ isReserved i = true
  · obtain ⟨x, hx⟩ := exec_pure hpure s
    exact ⟨_, _, _, hx.trans (settle_outcome x), faultsBy_lift _ x⟩
  by_cases hw : isWire i = true
  · obtain ⟨frame, parse, hx⟩ := exec_wire_own hw s
    exact ⟨_, _, _, hx, sendByHand_faultsBy ..⟩
  cases i
  case cfgDiff => exact ⟨_, _, _, rfl, faultsBy_lift ..⟩
  case cfgCommit => exact ⟨_, _, _, rfl, cfgCommit_faultsBy ..⟩
  case setConfig c req => exact ⟨_, _, _, rfl, setConfig_faultsBy c req hp⟩
  case startConv => exact ⟨_, _, _, rfl, startConv_faultsBy ..⟩
  case stopConv => exact ⟨_, _, _, rfl, stopConv_faultsBy ..⟩
  case convDone c => exact ⟨_, noWords, .done () (convDone c s), rfl, trivial⟩
  case readCont => exact ⟨_, _, _, rfl, readCont_faultsBy ..⟩
  case readPulse => exact ⟨_, _, _, rfl, readPulse_faultsBy ..⟩
  case mirrorReset c => exact ⟨_, noWords, .done () (mirrorReset c s), rfl, trivial⟩
  case cfgLoad => exact ⟨_, _, _, rfl, cfgLoad_faultsBy ..⟩
  case cfgReassert c => exact ⟨_, _, _, rfl, cfgReassert_faultsBy c hp⟩
  case calSet => exact ⟨_, _, _, rfl, setCal_faultsBy ..⟩
  all_goals first
    | exact absurd rfl hw
    | exact absurd (.inl rfl) hpure
    | exact absurd (.inr (.inl rfl)) hpure
    | exact absurd (.inr (.inr rfl)) hpure

/-- Delivering a fault changes the result port only. -/
theorem FaultLeaves.deliver {e : Raised} {t : State} (h : FaultLeaves i s e t) : FaultLeaves i s e (deliver e t) := by
  refine h.imp id fun ⟨hfault, c, hstale, hcal, hprofile, hother, hkind⟩ => ?_
  refine ⟨hfault, c, by simpa using hstale, hcal, hprofile, fun d hd => by simpa using hother d hd, ?_⟩
  simpa using hkind

end

/-- Settles O36: the fault shown is one the operation raised, and it leaves what the operation's own lemma says. -/
theorem faultsArePrecise : Obligations.FaultsArePrecise := by
  intro i s t k hp h hbusy hk hne
  obtain ⟨α, fmt, x, hx, hfaults⟩ := exec_faultsBy i hp
  obtain ⟨_, hemitted, _⟩ := exec_next_emits h
  obtain ⟨e, u, hleaves, rfl, rfl⟩ := hfaults.of_outcome (hx ▸ h) hbusy hk hne
  obtain ⟨_, _, hcount⟩ := statusWord_fields (faultCode e.fault) e.info (count := 0) (by decide)
  exact ⟨hemitted.port, ⟨_, shown_deliver e u, rfl, hcount⟩,
    hleaves.deliver.imp id fun ⟨hfault, hchanged⟩ => ⟨by rw [hfault]; rfl, hchanged⟩⟩

end Sys2Proof.Machine
end

section
/-! The numbers of the conversions: what is inside a format is answered as the word nearest to it, what is not raises
`VoltageOutOfRange` (rules R12, R223 and R281), and bits are read as signed numbers (rule R11). -/

namespace Sys2Proof.Machine
open Sys2Proof.Config

/-! ### Fixed-point words -/

theorem fits_iff {f : Nat} {x : ℚ} : fits f x = true ↔ InFormat f x := decide_eq_true_iff

theorem fits_false_iff {f : Nat} {x : ℚ} : fits f x = false ↔ ¬ InFormat f x := decide_eq_false_iff_not

/-- Rounding does not leave a range that ends in integers. -/
theorem roundsTo_range {x : ℚ} {k lo hi : Int} (h : RoundsTo x k) (hlo : (lo : ℚ) ≤ x) (hhi : x ≤ hi) :
    lo ≤ k ∧ k ≤ hi := by
  obtain ⟨hbelow, habove⟩ := abs_le.mp h.1
  have hlow : (lo : ℚ) < ((k + 1 : Int) : ℚ) := by push_cast; linarith
  have hhigh : (k : ℚ) < ((hi + 1 : Int) : ℚ) := by push_cast; linarith
  exact ⟨Int.lt_add_one_iff.mp (by exact_mod_cast hlow), Int.lt_add_one_iff.mp (by exact_mod_cast hhigh)⟩

/-- What is inside a format is rounded to a word of it (rule R12). -/
theorem roundsTo_quantWord {f : Nat} {x : ℚ} (h : InFormat f x) : RoundsTo (x * 2 ^ f) (quantWord f x).toInt := by
  have hround := roundsTo_rnd (x * 2 ^ f)
  obtain ⟨hlo, hhi⟩ := roundsTo_range (lo := -2 ^ 31) (hi := 2 ^ 31 - 1) hround (by exact_mod_cast h.1)
    (by exact_mod_cast h.2)
  have hword : (quantWord f x).toInt = rnd (x * 2 ^ f) :=
    BitVec.toInt_ofInt_eq_self (by decide) hlo (Int.lt_of_le_sub_one hhi)
  rwa [hword]

/-- The value of a rounded word is within half a step of the format. -/
theorem fixedValue_quantWord_near {f : Nat} {x : ℚ} (h : InFormat f x) :
    |fixedValue f (quantWord f x) - x| ≤ 1 / 2 ^ (f + 1) := by
  have hpow : (0 : ℚ) < 2 ^ f := by positivity
  have hscale : fixedValue f (quantWord f x) - x = -((x * 2 ^ f - (quantWord f x).toInt) / 2 ^ f) := by
    rw [fixedValue, sub_div, mul_div_cancel_right₀ _ hpow.ne', neg_sub]
  calc |fixedValue f (quantWord f x) - x|
      = |x * 2 ^ f - (quantWord f x).toInt| / 2 ^ f := by rw [hscale, abs_neg, abs_div, abs_of_pos hpow]
    _ ≤ 1 / 2 / 2 ^ f := by gcongr; exact (roundsTo_quantWord h).1
    _ = 1 / 2 ^ (f + 1) := by rw [div_div, pow_succ']

theorem volts_pos {w : Word} (h : 0 < w.toInt) : 0 < volts w :=
  div_pos (by exact_mod_cast h) (by positivity)

theorem volts_eq_zero_iff {w : Word} : volts w = 0 ↔ w = 0 := by
  simp [volts, fixedValue, ← BitVec.toInt_inj]

/-! ### One result word -/

section
variable {r : Except Raised Word} {s : State}

theorem pureOutcome_word {w : Word} (h : r = .ok w) : pureOutcome (oneWord r) s = .next (answer s [w]) := by
  rw [h]; rfl

theorem pureOutcome_noWord {e : Raised} (h : r = .error e) : pureOutcome (oneWord r) s = .next (deliver e s) := by
  rw [h]; rfl

/-- A word that was answered was made. -/
theorem word_of_pureOutcome {w : Word} (h : pureOutcome (oneWord r) s = .next (answer s [w])) : r = .ok w := by
  cases r with
  | ok v =>
    rw [pureOutcome_word rfl, Host.Outcome.next.injEq] at h
    rw [(List.cons.inj (answer_words_inj h)).1]
  | error e =>
    rw [pureOutcome_noWord rfl, Host.Outcome.next.injEq] at h
    simpa using congrArg shown h

theorem voltWord_error {x : ℚ} (h : ¬ InFormat 24 x) :
    voltWord x = .error { fault := .voltageOutOfRange, info := 0 } := if_pos (fits_false_iff.mpr h)

theorem voltWord_ok {x : ℚ} (h : InFormat 24 x) : voltWord x = .ok (quantWord 24 x) :=
  if_neg (fits_false_iff.not.mpr (not_not_intro h))

/-- A voltage is answered rounded once where it is inside the format, and is `VoltageOutOfRange` elsewhere (rule
R223). -/
theorem pureOutcome_voltWord {x : ℚ} (h : r = voltWord x) :
    (¬ InFormat 24 x →
      pureOutcome (oneWord r) s = .next (deliver { fault := .voltageOutOfRange, info := 0 } s)) ∧
    (InFormat 24 x →
      ∃ w : Word, pureOutcome (oneWord r) s = .next (answer s [w]) ∧ RoundsTo (x * 2 ^ 24) w.toInt) :=
  ⟨fun hx => pureOutcome_noWord (h.trans (voltWord_error hx)),
    fun hx => ⟨_, pureOutcome_word (h.trans (voltWord_ok hx)), roundsTo_quantWord hx⟩⟩

/-- A voltage that was answered is the value of the answered word but for half a step. -/
theorem volts_near_of_voltWord {x : ℚ} {w : Word} (h : voltWord x = .ok w) : |volts w - x| ≤ 1 / 2 ^ 25 := by
  by_cases hx : InFormat 24 x
  · rw [voltWord_ok hx] at h
    cases h
    exact fixedValue_quantWord_near hx
  · rw [voltWord_error hx] at h
    cases h

end

/-! ### Signed codes -/

theorem sext_eq_twosComplement {n v : Nat} (hn : 1 ≤ n) (hv : v < 2 ^ n) : sext n v = twosComplement n v := by
  obtain ⟨m, rfl⟩ := Nat.exists_eq_add_of_le' hn
  rw [sext, toInt_eq_twosComplement, BitVec.toNat_ofNat, Nat.mod_eq_of_lt hv]

/-- A code of at most 32 bits stands in a word as the number it is: the word is its sign extension. -/
theorem toInt_ofInt_sext {n : Nat} (hn : n ≤ 32) (v : Nat) : (BitVec.ofInt 32 (sext n v)).toInt = sext n v :=
  BitVec.toInt_signExtend_of_le hn

end Sys2Proof.Machine
end

section
/-! The calibration table: CAL_GET, CAL_SET and CAL_APPLY (rules R210, R211, R212, R215 and R216), and the purity of
every conversion (rule R226). -/

namespace Sys2Proof.Machine
open Sys2Proof.Config

/-! ### Purity -/

/-- A conversion answers the same in two states that agree on the profile and on the entry it reads. -/
theorem exec_conversion_answers {i : Instr} (hi : isConversion i = true) {s t : State} (hp : t.profile = s.profile)
    (hc : ∀ m n, entryRead i = some (m, n) → calGet t.cal m n = calGet s.cal m n) :
    ∃ r, exec i s = .next (withResult s r) ∧ exec i t = .next (withResult t r) := by
  obtain ⟨x, hs, ht⟩ := exec_conversion hi hp hc
  obtain ⟨r, hr⟩ := pureOutcome_answers x
  exact ⟨r, hs.trans (hr s), ht.trans (hr t)⟩

/-- Settles O50: two states with one table agree on every entry. -/
theorem conversionIsPure : Obligations.ConversionIsPure :=
  fun _ hi _ _ hp hc => exec_conversion_answers hi hp.symm fun m n _ => congrArg (calGet · m n) hc.symm

/-! ### CAL_GET -/

section
variable {s : State} {m : Chip} {ch : Byte}

theorem exec_calGet_fault {e : FaultCode} (h : LookupRaises s m ch e) :
    exec (.calGet m ch) s = .next (deliver { fault := e, info := ch } s) := by
  rw [exec, execCalGet, lookupCal_raises h]; rfl

theorem exec_calGet_entry {k : CalPair} (h : ch.toNat < channelCount s.profile m)
    (hk : calGet s.cal m ch.toNat = some k) :
    exec (.calGet m ch) s = .next (answer s [k.gain, k.offset]) := by
  rw [exec, execCalGet, lookupCal_ok h hk]; rfl

end

/-- Settles O41: the look-up's fault, or its entry. -/
theorem calGetResult : Obligations.CalGetResult := fun _ _ _ =>
  ⟨presentedAs (op := 0x18) (n := 0) (aux := 0) fun _ => rfl, rfl, rfl, rfl, fun _ h => exec_calGet_fault h,
    fun _ h hk => exec_calGet_entry h hk⟩

/-! ### CAL_SET -/

/-- The fault of an id outside the table is the one the look-up raises for it. -/
theorem badChannel_of_lookupRaises {s : State} {m : Chip} {ch : Byte} {e : FaultCode} (h : LookupRaises s m ch e)
    (hch : channelCount s.profile m ≤ ch.toNat) : badChannel m ch.toNat = { fault := e, info := ch } :=
  Except.error.inj ((lookupCal_bad hch).symm.trans (lookupCal_raises h))

/-- Settles O42: the entry is written whatever its two words, and read back; every other entry stays. -/
theorem calSetResult : Obligations.CalSetResult := by
  refine fun m ch gain offset s hwf => ⟨presentedAs (op := 0x19) (n := 0) (aux := 0) fun _ => rfl, fun e hch he => ?_,
    fun hch => ?_⟩
  · rw [exec_calSet_invalid (Nat.not_lt.mpr hch), badChannel_of_lookupRaises he hch]
  · have hnew := calGet_calSet_same hwf hch { gain := gain, offset := offset }
    refine ⟨_, _, exec_calSet_valid hch, hnew, ?_, fun _ _ hne => calGet_calSet_ne _ _ hne⟩
    exact exec_calGet_entry (s := { s with cal := calSet s.cal m ch.toNat ⟨gain, offset⟩ }) hch hnew

/-- A CAL_SET leaves the profile and every other entry. -/
theorem exec_calSet_other {m m' : Chip} {ch : Byte} {n : Nat} {gain offset : Word} {s t : State}
    (h : exec (.calSet m ch gain offset) s = .next t) (hne : (m', n) ≠ (m, ch.toNat)) :
    t.profile = s.profile ∧ calGet t.cal m' n = calGet s.cal m' n := by
  by_cases hch : ch.toNat < channelCount s.profile m
  · rw [exec_calSet_valid hch] at h
    cases h
    exact ⟨rfl, calGet_calSet_ne _ _ hne⟩
  · rw [exec_calSet_invalid hch] at h
    cases h
    exact ⟨rfl, rfl⟩

/-- Settles O43: CAL_APPLY reads its own entry only, which the CAL_SET of another leaves. -/
theorem calEntriesIndependent : Obligations.CalEntriesIndependent := by
  intro m m' ch ch' gain offset v s t u hne hset hu
  have hentry : (m', ch'.toNat) ≠ (m, ch.toNat) := by simpa [BitVec.toNat_inj] using hne
  obtain ⟨hp, hc⟩ := exec_calSet_other hset hentry
  obtain ⟨r, hs, ht⟩ := exec_conversion_answers (i := .calApply m' ch' v) rfl hp (by rintro _ _ ⟨⟩; exact hc)
  rw [hs] at hu
  cases hu
  exact ⟨r, rfl, ht⟩

/-! ### CAL_APPLY -/

theorem calApply_fault {s : State} {m : Chip} {ch : Nat} {e : Raised} (h : lookupCal s m ch = .error e) (v : Word) :
    calApply m ch v s = .error e := by
  rw [calApply, h]

theorem calApply_entry {s : State} {m : Chip} {ch : Nat} {k : CalPair} (h : lookupCal s m ch = .ok k) (v : Word) :
    calApply m ch v s = voltWord (calibrated k v) := by
  rw [calApply, h]

/-- Settles O45: the look-up's fault, or the calibrated voltage of its entry. -/
theorem calApplyResult : Obligations.CalApplyResult := fun _ _ v _ =>
  ⟨presentedAs (op := 0x1B) (n := 0) (aux := 0) fun _ => rfl,
    fun _ h => pureOutcome_noWord (calApply_fault (lookupCal_raises h) v),
    fun _ hch hk => pureOutcome_voltWord (calApply_entry (lookupCal_ok hch hk) v)⟩

end Sys2Proof.Machine
end

section
/-! ADC_CODE2V: the gain setting, the code's width, and the voltage (rules R213 and R214). -/

namespace Sys2Proof.Machine
open Sys2Proof.Config

theorem mem_gainSettings {p : ChipProfile} {n : Nat} :
    n ∈ gainSettings p ↔ ∃ f, fieldSpec p 4 = some f ∧ ∃ x ∈ f.legal, p.gainValue.lookup x = some n := by
  unfold gainSettings fGain
  cases fieldSpec p 4 with
  | none => simp
  | some f => simp [List.mem_filterMap]

/-- The bits above a 24-bit code are zero exactly when the word's number is below 2 to the 24. -/
theorem highBits_ne_zero_iff {raw : Word} : raw.extractLsb' 24 8 ≠ 0 ↔ 2 ^ 24 ≤ raw.toNat := by
  have := raw.isLt
  rw [ne_eq, ← BitVec.toNat_inj, BitVec.extractLsb'_toNat, Nat.shiftRight_eq_div_pow,
    show (0 : BitVec 8).toNat = 0 from rfl]
  omega

theorem adcVolts_code (vref raw : Word) (g : Nat) :
    adcVolts vref (raw.extractLsb' 0 24).toNat g =
      (twosComplement 24 (raw.toNat % 2 ^ 24) : ℚ) / 2 ^ 23 * volts vref / g := by
  rw [adcVolts, sext_eq_twosComplement (by decide) (raw.extractLsb' 0 24).isLt, BitVec.extractLsb'_toNat,
    Nat.shiftRight_zero]

section
variable {p : ChipProfile} {g : Nat} {raw : Word}

theorem adcCode2v_badGain (h : g ∉ gainSettings p) :
    adcCode2v p g raw = .error { fault := .invalidConfigValue, info := 4 } := by
  rw [adcCode2v, if_pos (by simpa using h)]
  rfl

theorem adcCode2v_badCode (h : g ∈ gainSettings p) (hraw : 2 ^ 24 ≤ raw.toNat) :
    adcCode2v p g raw = .error { fault := .valueOutOfRange, info := 0 } := by
  rw [adcCode2v, if_neg (by simpa using h), if_pos (highBits_ne_zero_iff.mpr hraw)]
  rfl

theorem adcCode2v_volts (h : g ∈ gainSettings p) (hraw : raw.toNat < 2 ^ 24) :
    adcCode2v p g raw = voltWord ((twosComplement 24 (raw.toNat % 2 ^ 24) : ℚ) / 2 ^ 23 * volts p.vref / g) := by
  rw [adcCode2v, if_neg (by simpa using h), if_neg (highBits_ne_zero_iff.not.mpr (Nat.not_le.mpr hraw)), adcVolts_code]

end

/-- Settles O44: the two checks in their order, then the voltage. -/
theorem adcCode2vResult : Obligations.AdcCode2vResult := by
  intro g raw s p has v
  have hgain : g.toNat ∈ gainSettings p ↔ has := mem_gainSettings
  have hvolts (h : has) (hraw : raw.toNat < 2 ^ 24) :=
    pureOutcome_voltWord (s := s) (adcCode2v_volts (hgain.mpr h) hraw)
  exact ⟨presentedAs (op := 0x1A) (a := 0) (aux := 0) fun _ => rfl,
    fun h => pureOutcome_noWord (adcCode2v_badGain (hgain.not.mpr h)),
    fun h hraw => pureOutcome_noWord (adcCode2v_badCode (hgain.mpr h) hraw),
    fun h hraw => (hvolts h hraw).1, fun h hraw => (hvolts h hraw).2⟩

end Sys2Proof.Machine
end

section
/-! The DAC's two conversions and their round trip (rules R217 to R220). -/

namespace Sys2Proof.Machine
open Sys2Proof.Config

/-! ### DAC_CODE2V -/

section
variable {s : State} {ch : Nat} {code : Word}

theorem dacCode2v_badCode (h : 65535 < code.toNat) :
    dacCode2v ch code s = .error { fault := .valueOutOfRange, info := 0 } := by
  rw [dacCode2v, if_pos h]
  rfl

theorem dacCode2v_fault {e : Raised} (hcode : code.toNat ≤ 65535) (h : lookupCal s .dac ch = .error e) :
    dacCode2v ch code s = .error e := by
  rw [dacCode2v, if_neg (Nat.not_lt.mpr hcode), h]

theorem dacCode2v_volts {k : CalPair} (hcode : code.toNat ≤ 65535) (h : lookupCal s .dac ch = .ok k) :
    dacCode2v ch code s = voltWord (dacVolts s.profile.dac.vref k code.toNat) := by
  rw [dacCode2v, if_neg (Nat.not_lt.mpr hcode), h]
  rfl

end

/-- Settles O47: the code's range, the look-up's fault, or the voltage of its entry. -/
theorem dacCode2vResult : Obligations.DacCode2vResult := fun _ _ _ =>
  ⟨presentedAs (op := 0x1D) (n := 0) (aux := 0) fun _ => rfl,
    fun hcode => pureOutcome_noWord (dacCode2v_badCode hcode),
    fun _ hcode h => pureOutcome_noWord (dacCode2v_fault hcode (lookupCal_raises h)),
    fun _ hcode hch hk => pureOutcome_voltWord (dacCode2v_volts hcode (lookupCal_ok (Nat.lt_succ_of_le hch) hk))⟩

/-! ### The code of a voltage -/

/-- A number at or above zero is rounded to a natural number. -/
theorem exists_nat_roundsTo {x : ℚ} (h : 0 ≤ x) : ∃ n : Nat, RoundsTo x n := by
  have hround := roundsTo_rnd x
  obtain ⟨n, hn⟩ := Int.eq_ofNat_of_zero_le
    (roundsTo_range (lo := 0) (hi := ⌈x⌉) hround (by exact_mod_cast h) (Int.le_ceil x)).1
  exact ⟨n, hn ▸ hround⟩

/-- The code of a voltage is its rounded code, clamped from above only (rule R218). -/
theorem exists_dacCode {vref : Word} {v : ℚ} (hpos : 0 < volts vref) (h : 0 ≤ v) :
    ∃ n : Nat, RoundsTo (v / volts vref * 65536) n ∧
      BitVec.ofInt 32 (dacCode vref v) = BitVec.ofNat 32 (min n 65535) := by
  obtain ⟨n, hn⟩ := exists_nat_roundsTo (mul_nonneg (div_nonneg h hpos.le) (by norm_num : (0 : ℚ) ≤ 65536))
  have hclamp : dacCode vref v = (min n 65535 : Nat) := by
    rw [dacCode, roundsTo_unique (roundsTo_rnd _) hn]
    omega
  exact ⟨n, hn, by rw [hclamp, BitVec.ofInt_natCast]⟩

/-- Clamping a number of at most 65536 to 65535 costs no more than one step. -/
theorem clamped_near {x : ℚ} {n : Nat} (h : RoundsTo x n) (hx : x ≤ 65536) : |((min n 65535 : Nat) : ℚ) - x| ≤ 1 := by
  obtain ⟨hbelow, habove⟩ := abs_le.mp h.1
  rw [Int.cast_natCast] at hbelow habove
  rw [abs_le]
  rcases Nat.le_total n 65535 with hn | hn
  · rw [min_eq_left hn]
    constructor <;> linarith
  · have : (65535 : ℚ) ≤ n := by exact_mod_cast hn
    rw [min_eq_right hn]
    push_cast
    constructor <;> linarith

/-! ### DAC_V2CODE -/

section
variable {s : State} {ch : Nat} {v : Word} {k : CalPair}

theorem dacV2code_fault {e : Raised} (h : lookupCal s .dac ch = .error e) : dacV2code ch v s = .error e := by
  rw [dacV2code, h]

theorem dacV2code_gainZero (h : lookupCal s .dac ch = .ok k) (hg : k.gain = 0) :
    dacV2code ch v s = .error (raised .calibGainZero ch) := by
  simp only [dacV2code, h, if_pos hg]

theorem dacV2code_outOfRange (h : lookupCal s .dac ch = .ok k) (hg : k.gain ≠ 0)
    (hv : uncalibrated k v < 0 ∨ volts s.profile.dac.vref < uncalibrated k v) :
    dacV2code ch v s = .error { fault := .voltageOutOfRange, info := 0 } := by
  simp only [dacV2code, h, if_neg hg]
  exact if_pos hv

theorem dacV2code_code (h : lookupCal s .dac ch = .ok k) (hg : k.gain ≠ 0) (h0 : 0 ≤ uncalibrated k v)
    (h1 : uncalibrated k v ≤ volts s.profile.dac.vref) :
    dacV2code ch v s = .ok (BitVec.ofInt 32 (dacCode s.profile.dac.vref (uncalibrated k v))) := by
  simp only [dacV2code, h, if_neg hg]
  exact if_neg (not_or.mpr ⟨not_lt.mpr h0, not_lt.mpr h1⟩)

/-- A voltage that has a code is one the DAC can reach. -/
theorem dacV2code_inv {code : Word} (h : lookupCal s .dac ch = .ok k) (hg : k.gain ≠ 0)
    (hcode : dacV2code ch v s = .ok code) :
    0 ≤ uncalibrated k v ∧ uncalibrated k v ≤ volts s.profile.dac.vref ∧
      code = BitVec.ofInt 32 (dacCode s.profile.dac.vref (uncalibrated k v)) := by
  by_cases hv : uncalibrated k v < 0 ∨ volts s.profile.dac.vref < uncalibrated k v
  · rw [dacV2code_outOfRange h hg hv] at hcode
    cases hcode
  · obtain ⟨h0, h1⟩ := not_or.mp hv
    rw [dacV2code_code h hg (not_lt.mp h0) (not_lt.mp h1)] at hcode
    cases hcode
    exact ⟨not_lt.mp h0, not_lt.mp h1, rfl⟩

end

/-- Settles O46: the look-up's fault, the zero gain, the range, or the clamped code. -/
theorem dacV2codeResult : Obligations.DacV2codeResult := by
  refine fun ch v s hvref => ⟨presentedAs (op := 0x1C) (n := 0) (aux := 0) fun _ => rfl,
    fun e h => pureOutcome_noWord (dacV2code_fault (lookupCal_raises h)), fun k hch hk => ?_⟩
  have hl := lookupCal_ok (m := .dac) (Nat.lt_succ_of_le hch) hk
  refine ⟨fun hg => ?_, fun hg hv => pureOutcome_noWord (dacV2code_outOfRange hl hg hv), fun hg h0 h1 => ?_⟩
  · have hfault := dacV2code_gainZero (v := v) hl hg
    rw [raised, BitVec.ofNat_toNat, BitVec.setWidth_eq] at hfault
    exact pureOutcome_noWord hfault
  · obtain ⟨n, hn, hcode⟩ := exists_dacCode (volts_pos hvref) h0
    exact ⟨n, hn, pureOutcome_word (hcode ▸ dacV2code_code hl hg h0 h1)⟩

/-! ### The round trip -/

/-- A voltage is its inverse calibration, calibrated. -/
theorem volts_eq_of_gain_ne_zero {k : CalPair} (hg : k.gain ≠ 0) (v : Word) :
    volts v = uncalibrated k v * volts k.gain + volts k.offset := by
  rw [uncalibrated, div_mul_cancel₀ _ (volts_eq_zero_iff.not.mpr hg), sub_add_cancel]

/-- The voltage a code comes to before calibration is within one step of the one it was made of (rule R220). -/
theorem dacCode_voltage_near {vref code : Word} {v : ℚ} (hpos : 0 < volts vref) (h0 : 0 ≤ v) (h1 : v ≤ volts vref)
    (hcode : code = BitVec.ofInt 32 (dacCode vref v)) :
    |(code.toNat : ℚ) / 65536 * volts vref - v| ≤ volts vref / 65536 := by
  have hx : v / volts vref * 65536 ≤ 65536 := mul_le_of_le_one_left (by norm_num) ((div_le_one hpos).mpr h1)
  obtain ⟨n, hn, hclamp⟩ := exists_dacCode hpos h0
  have htoNat : code.toNat = min n 65535 := by
    rw [hcode, hclamp, BitVec.toNat_ofNat]
    omega
  have hscale : (code.toNat : ℚ) / 65536 * volts vref - v =
      (((min n 65535 : Nat) : ℚ) - v / volts vref * 65536) * (volts vref / 65536) := by
    rw [htoNat]
    field_simp
  have hstep : 0 < volts vref / 65536 := by positivity
  rw [hscale, abs_mul, abs_of_pos hstep]
  exact mul_le_of_le_one_left hstep.le (clamped_near hn hx)

theorem dacCode2v_inv {s : State} {ch : Nat} {code w : Word} (h : dacCode2v ch code s = .ok w) :
    ∃ k, lookupCal s .dac ch = .ok k ∧ voltWord (dacVolts s.profile.dac.vref k code.toNat) = .ok w := by
  rcases Nat.lt_or_ge 65535 code.toNat with hcode | hcode
  · rw [dacCode2v_badCode hcode] at h
    cases h
  · cases hl : lookupCal s .dac ch with
    | error e =>
      rw [dacCode2v_fault hcode hl] at h
      cases h
    | ok k => exact ⟨k, rfl, dacCode2v_volts hcode hl ▸ h⟩

/-- Settles O48: the code's step, seen through the gain, and the output's rounding add up. -/
theorem dacRoundTrip : Obligations.DacRoundTrip := by
  intro ch v code w k s hk hg hvref hcode hw
  obtain ⟨k', hl, hout⟩ := dacCode2v_inv (word_of_pureOutcome hw)
  obtain rfl : k' = k := Option.some.inj ((lookupCal_inv hl).2.symm.trans hk)
  obtain ⟨h0, h1, hcode⟩ := dacV2code_inv hl hg (word_of_pureOutcome hcode)
  have hstep := dacCode_voltage_near (volts_pos hvref) h0 h1 hcode
  have hgain : dacVolts s.profile.dac.vref k' code.toNat - volts v =
      volts k'.gain * ((code.toNat : ℚ) / 65536 * volts s.profile.dac.vref - uncalibrated k' v) := by
    rw [dacVolts, volts_eq_of_gain_ne_zero hg v]
    ring
  calc |volts w - volts v|
      ≤ |volts w - dacVolts s.profile.dac.vref k' code.toNat| + |dacVolts s.profile.dac.vref k' code.toNat - volts v| :=
        abs_sub_le ..
    _ ≤ 1 / 2 ^ 25 + |volts k'.gain| * (volts s.profile.dac.vref / 65536) := by
        rw [hgain, abs_mul]
        exact add_le_add (volts_near_of_voltWord hout) (mul_le_mul_of_nonneg_left hstep (abs_nonneg _))
    _ = |volts k'.gain| * volts s.profile.dac.vref / 65536 + 1 / 2 ^ 25 := by ring

end Sys2Proof.Machine
end

section
/-! TC_CODE2T: two codes, each the top bits of its group, and two temperatures (rule R221). -/

namespace Sys2Proof.Machine
open Sys2Proof.Config

theorem weighted_eq (code e : Int) : weighted code e = (code : ℚ) / (2 : ℚ) ^ e := by
  cases e with
  | ofNat n => rw [weighted, Int.ofNat_eq_natCast, zpow_natCast]
  | negSucc n => rw [weighted, zpow_negSucc, div_inv_eq_mul]

theorem cjCode_eq {p : ChipProfile} (h1 : 1 ≤ p.cjBits) (h2 : p.cjBits ≤ 16) (b0 b1 : Byte) :
    cjCode p b0 b1 = twosComplement p.cjBits ((256 * b0.toNat + b1.toNat) / 2 ^ (16 - p.cjBits)) := by
  have htop : (b0 ++ b1 : BitVec 16).toNat / 2 ^ (16 - p.cjBits) < 2 ^ p.cjBits :=
    Nat.div_lt_of_lt_mul (by rw [← pow_add, Nat.sub_add_cancel h2]; exact (b0 ++ b1).isLt)
  rw [cjCode, sext_eq_twosComplement h1 htop, append_bytes_toNat]
  rfl

theorem ltCode_eq (b2 b3 b4 : Byte) :
    ltCode b2 b3 b4 = twosComplement 19 ((65536 * b2.toNat + 256 * b3.toNat + b4.toNat) / 2 ^ 5) := by
  have htop : (code24 b2 b3 b4).toNat / 2 ^ 5 < 2 ^ 19 := Nat.div_lt_of_lt_mul (code24 b2 b3 b4).isLt
  rw [ltCode, sext_eq_twosComplement (by decide) htop, code24_toNat]

section
variable {p : ChipProfile} {b0 b1 b2 b3 b4 : Byte}

theorem tcCode2t_outOfRange (h : ¬ (InFormat 16 (weighted (cjCode p b0 b1) p.cjLsbExp) ∧
      InFormat 16 (weighted (ltCode b2 b3 b4) p.ltLsbExp))) :
    tcCode2t p b0 b1 b2 b3 b4 = .error { fault := .voltageOutOfRange, info := 0 } :=
  if_pos (by rw [fits_false_iff, fits_false_iff]; exact not_and_or.mp h)

theorem tcCode2t_words (hcj : InFormat 16 (weighted (cjCode p b0 b1) p.cjLsbExp))
    (hlt : InFormat 16 (weighted (ltCode b2 b3 b4) p.ltLsbExp)) :
    tcCode2t p b0 b1 b2 b3 b4 = .ok
      [BitVec.ofInt 32 (cjCode p b0 b1), BitVec.ofInt 32 (ltCode b2 b3 b4),
        quantWord 16 (weighted (cjCode p b0 b1) p.cjLsbExp), quantWord 16 (weighted (ltCode b2 b3 b4) p.ltLsbExp)] :=
  if_neg (by rw [fits_false_iff, fits_false_iff]; exact not_or.mpr ⟨not_not_intro hcj, not_not_intro hlt⟩)

end

/-- Settles O49: the codes are those of the statement, and so are the temperatures, which both fit or do not. -/
theorem tcCode2tResult : Obligations.TcCode2tResult := by
  intro b0 b1 b2 b3 b4 s h1 h2 p cj lt cjTemp ltTemp
  have hcj : cjCode p b0 b1 = cj := cjCode_eq h1 h2 b0 b1
  have hlt : ltCode b2 b3 b4 = lt := ltCode_eq b2 b3 b4
  have hcjTemp : weighted (cjCode p b0 b1) p.cjLsbExp = cjTemp := by rw [hcj, weighted_eq]
  have hltTemp : weighted (ltCode b2 b3 b4) p.ltLsbExp = ltTemp := by rw [hlt, weighted_eq]
  rw [← hcj, ← hlt, ← hcjTemp, ← hltTemp]
  refine ⟨presentedAs (op := 0x1E) (n := 0) (a := 0) (aux := 0) fun _ => rfl, fun h => ?_, fun hc hl => ?_⟩
  · exact congrArg (pureOutcome · s) (tcCode2t_outOfRange h)
  · exact ⟨_, _, _, _, congrArg (pureOutcome · s) (tcCode2t_words hc hl), toInt_ofInt_sext (h2.trans (by decide)) _,
      toInt_ofInt_sext (by decide) _, roundsTo_quantWord hc, roundsTo_quantWord hl⟩

end Sys2Proof.Machine
end

section
/-! The steps of a sequence: each is the operation the expansion names, and what follows it is the next one (rules R250 to
R255 and R258). -/

namespace Sys2Proof.Machine
open Sys2Proof.Config

/-- The bytes a controller reads out of a byte list are those the statements read. -/
theorem wordsBytes_eq_bytesOf : wordsBytes = bytesOf :=
  funext fun _ => List.map_congr_left fun w _ => (BitVec.ofNat_toNat 8 w).symm

/-- A byte list's words carry its bytes. -/
theorem wordsBytes_byteListWords (bs : Frame) : wordsBytes (byteListWords bs) = bs := by
  have hbyte : (fun w : Word => w.setWidth 8) ∘ byteWord = id := by
    funext b
    simp [byteWord]
  simp [wordsBytes, byteListWords, hbyte]

/-- The mask between ADC_ASM and ADC_CODE2V keeps the low 24 bits (rule R251). -/
theorem codeMask_eq (w : Word) : (w.extractLsb' 0 24).setWidth 32 = BitVec.ofNat 32 (w.toNat % 2 ^ 24) := by
  apply BitVec.eq_of_toNat_eq
  simp

theorem oneWord_eq_map (x : Except Raised Word) : oneWord x = x.map fun v => [v] := by
  cases x <;> rfl

/-- ADC_CODE2V as the sequence performs it is the operation, where the setting fits its operand. -/
theorem exec_adcCode2v_of_lt (raw : Word) {g : Nat} (h : g < 2 ^ 9) (s : State) :
    exec (.adcCode2v (BitVec.ofNat 9 g) raw) s = pureOutcome (oneWord (adcCode2v (profOf s .adc) g raw)) s := by
  have hg : (BitVec.ofNat 9 g).toNat = g := by simpa using Nat.mod_eq_of_lt h
  rw [exec, execAdcCode2v, hg]

/-- A step that performs the operation by definition, and whose successor is the statement's by definition. -/
theorem stepIs_of_rfl {c : Chip} {r : SeqRun} : StepIs c r (performStep c r) fun ws => goOnward c (follow r ws) :=
  stepIs_of (fun _ => rfl) fun _ _ => rfl

/-- Settles O54: each step performs its operation, and its successor is the statement's, by definition but for the gain
setting, the mask, and what follows a calibrated voltage. -/
theorem sequenceStepsAreOperations : Obligations.SequenceStepsAreOperations := by
  unfold Obligations.SequenceStepsAreOperations
  rw [← wordsBytes_eq_bytesOf]
  intro u es out run volts
  have hvolts (raw : Word) (w : State) : pureOutcome (oneWord
      (adcCode2v (profOf w .adc) ((settingOf w).getD 0) raw)) w = volts raw w := by
    rw [oneWord_eq_map]
    rfl
  refine ⟨fun c => ⟨fun req => stepIs_of_rfl, stepIs_of_rfl, stepIs_of_rfl, stepIs_of_rfl⟩, stepIs_of_rfl, stepIs_of_rfl,
    stepIs_of_rfl, stepIs_of_rfl, fun b0 b1 b2 => ?_, fun raw => ?_, fun raw g w hw hg => ?_, fun ch v more hes => ?_,
    fun b0 b1 b2 b3 b4 => stepIs_of_rfl, fun ch v => stepIs_of_rfl, fun ch code => stepIs_of_rfl, fun c => stepIs_of_rfl⟩
  · exact stepIs_of (fun _ => rfl) fun ws t => by rw [← codeMask_eq]; rfl
  · exact stepIs_of (fun w => hvolts raw w) fun _ _ => rfl
  · rw [exec_adcCode2v_of_lt raw hg, ← hvolts, hw]
    rfl
  · subst hes
    exact stepIs_of (fun _ => rfl) fun ws t => by cases more <;> rfl

end Sys2Proof.Machine
end

section
/-! A sequence in progress, turn after turn: where it stands between two turns, and what a turn makes of it when its
operation answers or raises a fault (rule R250). -/

namespace Sys2Proof.Machine
open Sys2Proof.Config

/-- Between two turns: the state `s`, its chip `c` at work, with `x` on the result port, `r` next to do, and `p` left to be
taken. -/
def standing (s : State) (c : Chip) (p : List Event) (x : Option Answer) (r : SeqRun) : State :=
  withIo (atWork s c p) c { ioOf s c with result := x, running := some r }

section
variable {s v : State} {c : Chip} {n : Nat} {p : List Event} {x : Option Answer} {r r' : SeqRun} {ws : List Word}

@[simp] theorem ioOf_standing :
    ioOf (standing s c p x r) c = { ioOf s c with result := x, running := some r } := ioOf_withIo_same ..

theorem isBusy_standing (d : Chip) : isBusy (standing s c p x r) d = isBusy s d := by
  cases c <;> cases d <;> rfl

/-- The transport does not see where a sequence stands. -/
theorem replyAt_standing (k : Nat) : replyAt (standing s c p x r) k = replyAt s k := by
  simpa using replyAt_congr (k := 0) (isBusy_standing (s := s) (c := c) (p := p) (x := x) (r := r)) rfl rfl k

/-- A controller that has `r` next to do stands there. -/
theorem standing_self (hr : (ioOf s c).running = some r) : standing s c p (ioOf s c).result r = atWork s c p := by
  rw [standing, ← hr]
  cases c <;> rfl

/-- What an operation leaves of the sequence's chip when it answers: the sequence stands at its next step. -/
theorem goingOn_standing : goingOn c r' (answer (standing v c p x r) ws) = standing v c p (some (okAnswer ws)) r' := by
  cases c <;> rfl

theorem returning_standing (a : Answer) :
    returning c a (answer (standing v c p x r) ws) = returning c a (answer (atWork v c p) ws) := by
  cases c <;> rfl

theorem endedBy_standing (e : Raised) : endedBy c e (standing v c p x r) = endedBy c e (atWork v c p) := by
  cases c <;> rfl

/-- A sequence begun on a free chip, its own checks passed. -/
theorem steps_begin {q : Sequence} (hp : s.port = .sequence q :: p) (hf : isFree s (seqChip q) = true)
    (ho : openSequence q (atWork s (seqChip q) p) = .ok (.goOn r)) :
    steps (n + 1) s = steps n (standing s (seqChip q) p (ioOf s (seqChip q)).result r) :=
  steps_next ((step_sequence (waiting := []) hp nofun hf).trans (congrArg _ (beginSequence_ok ho)))

/-- A turn begins where the sequence stands. -/
theorem steps_from (hp : s.port = .proceed c :: p) (hb : isBusy s c = false) (hr : (ioOf s c).running = some r) :
    steps (n + 1) s = steps (n + 1) (standing s c (.proceed c :: p) (ioOf s c).result r) := by
  have hstep : step (standing s c (.proceed c :: p) (ioOf s c).result r) =
      proceed c (standing s c p (ioOf s c).result r) :=
    step_proceed (waiting := []) rfl nofun ((isBusy_standing c).trans hb)
  rw [steps, steps, hstep, standing_self hr, step_proceed (waiting := []) hp nofun hb]
  rfl

/-- A turn whose operation answers, on what it made of the state. -/
theorem steps_standing_answer (hb : isBusy s c = false)
    (h : performStep c r (standing s c p x r) = .next (answer (standing v c p x r) ws)) (hv : isBusy v c = false) :
    steps (n + 1) (standing s c (.proceed c :: p) x r) = steps n (goOnward c (follow r ws) (answer (standing v c p x r) ws)) :=
  steps_answer (s := standing ..) rfl ((isBusy_standing c).trans hb) (by simp) h rfl ((isBusy_standing c).trans hv)

/-- A turn whose operation answers, with another to come. -/
theorem steps_standing_on (hb : isBusy s c = false)
    (h : performStep c r (standing s c p x r) = .next (answer (standing v c p x r) ws)) (hv : isBusy v c = false)
    (hr : follow r ws = .goOn r') :
    steps (n + 1) (standing s c (.proceed c :: p) x r) = steps n (standing v c p (some (okAnswer ws)) r') := by
  rw [steps_standing_answer hb h hv, hr]
  exact congrArg (steps n) goingOn_standing

/-- The last turn, whose operation answers. -/
theorem steps_standing_return {us : List Word} (hb : isBusy s c = false)
    (h : performStep c r (standing s c p x r) = .next (answer (standing v c p x r) ws)) (hv : isBusy v c = false)
    (hr : follow r ws = .returns us) :
    steps (n + 1) (standing s c (.proceed c :: p) x r) =
      steps n (returning c (okAnswer us) (answer (atWork v c p) ws)) := by
  rw [steps_standing_answer hb h hv, hr]
  exact congrArg (steps n) (returning_standing _)

/-- A turn whose operation raises a fault, and the turns that are left when it has ended the sequence. -/
theorem steps_standing_fault {rest : List Event} {e : Raised} (hb : isBusy s c = false)
    (hp : p = List.replicate n (.proceed c) ++ rest)
    (h : performStep c r (standing s c p x r) = .next (deliver e (standing v c p x r))) (hv : isBusy v c = false) :
    steps (n + 1) (standing s c (.proceed c :: p) x r) = .next (endedBy c e (atWork v c rest)) := by
  have hturn : steps (n + 1) (standing s c (.proceed c :: p) x r) = steps n (endedBy c e (standing v c p x r)) :=
    steps_deliver rfl ((isBusy_standing c).trans hb) (by simp) h rfl ((isBusy_standing c).trans hv)
  have hfree : isFree (endedBy c e (atWork v c p)) c = true :=
    (isFree_iff _ _).mpr ⟨by simpa [isBusy] using hv, by simp⟩
  rw [hturn, endedBy_standing, steps_idle hp hfree rfl rfl]
  cases c <;> rfl

end

end Sys2Proof.Machine
end

section
/-! The two sequences that send one frame of their own, begun and run to their end (rules R254 and R258). -/

namespace Sys2Proof.Machine
open Sys2Proof.Config

/-- A frame sent from where a sequence stands. -/
theorem sent_standing {s : State} {c : Chip} {p : List Event} {x : Option Answer} {r : SeqRun} (fs : List Frame)
    (cs : List (Chip × Frame)) : sent (standing s c p x r) c fs cs = standing (sent s c fs cs) c p x r := by
  cases c <;> rfl

/-! ### WRITE_VOLTAGE_CHANNEL -/

/-- A voltage that has a code is one of a channel of the DAC, and the code fits its frame. -/
theorem dacV2code_ok {ch : Nat} {v code : Word} {s : State} (h : dacV2code ch v s = .ok code) :
    ch ≤ 7 ∧ code.toNat ≤ 65535 := by
  cases hl : lookupCal s .dac ch with
  | error e => rw [dacV2code_fault hl] at h; cases h
  | ok k =>
    obtain ⟨hch, _⟩ := lookupCal_inv hl
    refine ⟨Nat.le_of_lt_succ hch, ?_⟩
    by_cases hg : k.gain = 0
    · rw [dacV2code_gainZero hl hg] at h
      cases h
    · obtain ⟨_, _, rfl⟩ := dacV2code_inv hl hg h
      simp only [dacCode, BitVec.toNat_ofInt]
      omega

section
variable {ch : Byte} {v : Word} {s : State} {rest : List Event} (hf : isFree s .dac = true)
  (hp : s.port = .sequence (.writeVoltageChannel ch v) :: (List.replicate 3 (.proceed .dac) ++ rest))
include hf hp

theorem writeVoltageChannel_fault {e : Raised} (he : dacV2code ch.toNat v s = .error e) :
    steps 4 s = .next (endedBy .dac e (atWork s .dac rest)) := by
  obtain ⟨hb, _⟩ := (isFree_iff _ _).mp hf
  rw [steps_begin hp hf rfl]
  exact steps_standing_fault hb rfl (pureOutcome_noWord (s := standing s .dac _ _ _) he) hb

/-- Up to its transfer: the code is answered, then the frame's bytes. -/
theorem writeVoltageChannel_frame {code : Word} (hcode : dacV2code ch.toNat v s = .ok code) :
    let f : Frame := [BitVec.ofNat 8 (48 + ch.toNat), BitVec.ofNat 8 (code.toNat / 256), BitVec.ofNat 8 code.toNat]
    steps 4 s = steps 1 (standing s .dac (.proceed .dac :: rest) (some (okAnswer (byteListWords f)))
      { unit := 1, next := .sendUpdate f, entries := [], out := [] }) := by
  intro f
  obtain ⟨hb, _⟩ := (isFree_iff _ _).mp hf
  obtain ⟨hch, hdata⟩ := dacV2code_ok hcode
  have hframe : dacFrame opWrupd ch code = .ok f := dacFrame_bytes 3 ch code hch (by decide) hdata
  rw [steps_begin hp hf rfl]
  refine (steps_standing_on hb (by exact pureOutcome_word hcode) hb rfl).trans ?_
  refine (steps_standing_on hb (by exact pureOutcome_frame hframe _) hb rfl).trans ?_
  rw [wordsBytes_byteListWords]
  rfl

end

section
variable {s : State} {p rest : List Event} {x : Option Answer} {r : SeqRun} {f reply : Frame}
  (hn : r.next = .sendUpdate f) (hb : isBusy s .dac = false)
include hn hb

/-- The last turn, its frame answered. -/
theorem steps_sendUpdate_answered (hr : replyAt s 0 = .answered reply) : ∃ copies, copiesOf .dac [f] copies ∧
    steps 1 (standing s .dac (.proceed .dac :: p) x r) =
      .next (returning .dac (okAnswer []) (answer (sent (atWork s .dac p) .dac [f] copies) [])) := by
  have hr' : replyAt (standing s .dac p x r) 0 = .answered reply := (replyAt_standing 0).trans hr
  obtain ⟨copies, hc, hsent⟩ := sendByHand_answered hr' .dac f parseNothing
  refine ⟨copies, hc, steps_standing_return (v := sent s .dac [f] copies) hb ?_ (by simpa using hb) ?_⟩
  · simp only [performStep, hn, hsent, sent_standing]
    rfl
  · simp only [follow, hn]

theorem steps_sendUpdate_failed (hr : replyAt s 0 = .failed) : ∃ copies, copiesOf .dac [f] copies ∧
    steps 1 (standing s .dac (.proceed .dac :: p) x r) =
      .next (endedBy .dac { fault := .transportFault, info := 0 } (sent (atWork s .dac p) .dac [f] copies)) := by
  have hr' : replyAt (standing s .dac p x r) 0 = .failed := (replyAt_standing 0).trans hr
  obtain ⟨copies, hc, hsent⟩ := sendByHand_failed hr' .dac f parseNothing
  refine ⟨copies, hc, steps_standing_fault (v := sent s .dac [f] copies) hb rfl ?_ (by simpa using hb)⟩
  simp only [performStep, hn, hsent, sent_standing]
  rfl

end

/-- Settles O56: the code's fault, or the frame and how its transfer ends. -/
theorem writeVoltageChannelResult : Obligations.WriteVoltageChannelResult := by
  intro ch v s rest hf hp
  obtain ⟨hb, _⟩ := (isFree_iff _ _).mp hf
  refine ⟨fun e => writeVoltageChannel_fault hf hp, fun code hcode => ?_⟩
  rw [writeVoltageChannel_frame hf hp hcode]
  exact ⟨fun r => steps_sendUpdate_answered rfl hb, steps_sendUpdate_failed rfl hb⟩

/-! ### RESET_CHIP -/

section
variable {s : State} {c : Chip} {n : Nat} {p rest : List Event} {x : Option Answer} {r : SeqRun} {f reply : Frame}

theorem withStale_standing (b : Bool) : withStale (standing s c p x r) c b = standing (withStale s c b) c p x r := by
  cases c <;> rfl

theorem mirrorReset_standing : mirrorReset c (standing s c p x r) = standing (mirrorReset c s) c p x r := by
  cases c <;> rfl

theorem withStale_atWork (b : Bool) : withStale (atWork s c p) c b = atWork (withStale s c b) c p := by
  cases c <;> rfl

theorem mirrorReset_atWork : mirrorReset c (atWork s c p) = atWork (mirrorReset c s) c p := by
  cases c <;> rfl

theorem isBusy_mirrorReset (d : Chip) : isBusy (mirrorReset c s) d = isBusy s d := by
  cases c <;> cases d <;> rfl

/-- The frame of the reset command failed: the mirror is marked stale, and the sequence has ended. -/
theorem steps_sendReset_failed (hn : r.next = .sendReset f) (hb : isBusy s c = false)
    (hp : p = List.replicate n (.proceed c) ++ rest) (hr : replyAt s 0 = .failed) : ∃ copies, copiesOf c [f] copies ∧
      steps (n + 1) (standing s c (.proceed c :: p) x r) = .next (endedBy c { fault := .transportFault, info := 0 }
        (withStale (sent (atWork s c rest) c [f] copies) c true)) := by
  have hr' : replyAt (standing s c p x r) 0 = .failed := (replyAt_standing 0).trans hr
  obtain ⟨copies, hc, hsent⟩ := transfer_failed hr' c f 0
  refine ⟨copies, hc, ?_⟩
  rw [show sent (atWork s c rest) c [f] copies = atWork (sent s c [f] copies) c rest from rfl, withStale_atWork]
  refine steps_standing_fault hb hp ?_ ?_
  · simp only [performStep, hn, sendReset, hsent, sent_standing, withStale_standing]
    rfl
  · simpa [withStale] using hb

theorem steps_resetMirror (hn : r.next = .resetMirror) (hb : isBusy s c = false) :
    steps 1 (standing s c (.proceed c :: p) x r) =
      .next (returning c (okAnswer []) (answer (mirrorReset c (atWork s c p)) [])) := by
  rw [mirrorReset_atWork]
  refine steps_standing_return hb ?_ ((isBusy_mirrorReset c).trans hb) ?_
  · simp only [performStep, hn, exec, execMirrorReset, mirrorReset_standing]
  · simp only [follow, hn]

/-- The last two turns, the frame of the reset command answered. -/
theorem steps_sendReset_confirmed (hn : r.next = .sendReset f) (hb : isBusy s c = false)
    (hr : replyAt s 0 = .answered reply) : ∃ copies, copiesOf c [f] copies ∧
      steps 2 (standing s c (.proceed c :: .proceed c :: p) x r) =
        .next (returning c (okAnswer []) (answer (mirrorReset c (sent (atWork s c p) c [f] copies)) [])) := by
  have hr' : replyAt (standing s c (.proceed c :: p) x r) 0 = .answered reply := (replyAt_standing 0).trans hr
  obtain ⟨copies, hc, hsent⟩ := transfer_answered hr' c f 0
  refine ⟨copies, hc, (steps_standing_on (v := sent s c [f] copies) (ws := []) (r' := { r with next := .resetMirror }) hb ?_
    (by simpa using hb) ?_).trans (steps_resetMirror rfl (by simpa using hb))⟩
  · simp only [performStep, hn, sendReset, hsent, sent_standing]
    rfl
  · simp only [follow, hn]

end

section
variable {c : Chip} {s : State} {rest : List Event} (hf : isFree s c = true)
  (hp : s.port = .sequence (.resetChip c) :: (List.replicate 3 (.proceed c) ++ rest))
include hf hp

theorem resetChip_noCommand (h : (profOf s c).opReset = none) :
    steps 4 s = .next (endedBy c { fault := .invalidUnit, info := 0 } (atWork s c rest)) := by
  obtain ⟨hb, _⟩ := (isFree_iff _ _).mp hf
  rw [steps_begin hp hf rfl]
  refine steps_standing_fault hb rfl ?_ hb
  exact pureOutcome_noFrame (x := commandFrame (profOf s c).opReset) (by rw [h]; rfl) _

/-- Up to its transfer: the command's byte is answered. -/
theorem resetChip_frame {b : Byte} (h : (profOf s c).opReset = some b) :
    steps 4 s = steps 2 (standing s c (.proceed c :: .proceed c :: rest) (some (okAnswer (byteListWords [b])))
      { unit := 1, next := .sendReset [b], entries := [], out := [] }) := by
  obtain ⟨hb, _⟩ := (isFree_iff _ _).mp hf
  have hframe : commandFrame (profOf s c).opReset = .ok [b] := by rw [h]; rfl
  rw [steps_begin hp hf rfl]
  refine (steps_standing_on hb (by exact pureOutcome_frame hframe _) hb rfl).trans ?_
  rw [wordsBytes_byteListWords]
  rfl

end

/-- Settles O57: no command, or its frame and how its transfer ends. -/
theorem resetChipResult : Obligations.ResetChipResult := by
  intro c s rest hf hp
  obtain ⟨hb, _⟩ := (isFree_iff _ _).mp hf
  refine ⟨resetChip_noCommand hf hp, fun b h hr => ?_, fun b r h hr => ?_⟩
  · rw [resetChip_frame hf hp h]
    exact steps_sendReset_failed rfl hb rfl hr
  · rw [resetChip_frame hf hp h]
    exact steps_sendReset_confirmed rfl hb hr

end Sys2Proof.Machine
end

section
/-! What many turns in a row come to: a controller that got past a step did so by that step's operation, which answered (rules
R250 and R298). -/

namespace Sys2Proof.Machine
open Sys2Proof.Config

theorem steps_add (m n : Nat) (s : State) {t : State} (h : steps m s = .next t) : steps (m + n) s = steps n t := by
  induction m generalizing s with
  | zero =>
    cases h
    rw [Nat.zero_add]
  | succ m ih =>
    obtain ⟨u, hu⟩ := step_next s
    rw [steps_next hu] at h
    rw [Nat.succ_add, steps_next hu, ih u h]

/-- Steps keep the invariant. -/
theorem inv_steps {n : Nat} {s t : State} (hs : s.inv = true) (h : steps n s = .next t) : t.inv = true := by
  induction n generalizing s with
  | zero => cases h; exact hs
  | succ n ih =>
    obtain ⟨u, hu⟩ := step_next s
    rw [steps_next hu] at h
    exact ih (stepKeepsInvariant s u hs hu) h

/-! ### A sequence that waits or has ended -/

/-- The controller's further turns do nothing: its chip waits for a transfer, or it has no sequence. -/
def Halted (s : State) (c : Chip) : Prop := isBusy s c = true ∨ (ioOf s c).running = none

theorem steps_halted {c : Chip} {m n : Nat} {s t : State} (hp : s.port = List.replicate m (.proceed c))
    (hh : Halted s c) (h : steps n s = .next t) : ioOf t c = ioOf s c ∧ sameCore s t := by
  induction n generalizing m s with
  | zero => cases h; exact ⟨rfl, sameCore_refl _⟩
  | succ n ih =>
    by_cases hw : Waiting s s.port
    · rw [steps_next (step_waiting hw)] at h
      exact ih hp hh h
    · have hb : isBusy s c = false := by
        by_contra hb
        refine hw fun e he => .inr (.inr ⟨c, ?_, by simpa using hb⟩)
        rw [hp] at he
        exact List.eq_of_mem_replicate he
      have hr : (ioOf s c).running = none := hh.resolve_left (by simp [hb])
      cases m with
      | zero => exact absurd (hp ▸ waiting_nil s) hw
      | succ m =>
        have hstep : step s = .next (atWork s c (List.replicate m (.proceed c))) :=
          (step_proceed (waiting := []) hp nofun hb).trans (proceed_none (by simpa using hr))
        rw [steps_next hstep] at h
        obtain ⟨hio, hcore⟩ := ih rfl (.inr (by simpa using hr)) h
        exact ⟨by simpa using hio, hcore⟩

/-! ### A turn that was got past -/

/-- The controller of `c` has `n` turns to come and nothing else is on the port; `r` is next. -/
structure Ahead (c : Chip) (n : Nat) (r : SeqRun) (s : State) : Prop where
  port : s.port = List.replicate n (.proceed c)
  busy : isBusy s c = false
  running : (ioOf s c).running = some r

/-- The controller has got past `r`: it has something else to do, or it has ended its sequence without a fault. -/
def Past (c : Chip) (r : SeqRun) (t : State) : Prop :=
  (ioOf t c).running ≠ some r ∧
    ((ioOf t c).running = none → ∃ ws, (ioOf t c).returned = some (okAnswer ws))

/-- A step of a sequence does nothing to the controllers itself. -/
theorem performStep_controllers {c : Chip} {r : SeqRun} {s t : State} (h : performStep c r s = .next t) :
    SameControllers s t := by
  have hsettle (x : Except Raised (List Word)) : SameControllers s (settle x s) := by
    cases x <;> exact (SameControllers.refl s).result _
  unfold performStep at h
  split at h
  case h_7 => cases h; exact hsettle _
  case h_12 => exact outcome_controllers (sendByHand_controllers ..) h
  case h_13 => cases h; exact hsettle _
  case h_14 f _ =>
    refine outcome_controllers ?_ h
    have ht := transfer_controllers c f 0 s
    unfold sendReset
    split <;> rename_i hx <;> rw [hx] at ht
    · exact ht
    · exact ht.cfg ..
    · exact ht
  all_goals exact exec_controllers h

section
variable {α : Type} {c : Chip} {n : Nat} {r r' : SeqRun} {s t : State}

theorem Past.pos (hs : Ahead c n r s) (ht : steps n s = .next t) (hpast : Past c r t) : ∃ k, n = k + 1 := by
  cases n with
  | zero => cases ht; exact absurd hs.running hpast.1
  | succ k => exact ⟨k, rfl⟩

/-- A turn that was got past: its operation ended with a result, and the sequence went on with it. -/
theorem Past.turn {P : Raised → State → Prop} {fmt : α → List Word} {x : OpEnd α} (hpast : Past c r t)
    (hs : Ahead c (n + 1) r s) (ht : steps (n + 1) s = .next t)
    (hop : performStep c r (atWork s c (List.replicate n (.proceed c))) = outcome fmt x) (hx : FaultsBy c P x) :
    ∃ a u, x = .done a u ∧ isBusy u c = false ∧ u.port = List.replicate n (.proceed c) ∧
      step s = .next (goOnward c (follow r (fmt a)) (answer u (fmt a))) := by
  obtain ⟨v, hv⟩ := performStep_next c r (atWork s c (List.replicate n (.proceed c)))
  obtain ⟨hport, hturn, hctrl⟩ := performStep_controllers hv
  have hstep : step s = .next (carryOn c r v) :=
    (step_proceed (waiting := []) hs.port nofun hs.busy).trans (proceed_some (by simpa using hs.running) hv)
  rw [steps_next hstep] at ht
  have hrun : (ioOf v c).running = some r := by rw [(hctrl c).1]; simpa using hs.running
  have hfree : isBusy v c = false := by
    by_contra hb
    rw [carryOn_busy (by simpa using hb)] at ht
    have hio := (steps_halted hport (.inl (by simpa using hb)) ht).1
    exact hpast.1 (by rw [hio, hrun])
  rcases outcome_next (hop ▸ hv) with ⟨a, u, hxu, rfl⟩ | ⟨e, u, _, rfl⟩ | hxu
  · have hub : isBusy u c = false := by simpa using hfree
    refine ⟨a, u, hxu, hub, by simpa using hport, ?_⟩
    rw [hstep, carryOn_answer (by simpa using hturn) hub]
  · have hub : isBusy u c = false := by simpa using hfree
    rw [carryOn_deliver (by simpa using hturn) hub] at ht
    have hio := (steps_halted (s := endedBy c e u) (by simpa using hport) (.inr (by simp)) ht).1
    obtain ⟨ws, hws⟩ := hpast.2 (by rw [hio]; simp)
    rw [hio, ioOf_endedBy] at hws
    have hstatus := okAnswer_status ws
    rw [← Option.some.inj hws] at hstatus
    exact absurd hstatus (faultAnswer_status e)
  · rw [hxu] at hx
    exact absurd (hfree.symm.trans hx) Bool.false_ne_true

/-- A turn from `s` to `y`, where `r` is next and `n` turns lead on to `t`. -/
structure TurnTo (c : Chip) (n : Nat) (r : SeqRun) (s y t : State) : Prop where
  step : Machine.step s = .next y
  ahead : Ahead c n r y
  rest : steps n y = .next t

/-- A turn that was got past, and that another step follows. -/
theorem Past.turn_on {P : Raised → State → Prop} {fmt : α → List Word} {x : OpEnd α} {next : α → SeqRun}
    (hpast : Past c r t) (hs : Ahead c (n + 1) r s) (ht : steps (n + 1) s = .next t)
    (hop : performStep c r (atWork s c (List.replicate n (.proceed c))) = outcome fmt x) (hx : FaultsBy c P x)
    (hnext : ∀ a, follow r (fmt a) = .goOn (next a)) :
    ∃ a u y, x = .done a u ∧ TurnTo c n (next a) s y t ∧ sameCore u y := by
  obtain ⟨a, u, hxu, hb, hp, hstep⟩ := hpast.turn hs ht hop hx
  rw [hnext a] at hstep
  refine ⟨a, u, goingOn c (next a) (answer u (fmt a)), hxu, ⟨hstep, ⟨by simpa using hp, ?_, by simp⟩, ?_⟩,
    ⟨rfl, rfl, rfl, rfl, rfl, rfl, rfl⟩⟩
  · simpa [isBusy] using (isBusy_answer u (fmt a) c).trans hb
  · rwa [steps_next hstep] at ht

end

end Sys2Proof.Machine
end

section
/-! A pulse read: the chip is configured, started, waited for and read, and each of the four operations answered (rules R177,
R179, R181, R183 and R250). -/

namespace Sys2Proof.Machine
open Sys2Proof.Config

/-! ### What the operations of a sequence keep -/

/-- The profile, the calibration table and the mirrors are the same in two states. -/
structure Kept (s t : State) : Prop where
  profile : t.profile = s.profile
  cal : t.cal = s.cal
  mirror : ∀ c, (cfgOf t c).mirror = (cfgOf s c).mirror

section
variable {s t u : State}

theorem Kept.trans (h : Kept s t) (k : Kept t u) : Kept s u :=
  ⟨k.profile.trans h.profile, k.cal.trans h.cal, fun c => (k.mirror c).trans (h.mirror c)⟩

theorem Kept.of_sameCore (h : sameCore s t) : Kept s t := by
  obtain ⟨hp, hc, hcfg, _⟩ := h.parts
  exact ⟨hp, hc, fun c => by rw [hcfg]⟩

theorem Kept.mirrorGet (h : Kept s t) (c : Chip) (f : Byte) : mirrorGet t c f = mirrorGet s c f := by
  rw [Machine.mirrorGet, h.mirror]
  rfl

/-- An operation that answers and writes no mirror and no calibration entry keeps all this. -/
theorem kept_of_answer {i : Instr} {ws : List Word} {rest : List Event} {c : Chip}
    (h : exec i (atWork s c rest) = .next (answer u ws)) (hm : writesMirror (instanceOf i) i = false)
    (hc : writesCal i = false) : Kept s u := by
  have hw := exec_writtenBy h
  refine ⟨hw.profile, hw.cal.resolve_left (by simp [hc]), fun d => ?_⟩
  by_cases hd : d = instanceOf i
  · subst hd
    simpa using hw.mirror.resolve_left (by simp [hm])
  · simpa using congrArg CfgInstance.mirror (hw.cfg d hd)

theorem kept_startConv {c : ConvChip} {d : Chip} {v : BitVec 9} {rest : List Event}
    (h : startConv c v (atWork s d rest) = .done () u) : Kept s u :=
  kept_of_answer (i := .startConv c v) (congrArg (outcome noWords) h) rfl rfl

theorem kept_convDone (c : ConvChip) (d : Chip) (rest : List Event) : Kept s (convDone c (atWork s d rest)) :=
  kept_of_answer (i := .convDone c) rfl rfl rfl

theorem kept_readPulse {c : ConvChip} {d : Chip} {v : BitVec 9} {bytes : Frame} {rest : List Event}
    (h : readPulse c v (atWork s d rest) = .done bytes u) : Kept s u :=
  kept_of_answer (i := .readPulse c v) (congrArg (outcome byteListWords) h) rfl rfl

end

/-! ### SET_CONFIG without a profile's premise -/

theorem transfer_waits {c : Chip} {f : Frame} {info : Nat} {s t : State} (h : transfer c f info s = .hung t) :
    isBusy t c = true := by
  rcases transfer_cases c f info s with ⟨r, cs, _, _, hx⟩ | ⟨cs, _, hx⟩ | ⟨cs, _, _, hx⟩ <;> rw [hx] at h <;> cases h
  exact isBusy_markBusy_same _ c

theorem writeRegisters_waits {c : Chip} {ws : List RegWrite} {s t : State} (h : writeRegisters c ws s = .hung t) :
    isBusy t c = true := by
  induction ws generalizing s with
  | nil => cases h
  | cons w rest ih =>
    rw [writeRegisters] at h
    split at h
    · cases h
    · split at h
      · exact ih h
      · cases h
      · rename_i f _ _ ht
        cases h
        exact transfer_waits ht

/-- Waiting for a transfer, a SET_CONFIG has its chip busy, whatever the profile. -/
theorem setConfig_waits (c : Chip) (req : List Pair) (s : State) :
    FaultsBy c (fun _ _ => True) (setConfig c req s) := by
  unfold setConfig
  split
  · trivial
  · split
    · trivial
    · split
      · trivial
      · refine faultsBy_andThen_done ?_ _ _
        generalize hx : writeRegisters c _ _ = x
        cases x with
        | done => trivial
        | raised => trivial
        | hung t => exact writeRegisters_waits hx

/-! ### READ_PULSE and READ_CONT that answer -/

/-- A READ_PULSE that answers: the code bytes of the response, and the chip idle. -/
theorem readPulse_done {c : ConvChip} {u : BitVec 9} {bytes : Frame} {s t : State}
    (h : readPulse c u s = .done bytes t) : ∃ r, replyAt s 0 = .answered r ∧ 1 + readLen c ≤ r.length ∧
      bytes = (r.drop 1).take (readLen c) ∧ convOf t c = { mode := .idle, pulseDone := false } := by
  have hlead : readLead c = 1 := by cases c <;> rfl
  unfold readPulse at h
  split at h
  · rename_i hidle
    obtain ⟨bytes', v, hx, hv⟩ := andThen_eq_done h
    cases hv
    rcases readCode_cases c u s with hx' | ⟨f, _, ⟨r, cs, _, hr, hl, hx'⟩ | ⟨r, cs, _, _, hx'⟩ | ⟨cs, _, hx'⟩ |
      ⟨cs, _, _, hx'⟩⟩ <;> rw [hx'] at hx <;> cases hx
    rw [hlead] at hl ⊢
    exact ⟨r, hr, hl, rfl, by simp [hidle.1]⟩
  · cases h

/-! ### The four turns -/

/-- The steps of a pulse read, in their order. -/
def pulseSteps (c : ConvChip) (req : List Pair) : List SeqStep := [.configure c req, .start c, .complete c, .readPulse c]

/-- From `s` four turns made a pulse read: SET_CONFIG ended in `u`, READ_PULSE was next in `b` and read the response
`reply`, and its code bytes are converted next in `y`, with `k` turns left. -/
structure PulseRead (c : ConvChip) (req : List Pair) (r : SeqRun) (k : Nat) (s u b y : State) (reply : Frame) : Prop where
  configured : ∃ d rest, setConfig c.toChip req (atWork s c.toChip rest) = .done d u
  before : steps 3 s = .next b
  ready : Ahead c.toChip (k + 1) { r with next := .readPulse c } b
  kept : Kept u b
  answered : replyAt b 0 = .answered reply
  long : 1 + readLen c ≤ reply.length
  after : steps 4 s = .next y
  read : Ahead c.toChip k { r with next := afterRead c ((reply.drop 1).take (readLen c)) } y
  kept_read : Kept b y
  idle : convOf y c = { mode := .idle, pulseDone := false }

theorem pulseRead_of_past {c : ConvChip} {n : Nat} {req : List Pair} {r : SeqRun} {s t : State}
    (hs : Ahead c.toChip n { r with next := .configure c req } s) (ht : steps n s = .next t)
    (hpast : ∀ q ∈ pulseSteps c req, Past c.toChip { r with next := q } t) :
    ∃ k u b y reply, n = k + 4 ∧ PulseRead c req r k s u b y reply ∧ steps k y = .next t := by
  have h0 := hpast (.configure c req) (by simp [pulseSteps])
  have h1 := hpast (.start c) (by simp [pulseSteps])
  have h2 := hpast (.complete c) (by simp [pulseSteps])
  have h3 := hpast (.readPulse c) (by simp [pulseSteps])
  obtain ⟨n, rfl⟩ := h0.pos hs ht
  obtain ⟨d, u, y1, hconf, t1, k1⟩ := h0.turn_on hs ht rfl (setConfig_waits ..) fun _ => rfl
  obtain ⟨n, rfl⟩ := h1.pos t1.ahead t1.rest
  obtain ⟨_, u1, y2, hx1, t2, k2⟩ := h1.turn_on t1.ahead t1.rest rfl
    (startConv_faultsBy (i := .startConv c r.unit) c r.unit) fun _ => rfl
  obtain ⟨n, rfl⟩ := h2.pos t2.ahead t2.rest
  obtain ⟨_, u2, b, hx2, t3, k3⟩ := h2.turn_on (x := .done () (convDone c _)) (fmt := noWords) (P := fun _ _ => True)
    t2.ahead t2.rest rfl trivial fun _ => rfl
  obtain ⟨n, rfl⟩ := h3.pos t3.ahead t3.rest
  obtain ⟨_, u3, y, hx3, t4, k4⟩ := h3.turn_on t3.ahead t3.rest rfl
    (readPulse_faultsBy (i := .readPulse c r.unit) c r.unit) fun _ => rfl
  obtain ⟨reply, hreply, hlong, rfl, hidle⟩ := readPulse_done hx3
  obtain ⟨_, rfl⟩ := OpEnd.done.inj hx2
  have keeps {v w : State} (h : sameCore v w) := Kept.of_sameCore h
  rw [wordsBytes_byteListWords] at t4
  refine ⟨n, u, b, y, reply, rfl, ?_, t4.rest⟩
  exact
    { configured := ⟨d, _, hconf⟩
      before := by rw [steps_next t1.step, steps_next t2.step, steps_next t3.step, steps]
      ready := t3.ahead
      kept := (keeps k1).trans <| (kept_startConv hx1).trans <| (keeps k2).trans <|
        (kept_convDone ..).trans (keeps k3)
      answered := hreply
      long := hlong
      after := by rw [steps_next t1.step, steps_next t2.step, steps_next t3.step, steps_next t4.step, steps]
      read := t4.ahead
      kept_read := (kept_readPulse hx3).trans (keeps k4)
      idle := by
        obtain ⟨_, _, _, hconv⟩ := k4.parts
        rw [hconv, hidle] }

end Sys2Proof.Machine
end

section
/-! READ_TEMPERATURES: one read of the TC, and the temperatures of its code bytes (rules R250 and R255). -/

namespace Sys2Proof.Machine
open Sys2Proof.Config

theorem sameCore.trans {s t u : State} (h : sameCore s t) (k : sameCore t u) : sameCore s u := by
  obtain ⟨h1, h2, h3, h4, h5, h6, h7⟩ := h
  obtain ⟨k1, k2, k3, k4, k5, k6, k7⟩ := k
  exact ⟨k1.trans h1, k2.trans h2, k3.trans h3, k4.trans h4, k5.trans h5, k6.trans h6, k7.trans h7⟩

theorem sameCore_atWork {s : State} {c : Chip} {rest : List Event} : sameCore s (atWork s c rest) :=
  ⟨rfl, rfl, rfl, rfl, rfl, rfl, rfl⟩

/-! ### How a sequence begins -/

section
variable {q : Sequence} {s : State} {rest : List Event}

/-- A sequence whose own checks pass goes on with its first step, or returns. -/
theorem step_opens {o : Onward} (hp : s.port = .sequence q :: rest) (hf : isFree s (seqChip q) = true)
    (ho : openSequence q (atWork s (seqChip q) rest) = .ok o) :
    step s = .next (goOnward (seqChip q) o (atWork s (seqChip q) rest)) :=
  (step_sequence (waiting := []) hp nofun hf).trans (congrArg _ (beginSequence_ok ho))

/-- A sequence one of whose own checks fails ends with its fault. -/
theorem step_refuses {e : Raised} (hp : s.port = .sequence q :: rest) (hf : isFree s (seqChip q) = true)
    (ho : openSequence q (atWork s (seqChip q) rest) = .error e) :
    step s = .next (endedBy (seqChip q) e (atWork s (seqChip q) rest)) :=
  (step_sequence (waiting := []) hp nofun hf).trans (congrArg _ (beginSequence_error ho rfl))

end

section
variable {c : Chip} {r : SeqRun} {s t : State}

/-- With its first step next, and nothing but its turns on the port, a sequence is ahead. -/
theorem ahead_goingOn (n : Nat) (hb : isBusy s c = false) :
    Ahead c n r (goingOn c r (atWork s c (List.replicate n (.proceed c)))) :=
  ⟨rfl, by simpa [isBusy] using hb, by simp⟩

theorem Past.of_running {r' : SeqRun} (h : (ioOf t c).running = some r') (hne : r'.next ≠ r.next) : Past c r t := by
  refine ⟨fun hr => hne ?_, fun hn => ?_⟩
  · rw [h, Option.some.injEq] at hr
    rw [hr]
  · rw [h] at hn
    cases hn

end

/-! ### The two ways to read -/

/-- A turn that read a running continuous conversion changed no state of the SCCE. -/
theorem sameCore_of_readCont {c : ConvChip} {r : SeqRun} {s t : State}
    (hs : Ahead c.toChip 1 { r with next := .readCont c } s) (ht : steps 1 s = .next t)
    (hpast : Past c.toChip { r with next := .readCont c } t) : sameCore s t := by
  obtain ⟨a, u, y, hu, hturn, hcore⟩ := hpast.turn_on hs ht rfl
    (readCont_faultsBy (i := .readCont c r.unit) c r.unit) fun _ => rfl
  obtain rfl : y = t := by simpa [steps] using hturn.rest
  have hsent := (readCont_end c r.unit (atWork s c.toChip [])).core
  rw [show readCont c r.unit (atWork s c.toChip []) = .done a u from hu] at hsent
  exact sameCore_atWork.trans (hsent.trans hcore)

/-- A sequence with a step next that no pulse read makes has got past those that it makes. -/
theorem Past.pulseSteps {c : ConvChip} {d : Chip} {req : List Pair} {r r' : SeqRun} {t : State}
    (h : (ioOf t d).running = some r') (hn : r'.next ∉ pulseSteps c req) :
    ∀ q ∈ Machine.pulseSteps c req, Past d { r with next := q } t :=
  fun _ hq => .of_running h fun e => hn (e ▸ hq)

/-- A pulse read keeps the profile and the calibration table. -/
theorem PulseRead.frame {c : ConvChip} {req : List Pair} {r : SeqRun} {k : Nat} {s u b y : State} {reply : Frame}
    (h : PulseRead c req r k s u b y reply) : y.profile = s.profile ∧ y.cal = s.cal := by
  obtain ⟨d, rest, hu⟩ := h.configured
  obtain ⟨hp, hc, _⟩ := setConfig_frame c.toChip req (atWork s c.toChip rest)
  rw [hu] at hp hc
  have hkept := h.kept.trans h.kept_read
  exact ⟨hkept.profile.trans hp, hkept.cal.trans hc⟩

/-! ### READ_TEMPERATURES -/

theorem inContinuous_iff {s : State} {c : ConvChip} :
    inContinuous s c = true ↔ mirrorGet s c.toChip 0 = some (profOf s c.toChip).continuous := beq_iff_eq

section
variable {u : Option (BitVec 9)} {s : State} {rest : List Event} (hf : isFree s .tc = true)
  (hp : s.port = .sequence (.readTemperatures u) :: rest)
include hf hp

/-- READ_TEMPERATURES begins with a read in continuous mode, and else with a configuration of nothing. -/
theorem step_readTemperatures : step s = .next (goingOn .tc
    { unit := u.getD 1, next := if inContinuous s .tc then .readCont .tc else .configure .tc [], entries := [], out := [] }
    (atWork s .tc rest)) :=
  step_opens hp hf rfl

theorem step_readTemperatures_continuous (hc : mirrorGet s .tc 0 = some s.profile.tc.continuous) :
    step s = .next (goingOn .tc { unit := u.getD 1, next := .readCont .tc, entries := [], out := [] }
      (atWork s .tc rest)) := by
  rw [step_readTemperatures hf hp, if_pos (inContinuous_iff.mpr hc)]

theorem step_readTemperatures_pulse (hc : mirrorGet s .tc 0 ≠ some s.profile.tc.continuous) :
    step s = .next (goingOn .tc { unit := u.getD 1, next := .configure .tc [], entries := [], out := [] }
      (atWork s .tc rest)) := by
  rw [step_readTemperatures hf hp, if_neg (inContinuous_iff.not.mpr hc)]

end

section
variable {b0 b1 b2 b3 b4 : Byte} {r : SeqRun} {s : State} {rest : List Event} (hb : isBusy s .tc = false)
  (hr : (ioOf s .tc).running = some r) (hn : r.next = .toTemperatures [b0, b1, b2, b3, b4])
  (hp : s.port = .proceed .tc :: rest)
include hb hr hn hp

/-- The turn that converts five code bytes. -/
theorem step_toTemperatures {v : State} (hv : exec (.tcCode2t b0 b1 b2 b3 b4) (atWork s .tc rest) = .next v) :
    step s = .next (carryOn .tc r v) := by
  have hop : performStep .tc r (atWork s .tc rest) = .next v := by
    rw [performStep, hn]
    exact hv
  exact (step_proceed (waiting := []) hp nofun hb).trans (proceed_some hr hop)

end

/-- Settles O60: how it begins, the read, and the conversion of its code bytes. -/
theorem temperatureSequence : Obligations.TemperatureSequence := by
  refine ⟨fun u s hf => ?_, fun b0 b1 b2 b3 b4 r s rest hb hr hn hp => ⟨fun x y v z h => ?_, fun e h => ?_⟩⟩
  · obtain ⟨hb, _⟩ := (isFree_iff _ _).mp hf
    refine ⟨fun rest hp => ⟨step_readTemperatures_continuous hf hp, step_readTemperatures_pulse hf hp⟩,
      fun t bytes hc hp ht hrun => ?_, fun t bytes hc hp ht hrun => ?_⟩
    · rw [steps_next (step_readTemperatures_continuous hf hp hc)] at ht
      exact sameCore_of_readCont (c := .tc) (s := goingOn .tc _ (atWork s .tc _))
        (r := { unit := u.getD 1, next := .readCont .tc, entries := [], out := [] }) (ahead_goingOn 1 hb) ht
        (.of_running hrun nofun)
    · rw [steps_next (step_readTemperatures_pulse hf hp hc)] at ht
      obtain ⟨k, _, b, y, reply, hk, hread, hy⟩ := pulseRead_of_past (c := .tc)
        (r := { unit := u.getD 1, next := .configure .tc [], entries := [], out := [] }) (ahead_goingOn 4 hb) ht
        (.pulseSteps hrun (by simp [pulseSteps]))
      obtain rfl : k = 0 := by omega
      cases hy
      exact ⟨hread.idle, hread.frame.1⟩
  · rw [step_toTemperatures hb hr hn hp h, carryOn_answer (s := atWork s .tc rest) (c := .tc) rfl hb, follow, hn]
    rfl
  · rw [step_toTemperatures hb hr hn hp h, carryOn_deliver (s := atWork s .tc rest) (c := .tc) rfl hb]

end Sys2Proof.Machine
end

section
/-! READ_VOLTAGE and SINGLE_SAMPLE: their checks, the read, and the voltage of its code bytes (rules R250 to R252). -/

namespace Sys2Proof.Machine
open Sys2Proof.Config

/-! ### The mirror after a pulse read -/

/-- A SET_CONFIG that answers has laid its legal request over the mirror. -/
theorem setConfig_done {s u : State} {c : Chip} {req : List Pair} {d : List (Byte × Byte)} (hi : s.inv = true)
    (h : setConfig c req s = .done d u) :
    RequestOk (profOf s c) req ∧ (cfgOf u c).mirror = overlay (cfgOf s c).mirror req := by
  rcases setConfig_cases (s := s) (c := c) (req := req) (inv_profile hi) with ⟨e, _, hx⟩ | ⟨hok, hx⟩
  · rw [hx] at h; cases h
  · refine ⟨hok, ?_⟩
    rcases hx with ⟨_, hx⟩ | ⟨_, _, hx⟩ | ⟨_, _, ⟨copies, _, hx⟩ | ⟨before, r, after, copies, _, _, hx | ⟨hx, _⟩⟩⟩ <;>
      rw [hx] at h <;> cases h
    rw [configured_eq hi hok (by simp), enterConfiguring_cfgOf, cfgOf_withCfg_same]

section
variable {c : ConvChip} {req : List Pair} {r : SeqRun} {k : Nat} {s u b y : State} {reply : Frame} {f : Byte}

theorem PulseRead.mirror (hi : s.inv = true) (h : PulseRead c req r k s u b y reply) :
    RequestOk (profOf s c.toChip) req ∧
      mirrorGet b c.toChip f = (mirrorGet s c.toChip f).map fun v => (asked req f).getD v := by
  obtain ⟨d, rest, hu⟩ := h.configured
  obtain ⟨hok, hm⟩ := setConfig_done (s := atWork s c.toChip rest) hi hu
  refine ⟨by simpa using hok, ?_⟩
  rw [h.kept.mirrorGet, mirrorGet, hm, bankGet, overlay, lookup_map_fst _ fun f v => (asked req f).getD v, cfgOf_atWork]
  rfl

/-- A field that the request does not name is read with the value it had. -/
theorem PulseRead.mirror_kept (hi : s.inv = true) (h : PulseRead c req r k s u b y reply) (hf : asked req f = none) :
    mirrorGet b c.toChip f = mirrorGet s c.toChip f := by
  rw [(h.mirror hi).2, hf]
  exact Option.map_id'

/-- A field that the request names is read with the value asked for. -/
theorem PulseRead.mirror_asked {v : Byte} (hi : s.inv = true) (h : PulseRead c req r k s u b y reply)
    (hf : asked req f = some v) : mirrorGet b c.toChip f = some v := by
  obtain ⟨hok, hm⟩ := h.mirror (f := f) hi
  obtain ⟨q, hq, rfl⟩ : ∃ q ∈ req, q.field = f := by
    obtain ⟨q, hq, _⟩ := Option.map_eq_some_iff.mp hf
    exact ⟨q, List.mem_of_find?_eq_some hq, by simpa using List.find?_some hq⟩
  obtain ⟨spec, hspec, _⟩ := hok.2 q hq
  obtain ⟨old, hold⟩ := Option.isSome_iff_exists.mp (mirrorGet_isSome hi (c := c.toChip) (f := q.field) (by simp [hspec]))
  rw [hm, hold, hf]
  rfl

end

/-- A request for a channel names it, and not the gain. -/
theorem asked_channel (ch : Byte) : asked [ask 2 ch] 2 = some ch ∧ asked [ask 2 ch] 4 = none :=
  ⟨congrArg some (by simp [ask]), rfl⟩

/-! ### How the two sequences begin -/

/-- The run of a sequence that reads the voltage of `ch`, with `n` next. -/
def voltageRun (ch : Byte) (u : Option (BitVec 9)) (n : SeqStep) : SeqRun :=
  { unit := u.getD 1, next := n, entries := [ch], out := [] }

section
variable {req : List Pair} {ch : Byte} {u : Option (BitVec 9)} {w : State}

theorem openVoltage_notRunning (hc : mirrorGet w .adc 0 = some w.profile.adc.continuous)
    (hr : (convOf w .adc).mode ≠ .converting) :
    openVoltage req ch u w = .error { fault := .continuousModeError, info := 0 } := by
  unfold openVoltage
  rw [if_pos (inContinuous_iff.mpr hc), if_pos hr]
  rfl

theorem openVoltage_otherChannel (hc : mirrorGet w .adc 0 = some w.profile.adc.continuous)
    (hr : (convOf w .adc).mode = .converting) (hs : mirrorGet w .adc fActiveChannel ≠ some ch) :
    openVoltage req ch u w = .error { fault := .invalidConfigValue, info := 2 } := by
  unfold openVoltage
  rw [if_pos (inContinuous_iff.mpr hc), if_neg (not_not.mpr hr), if_pos hs]
  rfl

/-- Past the checks of continuous mode, the calibration entry decides. -/
theorem openVoltage_entry (h : mirrorGet w .adc 0 = some w.profile.adc.continuous →
      (convOf w .adc).mode = .converting ∧ mirrorGet w .adc fActiveChannel = some ch) :
    openVoltage req ch u w = (lookupCal w .adc ch.toNat).map fun _ =>
      .goOn (voltageRun ch u (if inContinuous w .adc then .readCont .adc else .configure .adc req)) := by
  unfold openVoltage
  by_cases hc : inContinuous w .adc = true
  · obtain ⟨hr, hs⟩ := h (inContinuous_iff.mp hc)
    rw [if_pos hc, if_neg (not_not.mpr hr), if_neg (not_not.mpr hs), if_pos hc]
    cases lookupCal w .adc ch.toNat <;> rfl
  · rw [if_neg hc, if_neg hc]
    cases lookupCal w .adc ch.toNat <;> rfl

theorem openVoltage_cases : (∃ e, openVoltage req ch u w = .error e) ∨ openVoltage req ch u w = .ok
    (.goOn (voltageRun ch u (if inContinuous w .adc then .readCont .adc else .configure .adc req))) := by
  by_cases h : mirrorGet w .adc 0 = some w.profile.adc.continuous →
      (convOf w .adc).mode = .converting ∧ mirrorGet w .adc fActiveChannel = some ch
  · rw [openVoltage_entry h]
    cases lookupCal w .adc ch.toNat with
    | error e => exact .inl ⟨e, rfl⟩
    | ok k => exact .inr rfl
  · obtain ⟨hc, h⟩ := Classical.not_imp.mp h
    by_cases hr : (convOf w .adc).mode = .converting
    · exact .inl ⟨_, openVoltage_otherChannel hc hr fun hs => h ⟨hr, hs⟩⟩
    · exact .inl ⟨_, openVoltage_notRunning hc hr⟩

end

/-- From `s` to `t` an ADC was read by a pulse conversion configured with `req`, and not otherwise changed. -/
structure Pulsed (req : List Pair) (s t : State) : Prop where
  asked : ∀ {f v}, Machine.asked req f = some v → mirrorGet t .adc f = some v
  kept : ∀ {f}, Machine.asked req f = none → mirrorGet t .adc f = mirrorGet s .adc f
  idle : t.adcConv = { mode := .idle, pulseDone := false }
  cal : t.cal = s.cal
  profile : t.profile = s.profile

/-- `q`, asked of a free ADC in `s`, reads the voltage of `ch`, configuring `req` in pulse mode. -/
structure VoltageAt (q : Sequence) (req : List Pair) (ch : Byte) (u : Option (BitVec 9)) (s : State) : Prop where
  free : isFree s .adc = true
  chip : seqChip q = .adc
  opens : ∀ rest, openSequence q (atWork s .adc rest) = openVoltage req ch u (atWork s .adc rest)

section
variable {q : Sequence} {req : List Pair} {ch : Byte} {u : Option (BitVec 9)} {s t : State} {rest : List Event}

theorem VoltageAt.step_opens {o : Onward} (h : VoltageAt q req ch u s) (hp : s.port = .sequence q :: rest)
    (ho : openVoltage req ch u (atWork s .adc rest) = .ok o) : step s = .next (goOnward .adc o (atWork s .adc rest)) := by
  have hstep := Machine.step_opens (o := o) hp (by rw [h.chip, h.free]) (by rw [h.chip, h.opens, ho])
  rwa [h.chip] at hstep

theorem VoltageAt.step_refuses {e : Raised} (h : VoltageAt q req ch u s) (hp : s.port = .sequence q :: rest)
    (ho : openVoltage req ch u (atWork s .adc rest) = .error e) : step s = .next (endedBy .adc e (atWork s .adc rest)) := by
  have hstep := Machine.step_refuses (e := e) hp (by rw [h.chip, h.free]) (by rw [h.chip, h.opens, ho])
  rwa [h.chip] at hstep

/-- Its own checks passed, it reads a running conversion or configures a pulse conversion. -/
theorem VoltageAt.step_entry (h : VoltageAt q req ch u s) (hp : s.port = .sequence q :: rest)
    (hc : mirrorGet s .adc 0 = some s.profile.adc.continuous →
      s.adcConv.mode = .converting ∧ mirrorGet s .adc 2 = some ch)
    (hch : ch.toNat < channelCount s.profile .adc) (hcal : (calGet s.cal .adc ch.toNat).isSome = true) :
    step s = .next (goingOn .adc
      (voltageRun ch u (if inContinuous s .adc then .readCont .adc else .configure .adc req)) (atWork s .adc rest)) := by
  obtain ⟨k, hk⟩ := Option.isSome_iff_exists.mp hcal
  refine h.step_opens (o := .goOn _) hp ((openVoltage_entry (w := atWork s .adc rest) hc).trans ?_)
  rw [lookupCal_ok (s := atWork s .adc rest) hch hk]
  rfl

/-- Still in progress after some turns, it has begun so. -/
theorem VoltageAt.step_of_running {n : Nat} {r : SeqRun} (h : VoltageAt q req ch u s)
    (hp : s.port = .sequence q :: List.replicate n (.proceed .adc)) (ht : steps (n + 1) s = .next t)
    (hr : (ioOf t .adc).running = some r) : step s = .next (goingOn .adc
      (voltageRun ch u (if inContinuous s .adc then .readCont .adc else .configure .adc req))
      (atWork s .adc (List.replicate n (.proceed .adc)))) := by
  rcases openVoltage_cases (req := req) (ch := ch) (u := u) (w := atWork s .adc (List.replicate n (.proceed .adc)))
    with ⟨e, he⟩ | ho
  · rw [steps_next (h.step_refuses hp he)] at ht
    obtain ⟨hio, _⟩ := steps_halted (c := .adc) (m := n) (by simp) (.inr (by simp)) ht
    rw [hio] at hr
    simp at hr
  · exact h.step_opens hp ho

/-- A continuous read of its code bytes changes no state of the SCCE. -/
theorem VoltageAt.sameCore_of_continuous {bytes : Frame} (h : VoltageAt q req ch u s)
    (hc : mirrorGet s .adc 0 = some s.profile.adc.continuous) (hp : s.port = [.sequence q, .proceed .adc])
    (ht : steps 2 s = .next t) (hr : (ioOf t .adc).running = some (voltageRun ch u (.assemble bytes))) :
    sameCore s t := by
  obtain ⟨hb, _⟩ := (isFree_iff _ _).mp h.free
  have hstep := h.step_of_running (n := 1) hp ht hr
  rw [if_pos (inContinuous_iff.mpr hc)] at hstep
  rw [steps_next hstep] at ht
  exact sameCore_of_readCont (c := .adc) (s := goingOn .adc _ (atWork s .adc _)) (r := voltageRun ch u (.readCont .adc))
    (ahead_goingOn 1 hb) ht (.of_running hr nofun)

/-- A pulse read of its code bytes leaves the chip idle, and the configuration that was asked for. -/
theorem VoltageAt.pulsed {bytes : Frame} (hi : s.inv = true) (h : VoltageAt q req ch u s)
    (hc : mirrorGet s .adc 0 ≠ some s.profile.adc.continuous)
    (hp : s.port = .sequence q :: List.replicate 4 (.proceed .adc)) (ht : steps 5 s = .next t)
    (hr : (ioOf t .adc).running = some (voltageRun ch u (.assemble bytes))) : Pulsed req s t := by
  obtain ⟨hb, _⟩ := (isFree_iff _ _).mp h.free
  have hstep := h.step_of_running (n := 4) hp ht hr
  rw [if_neg (inContinuous_iff.not.mpr hc)] at hstep
  have hi' := stepKeepsInvariant s _ hi hstep
  rw [steps_next hstep] at ht
  obtain ⟨k, _, b, y, reply, hk, hread, hy⟩ := pulseRead_of_past (c := .adc) (r := voltageRun ch u (.configure .adc req))
    (ahead_goingOn 4 hb) ht (.pulseSteps hr (by simp [pulseSteps, voltageRun]))
  obtain rfl : k = 0 := by omega
  cases hy
  obtain ⟨hprofile, hcal⟩ := hread.frame
  exact
    { asked := fun hf => (hread.kept_read.mirrorGet ..).trans (hread.mirror_asked hi' hf)
      kept := fun hf => (hread.kept_read.mirrorGet ..).trans (hread.mirror_kept hi' hf)
      idle := hread.idle
      cal := hcal
      profile := hprofile }

end

/-! ### From the code bytes to the voltage -/

/-- The mask between ADC_ASM and ADC_CODE2V undoes the sign extension (rules R141 and R251). -/
theorem codeMask_asmWord (b0 b1 b2 : Byte) : ((asmWord b0 b1 b2).extractLsb' 0 24).setWidth 32 =
    BitVec.ofNat 32 (65536 * b0.toNat + 256 * b1.toNat + b2.toNat) := by
  have hlow : (asmWord b0 b1 b2).extractLsb' 0 24 = code24 b0 b1 b2 := by
    ext i hi
    simp [asmWord, show i < 32 by omega, BitVec.getElem_signExtend, hi]
  rw [hlow, ← code24_toNat, BitVec.ofNat_toNat]

section
variable {s : State} {r : SeqRun} {bytes : Frame} {b0 b1 b2 g ch : Byte} {raw v : Word} {setting : Nat} {more : List Byte}

theorem performStep_assemble (hn : r.next = .assemble [b0, b1, b2]) :
    performStep .adc r s = .next (answer s [asmWord b0 b1 b2]) := by
  rw [performStep, hn]
  rfl

theorem follow_assemble (hn : r.next = .assemble bytes) : follow r [asmWord b0 b1 b2] = .goOn
    { r with next := .toVolts (BitVec.ofNat 32 (65536 * b0.toNat + 256 * b1.toNat + b2.toNat)) } := by
  rw [follow, hn, ← codeMask_asmWord]
  rfl

/-- The setting of a gain that the profile names. -/
theorem gainOf_some {p : ChipProfile} {m : Option Byte} (hm : m = some g) (hs : p.gainValue.lookup g = some setting) :
    gainOf p m = setting := by
  rw [gainOf, hm, Option.bind_some, hs, Option.getD_some]

theorem performStep_toVolts (hn : r.next = .toVolts raw) (hg : mirrorGet s .adc 4 = some g)
    (hs : s.profile.adc.gainValue.lookup g = some setting) :
    performStep .adc r s = pureOutcome (oneWord (adcCode2v s.profile.adc setting raw)) s := by
  rw [performStep, hn, ← gainOf_some hg hs]
  rfl

theorem performStep_calibrate (hn : r.next = .calibrate v) (he : r.entries = ch :: more) :
    performStep .adc r s = pureOutcome (oneWord (calApply .adc ch.toNat v s)) s := by
  rw [performStep, hn, he]
  rfl

/-- A calibrated voltage depends on the profile and the calibration table only. -/
theorem calApply_congr {s t : State} (hp : t.profile = s.profile) (hc : t.cal = s.cal) (m : Chip) (ch : Nat) (v : Word) :
    calApply m ch v t = calApply m ch v s := by
  rw [calApply, calApply, lookupCal_congr hp (by rw [hc])]

end

section
variable {ch b0 b1 b2 : Byte} {r : SeqRun} {s : State} {rest : List Event} (hb : isBusy s .adc = false)
include hb

/-- The last turn: the calibration. -/
theorem steps_calibrate {x : Option Answer} {volts : Word} (hn : r.next = .calibrate volts) (he : r.entries = [ch]) :
    (∀ w, calApply .adc ch.toNat volts s = .ok w → steps 1 (standing s .adc (.proceed .adc :: rest) x r) =
      .next (returning .adc (okAnswer (r.out ++ [w])) (answer (atWork s .adc rest) [w]))) ∧
    (∀ e, calApply .adc ch.toNat volts s = .error e → steps 1 (standing s .adc (.proceed .adc :: rest) x r) =
      .next (endedBy .adc e (atWork s .adc rest))) := by
  have hop := performStep_calibrate (s := standing s .adc rest x r) hn he
  refine ⟨fun w hw => steps_standing_return hb (hop.trans (pureOutcome_word hw)) hb ?_,
    fun e h => steps_standing_fault hb rfl (hop.trans (pureOutcome_noWord h)) hb⟩
  rw [follow, hn]
  simp only [afterVoltage, he]
  rfl

/-- The last two turns: the conversion of the code, and the calibration. -/
theorem steps_toVolts {x : Option Answer} {raw : Word} {g : Byte} {setting : Nat} (hn : r.next = .toVolts raw)
    (he : r.entries = [ch]) (hg : mirrorGet s .adc 4 = some g) (hs : s.profile.adc.gainValue.lookup g = some setting) :
    let v := (adcCode2v s.profile.adc setting raw).bind fun x => calApply .adc ch.toNat x s
    (∀ w, v = .ok w → steps 2 (standing s .adc (.proceed .adc :: .proceed .adc :: rest) x r) =
      .next (returning .adc (okAnswer (r.out ++ [w])) (answer (atWork s .adc rest) [w]))) ∧
    (∀ e, v = .error e → steps 2 (standing s .adc (.proceed .adc :: .proceed .adc :: rest) x r) =
      .next (endedBy .adc e (atWork s .adc rest))) := by
  have hop := performStep_toVolts (s := standing s .adc (.proceed .adc :: rest) x r) hn hg hs
  cases hx : adcCode2v s.profile.adc setting raw with
  | error e =>
    refine ⟨nofun, fun _ h => ?_⟩
    cases h
    exact steps_standing_fault (n := 1) hb rfl (hop.trans (pureOutcome_noWord hx)) hb
  | ok volts =>
    have hnext : follow r [volts] = .goOn { r with next := .calibrate volts } := by
      rw [follow, hn]
      rfl
    rw [steps_standing_on (n := 1) hb (hop.trans (pureOutcome_word hx)) hb hnext]
    exact steps_calibrate hb rfl he

theorem steps_volts {v : Except Raised Word} (hr : (ioOf s .adc).running = some r) (hn : r.next = .assemble [b0, b1, b2])
    (he : r.entries = [ch]) (hp : s.port = List.replicate 3 (.proceed .adc) ++ rest) (hv : Volts s ch [b0, b1, b2] v) :
    (∀ w, v = .ok w → steps 3 s =
      .next (returning .adc (okAnswer (r.out ++ [w])) (answer (atWork s .adc rest) [w]))) ∧
    (∀ e, v = .error e → steps 3 s = .next (endedBy .adc e (atWork s .adc rest))) := by
  obtain ⟨_, _, _, g, setting, hbytes, hg, hs, rfl⟩ := hv
  obtain ⟨rfl, rfl, rfl⟩ : _ ∧ _ ∧ _ := by simpa using hbytes
  rw [steps_from (p := .proceed .adc :: .proceed .adc :: rest) hp hb hr,
    steps_standing_on (n := 2) hb (performStep_assemble (s := standing ..) hn) hb (follow_assemble hn)]
  exact steps_toVolts hb rfl he hg hs

end

/-- Settles O59: how the two sequences begin, the read, and the conversion of its code bytes. -/
theorem voltageSequences : Obligations.VoltageSequences := by
  refine ⟨fun ch u s hi hf => ?_, fun ch b0 b1 b2 r v s rest hb hr hn he hp hv => steps_volts hb hr hn he hp hv⟩
  intro continuous running entry selected run does
  have hdoes {q : Sequence} {req : List Pair} (h : VoltageAt q req ch u s)
      (hreq : ∀ t, Pulsed req s t → mirrorGet t .adc 2 = some ch ∧ mirrorGet t .adc 4 = mirrorGet s .adc 4) :
      does q req := by
    refine ⟨fun rest hp => ⟨fun hc hr => ?_, fun e hc he => ?_, fun hc hr hs he => ?_, fun hc he => ?_⟩,
      fun t bytes hc hp ht hr => h.sameCore_of_continuous hc hp ht hr, fun t bytes hc hp ht hr => ?_⟩
    · exact h.step_refuses hp (openVoltage_notRunning (w := atWork s .adc rest) hc hr)
    · refine h.step_refuses hp ((openVoltage_entry (w := atWork s .adc rest) hc).trans ?_)
      rw [lookupCal_raises (s := atWork s .adc rest) he]
      rfl
    · rw [h.step_entry hp (fun _ => ⟨hr, hs⟩) he.1 he.2, if_pos (inContinuous_iff.mpr hc)]
      rfl
    · rw [h.step_entry hp (fun hc' => absurd hc' hc) he.1 he.2, if_neg (inContinuous_iff.not.mpr hc)]
      rfl
    · have hpulsed := h.pulsed hi hc hp ht hr
      obtain ⟨hchannel, hgain⟩ := hreq t hpulsed
      exact ⟨hchannel, hpulsed.idle, hgain, hpulsed.cal, hpulsed.profile⟩
  refine ⟨hdoes ⟨hf, rfl, fun _ => rfl⟩ fun t h => ⟨h.asked (asked_channel ch).1, h.kept (asked_channel ch).2⟩,
    fun rest hp hc hr hs => ?_, fun hs => hdoes ⟨hf, rfl, fun rest => ?_⟩ fun t h => ⟨(h.kept rfl).trans hs, h.kept rfl⟩⟩
  · exact step_refuses hp hf (openVoltage_otherChannel (w := atWork s .adc rest) hc hr hs)
  · change openVoltage [] ((mirrorGet s .adc 2).getD 0) u _ = _
    rw [show mirrorGet s .adc 2 = some ch from hs]
    rfl

end Sys2Proof.Machine
end

section
/-! READ_SAMPLES_BATCH: its checks, its rounds, and the order of its voltages (rules R253 and R259). -/

namespace Sys2Proof.Machine
open Sys2Proof.Config

/-! ### How a batch begins -/

/-- An entry that the checks before any frame let pass: a legal channel with a calibration entry. -/
def GoodEntry (s : State) (id : Byte) : Prop :=
  (∃ f, fieldSpec s.profile.adc 2 = some f ∧ id ∈ f.legal) ∧
    id.toNat < channelCount s.profile .adc ∧ (calGet s.cal .adc id.toNat).isSome = true

section
variable {s : State} {id : Byte} {ids more : List Byte}

theorem batchChecks_illegal (h : ∀ f, fieldSpec s.profile.adc 2 = some f → id ∉ f.legal) :
    batchChecks s (id :: more) = .error { fault := .invalidConfigValue, info := 2 } := by
  have hlegal : isLegal (profOf s .adc) (fActiveChannel, id) = false :=
    Bool.eq_false_iff.mpr fun hl => by
      obtain ⟨f, hf, hid⟩ := isLegal_iff.mp hl
      exact h f hf hid
  rw [batchChecks, if_pos hlegal]
  rfl

theorem batchChecks_legal (h : ∃ f, fieldSpec s.profile.adc 2 = some f ∧ id ∈ f.legal) :
    batchChecks s (id :: more) = (lookupCal s .adc id.toNat).bind fun _ => batchChecks s more := by
  have hlegal : isLegal (profOf s .adc) (fActiveChannel, id) = true := isLegal_iff.mpr h
  rw [batchChecks, if_neg (by simp [hlegal])]
  cases lookupCal s .adc id.toNat <;> rfl

/-- Entries that pass are followed by the checks of the rest. -/
theorem batchChecks_good (h : ∀ id ∈ ids, GoodEntry s id) : batchChecks s (ids ++ more) = batchChecks s more := by
  induction ids with
  | nil => rfl
  | cons id ids ih =>
    obtain ⟨hlegal, hch, hcal⟩ := h id List.mem_cons_self
    obtain ⟨k, hk⟩ := Option.isSome_iff_exists.mp hcal
    rw [List.cons_append, batchChecks_legal hlegal, lookupCal_ok hch hk]
    exact ih fun id' h' => h id' (List.mem_cons_of_mem _ h')

theorem batchChecks_all (h : ∀ id ∈ ids, GoodEntry s id) : batchChecks s ids = .ok () := by
  simpa [batchChecks] using batchChecks_good (more := []) h

end

theorem legalRate_iff {p : ChipProfile} {dr : BitVec 24} :
    legalRate p dr = true ↔ ∃ f, fieldSpec p 1 = some f ∧ ∃ b ∈ f.legal, b.toNat = dr.toNat := by
  unfold legalRate legalValue fDataRate
  cases fieldSpec p 1 <;> simp

/-- The request of a batch's first round. -/
def firstRequest (s : State) (dr : BitVec 24) (id : Byte) : List Pair :=
  [ask 0 s.profile.adc.pulse, { field := 1, value := dr }, ask 2 id]

/-- A batch in progress: `n` next, `es` still to be read, and the voltages `out` read. -/
def batchRun (u : Option (BitVec 9)) (es : List Byte) (out : List Word) (n : SeqStep) : SeqRun :=
  { unit := u.getD 1, next := n, entries := es, out := out }

section
variable {dr : BitVec 24} {u : Option (BitVec 9)} {s : State} {id : Byte} {l more : List Byte} {e : Raised}

theorem openBatch_error (h : batchChecks s l = .error e) : openBatch dr l u s = .error e := by
  cases l with
  | nil => cases h
  | cons id more => rw [openBatch, h]

theorem openBatch_badRate (h : batchChecks s (id :: more) = .ok ()) (hr : legalRate s.profile.adc dr = false) :
    openBatch dr (id :: more) u s = .error { fault := .invalidConfigValue, info := 1 } := by
  rw [openBatch, h]
  exact if_pos hr

theorem openBatch_ok (h : batchChecks s (id :: more) = .ok ()) (hr : legalRate s.profile.adc dr = true) :
    openBatch dr (id :: more) u s =
      .ok (.goOn (batchRun u (id :: more) [] (.configure .adc (firstRequest s dr id)))) := by
  rw [openBatch, h]
  exact if_neg (by simp [profOf, Profiles.of, hr])

theorem openBatch_cases : (∃ e, openBatch dr (id :: more) u s = .error e) ∨ openBatch dr (id :: more) u s =
    .ok (.goOn (batchRun u (id :: more) [] (.configure .adc (firstRequest s dr id)))) := by
  cases h : batchChecks s (id :: more) with
  | error e => exact .inl ⟨e, openBatch_error h⟩
  | ok _ =>
    cases hr : legalRate s.profile.adc dr with
    | false => exact .inl ⟨_, openBatch_badRate h hr⟩
    | true => exact .inr (openBatch_ok h hr)

end

/-! ### Turns that convert -/

theorem pureOutcome_oneWord (x : Except Raised Word) (s : State) :
    pureOutcome (oneWord x) s = outcome (fun w => [w]) (lift x s) := by
  cases x <;> rfl

theorem lift_eq_done {α : Type} {x : Except Raised α} {a : α} {s t : State} (h : lift x s = .done a t) :
    x = .ok a ∧ t = s := by
  cases x <;> cases h
  exact ⟨rfl, rfl⟩

/-- A pure operation does not wait. -/
theorem lift_waits {α : Type} (c : Chip) (x : Except Raised α) (s : State) :
    FaultsBy c (fun _ _ => True) (lift x s) := by
  cases x <;> trivial

/-- A code with a voltage was converted at a gain that the profile gives a setting. -/
theorem gain_of_adcCode2v {p : Profiles} {m : Option Byte} {raw v : Word} (hp : profilesOk p = true)
    (h : adcCode2v p.adc (gainOf p.adc m) raw = .ok v) :
    ∃ g setting, m = some g ∧ p.adc.gainValue.lookup g = some setting := by
  have hmem : gainOf p.adc m ∈ gainSettings p.adc := by
    by_contra hn
    rw [adcCode2v_badGain hn] at h
    cases h
  have hpos : 1 ≤ gainOf p.adc m := by
    simp only [profilesOk, Bool.and_eq_true, List.all_eq_true, decide_eq_true_eq] at hp
    exact hp.2 _ hmem
  cases m with
  | none => simp [gainOf] at hpos
  | some g =>
    cases hs : p.adc.gainValue.lookup g with
    | none => simp [gainOf, hs] at hpos
    | some setting => exact ⟨g, setting, rfl, hs⟩

theorem Volts.congr {s t : State} {ch : Byte} {bytes : Frame} {v : Except Raised Word} (h : Volts s ch bytes v)
    (hp : t.profile = s.profile) (hc : t.cal = s.cal) (hm : mirrorGet t .adc 4 = mirrorGet s .adc 4) :
    Volts t ch bytes v := by
  obtain ⟨b0, b1, b2, g, setting, hb, hg, hs, hv⟩ := h
  refine ⟨b0, b1, b2, g, setting, hb, hm.trans hg, by rw [hp, hs], ?_⟩
  simpa only [hp, calApply_congr hp hc] using hv

/-- A turn that was got past, of a pure operation with one result word, and that another step follows. -/
theorem Past.turn_word {c : Chip} {n : Nat} {r : SeqRun} {s t : State} {x : Except Raised Word} {next : Word → SeqRun}
    (hpast : Past c r t) (hs : Ahead c (n + 1) r s) (ht : steps (n + 1) s = .next t)
    (hop : performStep c r (atWork s c (List.replicate n (.proceed c))) =
      pureOutcome (oneWord x) (atWork s c (List.replicate n (.proceed c))))
    (hnext : ∀ w, follow r [w] = .goOn (next w)) : ∃ w y, x = .ok w ∧ TurnTo c n (next w) s y t ∧ sameCore s y := by
  obtain ⟨w, u, y, hx, hturn, hcore⟩ :=
    hpast.turn_on hs ht (hop.trans (pureOutcome_oneWord ..)) (lift_waits ..) hnext
  obtain ⟨hw, rfl⟩ := lift_eq_done hx
  exact ⟨w, y, hw, hturn, sameCore_atWork.trans hcore⟩

/-- Three turns that were got past converted three code bytes: the sequence goes on from `w` with the calibrated voltage. -/
theorem volts_of_past {n : Nat} {r : SeqRun} {s t : State} {b0 b1 b2 ch : Byte} {more : List Byte}
    (hp : profilesOk s.profile = true) (hs : Ahead .adc n { r with next := .assemble [b0, b1, b2] } s)
    (he : r.entries = ch :: more) (ht : steps n s = .next t) (hpast : ∀ q, Past .adc q t) : ∃ k v w, n = k + 3 ∧
      Volts s ch [b0, b1, b2] (.ok v) ∧ isBusy w .adc = false ∧ w.port = List.replicate k (.proceed .adc) ∧
      sameCore s w ∧ steps 3 s = .next (goOnward .adc (afterVoltage r v) w) := by
  obtain ⟨n, rfl⟩ := (hpast _).pos hs ht
  obtain ⟨_, y1, hasm, t1, k1⟩ := (hpast _).turn_word (x := .ok (asmWord b0 b1 b2)) hs ht (performStep_assemble rfl)
    (next := fun w => { r with next := .toVolts ((w.extractLsb' 0 24).setWidth 32) }) fun _ => rfl
  cases hasm
  obtain ⟨n, rfl⟩ := (hpast _).pos t1.ahead t1.rest
  obtain ⟨volts, y2, hvolts, t2, k2⟩ := (hpast _).turn_word t1.ahead t1.rest rfl
    (next := fun w => { r with next := .calibrate w }) fun _ => rfl
  obtain ⟨n, rfl⟩ := (hpast _).pos t2.ahead t2.rest
  obtain ⟨v, w, hx, hb, hport, hstep⟩ := (hpast _).turn t2.ahead t2.rest
    ((performStep_calibrate (r := { r with next := .calibrate volts }) rfl he).trans (pureOutcome_oneWord ..))
    (lift_waits ..)
  obtain ⟨hcal, rfl⟩ := lift_eq_done hx
  have kept1 := Kept.of_sameCore k1
  have kept2 := kept1.trans (Kept.of_sameCore k2)
  have hcode : adcCode2v y1.profile.adc (gainOf y1.profile.adc (mirrorGet y1 .adc 4)) _ = .ok volts := hvolts
  rw [codeMask_asmWord, kept1.profile, kept1.mirrorGet] at hcode
  rw [calApply_congr (s := s) (t := atWork y2 .adc _) kept2.profile kept2.cal] at hcal
  obtain ⟨g, setting, hg, hs⟩ := gain_of_adcCode2v hp hcode
  have hnext : follow { r with next := .calibrate volts } [v] = afterVoltage r v := by
    unfold follow afterVoltage
    cases r.entries.tail <;> rfl
  rw [gainOf_some hg hs] at hcode
  rw [hnext] at hstep
  exact ⟨n, v, answer (atWork y2 .adc (List.replicate n (.proceed .adc))) [v], rfl,
    ⟨b0, b1, b2, g, setting, rfl, hg, hs, by rw [hcode]; exact hcal.symm⟩, by simpa using hb, rfl,
    k1.trans k2, by rw [steps_next t1.step, steps_next t2.step, steps_next hstep, steps]⟩

/-! ### One round -/

theorem okAnswer_inj {us ws : List Word} (h : okAnswer us = okAnswer ws) : us = ws := congrArg Answer.words h

/-- A sequence that has returned its result has got past every step. -/
theorem Past.of_returned {c : Chip} {r : SeqRun} {t : State} {ws : List Word} (h : (ioOf t c).running = none)
    (hret : (ioOf t c).returned = some (okAnswer ws)) : Past c r t :=
  ⟨by simp [h], fun _ => ⟨ws, hret⟩⟩

/-- A round from `s`: in `b` the entry `ch` is the active channel and the response `reply` is read, and in `y`, with `k`
turns left, the voltage `v` is one of those read and the entries `more` are still to be read. -/
structure Round (u : Option (BitVec 9)) (ch : Byte) (more : List Byte) (out : List Word) (k : Nat) (s b y : State)
    (reply : Frame) (v : Word) : Prop where
  before : steps 3 s = .next b
  running : (ioOf b .adc).running = some (batchRun u (ch :: more) out (.readPulse .adc))
  selected : mirrorGet b .adc 2 = some ch
  answered : replyAt b 0 = .answered reply
  volts : Volts s ch ((reply.drop 1).take 3) (.ok v)
  after : steps 7 s = .next y
  port : y.port = List.replicate k (.proceed .adc)
  goesOn : ∀ {id rest}, more = id :: rest →
    Ahead .adc k (batchRun u more (out ++ [v]) (.configure .adc [ask 2 id])) y
  ends : more = [] → (ioOf y .adc).running = none ∧ (ioOf y .adc).returned = some (okAnswer (out ++ [v]))
  profile : y.profile = s.profile
  cal : y.cal = s.cal
  stays : mirrorGet y .adc 2 = some ch
  gain : mirrorGet y .adc 4 = mirrorGet s .adc 4
  idle : y.adcConv = { mode := .idle, pulseDone := false }

theorem goOnward_core (c : Chip) (o : Onward) (s : State) : sameCore s (goOnward c o s) ∧ (goOnward c o s).port = s.port ∧
    ∀ d, isBusy (goOnward c o s) d = isBusy s d := by
  cases o <;> cases c <;>
    exact ⟨⟨rfl, rfl, rfl, rfl, rfl, rfl, rfl⟩, rfl, fun d => by cases d <;> rfl⟩

theorem length_three {α : Type} {l : List α} (h : 4 ≤ l.length) : ∃ a b c, (l.drop 1).take 3 = [a, b, c] :=
  List.length_eq_three.mp (by simp; omega)

theorem round_of_past {u : Option (BitVec 9)} {ch : Byte} {more : List Byte} {out : List Word} {n : Nat}
    {req : List Pair} {s t : State} (hi : s.inv = true) (hch : asked req 2 = some ch) (hgain : asked req 4 = none)
    (hs : Ahead .adc n (batchRun u (ch :: more) out (.configure .adc req)) s) (ht : steps n s = .next t)
    (hpast : ∀ q, Past .adc q t) : ∃ k b y reply v, n = k + 7 ∧ Round u ch more out k s b y reply v := by
  obtain ⟨k, _, b, y1, reply, rfl, hread, ht1⟩ := pulseRead_of_past (c := .adc)
    (r := batchRun u (ch :: more) out (.configure .adc req)) hs ht fun _ _ => hpast _
  obtain ⟨b0, b1, b2, hbytes⟩ := length_three hread.long
  have hahead := hread.read
  obtain ⟨hprofile, hcal⟩ := hread.frame
  have hgain1 : mirrorGet y1 .adc 4 = mirrorGet s .adc 4 :=
    (hread.kept_read.mirrorGet ..).trans (hread.mirror_kept hi hgain)
  rw [show (reply.drop 1).take (readLen .adc) = [b0, b1, b2] from hbytes] at hahead
  obtain ⟨k, v, w, rfl, hvolts, hb, hport, hcore, hstep⟩ := volts_of_past
    (r := batchRun u (ch :: more) out (.configure .adc req)) (ch := ch) (more := more)
    (by rw [hprofile]; exact inv_profile hi) hahead rfl ht1 hpast
  obtain ⟨hcore', hport', hbusy⟩ := goOnward_core .adc
    (afterVoltage (batchRun u (ch :: more) out (.configure .adc req)) v) w
  have core := hcore.trans hcore'
  have kept := Kept.of_sameCore core
  refine ⟨k, b, _, reply, v, rfl,
    { before := hread.before
      running := hread.ready.running
      selected := hread.mirror_asked hi hch
      answered := hread.answered
      volts := by rw [hbytes]; exact hvolts.congr hprofile.symm hcal.symm hgain1.symm
      after := (steps_add 4 3 s hread.after).trans hstep
      port := hport'.trans hport
      goesOn := ?_
      ends := ?_
      profile := kept.profile.trans hprofile
      cal := kept.cal.trans hcal
      stays := ?_
      gain := (kept.mirrorGet ..).trans hgain1
      idle := ?_ }⟩
  · rintro id rest rfl
    exact ⟨hport'.trans hport, (hbusy .adc).trans hb, rfl⟩
  · rintro rfl
    exact ⟨rfl, rfl⟩
  · rw [kept.mirrorGet, hread.kept_read.mirrorGet]
    exact hread.mirror_asked hi hch
  · obtain ⟨_, _, _, hconv⟩ := core.parts
    exact (hconv .adc).trans hread.idle

/-! ### All rounds -/

/-- Round `i` of a batch that stands in `s` before its first one, with the request `req` and the entry `ch`: the batch has
`es` still to be read in `s` and the voltages `out` read, and in the end it has read the voltages `vs` besides. -/
def RoundAt (u : Option (BitVec 9)) (es : List Byte) (out vs : List Word) (s : State) (i : Nat) (req : List Pair)
    (ch : Byte) : Prop :=
  ∃ (a b : State) (reply : Frame) (v : Word),
    steps (7 * i) s = .next a ∧
    (ioOf a .adc).running = some (batchRun u (es.drop i) (out ++ vs.take i) (.configure .adc req)) ∧
    steps (7 * i + 3) s = .next b ∧
    (ioOf b .adc).running = some (batchRun u (es.drop i) (out ++ vs.take i) (.readPulse .adc)) ∧
    mirrorGet b .adc 2 = some ch ∧ replyAt b 0 = .answered reply ∧
    Volts s ch ((reply.drop 1).take 3) (.ok v) ∧ vs[i]? = some v

section
variable {u : Option (BitVec 9)} {ch : Byte} {more : List Byte} {out vs : List Word} {k : Nat} {req : List Pair}
  {s b y : State} {reply : Frame} {v : Word}

theorem Round.at_zero (h : Round u ch more out k s b y reply v)
    (hs : (ioOf s .adc).running = some (batchRun u (ch :: more) out (.configure .adc req))) :
    RoundAt u (ch :: more) out (v :: vs) s 0 req ch :=
  ⟨s, b, reply, v, rfl, by simpa using hs, h.before, by simpa using h.running, h.selected, h.answered, h.volts, rfl⟩

theorem Round.at_succ {i : Nat} {id : Byte} (h : Round u ch more out k s b y reply v)
    (hy : RoundAt u more (out ++ [v]) vs y i req id) : RoundAt u (ch :: more) out (v :: vs) s (i + 1) req id := by
  obtain ⟨a, b', reply', v', ha, hra, hb, hrb, hch, hreply, hvolts, hv⟩ := hy
  have hshift (m : Nat) : steps (7 * (i + 1) + m) s = steps (7 * i + m) y := by
    rw [show 7 * (i + 1) + m = 7 + (7 * i + m) by omega, steps_add 7 _ s h.after]
  refine ⟨a, b', reply', v', (hshift 0).trans ha, ?_, (hshift 3).trans hb, ?_, hch, hreply,
    hvolts.congr h.profile.symm h.cal.symm h.gain.symm, by simpa using hv⟩
  · simpa using hra
  · simpa using hrb

end

/-- A batch that returned: every entry had its round, and the last one's channel stays selected. -/
theorem rounds_of_returned {u : Option (BitVec 9)} {es : List Byte} {t : State} {final : List Word}
    (hrun : (ioOf t .adc).running = none) (hret : (ioOf t .adc).returned = some (okAnswer final)) :
    ∀ {ch : Byte} {out : List Word} {n : Nat} {req : List Pair} {s : State}, s.inv = true →
      asked req 2 = some ch → asked req 4 = none →
      Ahead .adc n (batchRun u (ch :: es) out (.configure .adc req)) s → steps n s = .next t →
      ∃ vs, final = out ++ vs ∧ vs.length = (ch :: es).length ∧
        (∀ i id, (ch :: es)[i]? = some id → RoundAt u (ch :: es) out vs s i (if i = 0 then req else [ask 2 id]) id) ∧
        (∀ id, (ch :: es).getLast? = some id → mirrorGet t .adc 2 = some id ∧
          t.adcConv = { mode := .idle, pulseDone := false }) := by
  induction es with
  | nil =>
    intro ch out n req s hi hch hgain hs ht
    obtain ⟨k, b, y, reply, v, rfl, h⟩ := round_of_past hi hch hgain hs ht fun _ => .of_returned hrun hret
    rw [Nat.add_comm, steps_add 7 k s h.after] at ht
    obtain ⟨hry, hrety⟩ := h.ends rfl
    obtain ⟨hio, hcore⟩ := steps_halted h.port (.inr hry) ht
    rw [hio, hrety] at hret
    refine ⟨[v], (okAnswer_inj (Option.some.inj hret)).symm, rfl, fun i id hid => ?_, fun id hid => ?_⟩
    · obtain ⟨rfl, rfl⟩ : i = 0 ∧ id = ch := by simpa [List.getElem?_singleton, eq_comm] using hid
      exact h.at_zero hs.running
    · obtain rfl : ch = id := by simpa using hid
      obtain ⟨_, _, _, hconv⟩ := hcore.parts
      exact ⟨((Kept.of_sameCore hcore).mirrorGet ..).trans h.stays, (hconv .adc).trans h.idle⟩
  | cons id es ih =>
    intro ch out n req s hi hch hgain hs ht
    obtain ⟨k, b, y, reply, v, rfl, h⟩ := round_of_past hi hch hgain hs ht fun _ => .of_returned hrun hret
    have hi' := inv_steps hi h.after
    rw [Nat.add_comm, steps_add 7 k s h.after] at ht
    obtain ⟨vs, rfl, hlen, hall, hlast⟩ := ih hi' (asked_channel id).1 (asked_channel id).2 (h.goesOn rfl) ht
    refine ⟨v :: vs, by simp, by simpa using hlen, fun i id' hid => ?_, fun id' hid => hlast id' (by simpa using hid)⟩
    cases i with
    | zero =>
      obtain rfl : ch = id' := by simpa using hid
      exact h.at_zero hs.running
    | succ i =>
      have hround := hall i id' (by simpa using hid)
      have hreq : (if i = 0 then [ask 2 id] else [ask 2 id']) = [ask 2 id'] := by
        split
        · subst i
          obtain rfl : id = id' := by simpa using hid
          rfl
        · rfl
      rw [hreq] at hround
      exact h.at_succ hround

/-! ### READ_SAMPLES_BATCH -/

section
variable {dr : BitVec 24} {channels pairs : List Byte} {u : Option (BitVec 9)} {s : State} {rest : List Event} {e : Raised}
  (hf : isFree s .adc = true) (hp : s.port = .sequence (.readSamplesBatch dr channels pairs u) :: rest)
include hf hp

theorem step_batch_empty (hl : channels ++ pairs = []) :
    step s = .next (returning .adc (okAnswer []) (atWork s .adc rest)) :=
  step_opens (o := .returns []) hp hf (by rw [openSequence, hl]; rfl)

theorem step_batch_refused (ho : openBatch dr (channels ++ pairs) u (atWork s .adc rest) = .error e) :
    step s = .next (endedBy .adc e (atWork s .adc rest)) :=
  step_refuses hp hf ho

theorem step_batch_begun {r : SeqRun}
    (ho : openBatch dr (channels ++ pairs) u (atWork s .adc rest) = .ok (.goOn r)) :
    step s = .next (goingOn .adc r (atWork s .adc rest)) :=
  step_opens (o := .goOn r) hp hf ho

end

theorem asked_firstRequest (s : State) (dr : BitVec 24) (id : Byte) :
    asked (firstRequest s dr id) 2 = some id ∧ asked (firstRequest s dr id) 4 = none :=
  ⟨congrArg some (by simp [ask]), rfl⟩

section
variable {dr : BitVec 24} {channels pairs : List Byte} {u : Option (BitVec 9)} {s t : State} {n : Nat} {final : List Word}
  (hf : isFree s .adc = true)
  (hp : s.port = .sequence (.readSamplesBatch dr channels pairs u) :: List.replicate n (.proceed .adc))
  (ht : steps (n + 1) s = .next t) (hret : (ioOf t .adc).returned = some (okAnswer final))
include hf hp ht hret

/-- A batch of nothing returns nothing. -/
theorem batch_empty (hl : channels ++ pairs = []) : final = [] := by
  rw [steps_next (step_batch_empty hf hp hl)] at ht
  obtain ⟨hio, _⟩ := steps_halted (c := .adc) (m := n) (by simp) (.inr (by simp [returning])) ht
  rw [hio, returning, ioOf_withIo_same] at hret
  exact (okAnswer_inj (Option.some.inj hret)).symm

/-- A batch that returned its voltages had begun with its first round. -/
theorem batch_begun {id : Byte} {more : List Byte} (hl : channels ++ pairs = id :: more) : step s =
    .next (goingOn .adc (batchRun u (id :: more) [] (.configure .adc (firstRequest s dr id)))
      (atWork s .adc (List.replicate n (.proceed .adc)))) := by
  rcases openBatch_cases (dr := dr) (u := u) (id := id) (more := more)
    (s := atWork s .adc (List.replicate n (.proceed .adc))) with ⟨e, he⟩ | ho
  · rw [steps_next (step_batch_refused hf hp (hl ▸ he))] at ht
    obtain ⟨hio, _⟩ := steps_halted (c := .adc) (m := n) (by simp) (.inr (by simp)) ht
    rw [hio, ioOf_endedBy] at hret
    have hstatus := okAnswer_status final
    rw [← Option.some.inj hret] at hstatus
    exact absurd hstatus (faultAnswer_status e)
  · exact step_batch_begun hf hp (hl ▸ ho)

end

/-- Settles O58: the checks before any frame, and the rounds of a batch that returned, by induction on its entries. -/
theorem batchKeepsOrder : Obligations.BatchKeepsOrder := by
  intro dr channels pairs u s hi hf q l p good rate request
  obtain ⟨hb, _⟩ := (isFree_iff _ _).mp hf
  refine ⟨fun rest hp => ⟨step_batch_empty hf hp, fun before id more hl hgood => ⟨fun h => ?_, fun f e hfield hid he => ?_⟩,
    fun hl hgood hr => ?_, fun id more hl hgood hr => ?_⟩, fun n t out hp ht hrun hret => ?_⟩
  · refine step_batch_refused hf hp (openBatch_error (s := atWork s .adc rest) ?_)
    rw [show channels ++ pairs = _ from hl, batchChecks_good (s := atWork s .adc rest) hgood]
    exact batchChecks_illegal h
  · refine step_batch_refused hf hp (openBatch_error (s := atWork s .adc rest) ?_)
    rw [show channels ++ pairs = _ from hl, batchChecks_good (s := atWork s .adc rest) hgood,
      batchChecks_legal (s := atWork s .adc rest) ⟨f, hfield, hid⟩, lookupCal_raises (s := atWork s .adc rest) he]
    rfl
  · obtain ⟨id, more, hcons⟩ := List.exists_cons_of_ne_nil hl
    refine step_batch_refused hf hp ?_
    rw [show channels ++ pairs = _ from hcons]
    exact openBatch_badRate (s := atWork s .adc rest) (batchChecks_all (hcons ▸ hgood))
      (Bool.eq_false_iff.mpr (legalRate_iff.not.mpr hr))
  · rw [hl]
    refine step_batch_begun hf hp ?_
    rw [show channels ++ pairs = _ from hl]
    exact openBatch_ok (s := atWork s .adc rest) (batchChecks_all (hl ▸ hgood)) (legalRate_iff.mpr hr)
  · cases hl : channels ++ pairs with
    | nil =>
      have hl' : l = [] := hl
      rw [hl', batch_empty hf hp ht hret hl]
      exact ⟨rfl, nofun, nofun⟩
    | cons id more =>
      have hl' : l = id :: more := hl
      have hbegun := batch_begun hf hp ht hret hl
      rw [steps_next hbegun] at ht
      obtain ⟨vs, hfinal, hlen, hall, hlast⟩ := rounds_of_returned hrun hret (stepKeepsInvariant s _ hi hbegun)
        (asked_firstRequest s dr id).1 (asked_firstRequest s dr id).2 (ahead_goingOn n hb) ht
      obtain rfl : out = vs := hfinal
      rw [hl']
      refine ⟨hlen, fun i ch hch => ?_, hlast⟩
      have hreq : (if i = 0 then firstRequest s dr id else [ask 2 ch]) = request i ch := by
        cases i with
        | zero =>
          obtain rfl : id = ch := by simpa using hch
          rfl
        | succ i => rfl
      obtain ⟨a, b, reply, v, ha, hra, hb, hrb, hsel, hreply, hvolts, hv⟩ := hreq ▸ hall i ch hch
      exact ⟨a, b, reply, v, (steps_next hbegun).trans ha, hra, (steps_next hbegun).trans hb, hrb, hsel, hreply, hvolts,
        hv⟩

end Sys2Proof.Machine
end

section
/-! Which faults an operation can raise, operation by operation: the column "raised by" of rule R271 (for the hand-sent
frames log entry 7). -/

namespace Sys2Proof.Machine
open Sys2Proof.Config

/-! ### What an answer shows of an operation's faults -/

section
variable {α : Type} {c : Chip} {P Q : Raised → State → Prop} {x : OpEnd α}

/-- Another account of what an operation's fault leaves; that its chip is busy while it waits stays as it is. -/
theorem FaultsBy.of_raised (hx : FaultsBy c P x) (h : ∀ e t, x = .raised e t → Q e t) : FaultsBy c Q x := by
  cases x with
  | done a t => trivial
  | raised e t => exact h e t rfl
  | hung t => exact hx

/-- An operation that ended shows no fault, or the code of one it raised. -/
theorem FaultsBy.code_shown {fmt : α → List Word} {t : State} (hx : FaultsBy c P x) (h : outcome fmt x = .next t)
    (hbusy : isBusy t c = false) :
    shownCode t = some 0x00 ∨ ∃ e u, P e u ∧ shownCode t = some (faultCode e.fault) := by
  rcases outcome_next h with ⟨a, u, rfl, rfl⟩ | ⟨e, u, rfl, rfl⟩ | rfl
  · exact .inl (shownCode_answer u (fmt a))
  · exact .inr ⟨e, u, hx, shownCode_deliver e u⟩
  · exact absurd (hbusy.symm.trans hx) Bool.false_ne_true

end

/-- The operation raises only what rule R271 lists for the instruction `i`; waiting for its transfer, its chip is busy. -/
def RaisesListed {α : Type} (i : Instr) (x : OpEnd α) : Prop :=
  FaultsBy (instanceOf i) (fun e _ => e.fault ∈ mayRaise i) x

/-! ### The codec -/

theorem fault_of_readFrame {p : ChipProfile} {c : ConvChip} {a : Byte} {n : Nat} {e : Raised}
    (h : readFrame p c a n = .error e) : e.fault = .invalidAddress ∨ e.fault = .invalidCount := by
  unfold readFrame at h
  split at h
  · rename_i hrun; cases h; exact checkRun_fault hrun
  · cases h

theorem fault_of_writeFrameOf {p : ChipProfile} {c : ConvChip} {a : Byte} {values : List Word} {e : Raised}
    (h : writeFrameOf p c a values = .error e) : (e.fault = .invalidAddress ∨ e.fault = .invalidCount) ∨
      (e.fault = .nonIntegerValue ∨ e.fault = .valueOutOfRange) := by
  unfold writeFrameOf at h
  split at h
  · rename_i hrun; cases h; exact .inl (checkRun_fault hrun)
  · split at h
    · rename_i hvalue; cases h; exact .inr (valueBytes_fault hvalue)
    · cases h

/-- A codec operation is a pure result, whose fault is listed. -/
theorem codec_raises {i : Instr} (hi : isCodec i = true) (s : State) :
    ∃ x, exec i s = .next (settle x s) ∧ ∀ e, x = .error e → e.fault ∈ mayRaise i := by
  cases i
  case adcAsm => exact ⟨_, rfl, nofun⟩
  case' buildRead | buildWrite | buildStart | buildStop | buildReset | buildNop | buildSelfcal | buildRdata | parseRead |
      dacFrame | dacWrupd =>
    refine ⟨_, rfl, fun e he => ?_⟩
    replace he := frameWords_error_inv he
  case buildRead => simpa [mayRaise] using fault_of_readFrame he
  case buildWrite => rcases fault_of_writeFrameOf he with (h | h) | h | h <;> simp [mayRaise, h]
  case buildStart | buildStop | buildSelfcal | buildRdata => simp [mayRaise, unitFrame_fault he]
  case buildReset | buildNop => simp [mayRaise, commandFrame_fault he]
  case parseRead => simpa [mayRaise] using parseRead_fault he
  case dacFrame | dacWrupd => simpa [mayRaise] using dacFrame_fault he
  all_goals exact absurd hi Bool.false_ne_true

/-! ### The calibration table and the conversions -/

theorem badChannel_fault (m : Chip) (ch : Nat) :
    (badChannel m ch).fault = .calibKeyMissingError ∨ (badChannel m ch).fault = .invalidDifferentialPairError := by
  unfold badChannel
  split
  · exact .inr rfl
  · exact .inl rfl

theorem calWords_error_inv {x : Except Raised CalPair} {e : Raised} (h : calWords x = .error e) : x = .error e := by
  cases x <;> cases h; rfl

/-- The DAC has no pairs, so its look-up can only miss an entry. -/
theorem lookupCal_dac_fault {s : State} {ch : Nat} {e : Raised} (h : lookupCal s .dac ch = .error e) :
    e.fault = .calibKeyMissingError := (lookupCal_fault h).resolve_right fun ⟨hdac, _⟩ => nomatch hdac

theorem fault_of_adcCode2v {p : ChipProfile} {g : Nat} {raw : Word} {e : Raised} (h : adcCode2v p g raw = .error e) :
    e.fault = .invalidConfigValue ∨ e.fault = .valueOutOfRange ∨ e.fault = .voltageOutOfRange := by
  unfold adcCode2v at h
  split at h
  · cases h; exact .inl rfl
  · split at h
    · cases h; exact .inr (.inl rfl)
    · exact .inr (.inr (voltWord_fault h))

theorem fault_of_calApply {m : Chip} {ch : Nat} {v : Word} {s : State} {e : Raised} (h : calApply m ch v s = .error e) :
    lookupCal s m ch = .error e ∨ e.fault = .voltageOutOfRange := by
  unfold calApply at h
  split at h
  · rename_i hlook; cases h; exact .inl hlook
  · exact .inr (voltWord_fault h)

theorem fault_of_dacV2code {ch : Nat} {v : Word} {s : State} {e : Raised} (h : dacV2code ch v s = .error e) :
    e.fault = .calibKeyMissingError ∨ e.fault = .calibGainZero ∨ e.fault = .voltageOutOfRange := by
  unfold dacV2code at h
  split at h
  · rename_i hlook; cases h; exact .inl (lookupCal_dac_fault hlook)
  · split at h
    · cases h; exact .inr (.inl rfl)
    · split at h
      · cases h; exact .inr (.inr rfl)
      · cases h

theorem fault_of_dacCode2v {ch : Nat} {code : Word} {s : State} {e : Raised} (h : dacCode2v ch code s = .error e) :
    e.fault = .valueOutOfRange ∨ e.fault = .calibKeyMissingError ∨ e.fault = .voltageOutOfRange := by
  unfold dacCode2v at h
  split at h
  · cases h; exact .inl rfl
  · split at h
    · rename_i hlook; cases h; exact .inr (.inl (lookupCal_dac_fault hlook))
    · exact .inr (.inr (voltWord_fault h))

theorem fault_of_tcCode2t {p : ChipProfile} {b0 b1 b2 b3 b4 : Byte} {e : Raised}
    (h : tcCode2t p b0 b1 b2 b3 b4 = .error e) : e.fault = .voltageOutOfRange := by
  simp only [tcCode2t] at h
  split at h <;> cases h
  rfl

/-- A conversion is a pure result, whose fault is listed. -/
theorem conversion_raises {i : Instr} (hi : isConversion i = true) (s : State) :
    ∃ x, exec i s = .next (settle x s) ∧ ∀ e, x = .error e → e.fault ∈ mayRaise i := by
  cases i
  case' calGet | adcCode2v | calApply | dacV2code | dacCode2v | tcCode2t => refine ⟨_, rfl, fun e he => ?_⟩
  case calGet => rcases lookupCal_fault (calWords_error_inv he) with h | ⟨_, h⟩ <;> simp [mayRaise, h]
  case calApply =>
    rcases fault_of_calApply (oneWord_error_inv he) with hlook | h
    · rcases lookupCal_fault hlook with h | ⟨_, h⟩ <;> simp [mayRaise, h]
    · simp [mayRaise, h]
  case adcCode2v => rcases fault_of_adcCode2v (oneWord_error_inv he) with h | h | h <;> simp [mayRaise, h]
  case dacV2code => rcases fault_of_dacV2code (oneWord_error_inv he) with h | h | h <;> simp [mayRaise, h]
  case dacCode2v => simpa [mayRaise] using fault_of_dacCode2v (oneWord_error_inv he)
  case tcCode2t => simp [mayRaise, fault_of_tcCode2t he]
  all_goals exact absurd hi Bool.false_ne_true

/-- A reserved operation number is a pure fault, and that one is listed. -/
theorem reserved_raises {i : Instr} (hi : isReserved i = true) (s : State) :
    ∃ x, exec i s = .next (settle x s) ∧ ∀ e, x = .error e → e.fault ∈ mayRaise i := by
  cases i
  case reservedOp00 | reservedOp1f =>
    refine ⟨.error illegalCommand, rfl, fun e he => ?_⟩
    cases he
    exact List.mem_singleton_self _
  all_goals exact absurd hi Bool.false_ne_true

theorem raisesListed_lift {α : Type} {i : Instr} {x : Except Raised α} (s : State)
    (h : ∀ e, x = .error e → e.fault ∈ mayRaise i) : RaisesListed i (lift x s) := by
  cases x with
  | ok a => trivial
  | error e => exact h e rfl

/-! ### The frames sent by hand -/

/-- A row's response is refused only by a row that reads one, and only for being short. -/
theorem ReadsAsRow.fault {i : Instr} {n : Nat} {parse : Frame → Except Raised (List Word)} {r : Frame} {e : Raised}
    (h : ReadsAsRow i n parse) (he : parse r = .error e) : wireLead i ≠ none ∧ e.fault = .shortReadError := by
  obtain ⟨hread, hshort⟩ := h r
  by_cases hr : wireLead i = none ∨ n ≤ r.length
  · rw [hread hr] at he
    cases he
  · obtain ⟨hlead, hlen⟩ := not_or.mp hr
    rw [hshort hlead (Nat.lt_of_not_le hlen)] at he
    cases he
    exact ⟨hlead, rfl⟩

/-- The table of the hand-sent rows: each may fail in its transfer, the reads also in their response. -/
theorem mayRaise_wire {i : Instr} (hw : isWire i = true) :
    .transportFault ∈ mayRaise i ∧ (wireLead i ≠ none → .shortReadError ∈ mayRaise i) := by
  cases i <;> first
    | exact absurd hw Bool.false_ne_true
    | simp [mayRaise, wireLead]

theorem encode_wire {i : Instr} (hw : isWire i = true) (p : Profiles) :
    ∃ f, encode p i = .frame (instanceOf i) f := by
  cases i <;> first
    | exact absurd hw Bool.false_ne_true
    | exact ⟨_, rfl⟩

theorem wire_raises {i : Instr} {s : State} (hw : isWire i = true) (hok : i.wellFormed s.profile = true) :
    ∃ x, exec i s = wireOutcome x ∧ RaisesListed i x := by
  obtain ⟨f, he⟩ := encode_wire hw s.profile
  obtain ⟨parse, hx, hparse⟩ := wire_sendsRow hw hok he
  obtain ⟨htransport, hshort⟩ := mayRaise_wire hw
  refine ⟨_, hx, (sendByHand_faultsBy (i := i) ..).of_raised fun e t h => ?_⟩
  rcases sendByHand_cases (instanceOf i) (.ok f) parse s with ⟨e', hf, _⟩ | ⟨_, _, ⟨_, _, _, _, _, _, hx⟩ |
    ⟨r, e', _, _, he', hx⟩ | ⟨_, _, hx⟩ | ⟨_, _, _, hx⟩⟩
  · cases hf
  all_goals
    rw [hx] at h
    cases h
  · obtain ⟨hlead, hfault⟩ := hparse.fault he'
    exact hfault ▸ hshort hlead
  · exact htransport

/-! ### The state machine's operations -/

section
variable {s t : State} {e : Raised}

theorem fault_of_startConv {c : ConvChip} {u : BitVec 9} (h : startConv c u s = .raised e t) :
    (e.fault = .incompleteConfigError ∨ e.fault = .illegalTransition ∨ e.fault = .invalidUnit) ∨
      e.fault = .transportFault := by
  rcases startConv_cases c u s with ⟨e', hx, hfault⟩ | ⟨_, _, f, _, ⟨_, _, hx⟩ | ⟨_, _, hx⟩ | ⟨_, _, _, hx⟩⟩ <;>
    rw [hx] at h <;> cases h
  · exact .inl hfault
  · exact .inr rfl

theorem fault_of_stopConv {c : ConvChip} {u : BitVec 9} (h : stopConv c u s = .raised e t) :
    (e.fault = .illegalTransition ∨ e.fault = .invalidUnit) ∨ e.fault = .transportFault := by
  rcases stopConv_cases c u s with ⟨e', hx, hfault⟩ | ⟨_, f, _, ⟨_, _, hx⟩ | ⟨_, _, hx⟩ | ⟨_, _, _, hx⟩⟩ <;>
    rw [hx] at h <;> cases h
  · exact .inl hfault
  · exact .inr rfl

theorem fault_of_readCont {c : ConvChip} {u : BitVec 9} (h : readCont c u s = .raised e t) :
    e.fault = .continuousModeError ∨ readCode c u s = .raised e t := by
  unfold readCont at h
  split at h
  · exact .inr h
  · cases h; exact .inl rfl

theorem fault_of_readPulse {c : ConvChip} {u : BitVec 9} (h : readPulse c u s = .raised e t) :
    e.fault = .illegalTransition ∨ readCode c u s = .raised e t := by
  unfold readPulse at h
  split at h
  · rcases andThen_eq_raised h with hread | ⟨_, _, _, hdone⟩
    · exact .inr hread
    · cases hdone
  · cases h; exact .inl rfl

theorem fault_of_cfgDiff {c : Chip} {req : List Pair} (h : cfgDiff c req s = .error e) :
    e.fault = .invalidConfigValue := by
  unfold cfgDiff at h
  split at h
  · rename_i hbad; cases h; exact validate_error hbad
  · cases h

theorem fault_of_cfgCommit {c : Chip} {req : List Pair} (h : cfgCommit c req s = .raised e t) :
    e.fault = .invalidConfigValue := by
  unfold cfgCommit at h
  split at h
  · rename_i hbad; cases h; exact validate_error hbad
  · cases h

theorem fault_of_cfgLoad {c : Chip} {regs : List RegByte} (h : cfgLoad c regs s = .raised e t) :
    e.fault = .invalidConfigValue := by
  unfold cfgLoad at h
  split at h
  · cases h; rfl
  · split at h <;> cases h
    rfl

theorem fault_of_setCal {m : Chip} {ch : Nat} {k : CalPair} (h : setCal m ch k s = .raised e t) :
    e.fault = .calibKeyMissingError ∨ e.fault = .invalidDifferentialPairError := by
  unfold setCal at h
  split at h <;> cases h
  exact badChannel_fault m ch

end

/-! ### Every instruction -/

/-- The instructions that are neither pure nor a hand-sent frame: those that read or write a chip's configuration, mode or
calibration. -/
theorem stateMachine_raises {i : Instr} {s : State} (hp : profilesOk s.profile = true)
    (hpure : ¬ (isCodec i = true ∨ isConversion i = true ∨ isReserved i = true)) (hw : ¬ isWire i = true) :
    ∃ (α : Type) (fmt : α → List Word) (x : OpEnd α), exec i s = outcome fmt x ∧ RaisesListed i x := by
  cases i
  case convDone c => exact ⟨_, noWords, .done () (convDone c s), rfl, trivial⟩
  case mirrorReset c => exact ⟨_, noWords, .done () (mirrorReset c s), rfl, trivial⟩
  case cfgDiff => exact ⟨_, _, _, rfl, raisesListed_lift s fun e h => by simp [mayRaise, fault_of_cfgDiff h]⟩
  case cfgCommit c req =>
    refine ⟨_, _, _, rfl, (cfgCommit_faultsBy (i := .cfgCommit c req) ..).of_raised fun e t h => ?_⟩
    simp [mayRaise, fault_of_cfgCommit h]
  case cfgLoad c regs =>
    refine ⟨_, _, _, rfl, (cfgLoad_faultsBy (i := .cfgLoad c regs) ..).of_raised fun e t h => ?_⟩
    simp [mayRaise, fault_of_cfgLoad h]
  case calSet m ch g o =>
    refine ⟨_, _, _, rfl, (setCal_faultsBy (i := .calSet m ch g o) ..).of_raised fun e t h => ?_⟩
    simpa [mayRaise] using fault_of_setCal h
  case startConv c u =>
    refine ⟨_, _, _, rfl, (startConv_faultsBy (i := .startConv c u) ..).of_raised fun e t h => ?_⟩
    rcases fault_of_startConv h with (h | h | h) | h <;> simp [mayRaise, h]
  case stopConv c u =>
    refine ⟨_, _, _, rfl, (stopConv_faultsBy (i := .stopConv c u) ..).of_raised fun e t h => ?_⟩
    rcases fault_of_stopConv h with (h | h) | h <;> simp [mayRaise, h]
  case readCont c u =>
    refine ⟨_, _, _, rfl, (readCont_faultsBy (i := .readCont c u) ..).of_raised fun e t h => ?_⟩
    rcases fault_of_readCont h with h | hread
    · simp [mayRaise, h]
    · rcases readCode_fault hread with h | h | h <;> simp [mayRaise, h]
  case readPulse c u =>
    refine ⟨_, _, _, rfl, (readPulse_faultsBy (i := .readPulse c u) ..).of_raised fun e t h => ?_⟩
    rcases fault_of_readPulse h with h | hread
    · simp [mayRaise, h]
    · rcases readCode_fault hread with h | h | h <;> simp [mayRaise, h]
  case setConfig c req =>
    refine ⟨_, _, _, rfl, (setConfig_faultsBy c req hp).of_raised fun e t h => ?_⟩
    rcases setConfig_end hp h with ⟨_, h | h | h⟩ | ⟨h, _⟩ <;> simp [mayRaise, h]
  case cfgReassert c =>
    refine ⟨_, _, _, rfl, (cfgReassert_faultsBy c hp).of_raised fun e t h => ?_⟩
    rcases cfgReassert_end hp h with ⟨_, h⟩ | ⟨h, _⟩ <;> simp [mayRaise, h]
  all_goals first
    | exact absurd rfl hw
    | exact absurd (.inl rfl) hpure
    | exact absurd (.inr (.inl rfl)) hpure
    | exact absurd (.inr (.inr rfl)) hpure

/-- Every instruction is an operation on the chip it is presented to that raises what is listed for it. -/
theorem exec_raises {i : Instr} {s : State} (hp : profilesOk s.profile = true) (hok : i.wellFormed s.profile = true) :
    ∃ (α : Type) (fmt : α → List Word) (x : OpEnd α), exec i s = outcome fmt x ∧ RaisesListed i x := by
  by_cases hpure : isCodec i = true ∨ isConversion i = true ∨ isReserved i = true
  · obtain ⟨x, hx, hraises⟩ := hpure.elim (codec_raises · s) (·.elim (conversion_raises · s) (reserved_raises · s))
    exact ⟨_, _, _, hx.trans (settle_outcome x), raisesListed_lift s hraises⟩
  by_cases hw : isWire i = true
  · obtain ⟨x, hx, hraises⟩ := wire_raises hw hok
    exact ⟨_, _, x, hx, hraises⟩
  · exact stateMachine_raises hp hpure hw

/-- Settles O37: the fault shown is one the operation raised, and it raises what is listed for it. -/
theorem raisedByTable : Obligations.RaisedByTable := by
  intro i s t hi hok h hbusy
  obtain ⟨α, fmt, x, hx, hraises⟩ := exec_raises (inv_profile hi) hok
  exact (hraises.code_shown (hx ▸ h) hbusy).imp id fun ⟨e, _, hlisted, hcode⟩ => ⟨e.fault, hlisted, hcode⟩

end Sys2Proof.Machine
end
